-- ==== Sys2Proof/Word.lean ====
section
/-! DEFINITION. The word types: everything the block stores or moves is a byte (spec/00_scope.md R6), and a
command is one 32-bit word (spec/30_encoding.md R90). -/

namespace Sys2Proof

/-- One byte: a slot, a link register, a status code, an index (10_state.md R21, R22, R27, R37). -/
abbrev Byte := BitVec 8

/-- One command word (30_encoding.md R90). -/
abbrev Word := BitVec 32

/-- A 7-bit device address (00_scope.md R6). -/
abbrev DevAddr := BitVec 7

end Sys2Proof
end

