-- ==== Sys2Proof/Syntax.lean ====
section
/-! DEFINITION. The thirteen commands (spec/30_encoding.md R93), one constructor per row of
spec/opcode_table.json, the pseudo-operation `UT_SEND_STRING` (R100) and the assembler text (R99). -/

namespace Sys2Proof

/-- The direction bit of a bus transaction: 0 = write, 1 = read (10_state.md R41). -/
inductive Direction
  | write
  | read
  deriving DecidableEq, Repr, Inhabited

/-- The value of the direction bit (10_state.md R41). -/
def Direction.bit : Direction → Nat
  | .write => 0
  | .read => 1

/-- A decoded command with its operands (R92, R93). Rates, lengths and counts are numbers whose width
`Instr.wellFormed` checks; addresses, register numbers and data are bit fields. -/
inductive Instr
  | utInit (baudRate : Nat)
  | utSendByte (b : Byte)
  | utRecvByte
  | utRecvLine (maxLen : Nat)
  | bmInit (clockRate : Nat)
  | bmStart (address : DevAddr) (direction : Direction)
  | bmWrite (byte : Byte)
  | bmReadAck
  | bmReadNack
  | bmStop
  | bmWriteReg (dev : DevAddr) (reg : Byte) (val : Byte)
  | bmReadReg (dev : DevAddr) (reg : Byte)
  | bmReadRegs (dev : DevAddr) (reg : Byte) (count : Nat)
  deriving DecidableEq, Repr, Inhabited

/-- `UT_SEND_STRING s`: no opcode of its own; it stands for one `UT_SEND_BYTE` per byte of `s`, in order,
whatever the bytes are (30_encoding.md R100, 40_serial_transport.md R124). -/
def sendString (s : List Byte) : List Instr :=
  s.map .utSendByte

/-- The mnemonic of a command (30_encoding.md R93). -/
def Instr.mnemonic : Instr → String
  | .utInit _ => "UT_INIT"
  | .utSendByte _ => "UT_SEND_BYTE"
  | .utRecvByte => "UT_RECV_BYTE"
  | .utRecvLine _ => "UT_RECV_LINE"
  | .bmInit _ => "BM_INIT"
  | .bmStart _ _ => "BM_START"
  | .bmWrite _ => "BM_WRITE"
  | .bmReadAck => "BM_READ_ACK"
  | .bmReadNack => "BM_READ_NACK"
  | .bmStop => "BM_STOP"
  | .bmWriteReg _ _ _ => "BM_WRITE_REG"
  | .bmReadReg _ _ => "BM_READ_REG"
  | .bmReadRegs _ _ _ => "BM_READ_REGS"

/-- The operands of a command as assembler text, numbers in decimal and the direction as `W` or `R`
(30_encoding.md R99). -/
def Instr.operandTexts : Instr → List String
  | .utInit r => [toString r]
  | .utSendByte b => [toString b.toNat]
  | .utRecvByte => []
  | .utRecvLine n => [toString n]
  | .bmInit r => [toString r]
  | .bmStart a .write => [toString a.toNat, "W"]
  | .bmStart a .read => [toString a.toNat, "R"]
  | .bmWrite b => [toString b.toNat]
  | .bmReadAck => []
  | .bmReadNack => []
  | .bmStop => []
  | .bmWriteReg d r v => [toString d.toNat, toString r.toNat, toString v.toNat]
  | .bmReadReg d r => [toString d.toNat, toString r.toNat]
  | .bmReadRegs d r n => [toString d.toNat, toString r.toNat, toString n]

/-- One line of assembler: the mnemonic, then its operands separated by commas (30_encoding.md R99). -/
def Instr.assembly (i : Instr) : String :=
  match i.operandTexts with
  | [] => i.mnemonic
  | ops => i.mnemonic ++ " " ++ String.intercalate ", " ops

end Sys2Proof
end

