-- ==== Sys2Proof/WellFormed.lean ====
section
/-! DEFINITION. Which commands fit their encoding: every number operand is below two to the width of its
field (spec/30_encoding.md R91, R92). Values the source calls the caller's fault (a zero count, a rate the
divisor cannot represent) ARE well formed: they decode and are refused at issue (R92, R104). -/

namespace Sys2Proof

/-- The operands fit the fields of the command's format (30_encoding.md R91, R92). -/
def Instr.wellFormed : Instr → Bool
  | .utInit baudRate => baudRate < 2 ^ 24
  | .utSendByte _ => true
  | .utRecvByte => true
  | .utRecvLine maxLen => maxLen < 2 ^ 16
  | .bmInit clockRate => clockRate < 2 ^ 24
  | .bmStart _ _ => true
  | .bmWrite _ => true
  | .bmReadAck => true
  | .bmReadNack => true
  | .bmStop => true
  | .bmWriteReg _ _ _ => true
  | .bmReadReg _ _ => true
  | .bmReadRegs _ _ count => count < 2 ^ 8

end Sys2Proof
end

