-- ==== Sys2Proof/Decode.lean ====
section
/-! DEFINITION. The decoder (spec/30_encoding.md R90 to R98): total on every 32-bit word, rejecting by name,
written as the table of R93; and after it the encoder, from the same formats (R91). -/

namespace Sys2Proof

/-- Why a word is illegal (30_encoding.md R97). -/
inductive DecodeError
  /-- `cmd[31:24]` is none of the thirteen opcodes. -/
  | unassignedOpcode (op : Byte)
  /-- A listed opcode with a non-zero must-be-zero bit. -/
  | mustBeZero (op : Byte)
  deriving DecidableEq, Repr

/-! ## The fields of a command word (R90) -/

/-- `cmd[31:24]`, the opcode. -/
def Word.opcode (w : Word) : Byte := w.extractLsb' 24 8
/-- `cmd[15:8]`. -/
def Word.fieldB (w : Word) : Byte := w.extractLsb' 8 8
/-- `cmd[7:0]`. -/
def Word.fieldC (w : Word) : Byte := w.extractLsb' 0 8
/-- `imm24 = cmd[23:0]`, zero-extended (R92). -/
def Word.imm24 (w : Word) : Nat := (w.extractLsb' 0 24).toNat
/-- `len16 = cmd[15:0]`, zero-extended (R92). -/
def Word.len16 (w : Word) : Nat := (w.extractLsb' 0 16).toNat
/-- `cmd[14:8]`, the address of format S (R91). -/
def Word.address (w : Word) : DevAddr := w.extractLsb' 8 7
/-- `cmd[22:16]`, the device of formats R2 and R3 (R91). -/
def Word.dev (w : Word) : DevAddr := w.extractLsb' 16 7
/-- `cmd[0]`, the direction of format S (R91): 0 = write, 1 = read. -/
def Word.direction (w : Word) : Direction := if w.getLsbD 0 then .read else .write

/-! ## The table of R93 -/

/-- One row of the opcode map: a word selects it iff `(w AND mask) == match` (R93), and its operands are
taken from the fields of its format (R92). -/
structure Row where
  mtch : Word
  mask : Word
  operands : Word → Instr

/-- `(w AND mask) == match` (R93). -/
def Row.selects (r : Row) (w : Word) : Bool := w &&& r.mask == r.mtch

/-- The thirteen rows (R93). -/
def rows : List Row :=
  [ ⟨0x10000000, 0xFF000000, fun w => .utInit (Word.imm24 w)⟩,
    ⟨0x11000000, 0xFFFFFF00, fun w => .utSendByte (Word.fieldC w)⟩,
    ⟨0x12000000, 0xFFFFFFFF, fun _ => .utRecvByte⟩,
    ⟨0x13000000, 0xFFFF0000, fun w => .utRecvLine (Word.len16 w)⟩,
    ⟨0x20000000, 0xFF000000, fun w => .bmInit (Word.imm24 w)⟩,
    ⟨0x21000000, 0xFFFF80FE, fun w => .bmStart (Word.address w) (Word.direction w)⟩,
    ⟨0x22000000, 0xFFFFFF00, fun w => .bmWrite (Word.fieldC w)⟩,
    ⟨0x23000000, 0xFFFFFFFF, fun _ => .bmReadAck⟩,
    ⟨0x24000000, 0xFFFFFFFF, fun _ => .bmReadNack⟩,
    ⟨0x25000000, 0xFFFFFFFF, fun _ => .bmStop⟩,
    ⟨0x28000000, 0xFF800000, fun w => .bmWriteReg (Word.dev w) (Word.fieldB w) (Word.fieldC w)⟩,
    ⟨0x29000000, 0xFF8000FF, fun w => .bmReadReg (Word.dev w) (Word.fieldB w)⟩,
    ⟨0x2A000000, 0xFF800000, fun w => .bmReadRegs (Word.dev w) (Word.fieldB w) (Word.fieldC w).toNat⟩ ]

/-- Decode: the row that selects the word, or the reason there is none (R95, R97). It reads no state. -/
def decode (w : Word) : Except DecodeError Instr :=
  match rows.find? (·.selects w) with
  | some r => .ok (r.operands w)
  | none =>
    if rows.any (fun r => Word.opcode r.mtch == Word.opcode w) then .error (.mustBeZero (Word.opcode w))
    else .error (.unassignedOpcode (Word.opcode w))

/-! ## The encoder (R91, R92) -/

/-- The opcode of a command (R93). -/
def Instr.opcode : Instr → Byte
  | .utInit _ => 0x10
  | .utSendByte _ => 0x11
  | .utRecvByte => 0x12
  | .utRecvLine _ => 0x13
  | .bmInit _ => 0x20
  | .bmStart _ _ => 0x21
  | .bmWrite _ => 0x22
  | .bmReadAck => 0x23
  | .bmReadNack => 0x24
  | .bmStop => 0x25
  | .bmWriteReg _ _ _ => 0x28
  | .bmReadReg _ _ => 0x29
  | .bmReadRegs _ _ _ => 0x2A

/-- The low 24 bits of a command: its operands in the fields of its format, the must-be-zero bits zero (R91). -/
def Instr.operandBits : Instr → BitVec 24
  | .utInit baudRate => BitVec.ofNat 24 baudRate
  | .utSendByte b => 0#16 ++ b
  | .utRecvByte => 0
  | .utRecvLine maxLen => 0#8 ++ BitVec.ofNat 16 maxLen
  | .bmInit clockRate => BitVec.ofNat 24 clockRate
  | .bmStart address direction => 0#9 ++ (address ++ BitVec.ofNat 8 direction.bit)
  | .bmWrite byte => 0#16 ++ byte
  | .bmReadAck => 0
  | .bmReadNack => 0
  | .bmStop => 0
  | .bmWriteReg dev reg val => 0#1 ++ (dev ++ (reg ++ val))
  | .bmReadReg dev reg => 0#1 ++ (dev ++ (reg ++ 0#8))
  | .bmReadRegs dev reg count => 0#1 ++ (dev ++ (reg ++ BitVec.ofNat 8 count))

/-- The command word of a command (R90 to R92). -/
def encode (i : Instr) : Word := i.opcode ++ i.operandBits

/-- The words of `UT_SEND_STRING s` (30_encoding.md R100). -/
def encodeString (s : List Byte) : List Word := (sendString s).map encode

/-- The instruction the decoder reads from a table word: `nbits` bits whose value is `w`, bit 0 the least
significant bit of the command word, the bits above `nbits` zero. A command is exactly one 32-bit word (R98). -/
def decodeTableWord (nbits w : Nat) : Option Instr :=
  if nbits ≤ 32 then (decode (BitVec.ofNat 32 (w % 2 ^ nbits))).toOption else none

end Sys2Proof
end

