-- ==== Sys2Proof/Config.lean ====
section
/-! DEFINITION. The implementation parameters (spec/00_scope.md R5), the fixed frame format (R6), and the
free values: the functions and choices the spec leaves open, as constants with no body. -/

namespace Sys2Proof

/-- What a byte arriving while `rx_ready == 1` does (`RX_OVERRUN_POLICY`, 00_scope.md R5,
41_serial_handlers_and_line.md R163). -/
inductive OverrunPolicy
  | anyLoss
  | dropNew
  | overwrite
  | hold
  deriving DecidableEq, Repr, Inhabited

/-- The parameters of one block (00_scope.md R5), under the spec's names. They are plain data that no step
changes; State carries them so that a statement about every state is about every block (log 3). -/
structure Config where
  /-- Slot count of each circular buffer; N - 1 are usable. -/
  N : Nat
  /-- The reference clock in Hz. -/
  F_REF : Nat
  /-- Expected status after a write-direction address phase. -/
  ST_SLA_W_ACK : Byte
  /-- Expected status after a read-direction address phase. -/
  ST_SLA_R_ACK : Byte
  /-- Expected status after a data-write phase. -/
  ST_DATA_W_ACK : Byte
  ECHO_ENABLE : Bool
  EDIT_ENABLE : Bool
  /-- A set, listed. -/
  BACKSPACE_CODES : List Byte
  ERASE_SEQUENCE : List Byte
  LINE_MARKER : Byte
  CR : Byte
  LF : Byte
  RX_OVERRUN_POLICY : OverrunPolicy
  deriving DecidableEq, Repr, Inhabited

namespace Config

/-- The default parameter values (00_scope.md R5). -/
def default : Config where
  N := 64
  F_REF := 16000000
  ST_SLA_W_ACK := 0x18
  ST_SLA_R_ACK := 0x40
  ST_DATA_W_ACK := 0x28
  ECHO_ENABLE := false
  EDIT_ENABLE := false
  BACKSPACE_CODES := [0x08, 0x7F]
  ERASE_SEQUENCE := [0x08, 0x20, 0x08]
  LINE_MARKER := 0x00
  CR := 0x0D
  LF := 0x0A
  RX_OVERRUN_POLICY := .anyLoss

/-- The legal ranges of 00_scope.md R5: `2 <= N <= 256` and `F_REF` positive. -/
def legal (c : Config) : Bool :=
  decide (2 ≤ c.N) && decide (c.N ≤ 256) && decide (0 < c.F_REF)

/-- The hardwired frame format `ut_frame` (00_scope.md R6, 10_state.md R29): data bits, parity, stop bits. -/
structure FrameFormat where
  dataBits : Nat
  parity : Bool
  stopBits : Nat
  deriving DecidableEq, Repr

/-- 8 data bits, no parity, 1 stop bit; not writable (10_state.md R29). -/
def utFrame : FrameFormat := ⟨8, false, 1⟩

/-- `BM_TIMING(F_REF, clock_rate)`: an uninterpreted function parameter (00_scope.md R5,
42_bus_primitives.md R190; log 13). No body: nothing can be proved of its value. -/
opaque bmTiming (fRef clockRate : Nat) : Nat

/-- `STOP_SETTLE_DELAY`: a duration of unspecified length that no rule depends on (00_scope.md R5,
42_bus_primitives.md R196; log 13). -/
opaque stopSettleDelay : Nat

end Config

/-- One choice of who moves next, with that agent's draws (00_scope.md R9, R10; 30_encoding.md R102, R103). -/
inductive Choice
  /-- HOST issues a command word (30_encoding.md R102). -/
  | issue (w : Word)
  /-- HOST performs the next micro-step of the operation in flight (00_scope.md R10). -/
  | host
  /-- The receive interrupt is taken (41_serial_handlers_and_line.md R160). -/
  | rxi
  /-- The transmit-ready interrupt is taken (41_serial_handlers_and_line.md R161). -/
  | txi
  /-- A byte arrives; `keepNew` is the free choice of `any_loss` on an overrun (41 R163; log 12). -/
  | lineArrive (v : Byte) (keepNew : Bool)
  /-- The link hardware finishes sending `tx_data` (41 R164). -/
  | lineShiftOut
  /-- BUS completes the pending phase with status `s` and data `v` (42_bus_primitives.md R199). -/
  | busComplete (s v : Byte)
  deriving DecidableEq, Repr, Inhabited

/-- The free choices of the agents and the environment where none is placed in State: the n-th draw is
unconstrained (00_scope.md R9 `draw`, R10; log 4). No body. -/
opaque Config.freeChoice : Nat → Choice

end Sys2Proof
end

