-- ==== Sys2Proof/Machine/State.lean ====
section
/-! DEFINITION. The machine's state as plain data (spec/10_state.md), the reasons a step can stop, and the
state after reset (R49). -/

namespace Sys2Proof.Machine

/-- A byte store: (address, byte) pairs, addresses strictly rising (spec/20_memory.md R60). -/
abbrev Memory := List Host.Cell

/-- The canonical form of a store: addresses strictly rising, so equal stores are equal lists. -/
abbrev Memory.wf (m : Memory) : Prop := m.Pairwise (fun c d => c.1 < d.1)

/-- The two address spaces inside the block (20_memory.md R60). -/
inductive Space
  | txbuf
  | rxbuf
  deriving DecidableEq, Repr

/-! ## Serial Transport (10_state.md R21 to R33) -/

/-- One circular buffer: its slots and its two indices (R21 to R23). A slot nothing has written is not
listed and has no value (R49; log 1). -/
structure CircBuf where
  buf : Memory
  head : Byte
  tail : Byte
  deriving DecidableEq, Repr

/-- The Serial Transport's state, one field per element of R21 to R33. -/
structure Serial where
  /-- `tx_buf`, `tx_head`, `tx_tail`. -/
  tx : CircBuf
  /-- `rx_buf`, `rx_head`, `rx_tail`. -/
  rx : CircBuf
  /-- `rx_data` (R27). -/
  rxData : Byte
  /-- `rx_ready` (R27). -/
  rxReady : Bool
  /-- `tx_data` (R28). -/
  txData : Byte
  /-- `tx_ready` (R28). -/
  txReady : Bool
  /-- `ut_baud_div` (R29). -/
  baudDiv : BitVec 16
  /-- `rx_ie` (R30). -/
  rxIe : Bool
  /-- `tx_ie` (R30). -/
  txIe : Bool
  /-- `gie`, the platform's global enable (R31). -/
  gie : Bool
  /-- `ut_inited` (R32). -/
  inited : Bool
  /-- `line_out` (R33). -/
  lineOut : List Byte
  /-- `line_in` (R33). -/
  lineIn : List Byte
  /-- `rx_sw_dropped` (R33). -/
  rxSwDropped : Nat
  /-- `rx_hw_lost` (R33). -/
  rxHwLost : Nat
  deriving DecidableEq, Repr

/-! ## Bus Master Engine (10_state.md R35 to R43) -/

/-- A bus phase handed to the hardware (R39). -/
inductive Phase
  | startCond
  | xmit (x : Byte)
  | recvAck
  | recvNack
  deriving DecidableEq, Repr

/-- The engine's protocol state (R40). -/
inductive BmState
  | idle
  | started
  | addressAcked
  | writing
  | reading
  | stopped
  deriving DecidableEq, Repr

/-- The acknowledge signal of a receive phase (R43). -/
inductive AckBit
  | ack
  | nack
  deriving DecidableEq, Repr

/-- One completed bus phase (R43). -/
inductive BusEvent
  | start (status : Byte)
  | xmit (x status : Byte)
  | recv (signal : AckBit) (data status : Byte)
  | stop
  deriving DecidableEq, Repr

/-- The Bus Master Engine's state, one field per element of R35 to R43. -/
structure BusMaster where
  /-- `bm_rate` (R35). -/
  rate : BitVec 24
  /-- `bm_timing`, an opaque word (R35). -/
  timing : Nat
  /-- `bm_data` (R36). -/
  data : Byte
  /-- `bm_status` (R37). -/
  status : Byte
  /-- `bm_done` (R38). -/
  done : Bool
  /-- `bm_pending` (R39). -/
  pending : Option Phase
  /-- `bm_state` (R40). -/
  state : BmState
  /-- `bm_dir` (R41). -/
  dir : Direction
  /-- `bm_inited` (R42). -/
  inited : Bool
  /-- `bus_trace` (R43). -/
  trace : List BusEvent
  deriving DecidableEq, Repr

/-! ## HOST sequencing (10_state.md R24, R25) -/

/-- The micro-step labels of the operations (R24), under the spec's letters: `i` UT_INIT (R120), `s`
send_byte (R122), `v` receive_byte (R125), `l` UT_RECV_LINE (R127), `n` BM_INIT (R190), `t` start (R192), `w`
write (R193), `a` and `k` the reads (R194, R195), `p` stop (R196), `h`, `g`, `q` the helpers (R231 to R233). -/
inductive Label
  | i0 | i1 | i2 | i3
  | s0 | s1 | s2 | s3
  | v0 | v1 | v2
  | l0 | l1 | l2 | l3 | l4 | l5 | l6
  | n0 | n1
  | t0 | t1 | t2 | t3 | t4
  | w0 | w1 | w2
  | a0 | a1 | a2
  | k0 | k1 | k2
  | p0 | p1
  | h0 | h1 | h2 | h3 | h4 | h5 | h6
  | g0 | g1 | g2 | g3 | g4 | g5 | g6 | g7
  | q0 | q1 | q2 | q3 | q4 | q5 | q6 | q7 | q8 | q9
  deriving DecidableEq, Repr

/-- The temporaries of the operation in flight (R25, R34). The operands are read from `host.op` (log 7). -/
structure Locals where
  /-- `i` of receive_line: the count stored. -/
  i : Nat
  /-- `c` of receive_line: the byte just received. -/
  c : Byte
  /-- `v` of receive_byte and of read_register. -/
  v : Byte
  /-- `k` of read_registers. -/
  k : Nat
  /-- `st` of the helpers: the status just returned. -/
  st : Byte
  /-- `line_buf`: the slots written so far, from slot 0 (R34; log 8). -/
  lineBuf : List Byte
  /-- `res_bytes`: the slots written so far, from slot 0 (log 8). -/
  resBytes : List Byte
  /-- What is left to send of `ERASE_SEQUENCE` in the `for e` of L4, the byte in its call first (log 8). -/
  erase : List Byte
  deriving DecidableEq, Repr

/-- No temporary written (R25; log 7). -/
def Locals.empty : Locals := ⟨0, 0, 0, 0, 0, [], [], []⟩

/-- What an operation returns (30_encoding.md R96). A part the spec leaves without a value is absent (log 15). -/
inductive Result
  | unit
  | byte (v : Byte)
  | line (n : Nat) (bytes : List Byte)
  | status (e : Byte)
  | statusByte (e : Byte) (v : Option Byte)
  | statusBytes (e : Byte) (bytes : Option (List Byte))
  deriving DecidableEq, Repr

/-- Why a use is outside the contract (30_encoding.md R104). -/
inductive Reason
  | badBaud
  | serialNotInited
  | badMaxLen
  | badClockRate
  | busNotInited
  | busSequence
  | badCount
  deriving DecidableEq, Repr

/-- A refusal recorded by an issue step (60_exceptions.md R272, R273). -/
inductive FaultRecord
  | illegalCommand (w : Word)
  | contractViolation (reason : Reason) (w : Word)
  deriving DecidableEq, Repr

/-- The HOST sequencing state (R24, R25). While a `call` is being performed, `step` is the label of the
called operation's next micro-step and `caller` the label of the line the call stands in (00_scope.md R9; log 9). -/
structure Sequencer where
  /-- `host.op`: the decoded operation in flight with its operands, or None. -/
  op : Option Instr
  /-- `host.step`: the label of the next micro-step; meaningful only while `op` is not None. -/
  step : Label
  /-- The line of the operation that a called operation is running in place of, if any. -/
  caller : Option Label
  /-- `host.locals`. -/
  locals : Locals
  /-- `host.results`. -/
  results : List (Instr × Result)
  /-- `host.faults`. -/
  faults : List FaultRecord
  deriving DecidableEq, Repr

/-! ## The reference device (95_test_vectors.md section 4) -/

/-- What the reference device has been selected for (95_test_vectors.md section 4). -/
inductive Sel
  | none
  | wFirst
  | wData
  | rd
  | off
  deriving DecidableEq, Repr

/-- SIM_DEVICE (00_scope.md R5, 95_test_vectors.md section 4): part of the BUS environment, not of the block
(10_state.md R44). Registers not listed read 0x00 (log 14). -/
structure SimDevice where
  /-- `A_dev`: the address it answers to. -/
  aDev : DevAddr
  /-- `regs[0 .. 255]`. -/
  regs : Memory
  /-- `p`: the register pointer. -/
  p : Byte
  busy : Bool
  sel : Sel
  deriving DecidableEq, Repr

/-! ## The whole state, and how a step can stop -/

/-- The state of the block and its environment (R20). -/
structure State where
  /-- The parameters; no step changes them (00_scope.md R5; log 3). -/
  cfg : Config
  ut : Serial
  bm : BusMaster
  host : Sequencer
  /-- The BUS environment: `none` is the free BUS agent, `some d` is SIM_DEVICE (log 14). -/
  device : Option SimDevice
  /-- The choices of the agents placed but not yet taken, the next one first (log 4). -/
  inputs : List Choice
  /-- How many free choices have been drawn (log 4). -/
  draws : Nat
  deriving DecidableEq, Repr

/-- Why the machine stops. All three are raised only in states no run from reset reaches. -/
inductive Fault
  /-- A slot index that is not below N (20_memory.md R60, R67): raised by the slot reads and writes of
  send_byte, receive_byte, RXI and TXI. Safe. -/
  | noSuchSlot (space : Space) (index : Nat)
  /-- A read of a slot nothing has written (93_implementation_defined.md U5, 10_state.md R50): raised by
  receive_byte V1 and by TXI. Safe. -/
  | unwrittenSlot (space : Space) (index : Nat)
  /-- `host.step` is no label of the operation in flight, so no rule gives a micro-step (10_state.md R24):
  raised by every meaning. Safe (log 16). -/
  | noMicroStep
  deriving DecidableEq, Repr

/-- Why a meaning is refused. -/
inductive Refusal
  /-- The command has no meaning yet: raised by `exec` alone, for no command of this model. Safe. -/
  | notModelled (mnemonic : String)
  deriving DecidableEq, Repr

/-- The outcome of a step of this machine. -/
abbrev Outcome := Host.Outcome State Fault Refusal

/-! ## Reset (10_state.md R49, 70_reset_and_hazards.md R300 to R302) -/

/-- An empty buffer whose slots have never been written (R49). -/
def CircBuf.reset : CircBuf := ⟨[], 0, 0⟩

/-- The Serial Transport after reset (R49). `rx_data`, `tx_data`, `ut_baud_div` and `gie` are unspecified
there: zero is this model's DESIGN CHOICE (log 2). -/
def Serial.reset : Serial where
  tx := CircBuf.reset
  rx := CircBuf.reset
  rxData := 0
  rxReady := false
  txData := 0
  txReady := true
  baudDiv := 0
  rxIe := false
  txIe := false
  gie := false
  inited := false
  lineOut := []
  lineIn := []
  rxSwDropped := 0
  rxHwLost := 0

/-- The Bus Master Engine after reset (R49). `bm_rate`, `bm_timing`, `bm_data`, `bm_status` and `bm_dir` are
unspecified there: zero is this model's DESIGN CHOICE (log 2). -/
def BusMaster.reset : BusMaster where
  rate := 0
  timing := 0
  data := 0
  status := 0
  done := false
  pending := none
  state := .idle
  dir := .write
  inited := false
  trace := []

/-- HOST after reset: idle, in main context, nothing recorded (R49). `host.step` is meaningless while `host.op`
is None; I0 is a DESIGN CHOICE (log 2). -/
def Sequencer.reset : Sequencer := ⟨none, .i0, none, Locals.empty, [], []⟩

/-- The block with the parameters `cfg` after reset (00_scope.md R5, R49, R300), `device` its BUS environment: none
the free BUS agent, or SIM_DEVICE (log 14); no choice is placed (log 4). -/
def State.resetWith (cfg : Config) (device : Option SimDevice) : State where
  cfg := cfg
  ut := Serial.reset
  bm := BusMaster.reset
  host := Sequencer.reset
  device := device
  inputs := []
  draws := 0

/-- The machine after reset, at the default parameters (R5; log 3) and with the free BUS agent (log 14). -/
def State.reset : State := State.resetWith Config.default none

end Sys2Proof.Machine
end

