-- ==== Sys2Proof/Machine/Operands.lean ====
section
/-! DEFINITION. Operand and index arithmetic (spec/00_scope.md R11): index advance, live count, bit-rate
divisor, address byte; and the contract checks made on operands and state at issue (spec/30_encoding.md R104). -/

namespace Sys2Proof.Machine

/-- `(i + 1) mod N` (00_scope.md R11 a). -/
def nextIndex (N : Nat) (i : Byte) : Byte := BitVec.ofNat 8 ((i.toNat + 1) % N)

/-- `(head - tail) mod N` on indices below N (00_scope.md R11 c). -/
def liveCount (N : Nat) (head tail : Byte) : Nat := (head.toNat + N - tail.toNat) % N

/-- `F_REF div (16 * baud_rate)` (00_scope.md R11 d). -/
def baudQuotient (fRef baudRate : Nat) : Nat := fRef / (16 * baudRate)

/-- The address byte `(address * 2) + direction` (00_scope.md R11 e, 42_bus_primitives.md R192). -/
def addressByte (address : DevAddr) (direction : Direction) : Byte :=
  BitVec.ofNat 8 (address.toNat * 2 + direction.bit)

/-! ## Contract checks (30_encoding.md R104)

Each is the list of the rows of R104 for the command, in the order of the table; the first that applies names
the reason (60_exceptions.md R267). -/

/-- The reason of the first row whose condition holds (60_exceptions.md R267). -/
def firstRefusal : List (Bool × Reason) → Option Reason
  | [] => none
  | (refused, reason) :: rest => if refused then some reason else firstRefusal rest

/-- `UT_INIT`: `BadBaud` (R104 row 1). -/
def checkUtInit (baudRate : Nat) (s : State) : Option Reason :=
  firstRefusal
    [(baudRate == 0 || baudQuotient s.cfg.F_REF baudRate == 0
        || decide (baudQuotient s.cfg.F_REF baudRate - 1 > 65535), .badBaud)]

/-- `UT_SEND_BYTE`, `UT_RECV_BYTE`: `SerialNotInited` (R104 row 2). -/
def checkSerial (s : State) : Option Reason :=
  firstRefusal [(!s.ut.inited, .serialNotInited)]

/-- `UT_RECV_LINE`: `SerialNotInited`, then `BadMaxLen` (R104 rows 2, 3). -/
def checkRecvLine (maxLen : Nat) (s : State) : Option Reason :=
  firstRefusal [(!s.ut.inited, .serialNotInited), (maxLen == 0, .badMaxLen)]

/-- `BM_INIT`: `BadClockRate`, then `BusSequence` (R104 rows 4, 5). -/
def checkBmInit (clockRate : Nat) (s : State) : Option Reason :=
  firstRefusal [(clockRate == 0, .badClockRate), (s.bm.state != .idle, .busSequence)]

/-- `bm_state` is in mid-transaction: `AddressAcked`, `Writing` or `Reading` (R104, 42_bus_primitives.md R205). -/
def midTransaction (s : State) : Bool :=
  s.bm.state == .addressAcked || s.bm.state == .writing || s.bm.state == .reading

/-- `BM_START`: `BusNotInited`, then `BusSequence` (R104 rows 6, 7). -/
def checkStart (s : State) : Option Reason :=
  firstRefusal
    [(!s.bm.inited, .busNotInited), (!(s.bm.state == .idle || midTransaction s), .busSequence)]

/-- `BM_WRITE` (R104 rows 6, 8). -/
def checkWrite (s : State) : Option Reason :=
  firstRefusal
    [(!s.bm.inited, .busNotInited),
     (!((s.bm.state == .addressAcked || s.bm.state == .writing) && s.bm.dir == .write), .busSequence)]

/-- `BM_READ_ACK`, `BM_READ_NACK` (R104 rows 6, 9). -/
def checkRead (s : State) : Option Reason :=
  firstRefusal
    [(!s.bm.inited, .busNotInited),
     (!((s.bm.state == .addressAcked || s.bm.state == .reading) && s.bm.dir == .read), .busSequence)]

/-- `BM_STOP` (R104 rows 6, 10). -/
def checkStop (s : State) : Option Reason :=
  firstRefusal [(!s.bm.inited, .busNotInited), (!midTransaction s, .busSequence)]

/-- `BM_WRITE_REG`, `BM_READ_REG` (R104 rows 6, 11). -/
def checkHelper (s : State) : Option Reason :=
  firstRefusal [(!s.bm.inited, .busNotInited), (s.bm.state != .idle, .busSequence)]

/-- `BM_READ_REGS` (R104 rows 6, 11, 12). -/
def checkReadRegs (count : Nat) (s : State) : Option Reason :=
  firstRefusal
    [(!s.bm.inited, .busNotInited), (s.bm.state != .idle, .busSequence), (count == 0, .badCount)]

end Sys2Proof.Machine
end

