-- ==== Sys2Proof/Machine/Flags.lean ====
section
/-! DEFINITION. The derived conditions, none of them stored (spec/10_state.md R23, R45, R47): empty and full
buffers, pending and takeable interrupts (spec/60_exceptions.md R263), holds (R282), quiescence
(spec/70_reset_and_hazards.md R323). -/

namespace Sys2Proof.Machine

/-- `empty(buf) := head == tail` (10_state.md R23). -/
def CircBuf.empty (r : CircBuf) : Bool := r.head == r.tail

/-- `full(buf) := (head + 1) mod N == tail` (10_state.md R23). -/
def CircBuf.full (N : Nat) (r : CircBuf) : Bool := nextIndex N r.head == r.tail

/-- The two interrupt sources (60_exceptions.md R261). -/
inductive Irq
  | rx
  | tx
  deriving DecidableEq, Repr

/-- `pending(IRQ_RX) := rx_ready == 1`; `pending(IRQ_TX) := tx_ready == 1` (60_exceptions.md R263). -/
def irqPending : Irq → State → Bool
  | .rx, s => s.ut.rxReady
  | .tx, s => s.ut.txReady

/-- `enabled(IRQ_RX) := rx_ie == 1`; `enabled(IRQ_TX) := tx_ie == 1` (60_exceptions.md R263). -/
def irqEnabled : Irq → State → Bool
  | .rx, s => s.ut.rxIe
  | .tx, s => s.ut.txIe

/-- A source can be taken iff it is pending, enabled, and `gie == 1` (60_exceptions.md R263). -/
def takeable (q : Irq) (s : State) : Bool := irqPending q s && irqEnabled q s && s.ut.gie

/-- The micro-step at `host.step` is a hold whose condition is false (60_exceptions.md R282): S0 with the TX
buffer full, V0 with the RX buffer empty, T1, T3, W1, A1, K1 with `bm_done == 0`. -/
def held (s : State) : Bool :=
  match s.host.step with
  | .s0 => s.ut.tx.full s.cfg.N
  | .v0 => s.ut.rx.empty
  | .t1 | .t3 | .w1 | .a1 | .k1 => !s.bm.done
  | _ => false

/-- `LineArrive` is enabled iff `ut_inited == 1` and, under `hold`, `rx_ready == 0`
(41_serial_handlers_and_line.md R163). -/
def lineMayArrive (s : State) : Bool :=
  s.ut.inited && !(s.cfg.RX_OVERRUN_POLICY == .hold && s.ut.rxReady)

/-- The agent of the choice can take that step now: Issue iff HOST is idle (30_encoding.md R102), a HOST
micro-step iff an operation is in flight and not held (00_scope.md R9), a handler iff its source can be taken
(60_exceptions.md R263), `LineArrive` as R163 of file 41, `LineShiftOut` iff `tx_ready == 0` (R164 there),
`BusComplete` iff a phase is pending (42_bus_primitives.md R199). -/
def enabled : Choice → State → Bool
  | .issue _, s => s.host.op.isNone
  | .host, s => s.host.op.isSome && !held s
  | .rxi, s => takeable .rx s
  | .txi, s => takeable .tx s
  | .lineArrive _ _, s => lineMayArrive s
  | .lineShiftOut, s => !s.ut.txReady
  | .busComplete _ _, s => s.bm.pending.isSome

/-- Quiescent (70_reset_and_hazards.md R323). -/
def quiescent (s : State) : Bool :=
  s.host.op.isNone && s.ut.tx.empty && s.ut.txReady && !s.ut.txIe && !s.ut.rxReady
    && s.bm.pending.isNone

end Sys2Proof.Machine
end

