-- ==== Sys2Proof/Machine/Ops.lean ====
section
/-! DEFINITION. The named operations over the state: slot reads and writes (spec/20_memory.md R60), the two
buffer primitives (R63, R64), HOST sequencing (spec/00_scope.md R9), taking the two issue-time exceptions
(spec/60_exceptions.md R272, R273), and the issue step's shared form (spec/30_encoding.md R102). -/

namespace Sys2Proof.Machine

/-! ## Stores -/

/-- The byte listed at an address, if any. -/
def Memory.read? : Memory → Nat → Option Byte
  | [], _ => none
  | (b, x) :: m, a => if a = b then some x else Memory.read? m a

/-- List `v` at address `a`, keeping the addresses strictly rising. -/
def Memory.write : Memory → Nat → Byte → Memory
  | [], a, v => [(a, v)]
  | (b, x) :: m, a, v =>
    if a < b then (a, v) :: (b, x) :: m
    else if a = b then (a, v) :: m
    else (b, x) :: Memory.write m a v

/-- List nothing at address `a`. -/
def Memory.erase (m : Memory) (a : Nat) : Memory := m.filter (fun c => c.1 != a)

/-- `MemRead(space:i, 1)` on a buffer of N slots (20_memory.md R60): the slot must exist and have been written
(log 1). -/
def Memory.readSlot (m : Memory) (sp : Space) (N : Nat) (i : Byte) : Except Fault Byte :=
  if i.toNat < N then
    match m.read? i.toNat with
    | some v => .ok v
    | none => .error (.unwrittenSlot sp i.toNat)
  else .error (.noSuchSlot sp i.toNat)

/-- `MemWrite(space:i, 1, v)` on a buffer of N slots (20_memory.md R60). -/
def Memory.writeSlot (m : Memory) (sp : Space) (N : Nat) (i v : Byte) : Except Fault Memory :=
  if i.toNat < N then .ok (m.write i.toNat v) else .error (.noSuchSlot sp i.toNat)

/-- The byte a register of the reference device holds; one not listed holds 0x00 (95_test_vectors.md section 4;
log 14). -/
def Memory.readReg (m : Memory) (r : Byte) : Byte := (m.read? r.toNat).getD 0

/-- Write a register of the reference device, keeping the canonical form (0x00 is not listed). -/
def Memory.writeReg (m : Memory) (r v : Byte) : Memory :=
  if v = 0 then m.erase r.toNat else m.write r.toNat v

/-! ## Circular buffers (20_memory.md R63, R64) -/

/-- The slot write of an enqueue: `MemWrite(buf:head, 1, v)` (R63). -/
def CircBuf.store (r : CircBuf) (sp : Space) (N : Nat) (v : Byte) : Except Fault CircBuf :=
  match r.buf.writeSlot sp N r.head v with
  | .ok buf => .ok { r with buf := buf }
  | .error f => .error f

/-- The publication of an enqueue: `head <- (head + 1) mod N` (R63). -/
def CircBuf.publish (r : CircBuf) (N : Nat) : CircBuf := { r with head := nextIndex N r.head }

/-- The slot read of a dequeue: `MemRead(buf:tail, 1)` (R64). -/
def CircBuf.fetch (r : CircBuf) (sp : Space) (N : Nat) : Except Fault Byte := r.buf.readSlot sp N r.tail

/-- The publication of a dequeue: `tail <- (tail + 1) mod N` (R64). -/
def CircBuf.release (r : CircBuf) (N : Nat) : CircBuf := { r with tail := nextIndex N r.tail }

/-- The live slots' contents, oldest first (10_state.md R23). -/
def CircBuf.liveSlots (N : Nat) (r : CircBuf) : List (Option Byte) :=
  (List.range (liveCount N r.head r.tail)).map fun j => r.buf.read? ((r.tail.toNat + j) % N)

/-! ## Updates of one unit of the state -/

/-- Replace the Serial Transport's state. -/
def State.withUt (s : State) (u : Serial) : State := { s with ut := u }
/-- Replace the Bus Master Engine's state. -/
def State.withBm (s : State) (b : BusMaster) : State := { s with bm := b }
/-- Replace the HOST sequencing state. -/
def State.withHost (s : State) (h : Sequencer) : State := { s with host := h }
/-- Replace the BUS environment. -/
def State.withDevice (s : State) (d : Option SimDevice) : State := { s with device := d }
/-- Replace the choices still to come. -/
def State.withInputs (s : State) (cs : List Choice) : State := { s with inputs := cs }
/-- Replace HOST's temporaries (10_state.md R25). -/
def State.withLocals (s : State) (l : Locals) : State := s.withHost { s.host with locals := l }

/-! ## HOST sequencing (00_scope.md R9, 10_state.md R24, R25) -/

/-- `pc <- L` at the operation's own level: no called operation is running (00_scope.md R9). -/
def State.goto (s : State) (l : Label) : State := s.withHost { s.host with step := l, caller := none }

/-- The next label of the operation whose micro-step this is, called or not (10_state.md R24 `Advance`). -/
def State.advance (s : State) (l : Label) : State := s.withHost { s.host with step := l }

/-- `call f(args)` in line `line`: the micro-steps of `f`, from its first, run in place (00_scope.md R9). -/
def State.call (s : State) (line first : Label) : State :=
  s.withHost { s.host with step := first, caller := some line }

/-- `return v` of the command in flight: `host.op <- None`, `(op, v)` appended to `host.results`, the
temporaries discarded (00_scope.md R9, 10_state.md R25). -/
def State.ret (s : State) (i : Instr) (r : Result) : State :=
  s.withHost { s.host with
    op := none
    caller := none
    locals := Locals.empty
    results := s.host.results ++ [(i, r)] }

/-! ## Taking an exception (60_exceptions.md R272, R273) -/

/-- `raise`: the refusal is appended to `host.faults`; no operation starts and no other state changes
(00_scope.md R9, 60_exceptions.md R272, R273). There is nothing to return from: the next issue finds HOST idle. -/
def State.raise (s : State) (f : FaultRecord) : State :=
  s.withHost { s.host with faults := s.host.faults ++ [f] }

/-! ## The issue step's shared form (30_encoding.md R102) -/

/-- The operation starts: `host.op <- d`, `host.step <-` its first label (in the line `line` when that line
begins with a call), temporaries fresh (R102; log 7, log 9). -/
def State.begin (s : State) (i : Instr) (line : Option Label) (first : Label) : State :=
  s.withHost { s.host with op := some i, step := first, caller := line, locals := Locals.empty }

/-- One HOST transition of command `i`: with HOST idle it is the issue of `i` (R102: the contract check, then
the start); with `i` in flight it is the next micro-step; with another command in flight Issue is not enabled
and nothing happens (R102, 10_state.md R24; log 9). -/
def runCommand (i : Instr) (check : State → Option Reason) (line : Option Label) (first : Label)
    (micro : State → Outcome) (s : State) : Outcome :=
  match s.host.op with
  | none =>
    match check s with
    | some reason => .next (s.raise (.contractViolation reason (encode i)))
    | none => .next (s.begin i line first)
  | some j => if j = i then micro s else .next s

/-! ## Buffers local to HOST -/

/-- `x[i] <- v` on a local byte array whose slots `0 .. length - 1` are written (10_state.md R25, R34; log 8). -/
def storeAt (x : List Byte) (i : Nat) (v : Byte) : List Byte := x.take i ++ v :: x.drop (i + 1)

/-! ## Issuing a bus phase (42_bus_primitives.md R198) -/

/-- `BusIssue(k)`: `bm_done <- 0 ; bm_pending <- k` (R198). -/
def BusMaster.issue (b : BusMaster) (k : Phase) : BusMaster := { b with done := false, pending := some k }

end Sys2Proof.Machine
end

