-- ==== Sys2Proof/Machine/SimDevice.lean ====
section
/-! DEFINITION. The reference simulated device SIM_DEVICE (spec/95_test_vectors.md section 4): what it answers to
each bus phase and how it changes, row by row of its table. -/

namespace Sys2Proof.Machine

/-- The store of registers given one by one, from register `k` on: one holding 0x00 is not listed. -/
def registerCells : List Byte → Nat → Memory
  | [], _ => []
  | v :: vs, k => if v = 0 then registerCells vs (k + 1) else (k, v) :: registerCells vs (k + 1)

/-- The store of the 256 registers. -/
def registerStore (regs : Vector Byte 256) : Memory := registerCells regs.toList 0

/-- SIM_DEVICE with its two parameters, the address `A_dev` and the initial contents of its registers, in its
initial state: `p` 0, not busy, `sel` None (00_scope.md R5, 95_test_vectors.md section 4). -/
def SimDevice.initial (aDev : DevAddr) (regs : Vector Byte 256) : SimDevice where
  aDev := aDev
  regs := registerStore regs
  p := 0
  busy := false
  sel := .none

/-- The device's answer to a phase: status, data (0 where the table gives none; the engine reads data only from
receive phases, spec/42_bus_primitives.md R199), and the device after it. -/
structure Answer where
  s : Byte
  v : Byte
  dev : SimDevice
  deriving DecidableEq, Repr

/-- `p <- (p + 1) mod 256`. -/
def SimDevice.bump (d : SimDevice) : SimDevice := { d with p := d.p + 1 }

/-- The rows for `StartCond`. -/
def SimDevice.onStart (d : SimDevice) : Answer :=
  if d.busy then ⟨0x10, 0, { d with sel := .none }⟩
  else ⟨0x08, 0, { d with busy := true, sel := .none }⟩

/-- The rows for `Xmit(x)` with `sel == None`: an address byte. -/
def SimDevice.onAddress (cfg : Config) (d : SimDevice) (x : Byte) : Answer :=
  if x.toNat / 2 = d.aDev.toNat then
    if x.toNat % 2 = 0 then ⟨cfg.ST_SLA_W_ACK, 0, { d with sel := .wFirst }⟩
    else ⟨cfg.ST_SLA_R_ACK, 0, { d with sel := .rd }⟩
  else
    if x.toNat % 2 = 0 then ⟨0x20, 0, { d with sel := .off }⟩
    else ⟨0x48, 0, { d with sel := .off }⟩

/-- The rows for `Xmit(x)`. -/
def SimDevice.onXmit (cfg : Config) (d : SimDevice) (x : Byte) : Answer :=
  match d.sel with
  | .none => d.onAddress cfg x
  | .wFirst => ⟨cfg.ST_DATA_W_ACK, 0, { d with p := x, sel := .wData }⟩
  | .wData => ⟨cfg.ST_DATA_W_ACK, 0, { d with regs := d.regs.writeReg d.p x, p := d.p + 1 }⟩
  | .rd => ⟨0x30, 0, d⟩
  | .off => ⟨0x30, 0, d⟩

/-- The rows for `RecvAck`. -/
def SimDevice.onRecvAck (d : SimDevice) : Answer :=
  if d.sel = .rd then ⟨0x50, d.regs.readReg d.p, d.bump⟩ else ⟨0x50, 0xFF, d⟩

/-- The rows for `RecvNack`. -/
def SimDevice.onRecvNack (d : SimDevice) : Answer :=
  if d.sel = .rd then ⟨0x58, d.regs.readReg d.p, { d.bump with sel := .off }⟩ else ⟨0x58, 0xFF, d⟩

/-- The table of 95_test_vectors.md section 4. -/
def SimDevice.answer (cfg : Config) (d : SimDevice) : Phase → Answer
  | .startCond => d.onStart
  | .xmit x => d.onXmit cfg x
  | .recvAck => d.onRecvAck
  | .recvNack => d.onRecvNack

/-- When the engine appends `Stop` (95_test_vectors.md section 4): `busy <- false`, `sel <- None`. -/
def SimDevice.onStop (d : SimDevice) : SimDevice := { d with busy := false, sel := .none }

end Sys2Proof.Machine
end

