-- ==== Sys2Proof/Machine/BusAgent.lean ====
section
/-! DEFINITION. The BUS agent's step `BusComplete` (spec/42_bus_primitives.md R199): free draws, or the answers of the
reference device when one is attached (spec/95_test_vectors.md section 4; log 14). -/

namespace Sys2Proof.Machine

/-- The event a completed phase leaves in the trace (R199). -/
def Phase.event (k : Phase) (s v : Byte) : BusEvent :=
  match k with
  | .startCond => .start s
  | .xmit x => .xmit x s
  | .recvAck => .recv .ack v s
  | .recvNack => .recv .nack v s

/-- `bm_data` after the completion: a receive phase writes it (R199). -/
def Phase.dataAfter (k : Phase) (v old : Byte) : Byte :=
  match k with
  | .startCond => old
  | .xmit _ => old
  | .recvAck => v
  | .recvNack => v

/-- The engine's registers after `BusComplete(s, v)` of phase `k` (R199). -/
def BusMaster.complete (b : BusMaster) (k : Phase) (s v : Byte) : BusMaster :=
  { b with
    data := k.dataAfter v b.data
    trace := b.trace ++ [k.event s v]
    status := s
    pending := none
    done := true }

/-- `BusComplete(s, v)` (R199). With the reference device attached its answer takes the place of the draws. With
no phase pending the step is not enabled. -/
def busComplete (st v : Byte) (s : State) : State :=
  match s.bm.pending with
  | none => s
  | some k =>
    match s.device with
    | none => s.withBm (s.bm.complete k st v)
    | some d =>
      let a := d.answer s.cfg k
      (s.withBm (s.bm.complete k a.s a.v)).withDevice (some a.dev)

end Sys2Proof.Machine
end

