-- ==== Sys2Proof/Machine/BusPrimitives.lean ====
section
/-! DEFINITION. The Bus Master Engine primitives (spec/42_bus_primitives.md), micro-step by micro-step. A primitive
that the helpers call takes as `ret` what its caller does with the return (spec/00_scope.md R9 `call`). -/

namespace Sys2Proof.Machine

/-! ## BM_INIT (R190) -/

/-- N0: `bm_rate <- clock_rate ; bm_timing <- BM_TIMING(F_REF, clock_rate)` (R190; log 13). -/
def bmInitTiming (clockRate : Nat) (s : State) : State :=
  s.withBm { s.bm with
    rate := BitVec.ofNat 24 clockRate
    timing := Config.bmTiming s.cfg.F_REF clockRate }

/-- The micro-steps N0, N1 of `BM_INIT` (R190). -/
def bmInitMicro (clockRate : Nat) (s : State) : Outcome :=
  match s.host.step with
  | .n0 => .next ((bmInitTiming clockRate s).advance .n1)
  | .n1 => .next ((s.withBm { s.bm with inited := true }).ret (.bmInit clockRate) .unit)
  | _ => .fault .noMicroStep

/-- `BM_INIT clock_rate` (R190). -/
def execBmInit (clockRate : Nat) (s : State) : Outcome :=
  runCommand (.bmInit clockRate) (checkBmInit clockRate) none .n0 (bmInitMicro clockRate) s

/-! ## The busy-wait on completion (R197) -/

/-- `hold until bm_done == 1`, then the next label (R197). It changes nothing else. -/
def awaitDone (l : Label) (s : State) : State := if held s then s else s.advance l

/-! ## start (R192) -/

/-- T0: `bm_dir <- direction ; bm_state <- Started ; BusIssue(StartCond)` (R192). -/
def startCondition (direction : Direction) (s : State) : State :=
  s.withBm ({ s.bm with dir := direction, state := .started }.issue .startCond)

/-- T2: `bm_data <- address * 2 + direction ; BusIssue(Xmit(bm_data))` (R192). -/
def startAddress (address : DevAddr) (direction : Direction) (s : State) : State :=
  s.withBm ({ s.bm with data := addressByte address direction }.issue
    (.xmit (addressByte address direction)))

/-- The micro-steps T0 .. T4 of `start(address, direction)`; it returns the status latched after the address
phase (R192). -/
def startMicro (address : DevAddr) (direction : Direction) (ret : Byte → State → State) (s : State) :
    Outcome :=
  match s.host.step with
  | .t0 => .next ((startCondition direction s).advance .t1)
  | .t1 => .next (awaitDone .t2 s)
  | .t2 => .next ((startAddress address direction s).advance .t3)
  | .t3 => .next (awaitDone .t4 s)
  | .t4 => .next (ret s.bm.status (s.withBm { s.bm with state := .addressAcked }))
  | _ => .fault .noMicroStep

/-- `BM_START address, direction` (R192). -/
def execBmStart (address : DevAddr) (direction : Direction) (s : State) : Outcome :=
  runCommand (.bmStart address direction) checkStart none .t0
    (startMicro address direction fun st t => t.ret (.bmStart address direction) (.status st)) s

/-! ## write (R193) -/

/-- W0: `bm_data <- byte ; bm_state <- Writing ; BusIssue(Xmit(byte))` (R193). -/
def writeByte (byte : Byte) (s : State) : State :=
  s.withBm ({ s.bm with data := byte, state := .writing }.issue (.xmit byte))

/-- The micro-steps W0 .. W2 of `write(byte)` (R193). -/
def writeMicro (byte : Byte) (ret : Byte → State → State) (s : State) : Outcome :=
  match s.host.step with
  | .w0 => .next ((writeByte byte s).advance .w1)
  | .w1 => .next (awaitDone .w2 s)
  | .w2 => .next (ret s.bm.status s)
  | _ => .fault .noMicroStep

/-- `BM_WRITE byte` (R193). -/
def execBmWrite (byte : Byte) (s : State) : Outcome :=
  runCommand (.bmWrite byte) checkWrite none .w0
    (writeMicro byte fun st t => t.ret (.bmWrite byte) (.status st)) s

/-! ## read_with_ack and read_with_no_ack (R194, R195) -/

/-- A0, K0: `bm_state <- Reading ; BusIssue(k)` (R194, R195). -/
def readIssue (k : Phase) (s : State) : State := s.withBm ({ s.bm with state := .reading }.issue k)

/-- The micro-steps A0 .. A2 of `read_with_ack()` (R194): the byte returned is `bm_data`. -/
def readAckMicro (ret : Byte → State → State) (s : State) : Outcome :=
  match s.host.step with
  | .a0 => .next ((readIssue .recvAck s).advance .a1)
  | .a1 => .next (awaitDone .a2 s)
  | .a2 => .next (ret s.bm.data s)
  | _ => .fault .noMicroStep

/-- The micro-steps K0 .. K2 of `read_with_no_ack()` (R195). -/
def readNackMicro (ret : Byte → State → State) (s : State) : Outcome :=
  match s.host.step with
  | .k0 => .next ((readIssue .recvNack s).advance .k1)
  | .k1 => .next (awaitDone .k2 s)
  | .k2 => .next (ret s.bm.data s)
  | _ => .fault .noMicroStep

/-- `BM_READ_ACK` (R194). -/
def execBmReadAck (s : State) : Outcome :=
  runCommand .bmReadAck checkRead none .a0 (readAckMicro fun v t => t.ret .bmReadAck (.byte v)) s

/-- `BM_READ_NACK` (R195). -/
def execBmReadNack (s : State) : Outcome :=
  runCommand .bmReadNack checkRead none .k0 (readNackMicro fun v t => t.ret .bmReadNack (.byte v)) s

/-! ## stop (R196) -/

/-- P0: `bm_state <- Stopped`, `Stop` appended to the trace; the reference device sees it (R196,
95_test_vectors.md section 4). -/
def stopCondition (s : State) : State :=
  (s.withBm { s.bm with state := .stopped, trace := s.bm.trace ++ [.stop] }).withDevice
    (s.device.map SimDevice.onStop)

/-- P1: `bm_state <- Idle`, after the settling delay, which elapses by itself (R196; log 19). -/
def stopSettled (s : State) : State := s.withBm { s.bm with state := .idle }

/-- The micro-steps P0, P1 of `stop()` (R196). -/
def stopMicro (ret : State → State) (s : State) : Outcome :=
  match s.host.step with
  | .p0 => .next ((stopCondition s).advance .p1)
  | .p1 => .next (ret (stopSettled s))
  | _ => .fault .noMicroStep

/-- `BM_STOP` (R196). -/
def execBmStop (s : State) : Outcome :=
  runCommand .bmStop checkStop none .p0 (stopMicro fun t => t.ret .bmStop .unit) s

end Sys2Proof.Machine
end

