-- ==== Sys2Proof/Machine/BusHelpers.lean ====
section
/-! DEFINITION. The Bus Master Engine register helpers (spec/43_bus_helpers.md), each a sequence of calls of the
primitives with abort on the first status that differs from its expected literal (R230). -/

namespace Sys2Proof.Machine

/-- `st <- call p(...)`, then the line `l` that checks it (R231 to R233). -/
def statusThen (l : Label) (st : Byte) (s : State) : State :=
  (s.withLocals { s.host.locals with st := st }).goto l

/-- A check line: on the expected literal the operation goes on to line `next`, whose call begins at `first`; on
any other status, equality of all 8 bits, it calls `stop()` in the check's own line (R230). -/
def checkStatus (expected : Byte) (line next first : Label) (s : State) : State :=
  if s.host.locals.st = expected then s.call next first else s.call line .p0

/-! ## write_register (R231) -/

/-- The micro-steps H0 .. H6 (R231). -/
def writeRegMicro (dev : DevAddr) (reg val : Byte) (s : State) : Outcome :=
  match s.host.caller with
  | some .h0 => startMicro dev .write (statusThen .h1) s
  | some .h2 => writeMicro reg (statusThen .h3) s
  | some .h4 => writeMicro val (statusThen .h5) s
  | some .h6 => stopMicro (fun t => t.ret (.bmWriteReg dev reg val) (.status 0)) s
  | some .h1 | some .h3 | some .h5 =>
    stopMicro (fun t => t.ret (.bmWriteReg dev reg val) (.status t.host.locals.st)) s
  | some _ => .fault .noMicroStep
  | none =>
    match s.host.step with
    | .h1 => .next (checkStatus s.cfg.ST_SLA_W_ACK .h1 .h2 .w0 s)
    | .h3 => .next (checkStatus s.cfg.ST_DATA_W_ACK .h3 .h4 .w0 s)
    | .h5 => .next (checkStatus s.cfg.ST_DATA_W_ACK .h5 .h6 .p0 s)
    | _ => .fault .noMicroStep

/-- `BM_WRITE_REG dev, reg, val` (R231). -/
def execBmWriteReg (dev : DevAddr) (reg val : Byte) (s : State) : Outcome :=
  runCommand (.bmWriteReg dev reg val) checkHelper (some .h0) .t0 (writeRegMicro dev reg val) s

/-! ## read_register (R232) -/

/-- The micro-steps G0 .. G7 (R232). On failure the value part of the result is absent (log 15). -/
def readRegMicro (dev : DevAddr) (reg : Byte) (s : State) : Outcome :=
  match s.host.caller with
  | some .g0 => startMicro dev .write (statusThen .g1) s
  | some .g2 => writeMicro reg (statusThen .g3) s
  | some .g4 => startMicro dev .read (statusThen .g5) s
  | some .g6 =>
    readNackMicro (fun v t => (t.withLocals { t.host.locals with v := v }).call .g7 .p0) s
  | some .g7 =>
    stopMicro (fun t => t.ret (.bmReadReg dev reg) (.statusByte 0 (some t.host.locals.v))) s
  | some .g1 | some .g3 | some .g5 =>
    stopMicro (fun t => t.ret (.bmReadReg dev reg) (.statusByte t.host.locals.st none)) s
  | some _ => .fault .noMicroStep
  | none =>
    match s.host.step with
    | .g1 => .next (checkStatus s.cfg.ST_SLA_W_ACK .g1 .g2 .w0 s)
    | .g3 => .next (checkStatus s.cfg.ST_DATA_W_ACK .g3 .g4 .t0 s)
    | .g5 => .next (checkStatus s.cfg.ST_SLA_R_ACK .g5 .g6 .k0 s)
    | _ => .fault .noMicroStep

/-- `BM_READ_REG dev, reg` (R232). -/
def execBmReadReg (dev : DevAddr) (reg : Byte) (s : State) : Outcome :=
  runCommand (.bmReadReg dev reg) checkHelper (some .g0) .t0 (readRegMicro dev reg) s

/-! ## read_registers (R233) -/

/-- Q5: as the other checks, but what follows is Q6, a line without a call (R233). -/
def readRegsAddressed (s : State) : State :=
  if s.host.locals.st = s.cfg.ST_SLA_R_ACK then s.goto .q6 else s.call .q5 .p0

/-- Q7: `if k < count - 1` read with acknowledge, else Q8 reads with no acknowledge (R233). -/
def readRegsTest (count : Nat) (s : State) : State :=
  if s.host.locals.k < count - 1 then s.call .q7 .a0 else s.call .q8 .k0

/-- Q7: `res_bytes[k] <- v ; k <- k + 1 ; pc <- Q7` (R233). -/
def readRegsStore (v : Byte) (s : State) : State :=
  (s.withLocals { s.host.locals with
    resBytes := storeAt s.host.locals.resBytes s.host.locals.k v
    k := s.host.locals.k + 1 }).goto .q7

/-- Q8: `res_bytes[count - 1] <- v`, then Q9 calls `stop()` (R233). -/
def readRegsLast (count : Nat) (v : Byte) (s : State) : State :=
  (s.withLocals { s.host.locals with
    resBytes := storeAt s.host.locals.resBytes (count - 1) v }).call .q9 .p0

/-- The micro-steps Q0 .. Q9 (R233). On failure the byte list of the result is absent (log 15). -/
def readRegsMicro (dev : DevAddr) (reg : Byte) (count : Nat) (s : State) : Outcome :=
  match s.host.caller with
  | some .q0 => startMicro dev .write (statusThen .q1) s
  | some .q2 => writeMicro reg (statusThen .q3) s
  | some .q4 => startMicro dev .read (statusThen .q5) s
  | some .q7 => readAckMicro readRegsStore s
  | some .q8 => readNackMicro (readRegsLast count) s
  | some .q9 =>
    stopMicro (fun t => t.ret (.bmReadRegs dev reg count)
      (.statusBytes 0 (some (t.host.locals.resBytes.take count)))) s
  | some .q1 | some .q3 | some .q5 =>
    stopMicro (fun t => t.ret (.bmReadRegs dev reg count) (.statusBytes t.host.locals.st none)) s
  | some _ => .fault .noMicroStep
  | none =>
    match s.host.step with
    | .q1 => .next (checkStatus s.cfg.ST_SLA_W_ACK .q1 .q2 .w0 s)
    | .q3 => .next (checkStatus s.cfg.ST_DATA_W_ACK .q3 .q4 .t0 s)
    | .q5 => .next (readRegsAddressed s)
    | .q6 => .next ((s.withLocals { s.host.locals with k := 0 }).goto .q7)
    | .q7 => .next (readRegsTest count s)
    | _ => .fault .noMicroStep

/-- `BM_READ_REGS dev, reg, count` (R233). -/
def execBmReadRegs (dev : DevAddr) (reg : Byte) (count : Nat) (s : State) : Outcome :=
  runCommand (.bmReadRegs dev reg count) (checkReadRegs count) (some .q0) .t0
    (readRegsMicro dev reg count) s

end Sys2Proof.Machine
end

