-- ==== Sys2Proof/Machine/Serial.lean ====
section
/-! DEFINITION. The Serial Transport commands (spec/40_serial_transport.md), micro-step by micro-step. An operation
that others call takes as `ret` what its caller does with the return (spec/00_scope.md R9 `call`). -/

namespace Sys2Proof.Machine

/-! ## UT_INIT (R120) -/

/-- I0: `ut_baud_div <- (F_REF div (16 * baud_rate)) - 1` (R120, R121). -/
def initDivisor (baudRate : Nat) (s : State) : State :=
  s.withUt { s.ut with baudDiv := BitVec.ofNat 16 (baudQuotient s.cfg.F_REF baudRate - 1) }

/-- I1: `rx_ie <- 1 ; tx_ie <- 0` in one micro-step (R120). -/
def initEnables (s : State) : State := s.withUt { s.ut with rxIe := true, txIe := false }

/-- I2: `gie <- 1` (R120). -/
def initGlobal (s : State) : State := s.withUt { s.ut with gie := true }

/-- The micro-steps I0 .. I3 of `UT_INIT` (R120). -/
def utInitMicro (baudRate : Nat) (s : State) : Outcome :=
  match s.host.step with
  | .i0 => .next ((initDivisor baudRate s).advance .i1)
  | .i1 => .next ((initEnables s).advance .i2)
  | .i2 => .next ((initGlobal s).advance .i3)
  | .i3 => .next ((s.withUt { s.ut with inited := true }).ret (.utInit baudRate) .unit)
  | _ => .fault .noMicroStep

/-- `UT_INIT baud_rate` (R120, R121). -/
def execUtInit (baudRate : Nat) (s : State) : Outcome :=
  runCommand (.utInit baudRate) (checkUtInit baudRate) none .i0 (utInitMicro baudRate) s

/-! ## send_byte (R122) -/

/-- The micro-steps S0 .. S3 of `send_byte(b)` (R122): hold while full, write the slot, publish the head, set
`tx_ie` and return. -/
def sendByteMicro (b : Byte) (ret : State → State) (s : State) : Outcome :=
  match s.host.step with
  | .s0 => if held s then .next s else .next (s.advance .s1)
  | .s1 =>
    match s.ut.tx.store .txbuf s.cfg.N b with
    | .ok tx => .next ((s.withUt { s.ut with tx := tx }).advance .s2)
    | .error f => .fault f
  | .s2 => .next ((s.withUt { s.ut with tx := s.ut.tx.publish s.cfg.N }).advance .s3)
  | .s3 => .next (ret (s.withUt { s.ut with txIe := true }))
  | _ => .fault .noMicroStep

/-- `UT_SEND_BYTE b` (R122, R123). -/
def execUtSendByte (b : Byte) (s : State) : Outcome :=
  runCommand (.utSendByte b) checkSerial none .s0
    (sendByteMicro b fun t => t.ret (.utSendByte b) .unit) s

/-! ## receive_byte (R125) -/

/-- The micro-steps V0 .. V2 of `receive_byte()` (R125): hold while empty, read the slot, publish the tail and
return the byte. -/
def recvByteMicro (ret : Byte → State → State) (s : State) : Outcome :=
  match s.host.step with
  | .v0 => if held s then .next s else .next (s.advance .v1)
  | .v1 =>
    match s.ut.rx.fetch .rxbuf s.cfg.N with
    | .ok v => .next ((s.withLocals { s.host.locals with v := v }).advance .v2)
    | .error f => .fault f
  | .v2 =>
    .next (ret s.host.locals.v (s.withUt { s.ut with rx := s.ut.rx.release s.cfg.N }))
  | _ => .fault .noMicroStep

/-- `UT_RECV_BYTE` (R125, R126). -/
def execUtRecvByte (s : State) : Outcome :=
  runCommand .utRecvByte checkSerial none .v0
    (recvByteMicro fun v t => t.ret .utRecvByte (.byte v)) s

/-! ## receive_line (R127 to R129) -/

/-- L1: `if i >= max_len - 1 then pc <- L6`, else L2 calls `receive_byte` (R127). -/
def lineTest (maxLen : Nat) (s : State) : State :=
  if s.host.locals.i ≥ maxLen - 1 then s.goto .l6 else s.call .l2 .v0

/-- L3: a terminator is consumed and not stored (R127). -/
def lineTerminator (s : State) : State :=
  if s.host.locals.c = s.cfg.CR ∨ s.host.locals.c = s.cfg.LF then s.goto .l6 else s.goto .l4

/-- `for e in ERASE_SEQUENCE, in order: call send_byte(e)`, then `pc <- L1` (R127 L4, R129). -/
def lineEraseNext (s : State) : State :=
  match s.host.locals.erase with
  | [] => s.goto .l1
  | _ :: _ => s.call .l4 .s0

/-- L4: with `EDIT_ENABLE`, a backspace code removes the last stored byte, if any, and erases it remotely
(R127, R129). -/
def lineEdit (s : State) : State :=
  if s.cfg.EDIT_ENABLE = true ∧ s.host.locals.c ∈ s.cfg.BACKSPACE_CODES then
    if s.host.locals.i > 0 then
      lineEraseNext (s.withLocals
        { s.host.locals with i := s.host.locals.i - 1, erase := s.cfg.ERASE_SEQUENCE })
    else s.goto .l1
  else s.goto .l5

/-- L4, one call of the `for e` returns: go on with what is left of the sequence (R127, R129). -/
def lineErased (s : State) : State :=
  lineEraseNext (s.withLocals { s.host.locals with erase := s.host.locals.erase.tail })

/-- L5: store the byte; with `ECHO_ENABLE` send it back after storing (R127, R129). -/
def lineStore (s : State) : State :=
  let t := s.withLocals { s.host.locals with
    lineBuf := storeAt s.host.locals.lineBuf s.host.locals.i s.host.locals.c
    i := s.host.locals.i + 1 }
  if s.cfg.ECHO_ENABLE then t.call .l5 .s0 else t.goto .l1

/-- L6: write the marker and return `Line(i, line_buf[0 .. i])` (R127, 30_encoding.md R96). -/
def lineReturn (maxLen : Nat) (s : State) : State :=
  let buf := storeAt s.host.locals.lineBuf s.host.locals.i s.cfg.LINE_MARKER
  s.ret (.utRecvLine maxLen) (.line s.host.locals.i (buf.take (s.host.locals.i + 1)))

/-- The micro-steps L0 .. L6 of `receive_line(max_len)`, with the micro-steps of the operations it calls in
place (R127). -/
def recvLineMicro (maxLen : Nat) (s : State) : Outcome :=
  match s.host.caller with
  | some .l2 =>
    recvByteMicro (fun c t => (t.withLocals { t.host.locals with c := c }).goto .l3) s
  | some .l4 =>
    match s.host.locals.erase with
    | e :: _ => sendByteMicro e lineErased s
    | [] => .fault .noMicroStep
  | some .l5 => sendByteMicro s.host.locals.c (fun t => t.goto .l1) s
  | some _ => .fault .noMicroStep
  | none =>
    match s.host.step with
    | .l0 => .next ((s.withLocals { s.host.locals with i := 0 }).goto .l1)
    | .l1 => .next (lineTest maxLen s)
    | .l3 => .next (lineTerminator s)
    | .l4 => .next (lineEdit s)
    | .l5 => .next (lineStore s)
    | .l6 => .next (lineReturn maxLen s)
    | _ => .fault .noMicroStep

/-- `UT_RECV_LINE max_len` (R127 to R129). -/
def execUtRecvLine (maxLen : Nat) (s : State) : Outcome :=
  runCommand (.utRecvLine maxLen) (checkRecvLine maxLen) none .l0 (recvLineMicro maxLen) s

end Sys2Proof.Machine
end

