-- ==== Sys2Proof/Machine/Dispatch.lean ====
section
/-! DEFINITION. One arm per command: one HOST transition of that command (log 9). -/

namespace Sys2Proof.Machine

def exec (i : Instr) (s : State) : Host.Outcome State Fault Refusal :=
  match i with
  | .utInit baudRate => Sys2Proof.Machine.execUtInit baudRate s
  | .utSendByte b => Sys2Proof.Machine.execUtSendByte b s
  | .utRecvByte => Sys2Proof.Machine.execUtRecvByte s
  | .utRecvLine maxLen => Sys2Proof.Machine.execUtRecvLine maxLen s
  | .bmInit clockRate => Sys2Proof.Machine.execBmInit clockRate s
  | .bmStart address direction => Sys2Proof.Machine.execBmStart address direction s
  | .bmWrite byte => Sys2Proof.Machine.execBmWrite byte s
  | .bmReadAck => Sys2Proof.Machine.execBmReadAck s
  | .bmReadNack => Sys2Proof.Machine.execBmReadNack s
  | .bmStop => Sys2Proof.Machine.execBmStop s
  | .bmWriteReg dev reg val => Sys2Proof.Machine.execBmWriteReg dev reg val s
  | .bmReadReg dev reg => Sys2Proof.Machine.execBmReadReg dev reg s
  | .bmReadRegs dev reg count => Sys2Proof.Machine.execBmReadRegs dev reg count s

end Sys2Proof.Machine
end

