-- ==== Sys2Proof/Machine/Handlers.lean ====
section
/-! DEFINITION. The two interrupt handlers and the LINE agent (spec/41_serial_handlers_and_line.md). Each is one atomic
step. Taking an interrupt saves and changes nothing but what the body writes, and the return is the end of the body
(spec/60_exceptions.md R268, R269), so HOST goes on where it was. -/

namespace Sys2Proof.Machine

/-- RXI's one read of `rx_data`: its side effect clears `rx_ready` (R160, 10_state.md R27). -/
def takeRxData (u : Serial) : Serial := { u with rxReady := false }

/-- The body of RXI (R160): read the register, then enqueue, or drop the byte when the RX buffer is full. -/
def rxiBody (s : State) : Outcome :=
  let u := takeRxData s.ut
  if s.ut.rx.full s.cfg.N then .next (s.withUt { u with rxSwDropped := s.ut.rxSwDropped + 1 })
  else
    match s.ut.rx.store .rxbuf s.cfg.N s.ut.rxData with
    | .ok rx => .next (s.withUt { u with rx := rx.publish s.cfg.N })
    | .error f => .fault f

/-- A write of `tx_data`: its side effect clears `tx_ready` (10_state.md R28). -/
def writeTxData (u : Serial) (d : Byte) : Serial := { u with txData := d, txReady := false }

/-- The body of TXI (R161): disable the interrupt when the TX buffer is empty, else dequeue one byte into
`tx_data`. -/
def txiBody (s : State) : Outcome :=
  if s.ut.tx.empty then .next (s.withUt { s.ut with txIe := false })
  else
    match s.ut.tx.fetch .txbuf s.cfg.N with
    | .ok d => .next (s.withUt (writeTxData { s.ut with tx := s.ut.tx.release s.cfg.N } d))
    | .error f => .fault f

/-- A hardware overrun replaces the older byte: under `overwrite` always, under `any_loss` by the free choice
(R163; log 12). -/
def overrunReplaces (policy : OverrunPolicy) (keepNew : Bool) : Bool :=
  match policy with
  | .anyLoss => keepNew
  | .dropNew => false
  | .overwrite => true
  | .hold => false

/-- `LineArrive(v)` (R163). -/
def lineArrive (v : Byte) (keepNew : Bool) (s : State) : State :=
  let u := { s.ut with lineIn := s.ut.lineIn ++ [v] }
  if s.ut.rxReady then
    s.withUt { u with
      rxHwLost := s.ut.rxHwLost + 1
      rxData := if overrunReplaces s.cfg.RX_OVERRUN_POLICY keepNew then v else s.ut.rxData }
  else s.withUt { u with rxData := v, rxReady := true }

/-- `LineShiftOut` (R164). -/
def lineShiftOut (s : State) : State :=
  s.withUt { s.ut with lineOut := s.ut.lineOut ++ [s.ut.txData], txReady := true }

end Sys2Proof.Machine
end

