-- ==== Sys2Proof/Machine/Agents.lean ====
section
/-! DEFINITION. The steps of the agents (spec/00_scope.md R7, R10): HOST issues a word (spec/30_encoding.md R102) or
performs a micro-step, a handler is taken, LINE or BUS moves. -/

namespace Sys2Proof.Machine

/-- `Issue(w)` (30_encoding.md R102): an illegal word raises `IllegalCommand`; a command is issued, with its
contract checks, by `exec`. While an operation is in flight Issue is not enabled and nothing happens. -/
def issueWord (w : Word) (s : State) : Outcome :=
  match s.host.op with
  | some _ => .next s
  | none =>
    match decode w with
    | .ok i => exec i s
    | .error _ => .next (s.raise (.illegalCommand w))

/-- The HOST micro-step: that of the operation in flight; with none in flight there is none (00_scope.md R10). -/
def hostMicroStep (s : State) : Outcome :=
  match s.host.op with
  | some i => exec i s
  | none => .next s

/-- The step of the chosen agent. A choice that is not enabled is used up and nothing happens (log 5). -/
def perform (c : Choice) (s : State) : Outcome :=
  if enabled c s then
    match c with
    | .issue w => issueWord w s
    | .host => hostMicroStep s
    | .rxi => rxiBody s
    | .txi => txiBody s
    | .lineArrive v keepNew => .next (lineArrive v keepNew s)
    | .lineShiftOut => .next (lineShiftOut s)
    | .busComplete st v => .next (busComplete st v s)
  else .next s

end Sys2Proof.Machine
end

