-- ==== Sys2Proof/Machine/Step.lean ====
section
/-! DEFINITION. The step: the next choice placed in the state, or, when none is, the next free choice, and that
agent's step (spec/00_scope.md R10; log 4). -/

namespace Sys2Proof.Machine

/-- One atomic transition of one agent (00_scope.md R10). -/
def step (s : State) : Host.Outcome State Fault Refusal :=
  match s.inputs with
  | c :: rest => perform c (s.withInputs rest)
  | [] => perform (Config.freeChoice s.draws) { s with draws := s.draws + 1 }

/-- The state in which the very next step issues the word: HOST idle, and the issue of the word the next choice
(log 6). Bits of the word above `nbits` are zero. -/
def State.withFetchWord (s : State) (nbits w : Nat) : State :=
  { s with
    inputs := .issue (BitVec.ofNat 32 (w % 2 ^ nbits)) :: s.inputs
    host := { s.host with op := none } }

end Sys2Proof.Machine
end

