-- ==== Sys2Proof/Safety.lean ====
section
/-! DEFINITION. The terms in which statements speak of runs: finite runs of choices, infinite runs and the fairness a
liveness proof may use (spec/70_reset_and_hazards.md R316), refusal-free runs (R325), hangs (spec/60_exceptions.md
R282), and the invariants every step keeps: the buffer invariant (spec/10_state.md R23), HOST's position (R24), the bus
protocol (spec/42_bus_primitives.md R198, R205) and the temporaries (spec/40_serial_transport.md R127,
spec/43_bus_helpers.md R233). -/

namespace Sys2Proof.Machine

/-! ## Runs -/

/-- The steps of the chosen agents, one after another, up to the first stop (00_scope.md R10). -/
def runChoices : List Choice → State → Outcome
  | [], s => .next s
  | c :: cs, s =>
    match perform c s with
    | .next t => runChoices cs t
    | .fault f => .fault f
    | .refused r => .refused r

/-- An infinite run: at each point the step of the agent chosen there leads to the next state. A choice that is not
enabled leaves the state as it is (log 5), so a run that ends is one whose last state repeats
(00_scope.md R10, 70_reset_and_hazards.md R322). -/
structure Run where
  state : Nat → State
  choice : Nat → Choice
  follows : ∀ n, perform (choice n) (state n) = .next (state (n + 1))

/-- Weak fairness of a step: enabled at every point from some point on, it is taken at some later point
(70_reset_and_hazards.md R316). -/
def Run.WeaklyFair (r : Run) (c : Choice) : Prop :=
  ∀ n, (∀ m, n ≤ m → enabled c (r.state m) = true) → ∃ m, n ≤ m ∧ r.choice m = c

/-- The forward-progress assumptions F1 to F4, the only ones a liveness proof may use. `BusComplete` (F5) and
`LineArrive` (F6) are in no such assumption, and neither is the issue of a command (70_reset_and_hazards.md R316,
R324). -/
structure Run.Fair (r : Run) : Prop where
  /-- F1: a byte in the transmit register is eventually shifted out. -/
  shiftOut : r.WeaklyFair .lineShiftOut
  /-- F2: TXI takeable continuously is eventually taken. -/
  txi : r.WeaklyFair .txi
  /-- F3: RXI likewise. -/
  rxi : r.WeaklyFair .rxi
  /-- F4: a HOST micro-step enabled continuously is eventually taken. -/
  host : r.WeaklyFair .host

/-- "Every issued phase completes": the premise about BUS that a proof that a bus operation ends must take, and that
the reference device grants (70_reset_and_hazards.md R316, 95_test_vectors.md section 4). -/
def Run.BusCompletes (r : Run) : Prop :=
  ∀ n, (r.state n).bm.pending.isSome → ∃ m, n ≤ m ∧ ∃ st v, r.choice m = .busComplete st v

/-- The choices under which `start` runs to its end, BUS completing its two phases with statuses `s0` and `s1`:
T0, the completion, T1, T2, the completion, T3, T4 (42_bus_primitives.md R192). -/
def startChoices (s0 s1 : Byte) : List Choice :=
  [.host, .busComplete s0 0, .host, .host, .busComplete s1 0, .host, .host]

/-- The choices under which `write` runs to its end with status `st`: W0, the completion, W1, W2 (R193). -/
def writeChoices (st : Byte) : List Choice := [.host, .busComplete st 0, .host, .host]

/-- The choices under which a lone read runs to its end with status `st` and data `v` (R194, R195). -/
def lastReadChoices (st v : Byte) : List Choice := [.host, .busComplete st v, .host, .host]

/-- The choices under which `stop` runs to its end: P0, P1 (R196). -/
def stopChoices : List Choice := [.host, .host]

/-- The choices of one bus read of read_registers, whose phase BUS completes with status `x.1` and data `x.2`:
the test at Q7, the issue of the phase, its completion, the end of the hold, the return (43_bus_helpers.md R233). -/
def readChoices (x : Byte × Byte) : List Choice := [.host, .host, .busComplete x.1 x.2, .host, .host]

/-- A choice with the draws of a BUS completion set to zero: two lists of choices with the same image are the same
steps of the same agents, whatever BUS draws (42_bus_primitives.md R199). -/
def undrawn : Choice → Choice
  | .busComplete _ _ => .busComplete 0 0
  | c => c

/-- The bus events of the reads of read_registers: all but the last answered with acknowledge
(43_bus_helpers.md R233). -/
def readEvents : List (Byte × Byte) → List BusEvent
  | [] => []
  | [x] => [.recv .nack x.2 x.1]
  | x :: y :: xs => .recv .ack x.2 x.1 :: readEvents (y :: xs)

/-- The state after command `i` is refused at issue for `reason`: the record is appended to `host.faults` and
nothing else changes (60_exceptions.md R273). -/
def refusedAs (s : State) (i : Instr) (reason : Reason) : State :=
  { s with host.faults := s.host.faults ++ [.contractViolation reason (encode i)] }

/-- The state after command `i` is accepted: it is the operation in flight, at its first label (in the line
`line` where that line begins with a call), with fresh temporaries (30_encoding.md R102). -/
def acceptedAs (s : State) (i : Instr) (line : Option Label) (first : Label) : State :=
  { s with
    host.op := some i
    host.step := first
    host.caller := line
    host.locals := Locals.empty }

/-- HOST after command `i` returned `r` from its micro-step at `l`: idle, the result appended, the temporaries
discarded (00_scope.md R9, 10_state.md R25). -/
def returned (h : Sequencer) (i : Instr) (l : Label) (r : Result) : Sequencer :=
  { h with
    op := none
    step := l
    caller := none
    locals := Locals.empty
    results := h.results ++ [(i, r)] }

/-- The state in which helper `i` leaves the machine when it started in `s`: the bus idle, the last direction,
byte and status, the events of the transaction and then one `Stop` in the trace, the result recorded; nothing else
changes (43_bus_helpers.md R234). -/
def helperEnd (s : State) (i : Instr) (dir : Direction) (data status : Byte) (events : List BusEvent)
    (r : Result) : State :=
  { s with
    bm.dir := dir
    bm.state := .idle
    bm.data := data
    bm.status := status
    bm.done := true
    bm.pending := none
    bm.trace := s.bm.trace ++ events ++ [.stop]
    host := returned s.host i .p1 r }

/-- No refusal has been recorded (10_state.md R25, 70_reset_and_hazards.md R325). -/
def refusalFree (s : State) : Prop := s.host.faults = []

/-- HOST hangs at its hold for as long as nothing lifts it (60_exceptions.md R282). -/
def hostHeld (s : State) : Prop := s.host.op.isSome ∧ held s

/-! ## The buffer invariant (10_state.md R21 to R23, R50) -/

/-- One circular buffer of N slots is sound: both indices are below N, the store is canonical and lists only
slots of the buffer, and every live slot has been written (R22, R23, R50). -/
structure CircBuf.Sound (N : Nat) (r : CircBuf) : Prop where
  head_lt : r.head.toNat < N
  tail_lt : r.tail.toNat < N
  wf : r.buf.wf
  slots : ∀ a v, r.buf.read? a = some v → a < N
  live : ∀ j, j < liveCount N r.head r.tail → (r.buf.read? ((r.tail.toNat + j) % N)).isSome

/-- The operand of the `send_byte` whose micro-steps HOST is performing, if any: that of the command, the byte of the
erase sequence in its call (L4), or the byte echoed (L5) (40_serial_transport.md R122, R127). -/
def sendingByte (s : State) : Option Byte :=
  match s.host.op, s.host.caller with
  | some (.utSendByte b), _ => some b
  | some (.utRecvLine _), some .l4 => s.host.locals.erase.head?
  | some (.utRecvLine _), some .l5 => some s.host.locals.c
  | _, _ => none

/-- The Serial Transport's invariant: legal parameters, both buffers sound, and what HOST knows between the
micro-steps of an enqueue (at S1 and S2 the TX buffer is not full, at S2 the slot at the head holds the operand of the
send_byte in progress) and of a dequeue (at V1 and V2 the RX buffer is not empty, at V2 the slot at the tail still
holds the byte `v` that V1 read) (20_memory.md R63, R64, R72; 40_serial_transport.md R122, R125). -/
structure SerialInv (s : State) : Prop where
  cfg : s.cfg.legal
  tx : s.ut.tx.Sound s.cfg.N
  rx : s.ut.rx.Sound s.cfg.N
  room : s.host.op.isSome → s.host.step = .s1 ∨ s.host.step = .s2 → s.ut.tx.full s.cfg.N = false
  stored : s.host.op.isSome → s.host.step = .s2 →
    (sendingByte s).isSome ∧ s.ut.tx.buf.read? s.ut.tx.head.toNat = sendingByte s
  byte : s.host.op.isSome → s.host.step = .v1 ∨ s.host.step = .v2 → s.ut.rx.empty = false
  fetched : s.host.op.isSome → s.host.step = .v2 →
    s.ut.rx.buf.read? s.ut.rx.tail.toNat = some s.host.locals.v

/-- Queued bytes have TXI enabled, or HOST is about to enable it (70_reset_and_hazards.md R312). -/
def QueuedEnabled (s : State) : Prop :=
  s.ut.tx.empty = false → s.ut.txIe = true ∨ (s.host.op.isSome ∧ s.host.step = .s3)

/-! ## HOST's position (10_state.md R24) -/

/-- The labels of each called operation (40_serial_transport.md R122, R125; 42_bus_primitives.md R192 to R196). -/
def sendLabels : List Label := [.s0, .s1, .s2, .s3]
def recvLabels : List Label := [.v0, .v1, .v2]
def startLabels : List Label := [.t0, .t1, .t2, .t3, .t4]
def writeLabels : List Label := [.w0, .w1, .w2]
def ackLabels : List Label := [.a0, .a1, .a2]
def nackLabels : List Label := [.k0, .k1, .k2]
def stopLabels : List Label := [.p0, .p1]

/-- The labels HOST can be at while command `i` is in flight, in a call of line `line` or at the command's own
level: the finite label set of the operation (10_state.md R24). -/
def labelsOf (i : Instr) (line : Option Label) : List Label :=
  match i, line with
  | .utInit _, none => [.i0, .i1, .i2, .i3]
  | .utSendByte _, none => sendLabels
  | .utRecvByte, none => recvLabels
  | .utRecvLine _, none => [.l0, .l1, .l3, .l4, .l5, .l6]
  | .utRecvLine _, some .l2 => recvLabels
  | .utRecvLine _, some .l4 => sendLabels
  | .utRecvLine _, some .l5 => sendLabels
  | .bmInit _, none => [.n0, .n1]
  | .bmStart _ _, none => startLabels
  | .bmWrite _, none => writeLabels
  | .bmReadAck, none => ackLabels
  | .bmReadNack, none => nackLabels
  | .bmStop, none => stopLabels
  | .bmWriteReg _ _ _, none => [.h1, .h3, .h5]
  | .bmWriteReg _ _ _, some .h0 => startLabels
  | .bmWriteReg _ _ _, some .h2 => writeLabels
  | .bmWriteReg _ _ _, some .h4 => writeLabels
  | .bmWriteReg _ _ _, some .h1 => stopLabels
  | .bmWriteReg _ _ _, some .h3 => stopLabels
  | .bmWriteReg _ _ _, some .h5 => stopLabels
  | .bmWriteReg _ _ _, some .h6 => stopLabels
  | .bmReadReg _ _, none => [.g1, .g3, .g5]
  | .bmReadReg _ _, some .g0 => startLabels
  | .bmReadReg _ _, some .g2 => writeLabels
  | .bmReadReg _ _, some .g4 => startLabels
  | .bmReadReg _ _, some .g6 => nackLabels
  | .bmReadReg _ _, some .g1 => stopLabels
  | .bmReadReg _ _, some .g3 => stopLabels
  | .bmReadReg _ _, some .g5 => stopLabels
  | .bmReadReg _ _, some .g7 => stopLabels
  | .bmReadRegs _ _ _, none => [.q1, .q3, .q5, .q6, .q7]
  | .bmReadRegs _ _ _, some .q0 => startLabels
  | .bmReadRegs _ _ _, some .q2 => writeLabels
  | .bmReadRegs _ _ _, some .q4 => startLabels
  | .bmReadRegs _ _ _, some .q7 => ackLabels
  | .bmReadRegs _ _ _, some .q8 => nackLabels
  | .bmReadRegs _ _ _, some .q1 => stopLabels
  | .bmReadRegs _ _ _, some .q3 => stopLabels
  | .bmReadRegs _ _ _, some .q5 => stopLabels
  | .bmReadRegs _ _ _, some .q9 => stopLabels
  | _, _ => []

/-- The unit a command belongs to has been initialised, but for the `init`s themselves (70_reset_and_hazards.md
R305). -/
def unitInited (i : Instr) (s : State) : Prop :=
  match i with
  | .utInit _ => True
  | .utSendByte _ | .utRecvByte | .utRecvLine _ => s.ut.inited
  | .bmInit _ => True
  | _ => s.bm.inited

/-- HOST's invariant: the command in flight fits its encoding, its unit is initialised, and HOST is at one of its
labels; no byte is on the link and TXI is not enabled before `UT_INIT` (10_state.md R24, 70 R302, R305). -/
structure HostInv (s : State) : Prop where
  wellFormed : ∀ i, s.host.op = some i → i.wellFormed
  inited : ∀ i, s.host.op = some i → unitInited i s
  label : ∀ i, s.host.op = some i → s.host.step ∈ labelsOf i s.host.caller
  rxQuiet : s.ut.rxReady → s.ut.inited
  txQuiet : s.ut.txReady = false → s.ut.inited
  txDisabled : s.ut.txIe → s.ut.inited

/-! ## The temporaries -/

/-- The temporaries of receive_line and read_registers are in range wherever HOST is (40_serial_transport.md
R127: `i` is 0 .. max_len - 1; 43_bus_helpers.md R233: `k` is 0 .. count - 1). -/
structure LocalsInv (s : State) : Prop where
  lineMax : ∀ m, s.host.op = some (.utRecvLine m) → 1 ≤ m
  lineCount : ∀ m, s.host.op = some (.utRecvLine m) → s.host.step ≠ .l0 →
    s.host.locals.i ≤ m - 1 ∧ s.host.locals.i ≤ s.host.locals.lineBuf.length
  lineRoom : ∀ m, s.host.op = some (.utRecvLine m) →
    s.host.caller = some .l2 ∨ (s.host.caller = none ∧ s.host.step ∈ [Label.l3, .l4, .l5]) →
    s.host.locals.i < m - 1
  lineErase : ∀ m, s.host.op = some (.utRecvLine m) → s.host.caller = some .l4 →
    s.host.locals.erase ≠ []
  regsCount : ∀ d r n, s.host.op = some (.bmReadRegs d r n) → 1 ≤ n
  regsIndex : ∀ d r n, s.host.op = some (.bmReadRegs d r n) →
    s.host.caller = some .q7 ∨ s.host.caller = some .q8 ∨ (s.host.caller = none ∧ s.host.step = .q7) →
    s.host.locals.k ≤ n - 1 ∧ s.host.locals.resBytes.length = s.host.locals.k
  regsMore : ∀ d r n, s.host.op = some (.bmReadRegs d r n) → s.host.caller = some .q7 →
    s.host.locals.k < n - 1
  regsLast : ∀ d r n, s.host.op = some (.bmReadRegs d r n) → s.host.caller = some .q8 →
    s.host.locals.k = n - 1
  regsAll : ∀ d r n, s.host.op = some (.bmReadRegs d r n) → s.host.caller = some .q9 →
    s.host.locals.resBytes.length = n
  regsFresh : ∀ d r n, s.host.op = some (.bmReadRegs d r n) →
    s.host.caller = some .q0 ∨ s.host.caller = some .q2 ∨ s.host.caller = some .q4 ∨
      (s.host.caller = none ∧ s.host.step ∈ [Label.q1, .q3, .q5, .q6]) →
    s.host.locals.resBytes = []

/-! ## The bus protocol (42_bus_primitives.md R198, R199, R205) -/

/-- The completion holds (R197). -/
def busHolds : List Label := [.t1, .t3, .w1, .a1, .k1]

/-- The direction of the `start` HOST is performing or has performed last in command `i` at `line`. -/
def startDirection (i : Instr) (line : Option Label) : Direction :=
  match i, line with
  | .bmStart _ d, _ => d
  | _, some .g4 => .read
  | _, some .q4 => .read
  | _, _ => .write

/-- The device a helper addresses (43_bus_helpers.md R231 to R233). -/
def helperDevice : Instr → Option DevAddr
  | .bmWriteReg dev _ _ => some dev
  | .bmReadReg dev _ => some dev
  | .bmReadRegs dev _ _ => some dev
  | _ => none

/-- The operand of the `write` called in a line of a helper: the register number, or the value in H4
(43_bus_helpers.md R231 to R233). -/
def writtenByte (i : Instr) (line : Label) : Option Byte :=
  match i, line with
  | .bmWriteReg _ reg _, .h2 => some reg
  | .bmWriteReg _ _ val, .h4 => some val
  | .bmReadReg _ reg, .g2 => some reg
  | .bmReadRegs _ reg _, .q2 => some reg
  | _, _ => none

/-- What a helper returns when the `stop` called in a line of it returns: success in its last line, and in a check
line the status that failed, with no data part (43_bus_helpers.md R230 to R233; log 15). -/
def helperResult (i : Instr) (line : Label) (l : Locals) : Option Result :=
  match i, line with
  | .bmWriteReg _ _ _, .h6 => some (.status 0)
  | .bmWriteReg _ _ _, .h1 | .bmWriteReg _ _ _, .h3 | .bmWriteReg _ _ _, .h5 => some (.status l.st)
  | .bmReadReg _ _, .g7 => some (.statusByte 0 (some l.v))
  | .bmReadReg _ _, .g1 | .bmReadReg _ _, .g3 | .bmReadReg _ _, .g5 => some (.statusByte l.st none)
  | .bmReadRegs _ _ count, .q9 => some (.statusBytes 0 (some (l.resBytes.take count)))
  | .bmReadRegs _ _ _, .q1 | .bmReadRegs _ _ _, .q3 | .bmReadRegs _ _ _, .q5 =>
    some (.statusBytes l.st none)
  | _, _ => none

/-- `bm_state` is one of the four states a command can find (R205): not inside `start` or `stop`. -/
def settled (b : BusMaster) : Prop := b.state ≠ .started ∧ b.state ≠ .stopped

/-- What `bm_state`, `bm_dir` and the trace are when HOST is at a label (R205, R192 to R196, R231 to R233): the
sequence conditions that the helpers' rules say hold by construction. -/
def protocolAt (i : Instr) (line : Option Label) (l : Label) (b : BusMaster) : Prop :=
  match l with
  | .t0 => settled b
  | .t1 | .t2 | .t3 | .t4 => b.state = .started ∧ b.dir = startDirection i line
  | .w0 => (b.state = .addressAcked ∨ b.state = .writing) ∧ b.dir = .write
  | .w1 | .w2 => b.state = .writing ∧ b.dir = .write
  | .a0 | .k0 => (b.state = .addressAcked ∨ b.state = .reading) ∧ b.dir = .read
  | .a1 | .a2 | .k1 | .k2 => b.state = .reading ∧ b.dir = .read
  | .p0 => b.state = .addressAcked ∨ b.state = .writing ∨ b.state = .reading
  | .p1 => b.state = .stopped ∧ b.trace.getLast? = some .stop
  | .n0 | .n1 => b.state = .idle
  | .h1 | .g1 | .q1 => b.state = .addressAcked ∧ b.dir = .write
  | .h3 | .h5 | .g3 | .q3 => b.state = .writing ∧ b.dir = .write
  | .g5 | .q5 | .q6 => b.state = .addressAcked ∧ b.dir = .read
  | .q7 => (b.state = .addressAcked ∨ b.state = .reading) ∧ b.dir = .read
  | _ => settled b

/-- The bus invariant: a phase is pending only while HOST waits for it with `bm_done == 0`, a wait with nothing
pending has its completion, the protocol state is the one of HOST's label (R198, R199, R205), and the registers of
the reference device, if one is attached, are in canonical form (95_test_vectors.md section 4; log 14). -/
structure BusInv (s : State) : Prop where
  pendingHeld : s.bm.pending.isSome → s.host.op.isSome ∧ s.host.step ∈ busHolds ∧ s.bm.done = false
  completed : s.host.op.isSome → s.host.step ∈ busHolds → s.bm.pending = none → s.bm.done = true
  idle : s.host.op = none → settled s.bm
  protocol : ∀ i, s.host.op = some i → protocolAt i s.host.caller s.host.step s.bm
  registers : ∀ d, s.device = some d → d.regs.wf ∧ ∀ c ∈ d.regs, c.2 ≠ 0

/-- Everything together. -/
structure Inv (s : State) : Prop where
  host : HostInv s
  serial : SerialInv s
  locals : LocalsInv s
  bus : BusInv s

/-- What R316 takes beside fairness for the Serial Transport to make progress: at every point `gie` is 1 and no
`UT_INIT` is in flight; with them the invariants that every step keeps (70_reset_and_hazards.md R312, R316). -/
structure Run.Undisturbed (r : Run) : Prop where
  gie : ∀ n, (r.state n).ut.gie = true
  noInit : ∀ n b, (r.state n).host.op ≠ some (.utInit b)
  inv : ∀ n, Inv (r.state n)
  queued : ∀ n, QueuedEnabled (r.state n)

/-! ## The streams of bytes (41_serial_handlers_and_line.md R165, R166) -/

/-- `line_out`, then the byte in flight, then the live bytes of `tx_buf` oldest first (R165). -/
def txStream (s : State) : List (Option Byte) :=
  s.ut.lineOut.map some ++ (if s.ut.txReady then [] else [some s.ut.txData]) ++ s.ut.tx.liveSlots s.cfg.N

/-- The live bytes of `rx_buf` oldest first, then the byte waiting in `rx_data` (R166). -/
def rxStream (s : State) : List (Option Byte) :=
  s.ut.rx.liveSlots s.cfg.N ++ (if s.ut.rxReady then [some s.ut.rxData] else [])

end Sys2Proof.Machine
end

