-- ==== Sys2Proof/Certificates/Slice0/Obligations.lean ====
section
/-! DEFINITION. The statements for the provers, from the numbered rules of spec/. A whole-state equality
`… = .next { s with … }` is also the frame: every field not named is unchanged. -/

open Sys2Proof Sys2Proof.Machine

/-! ## Encoding and decoding (spec/30_encoding.md) -/

/-- Decoding the encoding of a well-formed command gives it back, whatever its operands (R90 to R93, R95). -/
def Obligations.DecodeOfEncode : Prop :=
  ∀ i : Instr, i.wellFormed → decode (encode i) = .ok i

/-- The other direction: a word that decodes is the encoding of the well-formed command it decodes to, so no two
words decode alike and the word of a refusal record is the word issued (R92, R93, R97; log 10). -/
def Obligations.EncodeOfDecode : Prop :=
  ∀ (w : Word) (i : Instr), decode w = .ok i → i.wellFormed ∧ encode i = w

/-- R93, R95: the thirteen rows are those of the table, by opcode, match, mask and mnemonic; they are mutually
exclusive; a word that selects a row decodes to that row's command, with the operands of its fields; and a word that
selects none is illegal. -/
def Obligations.RowsExclusive : Prop :=
  rows.map (fun a => (a.mtch.toNat / 2 ^ 24, a.mtch, a.mask)) =
    [(0x10, 0x10000000, 0xFF000000), (0x11, 0x11000000, 0xFFFFFF00), (0x12, 0x12000000, 0xFFFFFFFF),
     (0x13, 0x13000000, 0xFFFF0000), (0x20, 0x20000000, 0xFF000000), (0x21, 0x21000000, 0xFFFF80FE),
     (0x22, 0x22000000, 0xFFFFFF00), (0x23, 0x23000000, 0xFFFFFFFF), (0x24, 0x24000000, 0xFFFFFFFF),
     (0x25, 0x25000000, 0xFFFFFFFF), (0x28, 0x28000000, 0xFF800000), (0x29, 0x29000000, 0xFF8000FF),
     (0x2A, 0x2A000000, 0xFF800000)] ∧
  ∀ w : Word,
    rows.map (fun a => (a.operands w).mnemonic) =
      ["UT_INIT", "UT_SEND_BYTE", "UT_RECV_BYTE", "UT_RECV_LINE", "BM_INIT", "BM_START", "BM_WRITE",
       "BM_READ_ACK", "BM_READ_NACK", "BM_STOP", "BM_WRITE_REG", "BM_READ_REG", "BM_READ_REGS"] ∧
    (∀ (j : Nat) (a : Row), rows[j]? = some a → (w &&& a.mask) = a.mtch →
      decode w = .ok (a.operands w) ∧
      ∀ (k : Nat) (b : Row), rows[k]? = some b → (w &&& b.mask) = b.mtch → k = j) ∧
    ((∀ (j : Nat) (a : Row), rows[j]? = some a → (w &&& a.mask) ≠ a.mtch) → ∃ e, decode w = .error e)

/-- R92: every operand is its field read as an unsigned number, said with div and mod of the whole word; a word of a
command that refuses some operand values decodes at every value of the field, and the refused values are rejected at
issue, with a record of the contract violation and nothing else changed. -/
def Obligations.OperandsAreUnsignedFields : Prop :=
  ∀ w : Word,
    (∀ r, decode w = .ok (.utInit r) → r = w.toNat % 2 ^ 24) ∧
    (∀ b, decode w = .ok (.utSendByte b) → b.toNat = w.toNat % 2 ^ 8) ∧
    (∀ n, decode w = .ok (.utRecvLine n) → n = w.toNat % 2 ^ 16) ∧
    (∀ r, decode w = .ok (.bmInit r) → r = w.toNat % 2 ^ 24) ∧
    (∀ a d, decode w = .ok (.bmStart a d) →
      a.toNat = w.toNat / 2 ^ 8 % 2 ^ 7 ∧ d.bit = w.toNat % 2) ∧
    (∀ b, decode w = .ok (.bmWrite b) → b.toNat = w.toNat % 2 ^ 8) ∧
    (∀ d r v, decode w = .ok (.bmWriteReg d r v) →
      d.toNat = w.toNat / 2 ^ 16 % 2 ^ 7 ∧ r.toNat = w.toNat / 2 ^ 8 % 2 ^ 8 ∧
        v.toNat = w.toNat % 2 ^ 8) ∧
    (∀ d r, decode w = .ok (.bmReadReg d r) →
      d.toNat = w.toNat / 2 ^ 16 % 2 ^ 7 ∧ r.toNat = w.toNat / 2 ^ 8 % 2 ^ 8) ∧
    (∀ d r n, decode w = .ok (.bmReadRegs d r n) →
      d.toNat = w.toNat / 2 ^ 16 % 2 ^ 7 ∧ r.toNat = w.toNat / 2 ^ 8 % 2 ^ 8 ∧ n = w.toNat % 2 ^ 8) ∧
    (w.toNat / 2 ^ 24 = 0x10 → ∃ r, decode w = .ok (.utInit r)) ∧
    (w.toNat / 2 ^ 16 = 0x1300 → ∃ n, decode w = .ok (.utRecvLine n)) ∧
    (w.toNat / 2 ^ 24 = 0x20 → ∃ r, decode w = .ok (.bmInit r)) ∧
    (w.toNat / 2 ^ 23 = 0x54 → ∃ d r n, decode w = .ok (.bmReadRegs d r n)) ∧
    ∀ s : State, s.host.op = none →
      ((∃ r, decode w = .ok (.utInit r) ∧
          (r = 0 ∨ s.cfg.F_REF / (16 * r) = 0 ∨ s.cfg.F_REF / (16 * r) - 1 > 65535)) ∨
        decode w = .ok (.utRecvLine 0) ∨ decode w = .ok (.bmInit 0) ∨
        ∃ d r, decode w = .ok (.bmReadRegs d r 0)) →
      ∃ reason word, perform (.issue w) s =
        .next { s with host.faults := s.host.faults ++ [.contractViolation reason word] }

/-- R97: a word is illegal exactly when its opcode is none of the thirteen or a must-be-zero bit of its format
is set; issuing an illegal word changes nothing but the fault record and starts nothing. -/
def Obligations.IllegalWords : Prop :=
  ∀ w : Word,
    ((∃ e, decode w = .error e) ↔
      (w.toNat / 2 ^ 24 ∉ [0x10, 0x11, 0x12, 0x13, 0x20, 0x21, 0x22, 0x23, 0x24, 0x25, 0x28, 0x29, 0x2A] ∨
       (w.toNat / 2 ^ 24 ∈ [0x12, 0x23, 0x24, 0x25] ∧ w.toNat % 2 ^ 24 ≠ 0) ∨
       (w.toNat / 2 ^ 24 ∈ [0x11, 0x22] ∧ w.toNat / 2 ^ 8 % 2 ^ 16 ≠ 0) ∨
       (w.toNat / 2 ^ 24 = 0x13 ∧ w.toNat / 2 ^ 16 % 2 ^ 8 ≠ 0) ∨
       (w.toNat / 2 ^ 24 = 0x21 ∧ (w.toNat / 2 ^ 15 % 2 ^ 9 ≠ 0 ∨ w.toNat / 2 % 2 ^ 7 ≠ 0)) ∨
       (w.toNat / 2 ^ 24 ∈ [0x28, 0x2A] ∧ w.toNat / 2 ^ 23 % 2 ≠ 0) ∨
       (w.toNat / 2 ^ 24 = 0x29 ∧ (w.toNat / 2 ^ 23 % 2 ≠ 0 ∨ w.toNat % 2 ^ 8 ≠ 0)))) ∧
    ∀ (s : State) (e : DecodeError), decode w = .error e → s.host.op = none →
      perform (.issue w) s = .next { s with host.faults := s.host.faults ++ [.illegalCommand w] }

/-- Words written out from the formats of R91 decode to the commands they stand for (one of every format; from
95_test_vectors.md 2.1). -/
def Obligations.TableWordsDecode : Prop :=
  decode 0x10004B00 = .ok (.utInit 19200) ∧
  decode 0x110000FF = .ok (.utSendByte 0xFF) ∧
  decode 0x12000000 = .ok .utRecvByte ∧
  decode 0x1300FFFF = .ok (.utRecvLine 65535) ∧
  decode 0x200186A0 = .ok (.bmInit 100000) ∧
  decode 0x21007601 = .ok (.bmStart 0x76 .read) ∧
  decode 0x220000F4 = .ok (.bmWrite 0xF4) ∧
  decode 0x25000000 = .ok .bmStop ∧
  decode 0x2876F427 = .ok (.bmWriteReg 0x76 0xF4 0x27) ∧
  decode 0x2976F400 = .ok (.bmReadReg 0x76 0xF4) ∧
  decode 0x2A76FA03 = .ok (.bmReadRegs 0x76 0xFA 3)

/-! ## Issue and the step (spec/30_encoding.md R102, R104; spec/60_exceptions.md R272, R273) -/

/-- The step whose choice is the issue of a word, with HOST idle, is `exec` of the command it decodes to, at the
state in which that choice is used up; with an operation in flight nothing happens (R102). That choices stand in the
state, and that one not enabled is used up, are the model's choices (log 4, log 5). -/
def Obligations.StepIssuesTheDecodedCommand : Prop :=
  ∀ (s : State) (w : Word) (rest : List Choice) (i : Instr), s.inputs = .issue w :: rest →
    decode w = .ok i →
    (s.host.op = none → step s = exec i { s with inputs := rest }) ∧
    (s.host.op ≠ none → step s = .next { s with inputs := rest })

/-- The step whose choice is HOST, with command `i` in flight, is `exec i`, unless HOST is held, when nothing
happens (00_scope.md R9, R10; 10_state.md R24). That choices stand in the state is the model's choice (log 4, log 5). -/
def Obligations.StepRunsTheOperationInFlight : Prop :=
  ∀ (s : State) (rest : List Choice) (i : Instr), s.inputs = .host :: rest → s.host.op = some i →
    (held s = false → step s = exec i { s with inputs := rest }) ∧
    (held s = true → step s = .next { s with inputs := rest })

/-- A word placed by `withFetchWord` is the one the very next step issues, in any state (log 6). -/
def Obligations.FetchWordIsIssuedNext : Prop :=
  ∀ (s : State) (nbits w : Nat) (i : Instr), decodeTableWord nbits w = some i →
    step (s.withFetchWord nbits w) = exec i { s with host.op := none }

/-- R104, R273: with HOST idle, each use outside the contract is refused with its reason, the first row of the
table that applies naming it (R267), and nothing but the record changes. The word recorded is `encode i`, the model's
inference from R273 (log 10). -/
def Obligations.ContractViolationsRefused : Prop :=
  ∀ s : State, s.host.op = none →
    (∀ r, (r = 0 ∨ s.cfg.F_REF / (16 * r) = 0 ∨ s.cfg.F_REF / (16 * r) - 1 > 65535) →
      exec (.utInit r) s = .next (refusedAs s (.utInit r) .badBaud)) ∧
    (∀ b, s.ut.inited = false →
      exec (.utSendByte b) s = .next (refusedAs s (.utSendByte b) .serialNotInited)) ∧
    (s.ut.inited = false → exec .utRecvByte s = .next (refusedAs s .utRecvByte .serialNotInited)) ∧
    (∀ n, s.ut.inited = false →
      exec (.utRecvLine n) s = .next (refusedAs s (.utRecvLine n) .serialNotInited)) ∧
    (s.ut.inited = true → exec (.utRecvLine 0) s = .next (refusedAs s (.utRecvLine 0) .badMaxLen)) ∧
    exec (.bmInit 0) s = .next (refusedAs s (.bmInit 0) .badClockRate) ∧
    (∀ r, r ≠ 0 → s.bm.state ≠ .idle →
      exec (.bmInit r) s = .next (refusedAs s (.bmInit r) .busSequence)) ∧
    (∀ i ∈ ([.bmReadAck, .bmReadNack, .bmStop] : List Instr), s.bm.inited = false →
      exec i s = .next (refusedAs s i .busNotInited)) ∧
    (∀ a d, s.bm.inited = false → exec (.bmStart a d) s = .next (refusedAs s (.bmStart a d) .busNotInited)) ∧
    (∀ b, s.bm.inited = false → exec (.bmWrite b) s = .next (refusedAs s (.bmWrite b) .busNotInited)) ∧
    (∀ d r v, s.bm.inited = false →
      exec (.bmWriteReg d r v) s = .next (refusedAs s (.bmWriteReg d r v) .busNotInited)) ∧
    (∀ d r, s.bm.inited = false →
      exec (.bmReadReg d r) s = .next (refusedAs s (.bmReadReg d r) .busNotInited)) ∧
    (∀ d r n, s.bm.inited = false →
      exec (.bmReadRegs d r n) s = .next (refusedAs s (.bmReadRegs d r n) .busNotInited)) ∧
    (s.bm.inited = true →
      (∀ a d, s.bm.state = .started ∨ s.bm.state = .stopped →
        exec (.bmStart a d) s = .next (refusedAs s (.bmStart a d) .busSequence)) ∧
      (∀ b, ¬ ((s.bm.state = .addressAcked ∨ s.bm.state = .writing) ∧ s.bm.dir = .write) →
        exec (.bmWrite b) s = .next (refusedAs s (.bmWrite b) .busSequence)) ∧
      (∀ i ∈ ([.bmReadAck, .bmReadNack] : List Instr),
        ¬ ((s.bm.state = .addressAcked ∨ s.bm.state = .reading) ∧ s.bm.dir = .read) →
        exec i s = .next (refusedAs s i .busSequence)) ∧
      (s.bm.state = .idle ∨ s.bm.state = .started ∨ s.bm.state = .stopped →
        exec .bmStop s = .next (refusedAs s .bmStop .busSequence)) ∧
      (∀ d r v, s.bm.state ≠ .idle →
        exec (.bmWriteReg d r v) s = .next (refusedAs s (.bmWriteReg d r v) .busSequence)) ∧
      (∀ d r, s.bm.state ≠ .idle →
        exec (.bmReadReg d r) s = .next (refusedAs s (.bmReadReg d r) .busSequence)) ∧
      (∀ d r n, s.bm.state ≠ .idle →
        exec (.bmReadRegs d r n) s = .next (refusedAs s (.bmReadRegs d r n) .busSequence)) ∧
      (∀ d r, s.bm.state = .idle →
        exec (.bmReadRegs d r 0) s = .next (refusedAs s (.bmReadRegs d r 0) .badCount)))

/-- R102, R104: with HOST idle and the contract met, issuing a command makes it the operation in flight at its
first label and does nothing else. -/
def Obligations.CommandsAccepted : Prop :=
  ∀ s : State, s.host.op = none →
    (∀ r, r ≠ 0 → s.cfg.F_REF / (16 * r) ≠ 0 → s.cfg.F_REF / (16 * r) - 1 ≤ 65535 →
      exec (.utInit r) s = .next (acceptedAs s (.utInit r) none .i0)) ∧
    (s.ut.inited = true →
      (∀ b, exec (.utSendByte b) s = .next (acceptedAs s (.utSendByte b) none .s0)) ∧
      exec .utRecvByte s = .next (acceptedAs s .utRecvByte none .v0) ∧
      (∀ n, 1 ≤ n → exec (.utRecvLine n) s = .next (acceptedAs s (.utRecvLine n) none .l0))) ∧
    (∀ r, r ≠ 0 → s.bm.state = .idle → exec (.bmInit r) s = .next (acceptedAs s (.bmInit r) none .n0)) ∧
    (s.bm.inited = true →
      (∀ a d, s.bm.state ≠ .started → s.bm.state ≠ .stopped →
        exec (.bmStart a d) s = .next (acceptedAs s (.bmStart a d) none .t0)) ∧
      (∀ b, s.bm.state = .addressAcked ∨ s.bm.state = .writing → s.bm.dir = .write →
        exec (.bmWrite b) s = .next (acceptedAs s (.bmWrite b) none .w0)) ∧
      (s.bm.state = .addressAcked ∨ s.bm.state = .reading → s.bm.dir = .read →
        exec .bmReadAck s = .next (acceptedAs s .bmReadAck none .a0) ∧
        exec .bmReadNack s = .next (acceptedAs s .bmReadNack none .k0)) ∧
      (s.bm.state = .addressAcked ∨ s.bm.state = .writing ∨ s.bm.state = .reading →
        exec .bmStop s = .next (acceptedAs s .bmStop none .p0)) ∧
      (s.bm.state = .idle →
        (∀ d r v, exec (.bmWriteReg d r v) s = .next (acceptedAs s (.bmWriteReg d r v) (some .h0) .t0)) ∧
        (∀ d r, exec (.bmReadReg d r) s = .next (acceptedAs s (.bmReadReg d r) (some .g0) .t0)) ∧
        (∀ d r n, 1 ≤ n →
          exec (.bmReadRegs d r n) s = .next (acceptedAs s (.bmReadRegs d r n) (some .q0) .t0))))

/-! ## The Serial Transport commands, micro-step by micro-step (spec/40_serial_transport.md) -/

/-- R120: the four micro-steps of `UT_INIT`. -/
def Obligations.UtInitMicroSteps : Prop :=
  ∀ (r : Nat) (s : State), s.host.op = some (.utInit r) →
    (s.host.step = .i0 → exec (.utInit r) s = .next { s with
      ut.baudDiv := BitVec.ofNat 16 (s.cfg.F_REF / (16 * r) - 1)
      host.step := .i1 }) ∧
    (s.host.step = .i1 → exec (.utInit r) s = .next { s with
      ut.rxIe := true
      ut.txIe := false
      host.step := .i2 }) ∧
    (s.host.step = .i2 → exec (.utInit r) s = .next { s with ut.gie := true, host.step := .i3 }) ∧
    (s.host.step = .i3 → exec (.utInit r) s = .next { s with
      ut.inited := true
      host := returned s.host (.utInit r) .i3 .unit })

/-- R122: the four micro-steps of `UT_SEND_BYTE`, the hold of S0 among them; the one byte stored is at slot
`tx_head`. -/
def Obligations.UtSendByteMicroSteps : Prop :=
  ∀ (b : Byte) (s : State), s.host.op = some (.utSendByte b) →
    (s.host.step = .s0 → nextIndex s.cfg.N s.ut.tx.head = s.ut.tx.tail →
      exec (.utSendByte b) s = .next s) ∧
    (s.host.step = .s0 → nextIndex s.cfg.N s.ut.tx.head ≠ s.ut.tx.tail →
      exec (.utSendByte b) s = .next { s with host.step := .s1 }) ∧
    (s.host.step = .s1 → s.ut.tx.head.toNat < s.cfg.N → exec (.utSendByte b) s = .next { s with
      ut.tx.buf := s.ut.tx.buf.write s.ut.tx.head.toNat b
      host.step := .s2 }) ∧
    (s.host.step = .s2 → exec (.utSendByte b) s = .next { s with
      ut.tx.head := nextIndex s.cfg.N s.ut.tx.head
      host.step := .s3 }) ∧
    (s.host.step = .s3 → exec (.utSendByte b) s = .next { s with
      ut.txIe := true
      host := returned s.host (.utSendByte b) .s3 .unit })

/-- R125: the three micro-steps of `UT_RECV_BYTE`, the hold of V0 among them; nothing is stored and only
`rx_tail` moves. -/
def Obligations.UtRecvByteMicroSteps : Prop :=
  ∀ s : State, s.host.op = some .utRecvByte →
    (s.host.step = .v0 → s.ut.rx.head = s.ut.rx.tail → exec .utRecvByte s = .next s) ∧
    (s.host.step = .v0 → s.ut.rx.head ≠ s.ut.rx.tail →
      exec .utRecvByte s = .next { s with host.step := .v1 }) ∧
    (∀ v, s.host.step = .v1 → s.ut.rx.tail.toNat < s.cfg.N →
      s.ut.rx.buf.read? s.ut.rx.tail.toNat = some v →
      exec .utRecvByte s = .next { s with host.locals.v := v, host.step := .v2 }) ∧
    (s.host.step = .v2 → exec .utRecvByte s = .next { s with
      ut.rx.tail := nextIndex s.cfg.N s.ut.rx.tail
      host := returned s.host .utRecvByte .v2 (.byte s.host.locals.v) })

/-- R127, R129: the lines L0 to L6 of `UT_RECV_LINE`, every branch of the terminator, edit and echo tests, with
the returns of the calls it makes. -/
def Obligations.UtRecvLineMicroSteps : Prop :=
  ∀ (m : Nat) (s : State), s.host.op = some (.utRecvLine m) →
    (s.host.caller = none →
      (s.host.step = .l0 → exec (.utRecvLine m) s = .next { s with
        host.locals.i := 0
        host.step := .l1 }) ∧
      (s.host.step = .l1 → s.host.locals.i ≥ m - 1 →
        exec (.utRecvLine m) s = .next { s with host.step := .l6 }) ∧
      (s.host.step = .l1 → s.host.locals.i < m - 1 → exec (.utRecvLine m) s = .next { s with
        host.step := .v0
        host.caller := some .l2 }) ∧
      (s.host.step = .l3 → s.host.locals.c = s.cfg.CR ∨ s.host.locals.c = s.cfg.LF →
        exec (.utRecvLine m) s = .next { s with host.step := .l6 }) ∧
      (s.host.step = .l3 → s.host.locals.c ≠ s.cfg.CR → s.host.locals.c ≠ s.cfg.LF →
        exec (.utRecvLine m) s = .next { s with host.step := .l4 }) ∧
      (s.host.step = .l4 → s.cfg.EDIT_ENABLE = false ∨ s.host.locals.c ∉ s.cfg.BACKSPACE_CODES →
        exec (.utRecvLine m) s = .next { s with host.step := .l5 }) ∧
      (s.host.step = .l4 → s.cfg.EDIT_ENABLE = true → s.host.locals.c ∈ s.cfg.BACKSPACE_CODES →
        (s.host.locals.i = 0 → exec (.utRecvLine m) s = .next { s with host.step := .l1 }) ∧
        (∀ e es, s.host.locals.i > 0 → s.cfg.ERASE_SEQUENCE = e :: es →
          exec (.utRecvLine m) s = .next { s with
            host.locals.i := s.host.locals.i - 1
            host.locals.erase := e :: es
            host.step := .s0
            host.caller := some .l4 }) ∧
        (s.host.locals.i > 0 → s.cfg.ERASE_SEQUENCE = [] → exec (.utRecvLine m) s = .next { s with
            host.locals.i := s.host.locals.i - 1
            host.locals.erase := []
            host.step := .l1 })) ∧
      (s.host.step = .l5 → s.cfg.ECHO_ENABLE = false → exec (.utRecvLine m) s = .next { s with
        host.locals.lineBuf := storeAt s.host.locals.lineBuf s.host.locals.i s.host.locals.c
        host.locals.i := s.host.locals.i + 1
        host.step := .l1 }) ∧
      (s.host.step = .l5 → s.cfg.ECHO_ENABLE = true → exec (.utRecvLine m) s = .next { s with
        host.locals.lineBuf := storeAt s.host.locals.lineBuf s.host.locals.i s.host.locals.c
        host.locals.i := s.host.locals.i + 1
        host.step := .s0
        host.caller := some .l5 }) ∧
      (s.host.step = .l6 → s.host.locals.i ≤ s.host.locals.lineBuf.length →
        exec (.utRecvLine m) s = .next { s with
          host := returned s.host (.utRecvLine m) .l6
            (.line s.host.locals.i
              (s.host.locals.lineBuf.take s.host.locals.i ++ [s.cfg.LINE_MARKER])) })) ∧
    (s.host.caller = some .l2 →
      (s.host.step = .v0 → s.ut.rx.head = s.ut.rx.tail → exec (.utRecvLine m) s = .next s) ∧
      (s.host.step = .v0 → s.ut.rx.head ≠ s.ut.rx.tail →
        exec (.utRecvLine m) s = .next { s with host.step := .v1 }) ∧
      (∀ v, s.host.step = .v1 → s.ut.rx.tail.toNat < s.cfg.N →
        s.ut.rx.buf.read? s.ut.rx.tail.toNat = some v →
        exec (.utRecvLine m) s = .next { s with host.locals.v := v, host.step := .v2 }) ∧
      (s.host.step = .v2 → exec (.utRecvLine m) s = .next { s with
        ut.rx.tail := nextIndex s.cfg.N s.ut.rx.tail
        host.locals.c := s.host.locals.v
        host.step := .l3
        host.caller := none })) ∧
    (∀ e es, (s.host.caller = some .l4 ∧ s.host.locals.erase = e :: es) ∨
        (s.host.caller = some .l5 ∧ s.host.locals.c = e) →
      (s.host.step = .s0 → nextIndex s.cfg.N s.ut.tx.head = s.ut.tx.tail →
        exec (.utRecvLine m) s = .next s) ∧
      (s.host.step = .s0 → nextIndex s.cfg.N s.ut.tx.head ≠ s.ut.tx.tail →
        exec (.utRecvLine m) s = .next { s with host.step := .s1 }) ∧
      (s.host.step = .s1 → s.ut.tx.head.toNat < s.cfg.N → exec (.utRecvLine m) s = .next { s with
        ut.tx.buf := s.ut.tx.buf.write s.ut.tx.head.toNat e
        host.step := .s2 }) ∧
      (s.host.step = .s2 → exec (.utRecvLine m) s = .next { s with
        ut.tx.head := nextIndex s.cfg.N s.ut.tx.head
        host.step := .s3 })) ∧
    (s.host.step = .s3 →
      (∀ e e' es, s.host.caller = some .l4 → s.host.locals.erase = e :: e' :: es →
        exec (.utRecvLine m) s = .next { s with
          ut.txIe := true
          host.locals.erase := e' :: es
          host.step := .s0 }) ∧
      (∀ e, s.host.caller = some .l4 → s.host.locals.erase = [e] →
        exec (.utRecvLine m) s = .next { s with
          ut.txIe := true
          host.locals.erase := []
          host.step := .l1
          host.caller := none }) ∧
      (s.host.caller = some .l5 → exec (.utRecvLine m) s = .next { s with
        ut.txIe := true
        host.step := .l1
        host.caller := none }))

/-! ## The bus primitives, micro-step by micro-step (spec/42_bus_primitives.md) -/

/-- R190: the two micro-steps of `BM_INIT`; whatever `BM_TIMING` is (log 13). -/
def Obligations.BmInitMicroSteps : Prop :=
  ∀ (r : Nat) (s : State), s.host.op = some (.bmInit r) →
    (s.host.step = .n0 → exec (.bmInit r) s = .next { s with
      bm.rate := BitVec.ofNat 24 r
      bm.timing := Config.bmTiming s.cfg.F_REF r
      host.step := .n1 }) ∧
    (s.host.step = .n1 → exec (.bmInit r) s = .next { s with
      bm.inited := true
      host := returned s.host (.bmInit r) .n1 .unit })

/-- R192: the five micro-steps of `BM_START`, both holds among them; the address byte is the 7-bit address shifted
left by one with the direction bit in the low bit. -/
def Obligations.BmStartMicroSteps : Prop :=
  ∀ (a : DevAddr) (d : Direction) (s : State), s.host.op = some (.bmStart a d) →
    (s.host.step = .t0 → exec (.bmStart a d) s = .next { s with
      bm.dir := d
      bm.state := .started
      bm.done := false
      bm.pending := some .startCond
      host.step := .t1 }) ∧
    (s.host.step = .t1 ∨ s.host.step = .t3 → s.bm.done = false → exec (.bmStart a d) s = .next s) ∧
    (s.host.step = .t1 → s.bm.done = true →
      exec (.bmStart a d) s = .next { s with host.step := .t2 }) ∧
    (∀ x : Byte, x.toNat = a.toNat * 2 + d.bit → s.host.step = .t2 →
      exec (.bmStart a d) s = .next { s with
        bm.data := x
        bm.done := false
        bm.pending := some (.xmit x)
        host.step := .t3 }) ∧
    (s.host.step = .t3 → s.bm.done = true →
      exec (.bmStart a d) s = .next { s with host.step := .t4 }) ∧
    (s.host.step = .t4 → exec (.bmStart a d) s = .next { s with
      bm.state := .addressAcked
      host := returned s.host (.bmStart a d) .t4 (.status s.bm.status) })

/-- R193: the three micro-steps of `BM_WRITE`, its hold among them. -/
def Obligations.BmWriteMicroSteps : Prop :=
  ∀ (b : Byte) (s : State), s.host.op = some (.bmWrite b) →
    (s.host.step = .w0 → exec (.bmWrite b) s = .next { s with
      bm.data := b
      bm.state := .writing
      bm.done := false
      bm.pending := some (.xmit b)
      host.step := .w1 }) ∧
    (s.host.step = .w1 → s.bm.done = false → exec (.bmWrite b) s = .next s) ∧
    (s.host.step = .w1 → s.bm.done = true → exec (.bmWrite b) s = .next { s with host.step := .w2 }) ∧
    (s.host.step = .w2 → exec (.bmWrite b) s = .next { s with
      host := returned s.host (.bmWrite b) .w2 (.status s.bm.status) })

/-- R194, R195: the micro-steps of the two reads, their holds among them; the only difference is the phase. -/
def Obligations.BmReadMicroSteps : Prop :=
  ∀ s : State,
    (s.host.op = some .bmReadAck →
      (s.host.step = .a0 → exec .bmReadAck s = .next { s with
        bm.state := .reading
        bm.done := false
        bm.pending := some .recvAck
        host.step := .a1 }) ∧
      (s.host.step = .a1 → s.bm.done = false → exec .bmReadAck s = .next s) ∧
      (s.host.step = .a1 → s.bm.done = true → exec .bmReadAck s = .next { s with host.step := .a2 }) ∧
      (s.host.step = .a2 → exec .bmReadAck s = .next { s with
        host := returned s.host .bmReadAck .a2 (.byte s.bm.data) })) ∧
    (s.host.op = some .bmReadNack →
      (s.host.step = .k0 → exec .bmReadNack s = .next { s with
        bm.state := .reading
        bm.done := false
        bm.pending := some .recvNack
        host.step := .k1 }) ∧
      (s.host.step = .k1 → s.bm.done = false → exec .bmReadNack s = .next s) ∧
      (s.host.step = .k1 → s.bm.done = true → exec .bmReadNack s = .next { s with host.step := .k2 }) ∧
      (s.host.step = .k2 → exec .bmReadNack s = .next { s with
        host := returned s.host .bmReadNack .k2 (.byte s.bm.data) }))

/-- R196: the two micro-steps of `BM_STOP`; neither waits, so `stop` always ends. With the reference device
attached it sees the stop condition (95_test_vectors.md section 4). -/
def Obligations.BmStopMicroSteps : Prop :=
  ∀ s : State, s.host.op = some .bmStop →
    (s.host.step = .p0 → exec .bmStop s = .next { s with
      bm.state := .stopped
      bm.trace := s.bm.trace ++ [.stop]
      device := s.device.map fun d => { d with busy := false, sel := .none }
      host.step := .p1 }) ∧
    (s.host.step = .p1 → exec .bmStop s = .next { s with
      bm.state := .idle
      host := returned s.host .bmStop .p1 .unit })

/-! ## Whole commands, nothing else interleaved -/

/-- R120, R121, R190, R306: from HOST idle, issuing the word of an `init` and its HOST micro-steps leave exactly the
configuration elements written, and the result `Unit`: for `UT_INIT r` the divisor, the three enables and `ut_inited`,
for `BM_INIT r` the rate, the timing word and `bm_inited`. -/
def Obligations.InitCommandsRun : Prop :=
  ∀ (s : State) (r : Nat), s.host.op = none → r < 2 ^ 24 → r ≠ 0 →
    (s.cfg.F_REF / (16 * r) ≠ 0 → s.cfg.F_REF / (16 * r) - 1 ≤ 65535 →
      ∃ d : BitVec 16, d.toNat = s.cfg.F_REF / (16 * r) - 1 ∧
      runChoices [.issue (encode (.utInit r)), .host, .host, .host, .host] s = .next { s with
        ut.baudDiv := d
        ut.rxIe := true
        ut.txIe := false
        ut.gie := true
        ut.inited := true
        host := returned s.host (.utInit r) .i3 .unit }) ∧
    (s.bm.state = .idle →
      ∃ x : BitVec 24, x.toNat = r ∧
      runChoices [.issue (encode (.bmInit r)), .host, .host] s = .next { s with
        bm.rate := x
        bm.timing := Config.bmTiming s.cfg.F_REF r
        bm.inited := true
        host := returned s.host (.bmInit r) .n1 .unit })

/-- R122, R123: from HOST idle with room in a sound TX buffer, `UT_SEND_BYTE b` runs to its end in four
micro-steps: the live bytes gain `b` at the end, `tx_ie` is 1, and nothing else changes. -/
def Obligations.UtSendByteRuns : Prop :=
  ∀ (s : State) (b : Byte), s.host.op = none → s.ut.inited = true → s.cfg.legal →
    s.ut.tx.Sound s.cfg.N → s.ut.tx.full s.cfg.N = false →
    ∃ tx : CircBuf,
      runChoices [.issue (encode (.utSendByte b)), .host, .host, .host, .host] s = .next { s with
        ut.tx := tx
        ut.txIe := true
        host := returned s.host (.utSendByte b) .s3 .unit } ∧
      tx.liveSlots s.cfg.N = s.ut.tx.liveSlots s.cfg.N ++ [some b] ∧
      tx.head = nextIndex s.cfg.N s.ut.tx.head ∧ tx.tail = s.ut.tx.tail ∧
      ∀ a, a ≠ s.ut.tx.head.toNat → tx.buf.read? a = s.ut.tx.buf.read? a

/-- R125, R126: from HOST idle with a byte in a sound RX buffer, `UT_RECV_BYTE` runs to its end in three
micro-steps: it returns the oldest live byte, `rx_tail` moves past it, and nothing else changes. -/
def Obligations.UtRecvByteRuns : Prop :=
  ∀ s : State, s.host.op = none → s.ut.inited = true → s.cfg.legal → s.ut.rx.Sound s.cfg.N →
    s.ut.rx.empty = false →
    ∃ v : Byte,
      runChoices [.issue (encode .utRecvByte), .host, .host, .host] s = .next { s with
        ut.rx.tail := nextIndex s.cfg.N s.ut.rx.tail
        host := returned s.host .utRecvByte .v2 (.byte v) } ∧
      s.ut.rx.liveSlots s.cfg.N =
        some v :: { s.ut.rx with tail := nextIndex s.cfg.N s.ut.rx.tail }.liveSlots s.cfg.N

/-- R127, R128: with echo and edit off, `UT_RECV_LINE m` over an RX buffer whose live bytes are `bs`, none a
terminator and at most `m - 1` of them, then a CR or LF unless the limit is met, returns `Line(n, bs ++ [marker])`,
consuming the terminator if it read one and nothing more. -/
def Obligations.UtRecvLineRuns : Prop :=
  ∀ (s : State) (m : Nat) (bs : List Byte) (rest : List (Option Byte)),
    s.host.op = none → s.ut.inited = true → s.cfg.legal → s.ut.rx.Sound s.cfg.N →
    s.cfg.ECHO_ENABLE = false → s.cfg.EDIT_ENABLE = false → 1 ≤ m → m < 2 ^ 16 →
    (∀ b ∈ bs, b ≠ s.cfg.CR ∧ b ≠ s.cfg.LF) →
    (bs.length < m - 1 → ∀ c, c = s.cfg.CR ∨ c = s.cfg.LF →
      s.ut.rx.liveSlots s.cfg.N = bs.map some ++ some c :: rest →
      ∃ t : State,
        runChoices (.issue (encode (.utRecvLine m)) :: List.replicate (7 * bs.length + 7) .host) s = .next t ∧
        t.host.op = none ∧ t.host.faults = s.host.faults ∧
        t.host.results =
          s.host.results ++ [(.utRecvLine m, .line bs.length (bs ++ [s.cfg.LINE_MARKER]))] ∧
        t.ut.rx.liveSlots s.cfg.N = rest ∧
        t.ut = { s.ut with rx.tail := t.ut.rx.tail } ∧ t.bm = s.bm) ∧
    (bs.length = m - 1 → s.ut.rx.liveSlots s.cfg.N = bs.map some ++ rest →
      ∃ t : State,
        runChoices (.issue (encode (.utRecvLine m)) :: List.replicate (7 * bs.length + 3) .host) s = .next t ∧
        t.host.op = none ∧ t.host.faults = s.host.faults ∧
        t.host.results =
          s.host.results ++ [(.utRecvLine m, .line bs.length (bs ++ [s.cfg.LINE_MARKER]))] ∧
        t.ut.rx.liveSlots s.cfg.N = rest ∧
        t.ut = { s.ut with rx.tail := t.ut.rx.tail } ∧ t.bm = s.bm)

/-- R192: `BM_START a, d`, the free BUS agent completing its two phases with statuses `s0` and `s1`: the result is
the second, whatever the first; the state is `AddressAcked` whatever the second. -/
def Obligations.BmStartRuns : Prop :=
  ∀ (s : State) (a : DevAddr) (d : Direction) (s0 v0 s1 v1 : Byte), s.host.op = none →
    s.bm.inited = true → s.bm.state ≠ .started → s.bm.state ≠ .stopped → s.device = none →
    ∃ x : Byte, x.toNat = a.toNat * 2 + d.bit ∧
    runChoices [.issue (encode (.bmStart a d)), .host, .busComplete s0 v0, .host, .host,
        .busComplete s1 v1, .host, .host] s = .next { s with
      bm.dir := d
      bm.state := .addressAcked
      bm.data := x
      bm.status := s1
      bm.done := true
      bm.pending := none
      bm.trace := s.bm.trace ++ [.start s0, .xmit x s1]
      host := returned s.host (.bmStart a d) .t4 (.status s1) }

/-- R193 to R196: `BM_WRITE`, the two reads and `BM_STOP`, the free BUS agent completing their phase. -/
def Obligations.BmTransferAndStopRun : Prop :=
  ∀ (s : State) (st v : Byte), s.host.op = none → s.bm.inited = true → s.device = none →
    (∀ b, s.bm.state = .addressAcked ∨ s.bm.state = .writing → s.bm.dir = .write →
      runChoices [.issue (encode (.bmWrite b)), .host, .busComplete st v, .host, .host] s =
        .next { s with
          bm.data := b
          bm.state := .writing
          bm.status := st
          bm.done := true
          bm.pending := none
          bm.trace := s.bm.trace ++ [.xmit b st]
          host := returned s.host (.bmWrite b) .w2 (.status st) }) ∧
    (s.bm.state = .addressAcked ∨ s.bm.state = .reading → s.bm.dir = .read →
      runChoices [.issue (encode .bmReadAck), .host, .busComplete st v, .host, .host] s =
        .next { s with
          bm.data := v
          bm.state := .reading
          bm.status := st
          bm.done := true
          bm.pending := none
          bm.trace := s.bm.trace ++ [.recv .ack v st]
          host := returned s.host .bmReadAck .a2 (.byte v) } ∧
      runChoices [.issue (encode .bmReadNack), .host, .busComplete st v, .host, .host] s =
        .next { s with
          bm.data := v
          bm.state := .reading
          bm.status := st
          bm.done := true
          bm.pending := none
          bm.trace := s.bm.trace ++ [.recv .nack v st]
          host := returned s.host .bmReadNack .k2 (.byte v) }) ∧
    (s.bm.state = .addressAcked ∨ s.bm.state = .writing ∨ s.bm.state = .reading →
      runChoices [.issue (encode .bmStop), .host, .host] s = .next { s with
        bm.state := .idle
        bm.trace := s.bm.trace ++ [.stop]
        host := returned s.host .bmStop .p1 .unit })

/-- R231: `BM_WRITE_REG` with the free BUS agent answering any statuses: all three as expected, or the first
unexpected one at each of the three checks, which is returned with nothing further sent but the stop (R230). -/
def Obligations.BmWriteRegRuns : Prop :=
  ∀ (s : State) (dev : DevAddr) (reg val x s0 s1 s2 s3 : Byte), s.host.op = none →
    s.bm.inited = true → s.bm.state = .idle → s.device = none → x.toNat = dev.toNat * 2 →
    (s1 = s.cfg.ST_SLA_W_ACK → s2 = s.cfg.ST_DATA_W_ACK → s3 = s.cfg.ST_DATA_W_ACK →
      runChoices (.issue (encode (.bmWriteReg dev reg val)) :: (startChoices s0 s1 ++ .host ::
          (writeChoices s2 ++ .host :: (writeChoices s3 ++ .host :: stopChoices)))) s =
        .next (helperEnd s (.bmWriteReg dev reg val) .write val s3
          [.start s0, .xmit x s1, .xmit reg s2, .xmit val s3] (.status 0))) ∧
    (s1 ≠ s.cfg.ST_SLA_W_ACK →
      runChoices (.issue (encode (.bmWriteReg dev reg val)) :: (startChoices s0 s1 ++ .host ::
          stopChoices)) s =
        .next (helperEnd s (.bmWriteReg dev reg val) .write x s1 [.start s0, .xmit x s1] (.status s1))) ∧
    (s1 = s.cfg.ST_SLA_W_ACK → s2 ≠ s.cfg.ST_DATA_W_ACK →
      runChoices (.issue (encode (.bmWriteReg dev reg val)) :: (startChoices s0 s1 ++ .host ::
          (writeChoices s2 ++ .host :: stopChoices))) s =
        .next (helperEnd s (.bmWriteReg dev reg val) .write reg s2
          [.start s0, .xmit x s1, .xmit reg s2] (.status s2))) ∧
    (s1 = s.cfg.ST_SLA_W_ACK → s2 = s.cfg.ST_DATA_W_ACK → s3 ≠ s.cfg.ST_DATA_W_ACK →
      runChoices (.issue (encode (.bmWriteReg dev reg val)) :: (startChoices s0 s1 ++ .host ::
          (writeChoices s2 ++ .host :: (writeChoices s3 ++ .host :: stopChoices)))) s =
        .next (helperEnd s (.bmWriteReg dev reg val) .write val s3
          [.start s0, .xmit x s1, .xmit reg s2, .xmit val s3] (.status s3)))

/-- R232: `BM_READ_REG` with the free BUS agent: all three statuses as expected, then the byte read is returned
whatever the read's own status; or the first unexpected one at each of the three checks, with no value. -/
def Obligations.BmReadRegRuns : Prop :=
  ∀ (s : State) (dev : DevAddr) (reg x y s0 s1 s2 s3 s4 s5 v : Byte), s.host.op = none →
    s.bm.inited = true → s.bm.state = .idle → s.device = none →
    x.toNat = dev.toNat * 2 → y.toNat = dev.toNat * 2 + 1 →
    (s1 = s.cfg.ST_SLA_W_ACK → s2 = s.cfg.ST_DATA_W_ACK → s4 = s.cfg.ST_SLA_R_ACK →
      runChoices (.issue (encode (.bmReadReg dev reg)) :: (startChoices s0 s1 ++ .host ::
          (writeChoices s2 ++ .host :: (startChoices s3 s4 ++ .host ::
          (lastReadChoices s5 v ++ stopChoices))))) s =
        .next (helperEnd s (.bmReadReg dev reg) .read v s5
          [.start s0, .xmit x s1, .xmit reg s2, .start s3, .xmit y s4, .recv .nack v s5]
          (.statusByte 0 (some v)))) ∧
    (s1 ≠ s.cfg.ST_SLA_W_ACK →
      runChoices (.issue (encode (.bmReadReg dev reg)) :: (startChoices s0 s1 ++ .host ::
          stopChoices)) s =
        .next (helperEnd s (.bmReadReg dev reg) .write x s1 [.start s0, .xmit x s1]
          (.statusByte s1 none))) ∧
    (s1 = s.cfg.ST_SLA_W_ACK → s2 ≠ s.cfg.ST_DATA_W_ACK →
      runChoices (.issue (encode (.bmReadReg dev reg)) :: (startChoices s0 s1 ++ .host ::
          (writeChoices s2 ++ .host :: stopChoices))) s =
        .next (helperEnd s (.bmReadReg dev reg) .write reg s2
          [.start s0, .xmit x s1, .xmit reg s2] (.statusByte s2 none))) ∧
    (s1 = s.cfg.ST_SLA_W_ACK → s2 = s.cfg.ST_DATA_W_ACK → s4 ≠ s.cfg.ST_SLA_R_ACK →
      runChoices (.issue (encode (.bmReadReg dev reg)) :: (startChoices s0 s1 ++ .host ::
          (writeChoices s2 ++ .host :: (startChoices s3 s4 ++ .host :: stopChoices)))) s =
        .next (helperEnd s (.bmReadReg dev reg) .read y s4
          [.start s0, .xmit x s1, .xmit reg s2, .start s3, .xmit y s4] (.statusByte s4 none)))

/-- R233: `BM_READ_REGS dev, reg, count` with the free BUS agent, for every `count` from 1 to 255 and every list
`rs ++ [r]` of `count` (status, data) pairs: with the three statuses as expected it issues `count - 1` reads with
acknowledge and one with no acknowledge, in that order, whatever their statuses, and returns the bytes in order; on
the first unexpected status at each of its three checks it stops and returns that status with no bytes. -/
def Obligations.BmReadRegsRuns : Prop :=
  ∀ (s : State) (dev : DevAddr) (reg x y s0 s1 s2 s3 s4 : Byte) (rs : List (Byte × Byte)) (r : Byte × Byte),
    s.host.op = none → s.bm.inited = true → s.bm.state = .idle → s.device = none → rs.length < 255 →
    x.toNat = dev.toNat * 2 → y.toNat = dev.toNat * 2 + 1 →
    (s1 = s.cfg.ST_SLA_W_ACK → s2 = s.cfg.ST_DATA_W_ACK → s4 = s.cfg.ST_SLA_R_ACK →
      runChoices (.issue (encode (.bmReadRegs dev reg (rs.length + 1))) :: (startChoices s0 s1 ++ .host ::
          (writeChoices s2 ++ .host :: (startChoices s3 s4 ++ .host :: .host ::
          ((rs ++ [r]).flatMap readChoices ++ stopChoices))))) s =
        .next (helperEnd s (.bmReadRegs dev reg (rs.length + 1)) .read r.2 r.1
          ([.start s0, .xmit x s1, .xmit reg s2, .start s3, .xmit y s4] ++ readEvents (rs ++ [r]))
          (.statusBytes 0 (some ((rs ++ [r]).map Prod.snd))))) ∧
    (s1 ≠ s.cfg.ST_SLA_W_ACK →
      runChoices (.issue (encode (.bmReadRegs dev reg (rs.length + 1))) :: (startChoices s0 s1 ++ .host ::
          stopChoices)) s =
        .next (helperEnd s (.bmReadRegs dev reg (rs.length + 1)) .write x s1 [.start s0, .xmit x s1]
          (.statusBytes s1 none))) ∧
    (s1 = s.cfg.ST_SLA_W_ACK → s2 ≠ s.cfg.ST_DATA_W_ACK →
      runChoices (.issue (encode (.bmReadRegs dev reg (rs.length + 1))) :: (startChoices s0 s1 ++ .host ::
          (writeChoices s2 ++ .host :: stopChoices))) s =
        .next (helperEnd s (.bmReadRegs dev reg (rs.length + 1)) .write reg s2
          [.start s0, .xmit x s1, .xmit reg s2] (.statusBytes s2 none))) ∧
    (s1 = s.cfg.ST_SLA_W_ACK → s2 = s.cfg.ST_DATA_W_ACK → s4 ≠ s.cfg.ST_SLA_R_ACK →
      runChoices (.issue (encode (.bmReadRegs dev reg (rs.length + 1))) :: (startChoices s0 s1 ++ .host ::
          (writeChoices s2 ++ .host :: (startChoices s3 s4 ++ .host :: stopChoices)))) s =
        .next (helperEnd s (.bmReadRegs dev reg (rs.length + 1)) .read y s4
          [.start s0, .xmit x s1, .xmit reg s2, .start s3, .xmit y s4] (.statusBytes s4 none)))

/-- R236 a: against the reference device of 95_test_vectors.md section 4, `BM_WRITE_REG` then `BM_READ_REG` on the
same device and register returns the value just written, for every device address, register and value, whatever
the draws of the bus completions and whatever the device held: with the device attached its answers stand in the
place of the draws (log 14). -/
def Obligations.WriteThenReadRegisterReturnsTheValue : Prop :=
  ∀ (s : State) (d : SimDevice) (reg val : Byte) (cs : List Choice), s.host.op = none → s.bm.inited = true →
    s.bm.state = .idle → s.device = some d → d.busy = false → d.sel = .none →
    cs.map undrawn =
      .issue (encode (.bmWriteReg d.aDev reg val)) :: (startChoices 0 0 ++ .host ::
        (writeChoices 0 ++ .host :: (writeChoices 0 ++ .host :: (stopChoices ++
        .issue (encode (.bmReadReg d.aDev reg)) :: (startChoices 0 0 ++ .host ::
        (writeChoices 0 ++ .host :: (startChoices 0 0 ++ .host ::
        (lastReadChoices 0 0 ++ stopChoices)))))))) →
    ∃ t : State,
      runChoices cs s = .next t ∧
      t.host.op = none ∧ t.host.faults = s.host.faults ∧ t.bm.state = .idle ∧
      t.host.results = s.host.results ++
        [(.bmWriteReg d.aDev reg val, .status 0), (.bmReadReg d.aDev reg, .statusByte 0 (some val))] ∧
      ∃ d' : SimDevice, t.device = some d' ∧ d'.regs.readReg reg = val ∧
        ∀ r, r ≠ reg → d'.regs.readReg r = d.regs.readReg r

/-! ## The bus helpers, micro-step by micro-step (spec/43_bus_helpers.md) -/

/-- R230 to R233: the nine check lines compare the whole status `st` with the literal of the call before them; on
equality the helper goes on to its next line, on any other value it calls `stop()` in the check's own line. -/
def Obligations.HelperChecksGateTheTransaction : Prop :=
  ∀ (i : Instr) (s : State) (check first : Label) (line : Option Label) (expected : Byte),
    s.host.op = some i → s.host.caller = none → s.host.step = check →
    ((∃ dev reg val, i = .bmWriteReg dev reg val) ∧ (check, expected, line, first) ∈
        [(Label.h1, s.cfg.ST_SLA_W_ACK, some Label.h2, Label.w0),
         (.h3, s.cfg.ST_DATA_W_ACK, some .h4, .w0), (.h5, s.cfg.ST_DATA_W_ACK, some .h6, .p0)] ∨
     (∃ dev reg, i = .bmReadReg dev reg) ∧ (check, expected, line, first) ∈
        [(Label.g1, s.cfg.ST_SLA_W_ACK, some Label.g2, Label.w0),
         (.g3, s.cfg.ST_DATA_W_ACK, some .g4, .t0), (.g5, s.cfg.ST_SLA_R_ACK, some .g6, .k0)] ∨
     (∃ dev reg n, i = .bmReadRegs dev reg n) ∧ (check, expected, line, first) ∈
        [(Label.q1, s.cfg.ST_SLA_W_ACK, some Label.q2, Label.w0),
         (.q3, s.cfg.ST_DATA_W_ACK, some .q4, .t0), (.q5, s.cfg.ST_SLA_R_ACK, none, .q6)]) →
    (s.host.locals.st = expected →
      exec i s = .next { s with host.step := first, host.caller := line }) ∧
    (s.host.locals.st ≠ expected →
      exec i s = .next { s with host.step := .p0, host.caller := some check })

/-- Inside a helper a called primitive runs every micro-step of its own rule (R192 to R197), with the operands of the
call's line, and its return goes to that line: the status of `start` (T4) and `write` (W2) into `st` and on to the
check line, the byte of a read (A2, K2) into its place, and the return of `stop` (P1) into the helper's result (R231 to
R233, 00_scope.md R9 `call`). That the rest of a line happens in the returning micro-step is the model's reading
(log 9); that a failed read has no data part is the model's choice (log 15). -/
def Obligations.CalledPrimitivesRunInPlace : Prop :=
  ∀ (i : Instr) (s : State) (line : Label), s.host.op = some i → s.host.caller = some line →
    s.host.step ∈ labelsOf i (some line) →
    (s.host.step = .t0 → exec i s = .next { s with
      bm.dir := startDirection i (some line)
      bm.state := .started
      bm.done := false
      bm.pending := some .startCond
      host.step := .t1 }) ∧
    (s.host.step ∈ busHolds → s.bm.done = false → exec i s = .next s) ∧
    (∀ l next : Label, (l, next) ∈
        [(Label.t1, Label.t2), (.t3, .t4), (.w1, .w2), (.a1, .a2), (.k1, .k2)] →
      s.host.step = l → s.bm.done = true → exec i s = .next { s with host.step := next }) ∧
    (∀ (dev : DevAddr) (x : Byte), helperDevice i = some dev →
      x.toNat = dev.toNat * 2 + (startDirection i (some line)).bit → s.host.step = .t2 →
      exec i s = .next { s with
        bm.data := x
        bm.done := false
        bm.pending := some (.xmit x)
        host.step := .t3 }) ∧
    (∀ check : Label, (line, check) ∈
        [(Label.h0, Label.h1), (.g0, .g1), (.g4, .g5), (.q0, .q1), (.q4, .q5)] → s.host.step = .t4 →
      exec i s = .next { s with
        bm.state := .addressAcked
        host.locals.st := s.bm.status
        host.step := check
        host.caller := none }) ∧
    (∀ x : Byte, writtenByte i line = some x → s.host.step = .w0 → exec i s = .next { s with
      bm.data := x
      bm.state := .writing
      bm.done := false
      bm.pending := some (.xmit x)
      host.step := .w1 }) ∧
    (∀ check : Label, (line, check) ∈ [(Label.h2, Label.h3), (.h4, .h5), (.g2, .g3), (.q2, .q3)] →
      s.host.step = .w2 → exec i s = .next { s with
        host.locals.st := s.bm.status
        host.step := check
        host.caller := none }) ∧
    (s.host.step = .a0 → exec i s = .next { s with
      bm.state := .reading
      bm.done := false
      bm.pending := some .recvAck
      host.step := .a1 }) ∧
    (s.host.step = .k0 → exec i s = .next { s with
      bm.state := .reading
      bm.done := false
      bm.pending := some .recvNack
      host.step := .k1 }) ∧
    (s.host.step = .a2 → exec i s = .next { s with
      host.locals.resBytes := storeAt s.host.locals.resBytes s.host.locals.k s.bm.data
      host.locals.k := s.host.locals.k + 1
      host.step := .q7
      host.caller := none }) ∧
    (line = .g6 → s.host.step = .k2 → exec i s = .next { s with
      host.locals.v := s.bm.data
      host.step := .p0
      host.caller := some .g7 }) ∧
    (∀ dev reg count, i = .bmReadRegs dev reg count → s.host.step = .k2 → exec i s = .next { s with
      host.locals.resBytes := storeAt s.host.locals.resBytes (count - 1) s.bm.data
      host.step := .p0
      host.caller := some .q9 }) ∧
    (s.host.step = .p0 → exec i s = .next { s with
      bm.state := .stopped
      bm.trace := s.bm.trace ++ [.stop]
      device := s.device.map fun d => { d with busy := false, sel := .none }
      host.step := .p1 }) ∧
    (∀ r : Result, helperResult i line s.host.locals = some r → s.host.step = .p1 →
      exec i s = .next { s with
        bm.state := .idle
        host := returned s.host i .p1 r })

/-! ## The handlers and the environment (spec/41_serial_handlers_and_line.md, spec/42_bus_primitives.md R199) -/

/-- R160: RXI is taken iff `rx_ready`, `rx_ie` and `gie` are 1; it reads `rx_data` once, clearing `rx_ready` on both
branches, and stores the byte at slot `rx_head`, or drops it and changes nothing else when the RX buffer is full. That
a choice not enabled answers the same state is the model's choice (log 5). -/
def Obligations.RxiHandler : Prop :=
  ∀ s : State,
    (¬ (s.ut.rxReady = true ∧ s.ut.rxIe = true ∧ s.ut.gie = true) → perform .rxi s = .next s) ∧
    (s.ut.rxReady = true → s.ut.rxIe = true → s.ut.gie = true →
      (nextIndex s.cfg.N s.ut.rx.head = s.ut.rx.tail → perform .rxi s = .next { s with
        ut.rxReady := false
        ut.rxSwDropped := s.ut.rxSwDropped + 1 }) ∧
      (nextIndex s.cfg.N s.ut.rx.head ≠ s.ut.rx.tail → s.ut.rx.head.toNat < s.cfg.N →
        perform .rxi s = .next { s with
          ut.rxReady := false
          ut.rx.buf := s.ut.rx.buf.write s.ut.rx.head.toNat s.ut.rxData
          ut.rx.head := nextIndex s.cfg.N s.ut.rx.head }))

/-- R161: TXI is taken iff `tx_ready`, `tx_ie` and `gie` are 1; with the TX buffer empty it clears `tx_ie` and
nothing else, else it dequeues one byte into `tx_data`, whose write clears `tx_ready`. That a choice not enabled
answers the same state is the model's choice (log 5). -/
def Obligations.TxiHandler : Prop :=
  ∀ s : State,
    (¬ (s.ut.txReady = true ∧ s.ut.txIe = true ∧ s.ut.gie = true) → perform .txi s = .next s) ∧
    (s.ut.txReady = true → s.ut.txIe = true → s.ut.gie = true →
      (s.ut.tx.head = s.ut.tx.tail → perform .txi s = .next { s with ut.txIe := false }) ∧
      (∀ d, s.ut.tx.head ≠ s.ut.tx.tail → s.ut.tx.tail.toNat < s.cfg.N →
        s.ut.tx.buf.read? s.ut.tx.tail.toNat = some d → perform .txi s = .next { s with
          ut.tx.tail := nextIndex s.cfg.N s.ut.tx.tail
          ut.txData := d
          ut.txReady := false }))

/-- R163: `LineArrive(v)` is enabled iff `ut_inited == 1` and, under `hold`, `rx_ready == 0`; it records `v` in
`line_in` and either fills `rx_data`, or, on an overrun, counts a loss and keeps one of the two bytes as the policy
says (under `any_loss` either, by the draw `keepNew`, the model's form: log 12). That a choice not enabled answers the
same state is the model's choice (log 5). -/
def Obligations.LineArrives : Prop :=
  ∀ (s : State) (v : Byte) (keepNew : Bool),
    (s.ut.inited = false ∨ (s.cfg.RX_OVERRUN_POLICY = .hold ∧ s.ut.rxReady = true) →
      perform (.lineArrive v keepNew) s = .next s) ∧
    (s.ut.inited = true → s.ut.rxReady = false → perform (.lineArrive v keepNew) s = .next { s with
      ut.lineIn := s.ut.lineIn ++ [v]
      ut.rxData := v
      ut.rxReady := true }) ∧
    (s.ut.inited = true → s.ut.rxReady = true →
      (s.cfg.RX_OVERRUN_POLICY = .dropNew ∨ (s.cfg.RX_OVERRUN_POLICY = .anyLoss ∧ keepNew = false) →
        perform (.lineArrive v keepNew) s = .next { s with
          ut.lineIn := s.ut.lineIn ++ [v]
          ut.rxHwLost := s.ut.rxHwLost + 1 }) ∧
      (s.cfg.RX_OVERRUN_POLICY = .overwrite ∨ (s.cfg.RX_OVERRUN_POLICY = .anyLoss ∧ keepNew = true) →
        perform (.lineArrive v keepNew) s = .next { s with
          ut.lineIn := s.ut.lineIn ++ [v]
          ut.rxHwLost := s.ut.rxHwLost + 1
          ut.rxData := v }))

/-- R164: `LineShiftOut` is enabled iff `tx_ready == 0`; it appends `tx_data` to `line_out` and sets `tx_ready`.
That a choice not enabled answers the same state is the model's choice (log 5). -/
def Obligations.LineShiftsOut : Prop :=
  ∀ s : State,
    (s.ut.txReady = true → perform .lineShiftOut s = .next s) ∧
    (s.ut.txReady = false → perform .lineShiftOut s = .next { s with
      ut.lineOut := s.ut.lineOut ++ [s.ut.txData]
      ut.txReady := true })

/-- R199: `BusComplete(st, v)` is enabled iff a phase is pending; it latches the status, takes the data of a receive
phase, appends the phase's event and flags completion; with the reference device attached, the device's answers
stand in the place of the draws (95_test_vectors.md section 4; the field that attaches it is the model's, log 14). That
a choice not enabled answers the same state is the model's choice (log 5). -/
def Obligations.BusCompletes : Prop :=
  ∀ (s : State) (st v : Byte),
    (s.bm.pending = none → perform (.busComplete st v) s = .next s) ∧
    (s.device = none →
      (s.bm.pending = some .startCond → perform (.busComplete st v) s = .next { s with
        bm.trace := s.bm.trace ++ [.start st], bm.status := st, bm.pending := none, bm.done := true }) ∧
      (∀ x, s.bm.pending = some (.xmit x) → perform (.busComplete st v) s = .next { s with
        bm.trace := s.bm.trace ++ [.xmit x st], bm.status := st, bm.pending := none, bm.done := true }) ∧
      (s.bm.pending = some .recvAck → perform (.busComplete st v) s = .next { s with
        bm.data := v
        bm.trace := s.bm.trace ++ [.recv .ack v st], bm.status := st, bm.pending := none, bm.done := true }) ∧
      (s.bm.pending = some .recvNack → perform (.busComplete st v) s = .next { s with
        bm.data := v
        bm.trace := s.bm.trace ++ [.recv .nack v st], bm.status := st, bm.pending := none
        bm.done := true })) ∧
    (∀ d k, s.device = some d → s.bm.pending = some k →
      perform (.busComplete st v) s =
        (match perform (.busComplete (d.answer s.cfg k).s (d.answer s.cfg k).v) { s with device := none } with
         | .next t => .next { t with device := some (d.answer s.cfg k).dev }
         | o => o))

/-- The table of the reference device, row by row (95_test_vectors.md section 4), and its registers: a write is
read back, and changes no other register; and its initial state, for every address and every contents of its 256
registers: `p` 0, not busy, `sel` None, each register reading as given (00_scope.md R5). The data of the rows that give
none is 0, the model's choice (log 14). -/
def Obligations.ReferenceDeviceTable : Prop :=
  (∀ (a : DevAddr) (regs : Vector Byte 256),
    (SimDevice.initial a regs).aDev = a ∧ (SimDevice.initial a regs).p = 0 ∧
    (SimDevice.initial a regs).busy = false ∧ (SimDevice.initial a regs).sel = .none ∧
    ∀ r : Byte, (SimDevice.initial a regs).regs.readReg r = regs[r.toNat]) ∧
  ∀ (cfg : Config) (d : SimDevice) (x : Byte),
    (d.busy = false → d.answer cfg .startCond = ⟨0x08, 0, { d with busy := true, sel := .none }⟩) ∧
    (d.busy = true → d.answer cfg .startCond = ⟨0x10, 0, { d with sel := .none }⟩) ∧
    (d.sel = .none → x.toNat / 2 = d.aDev.toNat → x.toNat % 2 = 0 →
      d.answer cfg (.xmit x) = ⟨cfg.ST_SLA_W_ACK, 0, { d with sel := .wFirst }⟩) ∧
    (d.sel = .none → x.toNat / 2 = d.aDev.toNat → x.toNat % 2 = 1 →
      d.answer cfg (.xmit x) = ⟨cfg.ST_SLA_R_ACK, 0, { d with sel := .rd }⟩) ∧
    (d.sel = .none → x.toNat / 2 ≠ d.aDev.toNat → x.toNat % 2 = 0 →
      d.answer cfg (.xmit x) = ⟨0x20, 0, { d with sel := .off }⟩) ∧
    (d.sel = .none → x.toNat / 2 ≠ d.aDev.toNat → x.toNat % 2 = 1 →
      d.answer cfg (.xmit x) = ⟨0x48, 0, { d with sel := .off }⟩) ∧
    (d.sel = .wFirst → d.answer cfg (.xmit x) = ⟨cfg.ST_DATA_W_ACK, 0, { d with p := x, sel := .wData }⟩) ∧
    (d.sel = .wData → ∃ regs, d.answer cfg (.xmit x) = ⟨cfg.ST_DATA_W_ACK, 0, { d with regs := regs, p := d.p + 1 }⟩ ∧
      regs.readReg d.p = x ∧ ∀ r, r ≠ d.p → regs.readReg r = d.regs.readReg r) ∧
    (d.sel = .rd ∨ d.sel = .off → d.answer cfg (.xmit x) = ⟨0x30, 0, d⟩) ∧
    (d.sel = .rd → d.answer cfg .recvAck = ⟨0x50, d.regs.readReg d.p, { d with p := d.p + 1 }⟩ ∧
      d.answer cfg .recvNack = ⟨0x58, d.regs.readReg d.p, { d with p := d.p + 1, sel := .off }⟩) ∧
    (d.sel ≠ .rd → d.answer cfg .recvAck = ⟨0x50, 0xFF, d⟩ ∧ d.answer cfg .recvNack = ⟨0x58, 0xFF, d⟩)

/-! ## Reset (spec/10_state.md R49, spec/70_reset_and_hazards.md R302) -/

/-- R49: every value the rule gives after reset, whatever the parameters (00_scope.md R5), which reset takes as they
are given; the values it leaves unspecified are not stated. `State.reset` is reset at the default parameters. -/
def Obligations.ResetValues : Prop :=
  State.reset = State.resetWith Config.default none ∧
  ∀ (cfg : Config) (device : Option SimDevice) (s : State), s = State.resetWith cfg device →
    s.cfg = cfg ∧ s.device = device ∧
    s.ut.tx.head = 0 ∧ s.ut.tx.tail = 0 ∧ s.ut.rx.head = 0 ∧ s.ut.rx.tail = 0 ∧ s.ut.rxIe = false ∧
    s.ut.txIe = false ∧ s.ut.rxReady = false ∧ s.ut.txReady = true ∧ s.ut.inited = false ∧
    s.ut.lineOut = [] ∧ s.ut.lineIn = [] ∧ s.ut.rxSwDropped = 0 ∧ s.ut.rxHwLost = 0 ∧
    s.bm.done = false ∧ s.bm.pending = none ∧ s.bm.state = .idle ∧ s.bm.inited = false ∧ s.bm.trace = [] ∧
    s.host.op = none ∧ s.host.locals = Locals.empty ∧ s.host.results = [] ∧ s.host.faults = []

/-- R302: at reset nothing runs by itself: whatever the values the spec leaves open, no choice but an issue is
enabled or changes anything. That a choice not enabled answers the same state is the model's choice (log 5). -/
def Obligations.ResetIsStableUntilIssue : Prop :=
  ∀ (s : State) (c : Choice), s.ut.rxIe = false → s.ut.txIe = false → s.ut.inited = false →
    s.ut.txReady = true → s.bm.pending = none → s.host.op = none →
    (∀ w, c ≠ .issue w) → enabled c s = false ∧ perform c s = .next s

/-- The reset state meets the invariant that every step keeps, at every legal setting of the parameters (R5), with the
free BUS agent and with the reference device in its initial state. -/
def Obligations.ResetMeetsTheInvariant : Prop :=
  Inv State.reset ∧
  ∀ cfg : Config, cfg.legal → Inv (State.resetWith cfg none) ∧
    ∀ (a : DevAddr) (regs : Vector Byte 256), Inv (State.resetWith cfg (some (SimDevice.initial a regs)))

/-! ## Invariants every step keeps -/

/-- R23, R50, R63, R64: the buffer invariant, the indices below N, every live slot written, room at S1 and S2, the
operand of send_byte in its slot at S2, a byte at V1 and V2, the byte read still in its slot at V2, is kept by every
step of every agent. -/
def Obligations.StepKeepsTheBufferInvariant : Prop :=
  ∀ s t : State, SerialInv s → step s = .next t → SerialInv t

/-- R24, R305: HOST stays at a label of the operation in flight, whose unit is initialised. -/
def Obligations.StepKeepsThePosition : Prop :=
  ∀ s t : State, HostInv s → step s = .next t → HostInv t

/-- R127, R233: the temporaries of receive_line and read_registers stay in range. -/
def Obligations.StepKeepsTheTemporaries : Prop :=
  ∀ s t : State, HostInv s → LocalsInv s → step s = .next t → LocalsInv t

/-- R198, R199, R205: the bus protocol: at most one phase pending and only while HOST waits for it, and the state
machine's state is the one of HOST's label, through every primitive and helper; the reference device's registers keep
their canonical form. -/
def Obligations.StepKeepsTheBusProtocol : Prop :=
  ∀ s t : State, HostInv s → BusInv s → step s = .next t → BusInv t

/-- From every state that meets the invariant a step answers a next state: the machine never stops, by a fault or a
refusal, whatever any agent does (20 R67, 41 R162, 60 R269, R274; log 1, log 16). -/
def Obligations.InvariantStepNeverStops : Prop :=
  ∀ s : State, Inv s → ∃ t, step s = .next t

/-! ## Rules about the whole machine -/

/-- R25, R30 to R33, R42, R43, 00 R5: no step changes a parameter; no step clears `gie`, `rx_ie`, `ut_inited` or
`bm_inited`; the records (results, faults, both line traces, the bus trace) only grow, by at most one entry a step, and
the loss counters never fall. -/
def Obligations.ParametersFixedAndRecordsOnlyGrow : Prop :=
  ∀ s t : State, step s = .next t →
    t.cfg = s.cfg ∧ (s.ut.gie = true → t.ut.gie = true) ∧ (s.ut.rxIe = true → t.ut.rxIe = true) ∧
    (s.ut.inited = true → t.ut.inited = true) ∧ (s.bm.inited = true → t.bm.inited = true) ∧
    (∃ x, t.host.results = s.host.results ++ x ∧ x.length ≤ 1) ∧
    (∃ x, t.host.faults = s.host.faults ++ x ∧ x.length ≤ 1) ∧
    (∃ x, t.ut.lineOut = s.ut.lineOut ++ x ∧ x.length ≤ 1) ∧
    (∃ x, t.ut.lineIn = s.ut.lineIn ++ x ∧ x.length ≤ 1) ∧
    (∃ x, t.bm.trace = s.bm.trace ++ x ∧ x.length ≤ 1) ∧
    s.ut.rxSwDropped ≤ t.ut.rxSwDropped ∧ s.ut.rxHwLost ≤ t.ut.rxHwLost

/-- R26: the ownership table: which agent's step can change each shared element. -/
def Obligations.EachElementHasItsWriter : Prop :=
  ∀ (s t : State) (c : Choice), perform c s = .next t →
    (t.ut.rx.head ≠ s.ut.rx.head ∨ t.ut.rx.buf ≠ s.ut.rx.buf → c = .rxi) ∧
    (t.ut.rx.tail ≠ s.ut.rx.tail → c = .host) ∧
    (t.ut.tx.head ≠ s.ut.tx.head ∨ t.ut.tx.buf ≠ s.ut.tx.buf → c = .host) ∧
    (t.ut.tx.tail ≠ s.ut.tx.tail → c = .txi) ∧
    (t.ut.txIe ≠ s.ut.txIe → (c = .host ∧ (t.ut.txIe = true ∨ ∃ r, s.host.op = some (.utInit r))) ∨
      (c = .txi ∧ t.ut.txIe = false)) ∧
    (t.ut.rxIe ≠ s.ut.rxIe ∨ t.ut.gie ≠ s.ut.gie → c = .host ∧ ∃ r, s.host.op = some (.utInit r)) ∧
    (t.ut.rxReady ≠ s.ut.rxReady → (c = .rxi ∧ t.ut.rxReady = false) ∨
      (t.ut.rxReady = true ∧ ∃ v k, c = .lineArrive v k)) ∧
    (t.ut.rxData ≠ s.ut.rxData → ∃ v k, c = .lineArrive v k) ∧
    (t.ut.txReady ≠ s.ut.txReady → (c = .txi ∧ t.ut.txReady = false) ∨
      (c = .lineShiftOut ∧ t.ut.txReady = true)) ∧
    (t.ut.txData ≠ s.ut.txData → c = .txi)

/-- 20 R61, 40 R130, 41 R160: the frame of the Serial Transport commands: none touches the bus engine, the device,
the receive side but `rx_tail`, the link registers or the traces; only S1 stores, and only at slot `tx_head`; each
command leaves what its rule does not name. -/
def Obligations.SerialCommandsFrame : Prop :=
  ∀ (i : Instr) (s t : State), exec i s = .next t →
    (∃ r, i = .utInit r) ∨ (∃ b, i = .utSendByte b) ∨ i = .utRecvByte ∨ (∃ m, i = .utRecvLine m) →
    t.bm = s.bm ∧ t.device = s.device ∧ t.cfg = s.cfg ∧ t.inputs = s.inputs ∧ t.draws = s.draws ∧
    t.ut.rx.buf = s.ut.rx.buf ∧ t.ut.rx.head = s.ut.rx.head ∧ t.ut.rxData = s.ut.rxData ∧
    t.ut.rxReady = s.ut.rxReady ∧ t.ut.tx.tail = s.ut.tx.tail ∧ t.ut.txData = s.ut.txData ∧
    t.ut.txReady = s.ut.txReady ∧ t.ut.lineOut = s.ut.lineOut ∧ t.ut.lineIn = s.ut.lineIn ∧
    t.ut.rxSwDropped = s.ut.rxSwDropped ∧ t.ut.rxHwLost = s.ut.rxHwLost ∧
    (∀ a, a ≠ s.ut.tx.head.toNat ∨ s.host.op = none ∨ s.host.step ≠ .s1 →
      t.ut.tx.buf.read? a = s.ut.tx.buf.read? a) ∧
    ((∃ r, i = .utInit r) → t.ut.tx = s.ut.tx ∧ t.ut.rx = s.ut.rx) ∧
    ((∃ b, i = .utSendByte b) → t.ut = { s.ut with tx := t.ut.tx, txIe := t.ut.txIe }) ∧
    (i = .utRecvByte → t.ut = { s.ut with rx := t.ut.rx }) ∧
    ((∃ m, i = .utRecvLine m) → t.ut = { s.ut with tx := t.ut.tx, rx := t.ut.rx, txIe := t.ut.txIe })

/-- 20 R61, 42 R190 to R196: the frame of the bus commands: none touches the Serial Transport; all but `BM_INIT`
leave the rate, the timing and `bm_inited`; none writes `bm_status`; only `stop` writes the trace and reaches the
device; `BM_INIT` writes nothing else of the engine. -/
def Obligations.BusCommandsFrame : Prop :=
  ∀ (i : Instr) (s t : State), exec i s = .next t →
    ¬ ((∃ r, i = .utInit r) ∨ (∃ b, i = .utSendByte b) ∨ i = .utRecvByte ∨ (∃ m, i = .utRecvLine m)) →
    t.ut = s.ut ∧ t.cfg = s.cfg ∧ t.inputs = s.inputs ∧ t.draws = s.draws ∧
    t.bm.status = s.bm.status ∧
    (s.host.op = none ∨ s.host.step ≠ .p0 → t.device = s.device ∧ t.bm.trace = s.bm.trace) ∧
    ((∀ r, i ≠ .bmInit r) → t.bm.rate = s.bm.rate ∧ t.bm.timing = s.bm.timing ∧ t.bm.inited = s.bm.inited) ∧
    ((∃ r, i = .bmInit r) →
      t.bm = { s.bm with rate := t.bm.rate, timing := t.bm.timing, inited := t.bm.inited })

/-- R268, R269: an interrupt or a step of LINE leaves HOST, the bus engine, its environment and the parameters
exactly as they were, so HOST goes on at the same label; RXI and TXI leave `gie` and `rx_ie`. -/
def Obligations.HandlersLeaveTheMainContext : Prop :=
  ∀ (s t : State) (c : Choice), perform c s = .next t →
    c = .rxi ∨ c = .txi ∨ c = .lineShiftOut ∨ (∃ v k, c = .lineArrive v k) →
    t.host = s.host ∧ t.bm = s.bm ∧ t.device = s.device ∧ t.cfg = s.cfg ∧ t.inputs = s.inputs ∧
    t.draws = s.draws ∧ t.ut.gie = s.ut.gie ∧ t.ut.rxIe = s.ut.rxIe

/-- R167, R267: any step of the transmit path commutes with any step of the receive path, so the order in which two
takeable interrupts run does not matter. -/
def Obligations.TransmitAndReceiveCommute : Prop :=
  ∀ (s t : State) (a b : Choice), a = .txi ∨ a = .lineShiftOut →
    b = .rxi ∨ (∃ v k, b = .lineArrive v k) →
    (runChoices [a, b] s = .next t ↔ runChoices [b, a] s = .next t)

/-- R282, R197: a held micro-step changes nothing, and each hold is lifted only by the step its rule names: S0 by
TXI, V0 by RXI, the completion holds by BusComplete. -/
def Obligations.HoldsAreLiftedOnlyByTheirAgent : Prop :=
  ∀ (s t : State) (c : Choice), hostHeld s → perform c s = .next t →
    (c = .host → t = s) ∧
    (¬ hostHeld t →
      (s.host.step = .s0 ∧ c = .txi) ∨ (s.host.step = .v0 ∧ c = .rxi) ∨
      (s.host.step ∈ busHolds ∧ ∃ st v, c = .busComplete st v))

/-- R198: a phase is handed to the bus only by HOST and only when none is pending, with `bm_done` cleared by the
same step. -/
def Obligations.PhasesAreIssuedOneAtATime : Prop :=
  ∀ (s t : State) (c : Choice) (k : Phase), Inv s → perform c s = .next t → t.bm.pending = some k →
    s.bm.pending ≠ some k → c = .host ∧ s.bm.pending = none ∧ t.bm.done = false

/-- R234: when a helper returns, whatever the bus answered, the engine is `Idle`, no phase is pending, and the last
event of the trace is the `Stop`. -/
def Obligations.HelpersEndWithTheBusReleased : Prop :=
  ∀ (s t : State) (i : Instr), Inv s → s.host.op = some i →
    (∃ dev reg val, i = .bmWriteReg dev reg val) ∨ (∃ dev reg, i = .bmReadReg dev reg) ∨
      (∃ dev reg n, i = .bmReadRegs dev reg n) →
    perform .host s = .next t → t.host.op = none →
    t.bm.state = .idle ∧ t.bm.pending = none ∧ t.bm.trace.getLast? = some .stop

/-- R312: a step taken with no `UT_INIT` in flight keeps the property that a TX buffer that is not empty has `tx_ie` set
or HOST is about to set it (at S3). A repeated `UT_INIT` can end it (R313). -/
def Obligations.QueuedBytesKeepTransmitEnabled : Prop :=
  ∀ (s t : State) (c : Choice), SerialInv s → perform c s = .next t →
    (∀ r, s.host.op ≠ some (.utInit r)) →
    (s.ut.tx.empty = false → s.ut.txIe = true ∨ (s.host.op.isSome ∧ s.host.step = .s3)) →
    (t.ut.tx.empty = false → t.ut.txIe = true ∨ (t.host.op.isSome ∧ t.host.step = .s3))

/-- R63 to R65: a sound circular buffer of N slots is a FIFO of at most N - 1 bytes: an enqueue into one that is not
full adds the byte at the end, a dequeue from one that is not empty takes the oldest, both keep it sound, full
means N - 1 live bytes and empty means none. -/
def Obligations.CircularBufferIsAFifo : Prop :=
  ∀ (N : Nat) (r : CircBuf) (sp : Space) (v : Byte), 2 ≤ N → N ≤ 256 → r.Sound N →
    (r.liveSlots N).length ≤ N - 1 ∧
    (r.full N = true ↔ (r.liveSlots N).length = N - 1) ∧
    (r.empty = true ↔ r.liveSlots N = []) ∧
    (r.full N = false → ∃ r', r.store sp N v = .ok r' ∧ r'.liveSlots N = r.liveSlots N ∧
      (r'.publish N).Sound N ∧ (r'.publish N).liveSlots N = r.liveSlots N ++ [some v]) ∧
    (r.empty = false → ∃ d, r.fetch sp N = .ok d ∧ (r.release N).Sound N ∧
      r.liveSlots N = some d :: (r.release N).liveSlots N)

/-- R165: nothing sent is dropped, duplicated or reordered: the bytes on the wire, the byte in flight and the queued
bytes, in that order, change only when HOST publishes an enqueue (S2), which adds the byte passed to that `send_byte`,
issued or called by receive_line, at the end. -/
def Obligations.TransmitStreamOnlyGrows : Prop :=
  ∀ (s t : State) (c : Choice), SerialInv s → perform c s = .next t →
    (c = .host ∧ s.host.op.isSome ∧ s.host.step = .s2 →
      (sendingByte s).isSome ∧ txStream t = txStream s ++ [sendingByte s]) ∧
    (¬ (c = .host ∧ s.host.op.isSome ∧ s.host.step = .s2) → txStream t = txStream s)

/-- R166: nothing received is reordered or made up: what the step delivers (the byte `v` that V2 returns,
40_serial_transport.md R125), followed by the bytes still waiting,
is a sublist of the bytes that were waiting followed by the byte that arrived, and the bytes missing from it are
counted in `rx_sw_dropped` and `rx_hw_lost`. -/
def Obligations.ReceiveStreamLosesOnlyCountedBytes : Prop :=
  ∀ (s t : State) (c : Choice), SerialInv s → perform c s = .next t →
    ∃ delivered arrived : List (Option Byte),
      (c = .host ∧ s.host.op.isSome ∧ s.host.step = .v2 →
        delivered = [some s.host.locals.v]) ∧
      (¬ (c = .host ∧ s.host.op.isSome ∧ s.host.step = .v2) → delivered = []) ∧
      t.ut.lineIn.map some = s.ut.lineIn.map some ++ arrived ∧
      List.Sublist (delivered ++ rxStream t) (rxStream s ++ arrived) ∧
      (delivered ++ rxStream t).length + (t.ut.rxSwDropped + t.ut.rxHwLost) =
        (rxStream s ++ arrived).length + (s.ut.rxSwDropped + s.ut.rxHwLost)

/-- R100, R124: `UT_SEND_STRING s` is one `UT_SEND_BYTE` per byte, in order, no byte value excluded and none added;
run one after another from HOST idle with room for them all, they queue exactly `s`. -/
def Obligations.SendStringQueuesItsBytes : Prop :=
  ∀ (bs : List Byte) (s : State), s.host.op = none → s.ut.inited = true → s.cfg.legal →
    s.ut.tx.Sound s.cfg.N → (s.ut.tx.liveSlots s.cfg.N).length + bs.length ≤ s.cfg.N - 1 →
    ∃ t, runChoices ((encodeString bs).flatMap fun w => [.issue w, .host, .host, .host, .host]) s = .next t ∧
      t.ut.tx.liveSlots s.cfg.N = s.ut.tx.liveSlots s.cfg.N ++ bs.map some ∧
      t.host.results = s.host.results ++ bs.map (fun b => (.utSendByte b, .unit)) ∧
      t.host.op = none ∧ (bs = [] → t = s) ∧
      t.ut = { s.ut with tx := t.ut.tx, txIe := t.ut.txIe } ∧ t.bm = s.bm
end

