-- ==== Sys2Proof/Laws/Memory.lean ====
section
/-! SUPPORT. The laws of byte stores: a read after a write, the canonical form is kept, and the registers of the
reference device. -/

namespace Sys2Proof.Machine

theorem Memory.read?_write_same (m : Memory) (a : Nat) (v : Byte) : (m.write a v).read? a = some v := by
  induction m with
  | nil => simp [Memory.write, Memory.read?]
  | cons c m ih =>
    obtain ⟨b, x⟩ := c
    simp only [Memory.write]
    split
    · simp [Memory.read?]
    · split
      · simp [Memory.read?]
      · simp [Memory.read?, *]

theorem Memory.read?_write_other (m : Memory) {a b : Nat} (v : Byte) (h : b ≠ a) :
    (m.write a v).read? b = m.read? b := by
  induction m with
  | nil => simp [Memory.write, Memory.read?, h]
  | cons c m ih =>
    obtain ⟨k, x⟩ := c
    simp only [Memory.write]
    split
    · simp [Memory.read?, h]
    · split
      · subst a; simp [Memory.read?, h]
      · simp only [Memory.read?]; split
        · rfl
        · exact ih

/-- A byte that reads is a byte listed. -/
theorem Memory.mem_of_read? {m : Memory} {a : Nat} {v : Byte} (h : m.read? a = some v) : (a, v) ∈ m := by
  induction m with
  | nil => simp [Memory.read?] at h
  | cons c m ih =>
    obtain ⟨b, x⟩ := c
    simp only [Memory.read?] at h
    split at h
    · cases h; simp [*]
    · exact List.mem_cons_of_mem _ (ih h)

/-- Every listed address of a written store is the written one or was listed. -/
theorem Memory.mem_write {m : Memory} {a : Nat} {v : Byte} {c : Host.Cell} (h : c ∈ m.write a v) :
    c = (a, v) ∨ c ∈ m := by
  induction m with
  | nil => simpa [Memory.write] using h
  | cons d m ih =>
    obtain ⟨b, x⟩ := d
    simp only [Memory.write] at h
    split at h
    · simpa using h
    · split at h
      · rcases List.mem_cons.1 h with h | h
        · exact .inl h
        · exact .inr (List.mem_cons_of_mem _ h)
      · rcases List.mem_cons.1 h with h | h
        · exact .inr (h ▸ List.mem_cons_self ..)
        · rcases ih h with h | h
          · exact .inl h
          · exact .inr (List.mem_cons_of_mem _ h)

/-- Writing keeps the canonical form. -/
theorem Memory.write_wf {m : Memory} (h : m.wf) (a : Nat) (v : Byte) : (m.write a v).wf := by
  induction m with
  | nil => simp [Memory.write]
  | cons d m ih =>
    obtain ⟨b, x⟩ := d
    have hc := List.pairwise_cons.1 h
    simp only [Memory.write]
    split
    · refine List.pairwise_cons.2 ⟨fun c hcm => ?_, h⟩
      rcases List.mem_cons.1 hcm with rfl | hcm
      · assumption
      · exact lt_trans (by assumption) (hc.1 c hcm)
    · split
      · subst a; exact List.pairwise_cons.2 ⟨fun c hcm => hc.1 c hcm, hc.2⟩
      · refine List.pairwise_cons.2 ⟨fun c hcm => ?_, ih hc.2⟩
        rcases Memory.mem_write hcm with rfl | hcm
        · change b < a; omega
        · exact hc.1 c hcm

/-- Erasing keeps the canonical form. -/
theorem Memory.erase_wf {m : Memory} (h : m.wf) (a : Nat) : (m.erase a).wf :=
  List.Pairwise.filter _ h

theorem Memory.read?_erase_same (m : Memory) (a : Nat) : (m.erase a).read? a = none := by
  induction m with
  | nil => rfl
  | cons d m ih =>
    obtain ⟨b, x⟩ := d
    by_cases h : b = a
    · subst b; simpa [Memory.erase] using ih
    · have h' : ¬ a = b := fun e => h e.symm
      have : Memory.erase ((b, x) :: m) a = (b, x) :: Memory.erase m a := by simp [Memory.erase, h]
      rw [this]; simpa [Memory.read?, h'] using ih

theorem Memory.read?_erase_other (m : Memory) {a b : Nat} (h : b ≠ a) : (m.erase a).read? b = m.read? b := by
  induction m with
  | nil => rfl
  | cons d m ih =>
    obtain ⟨k, x⟩ := d
    by_cases hk : k = a
    · subst k
      have : Memory.erase ((a, x) :: m) a = Memory.erase m a := by simp [Memory.erase]
      rw [this, ih]; simp [Memory.read?, h]
    · have : Memory.erase ((k, x) :: m) a = (k, x) :: Memory.erase m a := by simp [Memory.erase, hk]
      rw [this]; simp [Memory.read?, ih]

/-- A register of the reference device reads back what was written. -/
theorem Memory.readReg_writeReg_same (m : Memory) (r v : Byte) : (m.writeReg r v).readReg r = v := by
  by_cases h : v = 0
  · simp [Memory.readReg, Memory.writeReg, h, Memory.read?_erase_same]
  · rw [Memory.readReg, Memory.writeReg, if_neg h, Memory.read?_write_same]; rfl

/-- Writing a register of the reference device leaves the others. -/
theorem Memory.readReg_writeReg_other (m : Memory) {r r' : Byte} (v : Byte) (h : r' ≠ r) :
    (m.writeReg r v).readReg r' = m.readReg r' := by
  have hn : r'.toNat ≠ r.toNat := fun e => h (BitVec.eq_of_toNat_eq e)
  by_cases hv : v = 0
  · simp [Memory.readReg, Memory.writeReg, hv, Memory.read?_erase_other _ hn]
  · rw [Memory.readReg, Memory.writeReg, if_neg hv, Memory.read?_write_other _ _ hn]; rfl

/-- Writing a register of the reference device keeps the canonical form, with no entry equal to 0x00. -/
theorem Memory.writeReg_canonical {m : Memory} (h : m.wf) (h0 : ∀ c ∈ m, c.2 ≠ 0) (r v : Byte) :
    (m.writeReg r v).wf ∧ ∀ c ∈ m.writeReg r v, c.2 ≠ 0 := by
  unfold Memory.writeReg
  split
  · refine ⟨Memory.erase_wf h _, fun c hc => h0 c (List.mem_of_mem_filter hc)⟩
  · refine ⟨Memory.write_wf h _ _, fun c hc => ?_⟩
    rcases Memory.mem_write hc with rfl | hc
    · assumption
    · exact h0 c hc

/-- The store of registers given from number `k` on: canonical, nothing below `k`, and each register reads as given. -/
theorem registerCells_spec (l : List Byte) (k : Nat) :
    (registerCells l k).wf ∧ (∀ c ∈ registerCells l k, k ≤ c.1 ∧ c.2 ≠ 0) ∧
    ∀ i (h : i < l.length), ((registerCells l k).read? (k + i)).getD 0 = l[i] := by
  induction l generalizing k with
  | nil => exact ⟨List.Pairwise.nil, by simp [registerCells], fun i h => absurd h (Nat.not_lt_zero i)⟩
  | cons v l ih =>
    obtain ⟨hw, hb, hr⟩ := ih (k + 1)
    have hnext : ∀ i (h : i < l.length), ((registerCells l (k + 1)).read? (k + (i + 1))).getD 0 = l[i] :=
      fun i h => by rw [← hr i h]; congr 2; omega
    by_cases hv : v = 0
    · rw [registerCells, if_pos hv]
      refine ⟨hw, fun c hc => ⟨by have := (hb c hc).1; omega, (hb c hc).2⟩, fun i h => ?_⟩
      cases i with
      | zero =>
        cases hx : (registerCells l (k + 1)).read? (k + 0) with
        | none => simp [hv]
        | some x => have := (hb _ (Memory.mem_of_read? hx)).1; simp at this
      | succ i => exact hnext i (by simpa using h)
    · rw [registerCells, if_neg hv]
      refine ⟨List.pairwise_cons.2 ⟨fun c hc => (hb c hc).1, hw⟩, fun c hc => ?_, fun i h => ?_⟩
      · rcases List.mem_cons.1 hc with rfl | hc
        · exact ⟨le_rfl, hv⟩
        · exact ⟨by have := (hb c hc).1; omega, (hb c hc).2⟩
      · cases i with
        | zero => simp [Memory.read?]
        | succ i =>
          simp only [Memory.read?, show ¬ k + (i + 1) = k by omega, if_false, List.getElem_cons_succ]
          exact hnext i (by simpa using h)

/-- The reference device's registers as given: canonical, and each reads as given (95_test_vectors.md section 4). -/
theorem registerStore_spec (regs : Vector Byte 256) :
    (registerStore regs).wf ∧ (∀ c ∈ registerStore regs, c.2 ≠ 0) ∧
    ∀ r : Byte, (registerStore regs).readReg r = regs[r.toNat]'r.isLt := by
  obtain ⟨hw, hb, hr⟩ := registerCells_spec regs.toList 0
  refine ⟨hw, fun c hc => (hb c hc).2, fun r => ?_⟩
  have := hr r.toNat (by simpa using r.isLt)
  simpa [Memory.readReg, registerStore] using this

/-- A slot write keeps the canonical form (20_memory.md R60). -/
theorem Memory.writeSlot_wf {m m' : Memory} {sp : Space} {N : Nat} {i v : Byte} (h : m.wf)
    (hw : m.writeSlot sp N i v = .ok m') : m'.wf := by
  unfold Memory.writeSlot at hw
  split at hw
  · cases hw; exact Memory.write_wf h _ _
  · cases hw

end Sys2Proof.Machine
end

