-- ==== Sys2Proof/Laws/CircBuf.lean ====
section
/-! SUPPORT. The circular buffer (spec/10_state.md R23, spec/20_memory.md R63 to R65): index arithmetic, and one lemma for
each of store, publish, fetch and release that says what it does to a sound buffer and its live bytes. -/

namespace Sys2Proof.Machine

/-! ## Index arithmetic -/

theorem mod_of_lt_two_mul {a N : Nat} (h : a < 2 * N) : a % N = if a < N then a else a - N := by
  split
  · exact Nat.mod_eq_of_lt ‹_›
  · rw [Nat.mod_eq_sub_mod (by omega), Nat.mod_eq_of_lt (by omega)]

/-- The index advance stays below N (00_scope.md R11 a). -/
theorem nextIndex_toNat {N : Nat} {i : Byte} (hN : 0 < N) (h256 : N ≤ 256) :
    (nextIndex N i).toNat = (i.toNat + 1) % N := by
  have := Nat.mod_lt (i.toNat + 1) hN
  simp only [nextIndex, BitVec.toNat_ofNat]
  exact Nat.mod_eq_of_lt (by omega)

theorem nextIndex_lt {N : Nat} {i : Byte} (hN : 0 < N) (h256 : N ≤ 256) : (nextIndex N i).toNat < N := by
  rw [nextIndex_toNat hN h256]; exact Nat.mod_lt _ hN

theorem nextIndex_cases {N : Nat} {i : Byte} (hN : 0 < N) (h256 : N ≤ 256) (h : i.toNat < N) :
    (nextIndex N i).toNat = if i.toNat + 1 < N then i.toNat + 1 else 0 := by
  rw [nextIndex_toNat hN h256, mod_of_lt_two_mul (by omega)]
  split <;> omega

theorem liveCount_cases {N : Nat} {h t : Byte} (hh : h.toNat < N) (ht : t.toNat < N) :
    liveCount N h t = if t.toNat ≤ h.toNat then h.toNat - t.toNat else h.toNat + N - t.toNat := by
  unfold liveCount
  rw [mod_of_lt_two_mul (by omega)]
  split <;> split <;> omega

theorem liveCount_lt {N : Nat} {h t : Byte} (hh : h.toNat < N) (ht : t.toNat < N) : liveCount N h t < N := by
  rw [liveCount_cases hh ht]; split <;> omega

/-- The legal range of N (00_scope.md R5). -/
theorem Config.legal_N {c : Config} (h : c.legal) : 2 ≤ c.N ∧ c.N ≤ 256 := by
  simp [Config.legal] at h; omega

namespace CircBuf

variable {N : Nat} {r : CircBuf}

/-- Soundness from conditions that can be checked on a written-out buffer. -/
theorem sound_of_checks (hh : r.head.toNat < N) (ht : r.tail.toNat < N) (hw : r.buf.wf)
    (hs : ∀ c ∈ r.buf, c.1 < N)
    (hl : ∀ j < liveCount N r.head r.tail, (r.buf.read? ((r.tail.toNat + j) % N)).isSome) : r.Sound N :=
  ⟨hh, ht, hw, fun _ _ h => hs _ (Memory.mem_of_read? h), hl⟩

theorem full_iff (h2 : 2 ≤ N) (h256 : N ≤ 256) (hs : r.Sound N) :
    r.full N = true ↔ liveCount N r.head r.tail = N - 1 := by
  have h1 := hs.head_lt
  have h3 := hs.tail_lt
  have hn := nextIndex_cases (by omega) h256 h1
  rw [liveCount_cases h1 h3]
  simp only [full, beq_iff_eq, ← BitVec.toNat_inj, hn]
  split <;> split <;> omega

theorem empty_iff (hs : r.Sound N) : r.empty = true ↔ liveCount N r.head r.tail = 0 := by
  have h1 := hs.head_lt
  have h3 := hs.tail_lt
  rw [liveCount_cases h1 h3]
  simp only [empty, beq_iff_eq, ← BitVec.toNat_inj]
  split <;> omega

theorem liveSlots_length : (r.liveSlots N).length = liveCount N r.head r.tail := by
  simp [liveSlots]

/-- A live slot is not the slot at the head (20_memory.md R72 b). -/
theorem live_ne_head (hs : r.Sound N) {j : Nat} (hj : j < liveCount N r.head r.tail) :
    (r.tail.toNat + j) % N ≠ r.head.toNat := by
  have h1 := hs.head_lt
  have h3 := hs.tail_lt
  have hl := liveCount_lt h1 h3
  rw [liveCount_cases h1 h3] at hj hl
  rw [mod_of_lt_two_mul (by split at hj <;> omega)]
  split at hj <;> split <;> omega

/-- An enqueue's slot write: it always succeeds on a sound buffer, keeps it sound, lists the byte at the head, and
changes no other slot and no live byte (20_memory.md R63). -/
theorem store_spec (hs : r.Sound N) (sp : Space) (v : Byte) :
    ∃ r', r.store sp N v = .ok r' ∧ r' = { r with buf := r.buf.write r.head.toNat v } ∧ r'.Sound N ∧
      r'.buf.read? r.head.toNat = some v ∧ r'.liveSlots N = r.liveSlots N ∧
      ∀ a, a ≠ r.head.toNat → r'.buf.read? a = r.buf.read? a := by
  have hlive : ∀ j, j < liveCount N r.head r.tail →
      (r.buf.write r.head.toNat v).read? ((r.tail.toNat + j) % N) = r.buf.read? ((r.tail.toNat + j) % N) :=
    fun j hj => Memory.read?_write_other _ _ (live_ne_head hs hj)
  refine ⟨{ r with buf := r.buf.write r.head.toNat v }, ?_, rfl, ⟨hs.head_lt, hs.tail_lt, Memory.write_wf hs.wf _ _,
    ?_, ?_⟩, Memory.read?_write_same _ _ _, ?_, fun a ha => Memory.read?_write_other _ _ ha⟩
  · simp [store, Memory.writeSlot, hs.head_lt]
  · intro a x hx
    by_cases ha : a = r.head.toNat
    · exact ha ▸ hs.head_lt
    · exact hs.slots a x (by rwa [Memory.read?_write_other _ _ ha] at hx)
  · intro j hj; rw [hlive j hj]; exact hs.live j hj
  · simp only [liveSlots, List.map_inj_left, List.mem_range]
    exact fun j hj => hlive j hj

/-- An enqueue's publication: with room, and the slot at the head written, the buffer stays sound and the live bytes
gain that slot's byte at the end (20_memory.md R63, R65). -/
theorem publish_spec (h2 : 2 ≤ N) (h256 : N ≤ 256) (hs : r.Sound N) (hf : r.full N = false)
    (hw : (r.buf.read? r.head.toNat).isSome) :
    (r.publish N).Sound N ∧ (r.publish N).liveSlots N = r.liveSlots N ++ [r.buf.read? r.head.toNat] := by
  have h1 := hs.head_lt
  have h3 := hs.tail_lt
  have hnext := nextIndex_lt (i := r.head) (by omega) h256
  have hn := nextIndex_cases (by omega) h256 h1
  have hf' : liveCount N r.head r.tail ≠ N - 1 := fun h => by
    rw [(full_iff h2 h256 hs).2 h] at hf; cases hf
  have hc : liveCount N (nextIndex N r.head) r.tail = liveCount N r.head r.tail + 1 := by
    have := liveCount_lt h1 h3
    rw [liveCount_cases h1 h3] at hf' this ⊢
    rw [liveCount_cases hnext h3, hn]
    split_ifs at * <;> omega
  have hslot : (r.tail.toNat + liveCount N r.head r.tail) % N = r.head.toNat := by
    have := liveCount_lt h1 h3
    rw [liveCount_cases h1 h3] at this ⊢
    rw [mod_of_lt_two_mul (by split <;> omega)]
    split_ifs at * <;> omega
  refine ⟨⟨hnext, h3, hs.wf, hs.slots, ?_⟩, ?_⟩
  · intro j hj
    change j < liveCount N (nextIndex N r.head) r.tail at hj
    change (r.buf.read? ((r.tail.toNat + j) % N)).isSome
    rw [hc] at hj
    rcases Nat.lt_succ_iff_lt_or_eq.1 hj with hj | rfl
    · exact hs.live j hj
    · rw [hslot]; exact hw
  · change (List.range (liveCount N (nextIndex N r.head) r.tail)).map _ = _
    rw [hc, List.range_succ, List.map_append]
    simp [liveSlots, publish, hslot]

/-- A dequeue's slot read: on a sound buffer that is not empty it yields the oldest live byte (20_memory.md R64). -/
theorem fetch_spec (hs : r.Sound N) (he : r.empty = false) (sp : Space) :
    ∃ d, r.fetch sp N = .ok d ∧ r.buf.read? r.tail.toNat = some d := by
  have hc : 0 < liveCount N r.head r.tail := by
    rcases Nat.eq_zero_or_pos (liveCount N r.head r.tail) with h | h
    · rw [(empty_iff hs).2 h] at he; cases he
    · exact h
  have h0 := hs.live 0 hc
  rw [Nat.add_zero, Nat.mod_eq_of_lt hs.tail_lt] at h0
  obtain ⟨d, hd⟩ := Option.isSome_iff_exists.1 h0
  exact ⟨d, by simp [fetch, Memory.readSlot, hs.tail_lt, hd], hd⟩

/-- A dequeue's publication: the buffer stays sound and loses exactly its oldest live byte (20_memory.md R64, R65). -/
theorem release_spec (h2 : 2 ≤ N) (h256 : N ≤ 256) (hs : r.Sound N) (he : r.empty = false) :
    (r.release N).Sound N ∧ r.liveSlots N = r.buf.read? r.tail.toNat :: (r.release N).liveSlots N := by
  have h1 := hs.head_lt
  have h3 := hs.tail_lt
  have hnext := nextIndex_lt (i := r.tail) (by omega) h256
  have hn := nextIndex_cases (by omega) h256 h3
  have hne : liveCount N r.head r.tail ≠ 0 := fun h => by
    rw [(empty_iff hs).2 h] at he; cases he
  have hc : liveCount N r.head r.tail = liveCount N r.head (nextIndex N r.tail) + 1 := by
    rw [liveCount_cases h1 h3] at hne ⊢
    rw [liveCount_cases h1 hnext, hn]
    split_ifs at * <;> omega
  have hslot : ∀ j, ((nextIndex N r.tail).toNat + j) % N = (r.tail.toNat + (j + 1)) % N := by
    intro j
    rw [nextIndex_toNat (by omega) h256, Nat.mod_add_mod]
    congr 1; omega
  refine ⟨⟨h1, hnext, hs.wf, hs.slots, ?_⟩, ?_⟩
  · intro j hj
    change j < liveCount N r.head (nextIndex N r.tail) at hj
    change (r.buf.read? (((nextIndex N r.tail).toNat + j) % N)).isSome
    rw [hslot]; exact hs.live (j + 1) (by omega)
  · rw [liveSlots, hc, List.range_succ_eq_map]
    simp only [List.map_cons, List.map_map, Nat.add_zero, Nat.mod_eq_of_lt h3]
    congr 1
    refine List.map_congr_left fun j _ => ?_
    simp only [Function.comp, release, hslot]

/-- A dequeue leaves a free slot (20_memory.md R64, R65). -/
theorem release_not_full (h2 : 2 ≤ N) (h256 : N ≤ 256) (hs : r.Sound N) (he : r.empty = false) :
    (r.release N).full N = false := by
  obtain ⟨hs', hl⟩ := release_spec h2 h256 hs he
  have hlen := congrArg List.length hl
  have := liveCount_lt hs.head_lt hs.tail_lt
  simp only [List.length_cons, liveSlots_length] at hlen
  cases hf : (r.release N).full N
  · rfl
  · have := (full_iff h2 h256 hs').1 hf
    omega

/-- After an enqueue the buffer is not empty (20_memory.md R63, R65). -/
theorem publish_not_empty (h2 : 2 ≤ N) (h256 : N ≤ 256) (hs : r.Sound N) (hf : r.full N = false)
    (hw : (r.buf.read? r.head.toNat).isSome) : (r.publish N).empty = false := by
  obtain ⟨hs', hl⟩ := publish_spec h2 h256 hs hf hw
  have hlen := congrArg List.length hl
  simp only [List.length_append, List.length_cons, List.length_nil, liveSlots_length] at hlen
  cases he : (r.publish N).empty
  · rfl
  · have := (empty_iff hs').1 he
    omega

/-- A full buffer is not empty: N is at least 2 (10_state.md R23). -/
theorem not_empty_of_full (h2 : 2 ≤ N) (h256 : N ≤ 256) (hs : r.Sound N) (hf : r.full N = true) :
    r.empty = false := by
  have h1 := (full_iff h2 h256 hs).1 hf
  cases he : r.empty
  · rfl
  · have := (empty_iff hs).1 he
    omega

/-- An empty buffer is not full. -/
theorem not_full_of_empty (h2 : 2 ≤ N) (h256 : N ≤ 256) (hs : r.Sound N) (he : r.empty = true) :
    r.full N = false := by
  cases hf : r.full N
  · rfl
  · rw [not_empty_of_full h2 h256 hs hf] at he; cases he

end CircBuf

end Sys2Proof.Machine
end

