-- ==== Sys2Proof/Laws/State.lean ====
section
/-! SUPPORT. What each update of the state leaves in each field, one lemma per field per update, so that no proof
unfolds an update. -/

namespace Sys2Proof.Machine

variable (s : State)

@[simp] theorem State.resetWith_cfg (c : Config) (d : Option SimDevice) : (State.resetWith c d).cfg = c := rfl
@[simp] theorem State.resetWith_ut (c : Config) (d : Option SimDevice) : (State.resetWith c d).ut = Serial.reset := rfl
@[simp] theorem State.resetWith_bm (c : Config) (d : Option SimDevice) : (State.resetWith c d).bm = BusMaster.reset := rfl
@[simp] theorem State.resetWith_host (c : Config) (d : Option SimDevice) :
    (State.resetWith c d).host = Sequencer.reset := rfl
@[simp] theorem State.resetWith_device (c : Config) (d : Option SimDevice) : (State.resetWith c d).device = d := rfl
@[simp] theorem State.resetWith_inputs (c : Config) (d : Option SimDevice) : (State.resetWith c d).inputs = [] := rfl
@[simp] theorem State.resetWith_draws (c : Config) (d : Option SimDevice) : (State.resetWith c d).draws = 0 := rfl

@[simp] theorem State.withUt_cfg (u : Serial) : (s.withUt u).cfg = s.cfg := rfl
@[simp] theorem State.withUt_ut (u : Serial) : (s.withUt u).ut = u := rfl
@[simp] theorem State.withUt_bm (u : Serial) : (s.withUt u).bm = s.bm := rfl
@[simp] theorem State.withUt_host (u : Serial) : (s.withUt u).host = s.host := rfl
@[simp] theorem State.withUt_device (u : Serial) : (s.withUt u).device = s.device := rfl
@[simp] theorem State.withUt_inputs (u : Serial) : (s.withUt u).inputs = s.inputs := rfl
@[simp] theorem State.withUt_draws (u : Serial) : (s.withUt u).draws = s.draws := rfl

@[simp] theorem State.withBm_cfg (b : BusMaster) : (s.withBm b).cfg = s.cfg := rfl
@[simp] theorem State.withBm_ut (b : BusMaster) : (s.withBm b).ut = s.ut := rfl
@[simp] theorem State.withBm_bm (b : BusMaster) : (s.withBm b).bm = b := rfl
@[simp] theorem State.withBm_host (b : BusMaster) : (s.withBm b).host = s.host := rfl
@[simp] theorem State.withBm_device (b : BusMaster) : (s.withBm b).device = s.device := rfl
@[simp] theorem State.withBm_inputs (b : BusMaster) : (s.withBm b).inputs = s.inputs := rfl
@[simp] theorem State.withBm_draws (b : BusMaster) : (s.withBm b).draws = s.draws := rfl

@[simp] theorem State.withHost_cfg (h : Sequencer) : (s.withHost h).cfg = s.cfg := rfl
@[simp] theorem State.withHost_ut (h : Sequencer) : (s.withHost h).ut = s.ut := rfl
@[simp] theorem State.withHost_bm (h : Sequencer) : (s.withHost h).bm = s.bm := rfl
@[simp] theorem State.withHost_host (h : Sequencer) : (s.withHost h).host = h := rfl
@[simp] theorem State.withHost_device (h : Sequencer) : (s.withHost h).device = s.device := rfl
@[simp] theorem State.withHost_inputs (h : Sequencer) : (s.withHost h).inputs = s.inputs := rfl
@[simp] theorem State.withHost_draws (h : Sequencer) : (s.withHost h).draws = s.draws := rfl

@[simp] theorem State.withDevice_cfg (d : Option SimDevice) : (s.withDevice d).cfg = s.cfg := rfl
@[simp] theorem State.withDevice_ut (d : Option SimDevice) : (s.withDevice d).ut = s.ut := rfl
@[simp] theorem State.withDevice_bm (d : Option SimDevice) : (s.withDevice d).bm = s.bm := rfl
@[simp] theorem State.withDevice_host (d : Option SimDevice) : (s.withDevice d).host = s.host := rfl
@[simp] theorem State.withDevice_device (d : Option SimDevice) : (s.withDevice d).device = d := rfl
@[simp] theorem State.withDevice_inputs (d : Option SimDevice) : (s.withDevice d).inputs = s.inputs := rfl
@[simp] theorem State.withDevice_draws (d : Option SimDevice) : (s.withDevice d).draws = s.draws := rfl

@[simp] theorem State.withInputs_cfg (cs : List Choice) : (s.withInputs cs).cfg = s.cfg := rfl
@[simp] theorem State.withInputs_ut (cs : List Choice) : (s.withInputs cs).ut = s.ut := rfl
@[simp] theorem State.withInputs_bm (cs : List Choice) : (s.withInputs cs).bm = s.bm := rfl
@[simp] theorem State.withInputs_host (cs : List Choice) : (s.withInputs cs).host = s.host := rfl
@[simp] theorem State.withInputs_device (cs : List Choice) : (s.withInputs cs).device = s.device := rfl
@[simp] theorem State.withInputs_inputs (cs : List Choice) : (s.withInputs cs).inputs = cs := rfl
@[simp] theorem State.withInputs_draws (cs : List Choice) : (s.withInputs cs).draws = s.draws := rfl

@[simp] theorem State.withLocals_cfg (l : Locals) : (s.withLocals l).cfg = s.cfg := rfl
@[simp] theorem State.withLocals_ut (l : Locals) : (s.withLocals l).ut = s.ut := rfl
@[simp] theorem State.withLocals_bm (l : Locals) : (s.withLocals l).bm = s.bm := rfl
@[simp] theorem State.withLocals_host (l : Locals) : (s.withLocals l).host = { s.host with locals := l } := rfl
@[simp] theorem State.withLocals_device (l : Locals) : (s.withLocals l).device = s.device := rfl
@[simp] theorem State.withLocals_inputs (l : Locals) : (s.withLocals l).inputs = s.inputs := rfl
@[simp] theorem State.withLocals_draws (l : Locals) : (s.withLocals l).draws = s.draws := rfl

@[simp] theorem State.goto_cfg (l : Label) : (s.goto l).cfg = s.cfg := rfl
@[simp] theorem State.goto_ut (l : Label) : (s.goto l).ut = s.ut := rfl
@[simp] theorem State.goto_bm (l : Label) : (s.goto l).bm = s.bm := rfl
@[simp] theorem State.goto_host (l : Label) : (s.goto l).host = { s.host with step := l, caller := none } := rfl
@[simp] theorem State.goto_device (l : Label) : (s.goto l).device = s.device := rfl
@[simp] theorem State.goto_inputs (l : Label) : (s.goto l).inputs = s.inputs := rfl
@[simp] theorem State.goto_draws (l : Label) : (s.goto l).draws = s.draws := rfl

@[simp] theorem State.advance_cfg (l : Label) : (s.advance l).cfg = s.cfg := rfl
@[simp] theorem State.advance_ut (l : Label) : (s.advance l).ut = s.ut := rfl
@[simp] theorem State.advance_bm (l : Label) : (s.advance l).bm = s.bm := rfl
@[simp] theorem State.advance_host (l : Label) : (s.advance l).host = { s.host with step := l } := rfl
@[simp] theorem State.advance_device (l : Label) : (s.advance l).device = s.device := rfl
@[simp] theorem State.advance_inputs (l : Label) : (s.advance l).inputs = s.inputs := rfl
@[simp] theorem State.advance_draws (l : Label) : (s.advance l).draws = s.draws := rfl

@[simp] theorem State.call_cfg (line first : Label) : (s.call line first).cfg = s.cfg := rfl
@[simp] theorem State.call_ut (line first : Label) : (s.call line first).ut = s.ut := rfl
@[simp] theorem State.call_bm (line first : Label) : (s.call line first).bm = s.bm := rfl
@[simp] theorem State.call_host (line first : Label) : (s.call line first).host = { s.host with step := first, caller := some line } := rfl
@[simp] theorem State.call_device (line first : Label) : (s.call line first).device = s.device := rfl
@[simp] theorem State.call_inputs (line first : Label) : (s.call line first).inputs = s.inputs := rfl
@[simp] theorem State.call_draws (line first : Label) : (s.call line first).draws = s.draws := rfl

@[simp] theorem State.ret_cfg (i : Instr) (r : Result) : (s.ret i r).cfg = s.cfg := rfl
@[simp] theorem State.ret_ut (i : Instr) (r : Result) : (s.ret i r).ut = s.ut := rfl
@[simp] theorem State.ret_bm (i : Instr) (r : Result) : (s.ret i r).bm = s.bm := rfl
@[simp] theorem State.ret_host (i : Instr) (r : Result) : (s.ret i r).host = { s.host with
      op := none, caller := none, locals := Locals.empty, results := s.host.results ++ [(i, r)] } := rfl
@[simp] theorem State.ret_device (i : Instr) (r : Result) : (s.ret i r).device = s.device := rfl
@[simp] theorem State.ret_inputs (i : Instr) (r : Result) : (s.ret i r).inputs = s.inputs := rfl
@[simp] theorem State.ret_draws (i : Instr) (r : Result) : (s.ret i r).draws = s.draws := rfl

@[simp] theorem State.raise_cfg (f : FaultRecord) : (s.raise f).cfg = s.cfg := rfl
@[simp] theorem State.raise_ut (f : FaultRecord) : (s.raise f).ut = s.ut := rfl
@[simp] theorem State.raise_bm (f : FaultRecord) : (s.raise f).bm = s.bm := rfl
@[simp] theorem State.raise_host (f : FaultRecord) : (s.raise f).host = { s.host with faults := s.host.faults ++ [f] } := rfl
@[simp] theorem State.raise_device (f : FaultRecord) : (s.raise f).device = s.device := rfl
@[simp] theorem State.raise_inputs (f : FaultRecord) : (s.raise f).inputs = s.inputs := rfl
@[simp] theorem State.raise_draws (f : FaultRecord) : (s.raise f).draws = s.draws := rfl

@[simp] theorem State.begin_cfg (i : Instr) (line : Option Label) (first : Label) : (s.begin i line first).cfg = s.cfg := rfl
@[simp] theorem State.begin_ut (i : Instr) (line : Option Label) (first : Label) : (s.begin i line first).ut = s.ut := rfl
@[simp] theorem State.begin_bm (i : Instr) (line : Option Label) (first : Label) : (s.begin i line first).bm = s.bm := rfl
@[simp] theorem State.begin_host (i : Instr) (line : Option Label) (first : Label) : (s.begin i line first).host = { s.host with
      op := some i, step := first, caller := line, locals := Locals.empty } := rfl
@[simp] theorem State.begin_device (i : Instr) (line : Option Label) (first : Label) : (s.begin i line first).device = s.device := rfl
@[simp] theorem State.begin_inputs (i : Instr) (line : Option Label) (first : Label) : (s.begin i line first).inputs = s.inputs := rfl
@[simp] theorem State.begin_draws (i : Instr) (line : Option Label) (first : Label) : (s.begin i line first).draws = s.draws := rfl

/-! ## Updates with what is already there -/

@[simp] theorem State.withUt_ut_self : s.withUt s.ut = s := rfl
@[simp] theorem State.withBm_bm_self : s.withBm s.bm = s := rfl
@[simp] theorem State.withHost_host_self : s.withHost s.host = s := rfl

/-- Two states that agree on every field are equal. -/
theorem State.eq_of_fields {s t : State} (h1 : s.cfg = t.cfg) (h2 : s.ut = t.ut) (h3 : s.bm = t.bm)
    (h4 : s.host = t.host) (h5 : s.device = t.device) (h6 : s.inputs = t.inputs) (h7 : s.draws = t.draws) :
    s = t := by
  cases s; cases t; simp_all

end Sys2Proof.Machine
end

