-- ==== Sys2Proof/Laws/Micro.lean ====
section
/-! SUPPORT. One inversion lemma per shared operation: everything it can do when it answers a next state, guards
included. Later proofs cite these and never unfold the operations. -/

namespace Sys2Proof.Machine

variable {s t : State}

/-! ## The issue step and the sequencing of a command -/

/-- What one HOST transition of command `i` can be (30_encoding.md R102). -/
theorem runCommand_next {i : Instr} {check : State → Option Reason} {line : Option Label} {first : Label}
    {micro : State → Outcome} (h : runCommand i check line first micro s = .next t) :
    (s.host.op = none ∧ ∃ reason, check s = some reason ∧ t = s.raise (.contractViolation reason (encode i))) ∨
    (s.host.op = none ∧ check s = none ∧ t = s.begin i line first) ∨
    (s.host.op = some i ∧ micro s = .next t) ∨
    (∃ j, j ≠ i ∧ s.host.op = some j ∧ t = s) := by
  unfold runCommand at h
  split at h
  · rename_i hop
    split at h
    · rename_i reason hc
      cases h; exact .inl ⟨hop, reason, hc, rfl⟩
    · rename_i hc
      cases h; exact .inr (.inl ⟨hop, hc, rfl⟩)
  · rename_i j hop
    split at h
    · rename_i hj
      subst hj; exact .inr (.inr (.inl ⟨hop, h⟩))
    · rename_i hj
      cases h; exact .inr (.inr (.inr ⟨j, hj, hop, rfl⟩))

/-- With `i` in flight its transition is its micro-step. -/
theorem runCommand_inFlight {i : Instr} {check : State → Option Reason} {line : Option Label} {first : Label}
    {micro : State → Outcome} (h : s.host.op = some i) :
    runCommand i check line first micro s = micro s := by
  simp [runCommand, h]

/-- With HOST idle and the contract met the command starts. -/
theorem runCommand_accepted {i : Instr} {check : State → Option Reason} {line : Option Label} {first : Label}
    {micro : State → Outcome} (h : s.host.op = none) (hc : check s = none) :
    runCommand i check line first micro s = .next (s.begin i line first) := by
  simp [runCommand, h, hc]

/-- With HOST idle and the contract not met the command is refused. -/
theorem runCommand_refused {i : Instr} {check : State → Option Reason} {line : Option Label} {first : Label}
    {micro : State → Outcome} {reason : Reason} (h : s.host.op = none) (hc : check s = some reason) :
    runCommand i check line first micro s = .next (s.raise (.contractViolation reason (encode i))) := by
  simp [runCommand, h, hc]

/-! ## The Serial Transport's operations -/

theorem utInitMicro_next {r : Nat} (h : utInitMicro r s = .next t) :
    (s.host.step = .i0 ∧ t = (initDivisor r s).advance .i1) ∨
    (s.host.step = .i1 ∧ t = (initEnables s).advance .i2) ∨
    (s.host.step = .i2 ∧ t = (initGlobal s).advance .i3) ∨
    (s.host.step = .i3 ∧ t = (s.withUt { s.ut with inited := true }).ret (.utInit r) .unit) := by
  unfold utInitMicro at h
  split at h <;> first | cases h; simp_all | cases h

/-- What a micro-step of `send_byte` can be (40_serial_transport.md R122). -/
theorem sendByteMicro_next {b : Byte} {ret : State → State} (h : sendByteMicro b ret s = .next t) :
    (s.host.step = .s0 ∧ s.ut.tx.full s.cfg.N = true ∧ t = s) ∨
    (s.host.step = .s0 ∧ s.ut.tx.full s.cfg.N = false ∧ t = s.advance .s1) ∨
    (s.host.step = .s1 ∧ ∃ tx, s.ut.tx.store .txbuf s.cfg.N b = .ok tx ∧
      t = (s.withUt { s.ut with tx := tx }).advance .s2) ∨
    (s.host.step = .s2 ∧ t = (s.withUt { s.ut with tx := s.ut.tx.publish s.cfg.N }).advance .s3) ∨
    (s.host.step = .s3 ∧ t = ret (s.withUt { s.ut with txIe := true })) := by
  unfold sendByteMicro at h
  split at h
  · rename_i hl
    simp only [held, hl] at h
    split at h <;> (cases h; simp_all)
  · rename_i hl
    split at h
    · rename_i tx htx
      cases h; exact .inr (.inr (.inl ⟨hl, tx, htx, rfl⟩))
    · cases h
  · cases h; simp_all
  · cases h; simp_all
  · cases h

/-- What a micro-step of `receive_byte` can be (40_serial_transport.md R125). -/
theorem recvByteMicro_next {ret : Byte → State → State} (h : recvByteMicro ret s = .next t) :
    (s.host.step = .v0 ∧ s.ut.rx.empty = true ∧ t = s) ∨
    (s.host.step = .v0 ∧ s.ut.rx.empty = false ∧ t = s.advance .v1) ∨
    (s.host.step = .v1 ∧ ∃ v, s.ut.rx.fetch .rxbuf s.cfg.N = .ok v ∧
      t = (s.withLocals { s.host.locals with v := v }).advance .v2) ∨
    (s.host.step = .v2 ∧
      t = ret s.host.locals.v (s.withUt { s.ut with rx := s.ut.rx.release s.cfg.N })) := by
  unfold recvByteMicro at h
  split at h
  · rename_i hl
    simp only [held, hl] at h
    split at h <;> (cases h; simp_all)
  · rename_i hl
    split at h
    · rename_i v hv
      cases h; exact .inr (.inr (.inl ⟨hl, v, hv, rfl⟩))
    · cases h
  · cases h; simp_all
  · cases h

/-! ## The bus primitives -/

theorem bmInitMicro_next {r : Nat} (h : bmInitMicro r s = .next t) :
    (s.host.step = .n0 ∧ t = (bmInitTiming r s).advance .n1) ∨
    (s.host.step = .n1 ∧ t = (s.withBm { s.bm with inited := true }).ret (.bmInit r) .unit) := by
  unfold bmInitMicro at h
  split at h <;> first | cases h; simp_all | cases h

/-- The busy-wait (42_bus_primitives.md R197). -/
theorem awaitDone_cases (l : Label) (hl : s.host.step ∈ busHolds) :
    (s.bm.done = false ∧ awaitDone l s = s) ∨ (s.bm.done = true ∧ awaitDone l s = s.advance l) := by
  have hh : held s = !s.bm.done := by
    simp only [busHolds, List.mem_cons, List.not_mem_nil, or_false] at hl
    rcases hl with h | h | h | h | h <;> simp [held, h]
  cases hd : s.bm.done <;> simp [awaitDone, hh, hd]

/-- What a micro-step of `start` can be (42_bus_primitives.md R192). -/
theorem startMicro_next {a : DevAddr} {d : Direction} {ret : Byte → State → State}
    (h : startMicro a d ret s = .next t) :
    (s.host.step = .t0 ∧ t = (startCondition d s).advance .t1) ∨
    (s.host.step = .t1 ∧ t = awaitDone .t2 s) ∨
    (s.host.step = .t2 ∧ t = (startAddress a d s).advance .t3) ∨
    (s.host.step = .t3 ∧ t = awaitDone .t4 s) ∨
    (s.host.step = .t4 ∧ t = ret s.bm.status (s.withBm { s.bm with state := .addressAcked })) := by
  unfold startMicro at h
  split at h <;> first | cases h; simp_all | cases h

/-- What a micro-step of `write` can be (42_bus_primitives.md R193). -/
theorem writeMicro_next {b : Byte} {ret : Byte → State → State} (h : writeMicro b ret s = .next t) :
    (s.host.step = .w0 ∧ t = (writeByte b s).advance .w1) ∨
    (s.host.step = .w1 ∧ t = awaitDone .w2 s) ∨
    (s.host.step = .w2 ∧ t = ret s.bm.status s) := by
  unfold writeMicro at h
  split at h <;> first | cases h; simp_all | cases h

/-- What a micro-step of `read_with_ack` can be (42_bus_primitives.md R194). -/
theorem readAckMicro_next {ret : Byte → State → State} (h : readAckMicro ret s = .next t) :
    (s.host.step = .a0 ∧ t = (readIssue .recvAck s).advance .a1) ∨
    (s.host.step = .a1 ∧ t = awaitDone .a2 s) ∨
    (s.host.step = .a2 ∧ t = ret s.bm.data s) := by
  unfold readAckMicro at h
  split at h <;> first | cases h; simp_all | cases h

/-- What a micro-step of `read_with_no_ack` can be (42_bus_primitives.md R195). -/
theorem readNackMicro_next {ret : Byte → State → State} (h : readNackMicro ret s = .next t) :
    (s.host.step = .k0 ∧ t = (readIssue .recvNack s).advance .k1) ∨
    (s.host.step = .k1 ∧ t = awaitDone .k2 s) ∨
    (s.host.step = .k2 ∧ t = ret s.bm.data s) := by
  unfold readNackMicro at h
  split at h <;> first | cases h; simp_all | cases h

/-- What a micro-step of `stop` can be (42_bus_primitives.md R196). -/
theorem stopMicro_next {ret : State → State} (h : stopMicro ret s = .next t) :
    (s.host.step = .p0 ∧ t = (stopCondition s).advance .p1) ∨
    (s.host.step = .p1 ∧ t = ret (stopSettled s)) := by
  unfold stopMicro at h
  split at h <;> first | cases h; simp_all | cases h

/-! ## The handlers -/

/-- What RXI can do (41_serial_handlers_and_line.md R160). -/
theorem rxiBody_next (h : rxiBody s = .next t) :
    (s.ut.rx.full s.cfg.N = true ∧
      t = s.withUt { s.ut with rxReady := false, rxSwDropped := s.ut.rxSwDropped + 1 }) ∨
    (s.ut.rx.full s.cfg.N = false ∧ ∃ rx, s.ut.rx.store .rxbuf s.cfg.N s.ut.rxData = .ok rx ∧
      t = s.withUt { s.ut with rxReady := false, rx := rx.publish s.cfg.N }) := by
  unfold rxiBody at h
  simp only [takeRxData] at h
  split at h
  · cases h; simp_all
  · split at h
    · rename_i rx hrx
      cases h; refine .inr ⟨by simp_all, rx, hrx, rfl⟩
    · cases h

/-- What TXI can do (41_serial_handlers_and_line.md R161). -/
theorem txiBody_next (h : txiBody s = .next t) :
    (s.ut.tx.empty = true ∧ t = s.withUt { s.ut with txIe := false }) ∨
    (s.ut.tx.empty = false ∧ ∃ d, s.ut.tx.fetch .txbuf s.cfg.N = .ok d ∧
      t = s.withUt { s.ut with tx := s.ut.tx.release s.cfg.N, txData := d, txReady := false }) := by
  unfold txiBody at h
  split at h
  · cases h; simp_all
  · split at h
    · rename_i d hd
      cases h; refine .inr ⟨by simp_all, d, hd, rfl⟩
    · cases h

/-! ## The agents and the step -/

/-- What the step of a chosen agent can be: a choice that is not enabled does nothing (log 5). -/
theorem perform_next {c : Choice} (h : perform c s = .next t) :
    (enabled c s = false ∧ t = s) ∨
    (enabled c s = true ∧
      ((∃ w, c = .issue w ∧ issueWord w s = .next t) ∨ (c = .host ∧ hostMicroStep s = .next t) ∨
       (c = .rxi ∧ rxiBody s = .next t) ∨ (c = .txi ∧ txiBody s = .next t) ∨
       (∃ v k, c = .lineArrive v k ∧ t = lineArrive v k s) ∨ (c = .lineShiftOut ∧ t = lineShiftOut s) ∨
       (∃ st v, c = .busComplete st v ∧ t = busComplete st v s))) := by
  unfold perform at h
  split at h
  · rename_i he
    refine .inr ⟨he, ?_⟩
    cases c with
    | issue w => exact .inl ⟨w, rfl, h⟩
    | host => exact .inr (.inl ⟨rfl, h⟩)
    | rxi => exact .inr (.inr (.inl ⟨rfl, h⟩))
    | txi => exact .inr (.inr (.inr (.inl ⟨rfl, h⟩)))
    | lineArrive v k => cases h; exact .inr (.inr (.inr (.inr (.inl ⟨v, k, rfl, rfl⟩))))
    | lineShiftOut => cases h; exact .inr (.inr (.inr (.inr (.inr (.inl ⟨rfl, rfl⟩)))))
    | busComplete st v => cases h; exact .inr (.inr (.inr (.inr (.inr (.inr ⟨st, v, rfl, rfl⟩)))))
  · rename_i he
    cases h; exact .inl ⟨by simp_all, rfl⟩

/-- HOST's transition under a choice is one of the command in flight, or the issue of one, or the record of an
illegal word (30_encoding.md R102). -/
theorem issueWord_next {w : Word} (h : issueWord w s = .next t) :
    (s.host.op.isSome ∧ t = s) ∨
    (s.host.op = none ∧ ∃ i, decode w = .ok i ∧ exec i s = .next t) ∨
    (s.host.op = none ∧ (∃ e, decode w = .error e) ∧ t = s.raise (.illegalCommand w)) := by
  unfold issueWord at h
  split at h
  · cases h; simp_all
  · rename_i hop
    split at h
    · rename_i i hi
      exact .inr (.inl ⟨hop, i, hi, h⟩)
    · rename_i e he
      cases h; exact .inr (.inr ⟨hop, ⟨e, he⟩, rfl⟩)

theorem hostMicroStep_next (h : hostMicroStep s = .next t) :
    (s.host.op = none ∧ t = s) ∨ (∃ i, s.host.op = some i ∧ exec i s = .next t) := by
  unfold hostMicroStep at h
  split at h
  · exact .inr ⟨_, ‹_›, h⟩
  · cases h; exact .inl ⟨‹_›, rfl⟩

/-- A step is the step of one chosen agent, after the choice has been used up (log 4). -/
theorem step_eq_perform (s : State) : ∃ (c : Choice) (ins : List Choice) (n : Nat),
    step s = perform c { s with inputs := ins, draws := n } := by
  unfold step
  split
  · rename_i c rest _
    exact ⟨c, rest, s.draws, rfl⟩
  · exact ⟨Config.freeChoice s.draws, s.inputs, s.draws + 1, rfl⟩

end Sys2Proof.Machine
end

