-- ==== Sys2Proof/Laws/HostMove.lean ====
section
/-! SUPPORT. What one HOST transition of any command can do to the Serial Transport, said once: proofs about the
buffers, the streams and the interrupt enables cite `exec_move` and never unfold a command. -/

namespace Sys2Proof.Machine

variable {s t : State}

/-- The labels between which HOST relies on what it found in a buffer (spec/20_memory.md R72). -/
def busyLabels : List Label := [.s1, .s2, .v1, .v2]

/-- Those, and the label at which `tx_ie` is still to be set (spec/40_serial_transport.md R122). -/
def pendingLabels : List Label := .s3 :: busyLabels

/-- Every label of `send_byte` and `receive_byte` (spec/40_serial_transport.md R122, R125). -/
def serialLabels : List Label := sendLabels ++ recvLabels

/-- The part of the Serial Transport no HOST transition but `UT_INIT` and the last line of `send_byte` writes:
`t` differs from `s` at most in the divisor, the enables and `ut_inited`, and `tx_ie` is cleared by `UT_INIT` alone
(spec/40_serial_transport.md R120, R122). -/
structure SameBuffers (s t : State) : Prop where
  cfg : t.cfg = s.cfg
  ut : t.ut = { s.ut with
    baudDiv := t.ut.baudDiv
    rxIe := t.ut.rxIe
    txIe := t.ut.txIe
    gie := t.ut.gie
    inited := t.ut.inited }
  txIe : (t.ut.txIe = s.ut.txIe ∧ (s.host.op = none ∨ s.host.step ∉ pendingLabels)) ∨ t.ut.txIe = true ∨
    ∃ r, s.host.op = some (.utInit r)
  label : s.host.op = none ∨ (s.host.step ∉ busyLabels ∧ s.host.step ≠ .s0 ∧ s.host.step ≠ .v0)
  pos : t.host.op = none ∨ t.host.step ∉ busyLabels

/-- Everything a HOST transition can do to the buffers. -/
inductive SerialMove (s t : State) : Prop
  | same (h : SameBuffers s t)
  | refl (h : t = s) (hl : s.host.op = none ∨ s.host.step ∉ pendingLabels)
      (hw : s.host.op = none ∨ (s.host.step ≠ .s0 ∧ s.host.step ≠ .v0) ∨ held s = true)
  | room (hop : s.host.op.isSome) (hl : s.host.step = .s0) (hf : s.ut.tx.full s.cfg.N = false)
      (h : t = s.advance .s1)
  | store (hop : s.host.op.isSome) (hl : s.host.step = .s1) (b : Byte) (hb : sendingByte s = some b) (tx : CircBuf)
      (hs : s.ut.tx.store .txbuf s.cfg.N b = .ok tx) (h : t = (s.withUt { s.ut with tx := tx }).advance .s2)
  | publish (hop : s.host.op.isSome) (hl : s.host.step = .s2)
      (h : t = (s.withUt { s.ut with tx := s.ut.tx.publish s.cfg.N }).advance .s3)
  | byte (hop : s.host.op.isSome) (hl : s.host.step = .v0) (hf : s.ut.rx.empty = false) (h : t = s.advance .v1)
  | fetch (hop : s.host.op.isSome) (hl : s.host.step = .v1) (v : Byte)
      (hs : s.ut.rx.fetch .rxbuf s.cfg.N = .ok v)
      (h : t = (s.withLocals { s.host.locals with v := v }).advance .v2)
  | release (hop : s.host.op.isSome) (hl : s.host.step = .v2) (hcfg : t.cfg = s.cfg)
      (hut : t.ut = { s.ut with rx := s.ut.rx.release s.cfg.N })
      (hpos : t.host.op = none ∨ t.host.step ∉ busyLabels)

/-- What a caller does with a return (spec/00_scope.md R9 `call`) leaves the unit's state alone and HOST at no busy
label. -/
def QuietReturn (ret : State → State) : Prop :=
  ∀ u, (ret u).cfg = u.cfg ∧ (ret u).ut = u.ut ∧ ((ret u).host.op = none ∨ (ret u).host.step ∉ busyLabels)

theorem quiet_ret (i : Instr) (r : State → Result) : QuietReturn fun u => u.ret i (r u) :=
  fun _ => ⟨rfl, rfl, .inl rfl⟩

theorem quiet_statusThen {l : Label} (hl : l ∉ busyLabels) (v : Byte) : QuietReturn (statusThen l v) :=
  fun _ => ⟨rfl, rfl, .inr hl⟩

theorem quiet_lineEraseNext : QuietReturn lineEraseNext := by
  intro u
  unfold lineEraseNext
  split <;> exact ⟨rfl, rfl, .inr (by simp [busyLabels])⟩

/-- A HOST transition that touches nothing of the Serial Transport. -/
structure Quiet (s t : State) : Prop where
  cfg : t.cfg = s.cfg
  ut : t.ut = s.ut
  pos : t = s ∨ t.host.op = none ∨ t.host.step ∉ busyLabels
  label : s.host.op = none ∨ s.host.step ∉ serialLabels

/-- Every label at which HOST relies on a buffer, waits for one or is yet to set `tx_ie` is one of `serialLabels`. -/
theorem not_serial {l : Label} (h : l ∉ serialLabels) :
    l ∉ pendingLabels ∧ l ∉ busyLabels ∧ l ≠ .s0 ∧ l ≠ .v0 := by
  cases l <;> first | exact absurd (by decide) h | decide

theorem Quiet.move (h : Quiet s t) : SerialMove s t := by
  rcases h.pos with rfl | hp
  · exact .refl rfl (h.label.imp_right fun e => (not_serial e).1) (h.label.imp_right fun e => .inl (not_serial e).2.2)
  · exact .same ⟨h.cfg, by rw [h.ut], .inl ⟨by rw [h.ut], h.label.imp_right fun e => (not_serial e).1⟩,
      h.label.imp_right fun e => (not_serial e).2, hp⟩

theorem Quiet.of_return {ret : State → State} {u : State} (hr : QuietReturn ret) (hc : u.cfg = s.cfg)
    (hu : u.ut = s.ut) (hl : s.host.op = none ∨ s.host.step ∉ serialLabels) : Quiet s (ret u) :=
  ⟨(hr u).1.trans hc, (hr u).2.1.trans hu, .inr (hr u).2.2, hl⟩

theorem Quiet.at_label {l m : Label} (hm : s.host.step = m) (h3 : m ∉ serialLabels) (hl : l ∉ busyLabels)
    (hc : t.cfg = s.cfg) (hu : t.ut = s.ut) (ht : t.host.step = l) : Quiet s t :=
  ⟨hc, hu, .inr (.inr (ht ▸ hl)), .inr (hm ▸ h3)⟩

/-! ## The called operations -/

theorem sendByteMicro_move {b : Byte} {ret : State → State} (hop : s.host.op.isSome) (hb : sendingByte s = some b)
    (hret : QuietReturn ret) (h : sendByteMicro b ret s = .next t) : SerialMove s t := by
  rcases sendByteMicro_next h with ⟨h1, h2, rfl⟩ | ⟨h1, h2, rfl⟩ | ⟨h1, tx, h2, rfl⟩ | ⟨h1, rfl⟩ | ⟨h1, rfl⟩
  · exact .refl rfl (.inr (by simp [h1, pendingLabels, busyLabels])) (.inr (.inr (by simp [held, h1, h2])))
  · exact .room hop h1 h2 rfl
  · exact .store hop h1 b hb tx h2 rfl
  · exact .publish hop h1 rfl
  · obtain ⟨e1, e2, e3⟩ := hret (s.withUt { s.ut with txIe := true })
    exact .same ⟨by rw [e1]; rfl, by rw [e2]; rfl, .inr (.inl (by rw [e2]; rfl)), .inr (by simp [h1, busyLabels]), e3⟩

theorem recvByteMicro_move {ret : Byte → State → State} (hop : s.host.op.isSome) (hret : ∀ v, QuietReturn (ret v))
    (h : recvByteMicro ret s = .next t) : SerialMove s t := by
  rcases recvByteMicro_next h with ⟨h1, h2, rfl⟩ | ⟨h1, h2, rfl⟩ | ⟨h1, v, h2, rfl⟩ | ⟨h1, rfl⟩
  · exact .refl rfl (.inr (by simp [h1, pendingLabels, busyLabels])) (.inr (.inr (by simp [held, h1, h2])))
  · exact .byte hop h1 h2 rfl
  · exact .fetch hop h1 v h2 rfl
  · obtain ⟨e1, e2, e3⟩ := hret s.host.locals.v (s.withUt { s.ut with rx := s.ut.rx.release s.cfg.N })
    exact .release hop h1 (by rw [e1]; rfl) (by rw [e2]; rfl) e3

theorem awaitDone_quiet {l m : Label} (hm : s.host.step = m) (hb : m ∈ busHolds) (h : l ∉ busyLabels) :
    Quiet s (awaitDone l s) := by
  have hl : s.host.op = none ∨ s.host.step ∉ serialLabels := .inr fun e => by
    rw [hm] at e
    revert hb e
    cases m <;> decide
  rcases awaitDone_cases l (hm ▸ hb) with ⟨_, e⟩ | ⟨_, e⟩
  · rw [e]; exact ⟨rfl, rfl, .inl rfl, hl⟩
  · rw [e]; exact ⟨rfl, rfl, .inr (.inr h), hl⟩

theorem startMicro_quiet {a : DevAddr} {d : Direction} {ret : Byte → State → State}
    (hret : ∀ v, QuietReturn (ret v)) (h : startMicro a d ret s = .next t) : Quiet s t := by
  rcases startMicro_next h with ⟨h1, rfl⟩ | ⟨h1, rfl⟩ | ⟨h1, rfl⟩ | ⟨h1, rfl⟩ | ⟨h1, rfl⟩
  · exact .at_label h1 (by decide) (l := .t1) (by decide) rfl rfl rfl
  · exact awaitDone_quiet h1 (by decide) (by decide)
  · exact .at_label h1 (by decide) (l := .t3) (by decide) rfl rfl rfl
  · exact awaitDone_quiet h1 (by decide) (by decide)
  · exact .of_return (hret _) rfl rfl (.inr (by simp [h1, serialLabels, sendLabels, recvLabels]))

theorem writeMicro_quiet {b : Byte} {ret : Byte → State → State} (hret : ∀ v, QuietReturn (ret v))
    (h : writeMicro b ret s = .next t) : Quiet s t := by
  rcases writeMicro_next h with ⟨h1, rfl⟩ | ⟨h1, rfl⟩ | ⟨h1, rfl⟩
  · exact .at_label h1 (by decide) (l := .w1) (by decide) rfl rfl rfl
  · exact awaitDone_quiet h1 (by decide) (by decide)
  · exact .of_return (hret _) rfl rfl (.inr (by simp [h1, serialLabels, sendLabels, recvLabels]))

theorem readAckMicro_quiet {ret : Byte → State → State} (hret : ∀ v, QuietReturn (ret v))
    (h : readAckMicro ret s = .next t) : Quiet s t := by
  rcases readAckMicro_next h with ⟨h1, rfl⟩ | ⟨h1, rfl⟩ | ⟨h1, rfl⟩
  · exact .at_label h1 (by decide) (l := .a1) (by decide) rfl rfl rfl
  · exact awaitDone_quiet h1 (by decide) (by decide)
  · exact .of_return (hret _) rfl rfl (.inr (by simp [h1, serialLabels, sendLabels, recvLabels]))

theorem readNackMicro_quiet {ret : Byte → State → State} (hret : ∀ v, QuietReturn (ret v))
    (h : readNackMicro ret s = .next t) : Quiet s t := by
  rcases readNackMicro_next h with ⟨h1, rfl⟩ | ⟨h1, rfl⟩ | ⟨h1, rfl⟩
  · exact .at_label h1 (by decide) (l := .k1) (by decide) rfl rfl rfl
  · exact awaitDone_quiet h1 (by decide) (by decide)
  · exact .of_return (hret _) rfl rfl (.inr (by simp [h1, serialLabels, sendLabels, recvLabels]))

theorem stopMicro_quiet {ret : State → State} (hret : QuietReturn ret) (h : stopMicro ret s = .next t) :
    Quiet s t := by
  rcases stopMicro_next h with ⟨h1, rfl⟩ | ⟨h1, rfl⟩
  · exact .at_label h1 (by decide) (l := .p1) (by decide) rfl rfl rfl
  · exact .of_return hret rfl rfl (.inr (by simp [h1, serialLabels, sendLabels, recvLabels]))

theorem checkStatus_quiet {m : Label} (hm : s.host.step = m) (h3 : m ∉ serialLabels) (e : Byte) (l n f : Label)
    (hf : f ∉ busyLabels) : Quiet s (checkStatus e l n f s) := by
  unfold checkStatus
  split
  · exact .at_label hm h3 hf rfl rfl rfl
  · exact .at_label hm h3 (l := .p0) (by decide) rfl rfl rfl

/-! ## The commands -/

theorem recvLineMicro_move {m : Nat} (hop : s.host.op = some (.utRecvLine m)) (h : recvLineMicro m s = .next t) :
    SerialMove s t := by
  have hop' : s.host.op.isSome := by simp [hop]
  unfold recvLineMicro at h
  split at h
  · refine recvByteMicro_move hop' ?_ h
    exact fun _ _ => ⟨rfl, rfl, .inr (by simp [busyLabels])⟩
  · rename_i hc
    split at h
    · rename_i he
      refine sendByteMicro_move hop' (by simp [sendingByte, hop, hc, he]) ?_ h
      exact fun u => quiet_lineEraseNext (u.withLocals _)
    · cases h
  · rename_i hc
    refine sendByteMicro_move hop' (by simp [sendingByte, hop, hc]) ?_ h
    exact fun _ => ⟨rfl, rfl, .inr (by simp [busyLabels])⟩
  · cases h
  · apply Quiet.move
    split at h <;> rename_i hl <;> cases h
    · exact .at_label hl (by decide) (l := .l1) (by decide) rfl rfl rfl
    · unfold lineTest
      split
      · exact .at_label hl (by decide) (l := .l6) (by decide) rfl rfl rfl
      · exact .at_label hl (by decide) (l := .v0) (by decide) rfl rfl rfl
    · unfold lineTerminator
      split
      · exact .at_label hl (by decide) (l := .l6) (by decide) rfl rfl rfl
      · exact .at_label hl (by decide) (l := .l4) (by decide) rfl rfl rfl
    · unfold lineEdit
      split
      · split
        · exact .of_return quiet_lineEraseNext rfl rfl (.inr (by simp [hl, serialLabels, sendLabels, recvLabels]))
        · exact .at_label hl (by decide) (l := .l1) (by decide) rfl rfl rfl
      · exact .at_label hl (by decide) (l := .l5) (by decide) rfl rfl rfl
    · unfold lineStore
      dsimp only
      split
      · exact .at_label hl (by decide) (l := .s0) (by decide) rfl rfl rfl
      · exact .at_label hl (by decide) (l := .l1) (by decide) rfl rfl rfl
    · exact ⟨rfl, rfl, .inr (.inl rfl), .inr (by simp [hl, serialLabels, sendLabels, recvLabels])⟩

theorem writeRegMicro_quiet {d : DevAddr} {r v : Byte} (h : writeRegMicro d r v s = .next t) : Quiet s t := by
  unfold writeRegMicro at h
  split at h
  · exact startMicro_quiet (quiet_statusThen (by decide)) h
  · exact writeMicro_quiet (quiet_statusThen (by decide)) h
  · exact writeMicro_quiet (quiet_statusThen (by decide)) h
  iterate 4 exact stopMicro_quiet (quiet_ret _ _) h
  · cases h
  · split at h <;> rename_i hl <;> cases h <;> exact checkStatus_quiet hl (by decide) _ _ _ _ (by decide)

theorem readRegMicro_quiet {d : DevAddr} {r : Byte} (h : readRegMicro d r s = .next t) : Quiet s t := by
  unfold readRegMicro at h
  split at h
  · exact startMicro_quiet (quiet_statusThen (by decide)) h
  · exact writeMicro_quiet (quiet_statusThen (by decide)) h
  · exact startMicro_quiet (quiet_statusThen (by decide)) h
  · refine readNackMicro_quiet ?_ h
    exact fun _ _ => ⟨rfl, rfl, .inr (by simp [busyLabels])⟩
  iterate 4 exact stopMicro_quiet (quiet_ret _ _) h
  · cases h
  · split at h <;> rename_i hl <;> cases h <;> exact checkStatus_quiet hl (by decide) _ _ _ _ (by decide)

theorem readRegsMicro_quiet {d : DevAddr} {r : Byte} {n : Nat} (h : readRegsMicro d r n s = .next t) :
    Quiet s t := by
  unfold readRegsMicro at h
  split at h
  · exact startMicro_quiet (quiet_statusThen (by decide)) h
  · exact writeMicro_quiet (quiet_statusThen (by decide)) h
  · exact startMicro_quiet (quiet_statusThen (by decide)) h
  · refine readAckMicro_quiet ?_ h
    exact fun _ _ => ⟨rfl, rfl, .inr (by simp [readRegsStore, busyLabels])⟩
  · refine readNackMicro_quiet ?_ h
    exact fun _ _ => ⟨rfl, rfl, .inr (by simp [readRegsLast, busyLabels])⟩
  iterate 4 exact stopMicro_quiet (quiet_ret _ _) h
  · cases h
  · split at h <;> rename_i hl <;> cases h
    · exact checkStatus_quiet hl (by decide) _ _ _ _ (by decide)
    · exact checkStatus_quiet hl (by decide) _ _ _ _ (by decide)
    · unfold readRegsAddressed
      split
      · exact .at_label hl (by decide) (l := .q6) (by decide) rfl rfl rfl
      · exact .at_label hl (by decide) (l := .p0) (by decide) rfl rfl rfl
    · exact .at_label hl (by decide) (l := .q7) (by decide) rfl rfl rfl
    · unfold readRegsTest
      split
      · exact .at_label hl (by decide) (l := .a0) (by decide) rfl rfl rfl
      · exact .at_label hl (by decide) (l := .k0) (by decide) rfl rfl rfl

theorem runCommand_move {i : Instr} {check : State → Option Reason} {line : Option Label} {first : Label}
    {micro : State → Outcome} (hi : s.host.op = none ∨ s.host.op = some i) (hf : first ∉ busyLabels)
    (hm : s.host.op = some i → micro s = .next t → SerialMove s t)
    (h : runCommand i check line first micro s = .next t) : SerialMove s t := by
  rcases runCommand_next h with ⟨h1, r, _, rfl⟩ | ⟨h1, _, rfl⟩ | ⟨h1, h2⟩ | ⟨j, hj, h1, rfl⟩
  · exact .same ⟨rfl, rfl, .inl ⟨rfl, .inl h1⟩, .inl h1, .inl h1⟩
  · exact .same ⟨rfl, rfl, .inl ⟨rfl, .inl h1⟩, .inl h1, .inr hf⟩
  · exact hm h1 h2
  · rcases hi with h | h <;> rw [h1] at h <;> cases h
    exact absurd rfl hj

/-- What one HOST transition of command `i`, its issue or a micro-step of it, does to the Serial Transport. -/
theorem exec_move (i : Instr) (hi : s.host.op = none ∨ s.host.op = some i) (h : exec i s = .next t) :
    SerialMove s t := by
  cases i <;> refine runCommand_move hi (by decide) (fun hop hm => ?_) h <;>
    have hop' : s.host.op.isSome := by simp [hop]
  · rename_i r
    rcases utInitMicro_next hm with ⟨hl, rfl⟩ | ⟨hl, rfl⟩ | ⟨hl, rfl⟩ | ⟨hl, rfl⟩
    · exact .same ⟨rfl, rfl, .inr (.inr ⟨r, hop⟩), .inr (by simp [hl, busyLabels]), .inr (by simp [busyLabels])⟩
    · exact .same ⟨rfl, rfl, .inr (.inr ⟨r, hop⟩), .inr (by simp [hl, busyLabels]), .inr (by simp [busyLabels])⟩
    · exact .same ⟨rfl, rfl, .inr (.inr ⟨r, hop⟩), .inr (by simp [hl, busyLabels]), .inr (by simp [busyLabels])⟩
    · exact .same ⟨rfl, rfl, .inr (.inr ⟨r, hop⟩), .inr (by simp [hl, busyLabels]), .inl rfl⟩
  · exact sendByteMicro_move hop' (by simp [sendingByte, hop]) (quiet_ret _ _) hm
  · exact recvByteMicro_move hop' (fun _ => quiet_ret _ _) hm
  · exact recvLineMicro_move hop hm
  · rcases bmInitMicro_next hm with ⟨hl, rfl⟩ | ⟨hl, rfl⟩
    · exact Quiet.move ⟨rfl, rfl, .inr (.inr (by simp [busyLabels])), .inr (by simp [hl, serialLabels, sendLabels, recvLabels])⟩
    · exact Quiet.move ⟨rfl, rfl, .inr (.inl rfl), .inr (by simp [hl, serialLabels, sendLabels, recvLabels])⟩
  · exact (startMicro_quiet (fun _ => quiet_ret _ _) hm).move
  · exact (writeMicro_quiet (fun _ => quiet_ret _ _) hm).move
  · exact (readAckMicro_quiet (fun _ => quiet_ret _ _) hm).move
  · exact (readNackMicro_quiet (fun _ => quiet_ret _ _) hm).move
  · exact (stopMicro_quiet (quiet_ret _ _) hm).move
  · exact (writeRegMicro_quiet hm).move
  · exact (readRegMicro_quiet hm).move
  · exact (readRegsMicro_quiet hm).move

/-! ## The steps of the agents -/

/-- What the step of a chosen agent does to the Serial Transport (00_scope.md R10): nothing, one HOST transition, or
the step of a handler or of LINE. -/
theorem perform_move {c : Choice} (h : perform c s = .next t) :
    (t.cfg = s.cfg ∧ t.ut = s.ut ∧ (c = .host → s.host.op = none ∨ held s = true)) ∨
    (((∃ w, c = .issue w ∧ s.host.op = none) ∨ (c = .host ∧ s.host.op.isSome ∧ held s = false)) ∧ SerialMove s t) ∨
    (c = .rxi ∧ takeable .rx s = true ∧ rxiBody s = .next t) ∨
    (c = .txi ∧ takeable .tx s = true ∧ txiBody s = .next t) ∨
    (∃ v k, c = .lineArrive v k ∧ lineMayArrive s = true ∧ t = lineArrive v k s) ∨
    (c = .lineShiftOut ∧ s.ut.txReady = false ∧ t = lineShiftOut s) := by
  replace h := perform_next h
  rcases h with ⟨he, rfl⟩ | ⟨he, ⟨w, rfl, h⟩ | ⟨rfl, h⟩ | ⟨rfl, h⟩ | ⟨rfl, h⟩ | ⟨v, k, rfl, rfl⟩ |
    ⟨rfl, rfl⟩ | ⟨st, v, rfl, rfl⟩⟩
  · refine .inl ⟨rfl, rfl, fun hc => ?_⟩
    subst hc
    cases hop : t.host.op <;> simp_all [enabled]
  · rcases issueWord_next h with ⟨_, rfl⟩ | ⟨hop, i, _, h⟩ | ⟨_, _, rfl⟩
    · exact .inl ⟨rfl, rfl, by simp⟩
    · exact .inr (.inl ⟨.inl ⟨w, rfl, hop⟩, exec_move i (.inl hop) h⟩)
    · exact .inl ⟨rfl, rfl, by simp⟩
  · rcases hostMicroStep_next h with ⟨hop, rfl⟩ | ⟨i, hop, h⟩
    · exact .inl ⟨rfl, rfl, fun _ => .inl hop⟩
    · simp only [enabled, Bool.and_eq_true, Bool.not_eq_true'] at he
      exact .inr (.inl ⟨.inr ⟨rfl, he⟩, exec_move i (.inr hop) h⟩)
  · exact .inr (.inr (.inl ⟨rfl, he, h⟩))
  · exact .inr (.inr (.inr (.inl ⟨rfl, he, h⟩)))
  · exact .inr (.inr (.inr (.inr (.inl ⟨v, k, rfl, he, rfl⟩))))
  · exact .inr (.inr (.inr (.inr (.inr ⟨rfl, by simpa [enabled] using he, rfl⟩))))
  · left
    unfold busComplete
    split
    · exact ⟨rfl, rfl, by simp⟩
    · split <;> exact ⟨rfl, rfl, by simp⟩

/-- While a command is in flight no step but HOST's own moves HOST, frees a place but by a dequeue of TXI, takes a
byte from the RX buffer, or clears `bm_done` (00_scope.md R10, 20_memory.md R72). -/
theorem perform_other {c : Choice} (hop : s.host.op.isSome) (hc : c ≠ .host) (h : perform c s = .next t) :
    t.host = s.host ∧ t.cfg = s.cfg ∧
    (t.ut.tx = s.ut.tx ∨ (s.ut.tx.empty = false ∧ t.ut.tx = s.ut.tx.release s.cfg.N)) ∧
    (t.ut.rx = s.ut.rx ∨ (s.ut.rx.full s.cfg.N = false ∧ ∃ rx, s.ut.rx.store .rxbuf s.cfg.N s.ut.rxData = .ok rx ∧
      t.ut.rx = rx.publish s.cfg.N)) ∧
    (t.bm = s.bm ∨ (∃ st v, c = .busComplete st v ∧ t.bm.done = true)) := by
  replace h := perform_next h
  rcases h with ⟨_, rfl⟩ | ⟨he, ⟨w, rfl, h⟩ | ⟨rfl, h⟩ | ⟨rfl, h⟩ | ⟨rfl, h⟩ | ⟨v, k, rfl, rfl⟩ |
    ⟨rfl, rfl⟩ | ⟨st, v, rfl, rfl⟩⟩
  · exact ⟨rfl, rfl, .inl rfl, .inl rfl, .inl rfl⟩
  · have := hop
    simp_all [enabled]
  · exact absurd rfl hc
  · rcases rxiBody_next h with ⟨_, rfl⟩ | ⟨hf, rx, hs, rfl⟩
    · exact ⟨rfl, rfl, .inl rfl, .inl rfl, .inl rfl⟩
    · exact ⟨rfl, rfl, .inl rfl, .inr ⟨hf, rx, hs, rfl⟩, .inl rfl⟩
  · rcases txiBody_next h with ⟨_, rfl⟩ | ⟨he, d, _, rfl⟩
    · exact ⟨rfl, rfl, .inl rfl, .inl rfl, .inl rfl⟩
    · exact ⟨rfl, rfl, .inr ⟨he, rfl⟩, .inl rfl, .inl rfl⟩
  · unfold lineArrive
    dsimp only
    split <;> exact ⟨rfl, rfl, .inl rfl, .inl rfl, .inl rfl⟩
  · exact ⟨rfl, rfl, .inl rfl, .inl rfl, .inl rfl⟩
  · unfold busComplete
    split
    · exact ⟨rfl, rfl, .inl rfl, .inl rfl, .inl rfl⟩
    · split <;> exact ⟨rfl, rfl, .inl rfl, .inl rfl, .inr ⟨st, v, rfl, rfl⟩⟩

/-- HOST at a hold stays where it is under every step (60_exceptions.md R282). -/
theorem perform_held {c : Choice} (hop : s.host.op.isSome) (hh : held s = true) (h : perform c s = .next t) :
    t.host = s.host := by
  by_cases hc : c = .host
  · subst hc
    simp only [perform, enabled, hh, Bool.not_true, Bool.and_false, Bool.false_eq_true, if_false] at h
    cases h; rfl
  · exact (perform_other hop hc h).1

end Sys2Proof.Machine
end

