-- ==== Sys2Proof/Laws/PerInstr.lean ====
section
/-! SUPPORT. Statements about every command as syntax, one lemma per constructor. -/

namespace Sys2Proof.Laws.EncodeOpcode

/-- The top byte of the command word is the command's opcode (spec/30_encoding.md R90, R93). -/
def Statement (i : Instr) : Prop := Word.opcode (encode i) = i.opcode

theorem opcode_append (op : Byte) (x : BitVec 24) : Word.opcode (op ++ x) = op := by
  unfold Word.opcode
  ext j hj
  simp only [BitVec.getElem_extractLsb', BitVec.getLsbD_append]
  rw [if_neg (by omega), show 24 + j - 24 = j by omega, BitVec.getLsbD_eq_getElem hj]

theorem utInit (baudRate : Nat) : Statement (.utInit baudRate) := opcode_append _ _
theorem utSendByte (b : Byte) : Statement (.utSendByte b) := opcode_append _ _
theorem utRecvByte : Statement .utRecvByte := opcode_append _ _
theorem utRecvLine (maxLen : Nat) : Statement (.utRecvLine maxLen) := opcode_append _ _
theorem bmInit (clockRate : Nat) : Statement (.bmInit clockRate) := opcode_append _ _
theorem bmStart (address : DevAddr) (direction : Direction) : Statement (.bmStart address direction) :=
  opcode_append _ _
theorem bmWrite (byte : Byte) : Statement (.bmWrite byte) := opcode_append _ _
theorem bmReadAck : Statement .bmReadAck := opcode_append _ _
theorem bmReadNack : Statement .bmReadNack := opcode_append _ _
theorem bmStop : Statement .bmStop := opcode_append _ _
theorem bmWriteReg (dev : DevAddr) (reg val : Byte) : Statement (.bmWriteReg dev reg val) :=
  opcode_append _ _
theorem bmReadReg (dev : DevAddr) (reg : Byte) : Statement (.bmReadReg dev reg) := opcode_append _ _
theorem bmReadRegs (dev : DevAddr) (reg : Byte) (count : Nat) : Statement (.bmReadRegs dev reg count) :=
  opcode_append _ _

end Sys2Proof.Laws.EncodeOpcode
end

