-- ==== Sys2Proof/Laws/Progress.lean ====
section
/-! SUPPORT. What follows from the forward-progress assumptions (spec/70_reset_and_hazards.md R316), over infinite runs:
which steps are eventually taken, when HOST moves on from where it is, and the three consequences the rule draws: every
send_byte returns and every enqueued byte reaches `line_out`; receive_byte returns iff a byte arrives; a bus primitive
returns if the bus completes its phases. -/

namespace Sys2Proof.Machine

variable {r : Run} {n : Nat}

/-! ## Weak fairness -/

/-- A weakly fair step whose enabling condition only that step ends is taken while the condition still holds. -/
theorem Run.leadsTo {c : Choice} {P : State → Prop} (hf : r.WeaklyFair c) (hn : P (r.state n))
    (hk : ∀ m, n ≤ m → r.choice m ≠ c → P (r.state m) → P (r.state (m + 1)))
    (he : ∀ m, n ≤ m → P (r.state m) → enabled c (r.state m) = true) :
    ∃ m, n ≤ m ∧ P (r.state m) ∧ r.choice m = c := by
  by_contra hno
  have hP : ∀ m, n ≤ m → P (r.state m) := fun m hm =>
    Nat.le_induction hn (fun m hm ih => hk m hm (fun hc => hno ⟨m, hm, ih, hc⟩) ih) m hm
  obtain ⟨m, hm, hc⟩ := hf n fun m hm => he m hm (hP m hm)
  exact hno ⟨m, hm, hP m hm, hc⟩

/-! ## HOST -/

/-- HOST, at its position at `n`, later performs the micro-step of that position with its hold lifted. -/
def Run.MovesFrom (r : Run) (n : Nat) : Prop :=
  ∃ m, n ≤ m ∧ (r.state m).host = (r.state n).host ∧ held (r.state m) = false ∧ r.choice m = .host

/-- Only HOST's own micro-step makes a condition it waits for false again (20_memory.md R72, 42_bus_primitives.md
R198). -/
theorem perform_keeps_lifted {s t : State} {c : Choice} (hI : SerialInv s) (hop : s.host.op.isSome) (hc : c ≠ .host)
    (hu : held s = false) (h : perform c s = .next t) : held t = false := by
  obtain ⟨h1, h2, h3, h4, h5⟩ := perform_other hop hc h
  obtain ⟨hN, hN2⟩ := Config.legal_N hI.cfg
  unfold held at hu ⊢
  rw [h1, h2]
  split at hu <;> try rfl
  · rcases h3 with h3 | ⟨he, h3⟩
    · rw [h3]; exact hu
    · rw [h3]; exact CircBuf.release_not_full hN hN2 hI.tx he
  · rcases h4 with h4 | ⟨hf, rx, hs, h4⟩
    · rw [h4]; exact hu
    · obtain ⟨r', hr, e, hS, hw, _⟩ := CircBuf.store_spec hI.rx .rxbuf s.ut.rxData
      rw [hs] at hr; cases hr
      rw [h4]
      exact CircBuf.publish_not_empty hN hN2 hS (by rw [e]; exact hf) (by rw [e] at hw ⊢; simp [hw])
  all_goals
    rcases h5 with h5 | ⟨_, _, _, h5⟩
    · rw [h5]; exact hu
    · rw [h5]; rfl

/-- F4: HOST moves from a position whose hold is lifted. -/
theorem Run.movesFrom_of_lifted (hf : r.Fair) (hI : ∀ m, SerialInv (r.state m)) (hop : (r.state n).host.op.isSome)
    (hu : held (r.state n) = false) : r.MovesFrom n := by
  obtain ⟨m, hm, ⟨h1, h2⟩, hc⟩ := Run.leadsTo (P := fun s => s.host = (r.state n).host ∧ held s = false) hf.host
    ⟨rfl, hu⟩
    (fun m _ hc ⟨h1, h2⟩ =>
      have hop' : (r.state m).host.op.isSome := h1 ▸ hop
      ⟨(perform_other hop' hc (r.follows m)).1.trans h1, perform_keeps_lifted (hI m) hop' hc h2 (r.follows m)⟩)
    (fun m _ ⟨h1, h2⟩ => by simp [enabled, h1, h2, hop])
  exact ⟨m, hm, h1, h2, hc⟩

/-- HOST moves if its hold is lifted at some later point. -/
theorem Run.movesFrom_of_lifted_later (hf : r.Fair) (hI : ∀ m, SerialInv (r.state m))
    (hop : (r.state n).host.op.isSome) (k : Nat) (hu : held (r.state (n + k)) = false) : r.MovesFrom n := by
  induction k generalizing n with
  | zero => exact Run.movesFrom_of_lifted hf hI hop hu
  | succ k ih =>
    cases hh : held (r.state n)
    · exact Run.movesFrom_of_lifted hf hI hop hh
    · have e := perform_held hop hh (r.follows n)
      obtain ⟨m, hm, h1, h2⟩ := ih (n := n + 1) (e ▸ hop) (by rwa [Nat.add_right_comm, Nat.add_assoc])
      exact ⟨m, by omega, h1.trans e, h2⟩

/-- A hold that nothing lifts is kept for ever: HOST hangs there (60_exceptions.md R282; F5, F6). -/
theorem Run.hangs (hop : (r.state n).host.op.isSome) (hh : ∀ m, n ≤ m → held (r.state m) = true) :
    ∀ m, n ≤ m → (r.state m).host = (r.state n).host :=
  Nat.le_induction rfl fun m hm ih => (perform_held (ih ▸ hop) (hh m hm) (r.follows m)).trans ih

/-- Where HOST does not move on, it is held for ever where it is. -/
theorem Run.held_of_not_movesFrom (hf : r.Fair) (hI : ∀ m, SerialInv (r.state m))
    (hop : (r.state n).host.op.isSome) (hno : ¬ r.MovesFrom n) (m : Nat) (hm : n ≤ m) :
    held (r.state m) = true ∧ (r.state m).host = (r.state n).host := by
  have hh : ∀ m, n ≤ m → held (r.state m) = true := fun m hm => by
    cases hu : held (r.state m)
    · exact absurd (Run.movesFrom_of_lifted_later hf hI hop (m - n) (by rwa [Nat.add_sub_cancel' hm])) hno
    · rfl
  exact ⟨hh m hm, Run.hangs hop hh m hm⟩

/-! ## The transmit side -/

/-- What a step that is not a step of TXI leaves of the transmit side: a byte queued stays queued, `tx_ie` stays set
and the transmit register stays ready; and only a shift-out touches a byte in flight and `line_out` (20_memory.md R72,
41_serial_handlers_and_line.md R164, R165). -/
theorem perform_keeps_transmit {s t : State} {c : Choice} (hI : SerialInv s)
    (hi : ∀ b, s.host.op ≠ some (.utInit b)) (hc : ¬ (c = .txi ∧ enabled .txi s = true))
    (h : perform c s = .next t) :
    (s.ut.tx.empty = false → t.ut.tx.empty = false) ∧ (s.ut.txIe = true → t.ut.txIe = true) ∧
    (s.ut.txReady = true → t.ut.txReady = true) ∧
    (c ≠ .lineShiftOut → t.ut.txReady = s.ut.txReady ∧ t.ut.lineOut = s.ut.lineOut) := by
  obtain ⟨hN, hN2⟩ := Config.legal_N hI.cfg
  replace h := perform_move h
  rcases h with ⟨_, e, _⟩ | ⟨_, hm⟩ | ⟨_, _, h⟩ | ⟨rfl, he, _⟩ | ⟨v, k, _, _, rfl⟩ | ⟨rfl, _, rfl⟩
  · rw [e]; exact ⟨id, id, id, fun _ => ⟨rfl, rfl⟩⟩
  · cases hm with
    | same hs =>
      rw [hs.ut]
      refine ⟨id, fun h => ?_, id, fun _ => ⟨rfl, rfl⟩⟩
      rcases hs.txIe with ⟨e, _⟩ | e | ⟨b, e⟩
      · exact e.trans h
      · exact e
      · exact absurd e (hi b)
    | refl h => rw [h]; exact ⟨id, id, id, fun _ => ⟨rfl, rfl⟩⟩
    | room _ _ _ h => rw [h]; exact ⟨id, id, id, fun _ => ⟨rfl, rfl⟩⟩
    | store _ _ b _ tx hs h =>
      obtain ⟨r', hr, e, _⟩ := CircBuf.store_spec hI.tx .txbuf b
      rw [hs] at hr; cases hr
      rw [h, e]; exact ⟨id, id, id, fun _ => ⟨rfl, rfl⟩⟩
    | publish hop hl h =>
      obtain ⟨h1, h2⟩ := hI.stored hop hl
      rw [h]
      exact ⟨fun _ => CircBuf.publish_not_empty hN hN2 hI.tx (hI.room hop (.inr hl)) (h2 ▸ h1), id, id,
        fun _ => ⟨rfl, rfl⟩⟩
    | byte _ _ _ h => rw [h]; exact ⟨id, id, id, fun _ => ⟨rfl, rfl⟩⟩
    | fetch _ _ _ _ h => rw [h]; exact ⟨id, id, id, fun _ => ⟨rfl, rfl⟩⟩
    | release _ _ _ h => rw [h]; exact ⟨id, id, id, fun _ => ⟨rfl, rfl⟩⟩
  · rcases rxiBody_next h with ⟨_, rfl⟩ | ⟨_, _, _, rfl⟩ <;> exact ⟨id, id, id, fun _ => ⟨rfl, rfl⟩⟩
  · exact absurd ⟨rfl, he⟩ hc
  · unfold lineArrive
    dsimp only
    split <;> exact ⟨id, id, id, fun _ => ⟨rfl, rfl⟩⟩
  · exact ⟨id, id, fun _ => rfl, fun h => absurd rfl h⟩

/-- A byte in flight is not disturbed by TXI, which waits for the transmit register (60_exceptions.md R263). -/
theorem txi_disabled {s : State} (h : s.ut.txReady = false) : ¬ enabled .txi s = true := by
  simp [enabled, takeable, irqPending, h]

/-- F1: a byte in flight is eventually shifted out (41_serial_handlers_and_line.md R164). -/
theorem Run.shiftsOut (hf : r.Fair) (hU : r.Undisturbed) (h : (r.state n).ut.txReady = false) :
    ∃ m, n ≤ m ∧ (r.state m).ut.txReady = false ∧ r.choice m = .lineShiftOut :=
  Run.leadsTo (P := fun s => s.ut.txReady = false) hf.shiftOut h
    (fun m _ hc h => ((perform_keeps_transmit (hU.inv m).serial (hU.noInit m) (fun e => txi_disabled h e.2)
      (r.follows m)).2.2.2 hc).1.trans h)
    (fun m _ h => by simp [enabled, h])

/-- At S3 HOST sets `tx_ie` (40_serial_transport.md R122). -/
theorem perform_sets_txIe {s t : State} (hi : ∀ b, s.host.op ≠ some (.utInit b)) (hop : s.host.op.isSome)
    (hl : s.host.step = .s3) (h : perform .host s = .next t) : t.ut.txIe = true := by
  replace h := perform_move h
  rcases h with ⟨_, _, h⟩ | ⟨_, hm⟩ | ⟨h, _⟩ | ⟨h, _⟩ | ⟨_, _, h, _⟩ | ⟨h, _⟩ <;> try cases h
  · rcases h rfl with h | h
    · rw [h] at hop; cases hop
    · simp [held, hl] at h
  · have hp : ¬ (s.host.op = none ∨ s.host.step ∉ pendingLabels) := by
      rintro (h | h)
      · rw [h] at hop; cases hop
      · simp [hl, pendingLabels] at h
    cases hm with
    | same hs =>
      rcases hs.txIe with ⟨_, e⟩ | e | ⟨b, e⟩
      · exact absurd e hp
      · exact e
      · exact absurd e (hi b)
    | refl _ e => exact absurd e hp
    | room _ e | store _ e | publish _ e | byte _ e | fetch _ e | release _ e => rw [hl] at e; cases e

/-- F1, F2, F4: a queued byte is eventually followed by a step of TXI (41_serial_handlers_and_line.md R161,
70_reset_and_hazards.md R312). -/
theorem Run.transmits (hf : r.Fair) (hU : r.Undisturbed) (h : (r.state n).ut.tx.empty = false) :
    ∃ m, n ≤ m ∧ (r.state m).ut.tx.empty = false ∧ enabled .txi (r.state m) = true ∧ r.choice m = .txi := by
  by_contra hno
  have hI := fun m => (hU.inv m).serial
  have hk := fun m (hm : n ≤ m) (h : (r.state m).ut.tx.empty = false) =>
    perform_keeps_transmit (hI m) (hU.noInit m) (fun e => hno ⟨m, hm, h, e.2, e.1⟩) (r.follows m)
  have hq : ∀ m, n ≤ m → (r.state m).ut.tx.empty = false :=
    Nat.le_induction h fun m hm ih => (hk m hm ih).1 ih
  obtain ⟨k, hk1, hk2⟩ : ∃ k, n ≤ k ∧ (r.state k).ut.txIe = true := by
    rcases hU.queued n h with e | ⟨hop, hl⟩
    · exact ⟨n, le_rfl, e⟩
    · obtain ⟨m, hm, e, _, hc⟩ := Run.movesFrom_of_lifted hf hI hop (by simp [held, hl])
      exact ⟨m + 1, by omega, perform_sets_txIe (hU.noInit m) (e ▸ hop) (e ▸ hl) (hc ▸ r.follows m)⟩
  have hie : ∀ m, k ≤ m → (r.state m).ut.txIe = true :=
    Nat.le_induction hk2 fun m hm ih => (hk m (by omega) (hq m (by omega))).2.1 ih
  obtain ⟨j, hj1, hj2⟩ : ∃ j, k ≤ j ∧ (r.state j).ut.txReady = true := by
    cases e : (r.state k).ut.txReady
    · obtain ⟨m, hm, hr, hc⟩ := Run.shiftsOut hf hU e
      have := r.follows m
      rw [hc] at this
      simp only [perform, enabled, hr, Bool.not_false, if_true] at this
      refine ⟨m + 1, by omega, ?_⟩
      injection this with this
      rw [← this]; rfl
    · exact ⟨k, le_rfl, e⟩
  have hrd : ∀ m, j ≤ m → (r.state m).ut.txReady = true :=
    Nat.le_induction hj2 fun m hm ih => (hk m (by omega) (hq m (by omega))).2.2.1 ih
  have he : ∀ m, j ≤ m → enabled .txi (r.state m) = true := fun m hm => by
    simp [enabled, takeable, irqPending, irqEnabled, hrd m hm, hie m (by omega), hU.gie m]
  obtain ⟨m, hm, hc⟩ := hf.txi j he
  exact hno ⟨m, by omega, hq m (by omega), he m hm, hc⟩

/-- S0 does not hold for ever (40_serial_transport.md R122). -/
theorem Run.movesFrom_s0 (hf : r.Fair) (hU : r.Undisturbed) (hop : (r.state n).host.op.isSome)
    (hl : (r.state n).host.step = .s0) : r.MovesFrom n := by
  by_contra hno
  have hI := fun m => (hU.inv m).serial
  obtain ⟨hN, hN2⟩ := Config.legal_N (hI n).cfg
  have hh := Run.held_of_not_movesFrom hf hI hop hno
  have hfull : ∀ m, n ≤ m → (r.state m).ut.tx.full (r.state m).cfg.N = true := fun m hm => by
    have := (hh m hm).1
    rwa [held, (hh m hm).2, hl] at this
  obtain ⟨hN, hN2⟩ := Config.legal_N (hI n).cfg
  obtain ⟨m, hm, he, hen, hc⟩ := Run.transmits hf hU (CircBuf.not_empty_of_full hN hN2 (hI n).tx (hfull n le_rfl))
  obtain ⟨hN, hN2⟩ := Config.legal_N (hI m).cfg
  have h := r.follows m
  rw [hc, perform, if_pos hen] at h
  rcases txiBody_next h with ⟨e, _⟩ | ⟨_, d, _, e⟩
  · rw [e] at he; cases he
  · have := hfull (m + 1) (by omega)
    rw [e] at this
    exact Bool.false_ne_true ((CircBuf.release_not_full hN hN2 (hI m).tx he).symm.trans this)

/-! ## The receive side -/

/-- What a step of an agent other than HOST and RXI leaves of the receive side while a command is in flight: a byte
waiting stays waiting and `rx_ie` stays set (41_serial_handlers_and_line.md R160, R163). -/
theorem perform_keeps_receive {s t : State} {c : Choice} (hop : s.host.op.isSome) (hc : c ≠ .host)
    (hx : ¬ (c = .rxi ∧ enabled .rxi s = true)) (h : perform c s = .next t) :
    (s.ut.rxReady = true → t.ut.rxReady = true) ∧ t.ut.rxIe = s.ut.rxIe := by
  replace h := perform_move h
  rcases h with ⟨_, e, _⟩ | ⟨⟨_, _, e⟩ | ⟨e, _⟩, _⟩ | ⟨rfl, he, _⟩ | ⟨_, _, h⟩ | ⟨v, k, _, _, rfl⟩ | ⟨_, _, rfl⟩
  · rw [e]; exact ⟨id, rfl⟩
  · rw [e] at hop; cases hop
  · exact absurd e hc
  · exact absurd ⟨rfl, he⟩ hx
  · rcases txiBody_next h with ⟨_, rfl⟩ | ⟨_, _, _, rfl⟩ <;> exact ⟨id, rfl⟩
  · unfold lineArrive
    dsimp only
    split <;> rename_i e <;> simp [e]
  · exact ⟨id, rfl⟩

/-- F3, F4: V0 ends if at some point from `n` on a byte is in the RX buffer, or waits in `rx_data` with RXI enabled
(40_serial_transport.md R125, 41_serial_handlers_and_line.md R160). -/
theorem Run.movesFrom_v0 (hf : r.Fair) (hU : r.Undisturbed) (hop : (r.state n).host.op.isSome)
    (hl : (r.state n).host.step = .v0)
    (hb : ∃ k, n ≤ k ∧ ((r.state k).ut.rx.empty = false ∨
      ((r.state k).ut.rxReady = true ∧ (r.state k).ut.rxIe = true))) : r.MovesFrom n := by
  by_contra hno
  have hI := fun m => (hU.inv m).serial
  have hh := Run.held_of_not_movesFrom hf hI hop hno
  have hempty : ∀ m, n ≤ m → (r.state m).ut.rx.empty = true := fun m hm => by
    have := (hh m hm).1
    rwa [held, (hh m hm).2, hl] at this
  obtain ⟨k, hk, hb⟩ := hb
  rcases hb with hb | hb
  · rw [hempty k hk] at hb; cases hb
  obtain ⟨m, hm, ⟨h1, h2⟩, hc⟩ := Run.leadsTo (P := fun s => s.ut.rxReady = true ∧ s.ut.rxIe = true) hf.rxi hb
    (fun m hm hc ⟨h1, h2⟩ => by
      by_cases hx : r.choice m = .host
      · have h := r.follows m
        rw [hx] at h
        simp only [perform, enabled, (hh m (by omega)).1, Bool.not_true, Bool.and_false, Bool.false_eq_true,
          if_false] at h
        injection h with h
        rw [← h]; exact ⟨h1, h2⟩
      · obtain ⟨e1, e2⟩ := perform_keeps_receive ((hh m (by omega)).2 ▸ hop) hx (fun e => hc e.1) (r.follows m)
        exact ⟨e1 h1, e2.trans h2⟩)
    (fun m _ ⟨h1, h2⟩ => by simp [enabled, takeable, irqPending, irqEnabled, h1, h2, hU.gie m])
  obtain ⟨hN, hN2⟩ := Config.legal_N (hI m).cfg
  have h := r.follows m
  rw [hc, perform, if_pos (by simp [enabled, takeable, irqPending, irqEnabled, h1, h2, hU.gie m])] at h
  rcases rxiBody_next h with ⟨e, _⟩ | ⟨e, rx, hs, e'⟩
  · rw [CircBuf.not_full_of_empty hN hN2 (hI m).rx (hempty m (by omega))] at e; cases e
  · obtain ⟨r', hr, e1, hS, hw, _⟩ := CircBuf.store_spec (hI m).rx .rxbuf (r.state m).ut.rxData
    rw [hs] at hr; cases hr
    have := hempty (m + 1) (by omega)
    rw [e'] at this
    exact Bool.false_ne_true ((CircBuf.publish_not_empty hN hN2 hS (by rw [e1]; exact e)
      (by rw [e1] at hw ⊢; simp [hw])).symm.trans this)

/-! ## The bus -/

/-- A completion hold ends if every issued phase completes (42_bus_primitives.md R197, R199). -/
theorem Run.movesFrom_busHold (hf : r.Fair) (hU : r.Undisturbed) (hB : r.BusCompletes)
    (hop : (r.state n).host.op.isSome) (hl : (r.state n).host.step ∈ busHolds) : r.MovesFrom n := by
  by_contra hno
  have hI := fun m => (hU.inv m).serial
  have hh := Run.held_of_not_movesFrom hf hI hop hno
  have hdone : ∀ m, n ≤ m → (r.state m).bm.done = false := fun m hm => by
    have := (hh m hm).1
    rw [held, (hh m hm).2] at this
    simp only [busHolds, List.mem_cons, List.not_mem_nil, or_false] at hl
    rcases hl with h | h | h | h | h <;> simpa [h] using this
  have hpend : ∀ m, n ≤ m → (r.state m).bm.pending.isSome := fun m hm => by
    cases e : (r.state m).bm.pending
    · have := (hU.inv m).bus.completed ((hh m hm).2 ▸ hop) ((hh m hm).2 ▸ hl) e
      rw [hdone m hm] at this; cases this
    · rfl
  obtain ⟨m, hm, st, v, hc⟩ := hB n (hpend n le_rfl)
  have h := r.follows m
  have := hdone (m + 1) (by omega)
  obtain ⟨k, hk⟩ := Option.isSome_iff_exists.1 (hpend m hm)
  rw [hc] at h
  simp only [perform, enabled, hk, Option.isSome_some, if_true, busComplete] at h
  split at h <;> injection h with h <;> rw [← h] at this <;> cases this

/-- HOST moves from every position it can be at: unconditionally but for V0, which waits for a byte, and the
completion holds, which wait for BUS (60_exceptions.md R282, 70_reset_and_hazards.md R316). -/
theorem Run.movesFrom (hf : r.Fair) (hU : r.Undisturbed) (hop : (r.state n).host.op.isSome)
    (hv : (r.state n).host.step = .v0 → ∃ k, n ≤ k ∧ ((r.state k).ut.rx.empty = false ∨
      ((r.state k).ut.rxReady = true ∧ (r.state k).ut.rxIe = true)))
    (hB : (r.state n).host.step ∈ busHolds → r.BusCompletes) : r.MovesFrom n := by
  by_cases h0 : (r.state n).host.step = .s0
  · exact Run.movesFrom_s0 hf hU hop h0
  by_cases h1 : (r.state n).host.step = .v0
  · exact Run.movesFrom_v0 hf hU hop h1 (hv h1)
  by_cases h2 : (r.state n).host.step ∈ busHolds
  · exact Run.movesFrom_busHold hf hU (hB h2) hop h2
  refine Run.movesFrom_of_lifted hf (fun m => (hU.inv m).serial) hop ?_
  simp only [busHolds, List.mem_cons, List.not_mem_nil, or_false, not_or] at h2
  unfold held
  split <;> simp_all

/-! ## The operations that call nothing return -/

/-- The micro-steps left of an operation that calls no other, counted from its label. -/
def microStepsLeft : Label → Nat
  | .i0 | .s0 | .t1 => 4
  | .t0 => 5
  | .i1 | .s1 | .v0 | .t2 | .w0 | .a0 | .k0 => 3
  | .i2 | .s2 | .v1 | .n0 | .t3 | .w1 | .a1 | .k1 | .p0 => 2
  | _ => 1

/-- The commands that call no other operation. -/
def callsNothing : Instr → Bool
  | .utRecvLine _ | .bmWriteReg _ _ _ | .bmReadReg _ _ | .bmReadRegs _ _ _ => false
  | _ => true

/-- A micro-step of `i`, its hold lifted, returns, recording one result, or goes on with fewer to come. -/
theorem microStep_progress {s t : State} {i : Instr} (hi : callsNothing i) (hop : s.host.op = some i)
    (hu : held s = false) (h : perform .host s = .next t) :
    (t.host.op = none ∧ ∃ x, t.host.results = s.host.results ++ [(i, x)]) ∨
    (t.host.op = some i ∧ t.host.results = s.host.results ∧
      microStepsLeft t.host.step < microStepsLeft s.host.step) := by
  simp only [perform, enabled, hop, hu, Option.isSome_some, Bool.not_false, Bool.and_self, if_true,
    hostMicroStep] at h
  have wait : ∀ {l}, s.host.step ∈ busHolds → microStepsLeft l < microStepsLeft s.host.step →
      (awaitDone l s).host.op = some i ∧ (awaitDone l s).host.results = s.host.results ∧
        microStepsLeft (awaitDone l s).host.step < microStepsLeft s.host.step := fun {l} hl hm => by
    have e : awaitDone l s = s.advance l := by simp [awaitDone, hu]
    rw [e]; exact ⟨hop, rfl, hm⟩
  cases i <;> simp only [callsNothing, Bool.false_eq_true] at hi <;>
    replace h := (runCommand_inFlight hop).symm.trans h
  · rcases utInitMicro_next h with ⟨hl, rfl⟩ | ⟨hl, rfl⟩ | ⟨hl, rfl⟩ | ⟨hl, rfl⟩ <;>
      first | exact .inr ⟨hop, rfl, by simp [hl, microStepsLeft]⟩ | exact .inl ⟨rfl, _, rfl⟩
  · rcases sendByteMicro_next h with ⟨hl, e, rfl⟩ | ⟨hl, _, rfl⟩ | ⟨hl, _, _, rfl⟩ | ⟨hl, rfl⟩ | ⟨hl, rfl⟩
    · simp [held, hl, e] at hu
    all_goals first | exact .inr ⟨hop, rfl, by simp [hl, microStepsLeft]⟩ | exact .inl ⟨rfl, _, rfl⟩
  · rcases recvByteMicro_next h with ⟨hl, e, rfl⟩ | ⟨hl, _, rfl⟩ | ⟨hl, _, _, rfl⟩ | ⟨hl, rfl⟩
    · simp [held, hl, e] at hu
    all_goals first | exact .inr ⟨hop, rfl, by simp [hl, microStepsLeft]⟩ | exact .inl ⟨rfl, _, rfl⟩
  · rcases bmInitMicro_next h with ⟨hl, rfl⟩ | ⟨hl, rfl⟩ <;>
      first | exact .inr ⟨hop, rfl, by simp [hl, microStepsLeft]⟩ | exact .inl ⟨rfl, _, rfl⟩
  · rcases startMicro_next h with ⟨hl, rfl⟩ | ⟨hl, rfl⟩ | ⟨hl, rfl⟩ | ⟨hl, rfl⟩ | ⟨hl, rfl⟩ <;>
      first
        | exact .inr (wait (by simp [hl, busHolds]) (by simp [hl, microStepsLeft]))
        | exact .inr ⟨hop, rfl, by simp [hl, microStepsLeft]⟩
        | exact .inl ⟨rfl, _, rfl⟩
  · rcases writeMicro_next h with ⟨hl, rfl⟩ | ⟨hl, rfl⟩ | ⟨hl, rfl⟩ <;>
      first
        | exact .inr (wait (by simp [hl, busHolds]) (by simp [hl, microStepsLeft]))
        | exact .inr ⟨hop, rfl, by simp [hl, microStepsLeft]⟩
        | exact .inl ⟨rfl, _, rfl⟩
  · rcases readAckMicro_next h with ⟨hl, rfl⟩ | ⟨hl, rfl⟩ | ⟨hl, rfl⟩ <;>
      first
        | exact .inr (wait (by simp [hl, busHolds]) (by simp [hl, microStepsLeft]))
        | exact .inr ⟨hop, rfl, by simp [hl, microStepsLeft]⟩
        | exact .inl ⟨rfl, _, rfl⟩
  · rcases readNackMicro_next h with ⟨hl, rfl⟩ | ⟨hl, rfl⟩ | ⟨hl, rfl⟩ <;>
      first
        | exact .inr (wait (by simp [hl, busHolds]) (by simp [hl, microStepsLeft]))
        | exact .inr ⟨hop, rfl, by simp [hl, microStepsLeft]⟩
        | exact .inl ⟨rfl, _, rfl⟩
  · rcases stopMicro_next h with ⟨hl, rfl⟩ | ⟨hl, rfl⟩ <;>
      first | exact .inr ⟨hop, rfl, by simp [hl, microStepsLeft]⟩ | exact .inl ⟨rfl, _, rfl⟩

/-- The operation in flight at `n` returns later: HOST is idle then, and one result of it has been recorded. -/
def Run.Returns (r : Run) (n : Nat) (i : Instr) : Prop :=
  ∃ m, n ≤ m ∧ (r.state m).host.op = none ∧
    ∃ x, (r.state m).host.results = (r.state n).host.results ++ [(i, x)]

/-- An operation that calls nothing returns if HOST moves from where it is and from each later position of the
operation. -/
theorem Run.returns_of_moves {i : Instr} (hi : callsNothing i) (hop : (r.state n).host.op = some i)
    (hn : r.MovesFrom n)
    (hm : ∀ m, n ≤ m → (r.state m).host.op = some i →
      microStepsLeft (r.state m).host.step < microStepsLeft (r.state n).host.step → r.MovesFrom m) :
    r.Returns n i := by
  induction hk : microStepsLeft (r.state n).host.step using Nat.strong_induction_on generalizing n with
  | _ k ih =>
    obtain ⟨m, hmn, e, hu, hc⟩ := hn
    rcases microStep_progress hi (e ▸ hop) hu (hc ▸ r.follows m) with ⟨h1, x, h2⟩ | ⟨h1, h2, h3⟩
    · exact ⟨m + 1, by omega, h1, x, e ▸ h2⟩
    · rw [e] at h3
      obtain ⟨j, hj, h4, x, h5⟩ := ih _ (hk ▸ h3) h1 (hm _ (by omega) h1 h3)
        (fun j hj h hlt => hm j (by omega) h (hlt.trans h3)) rfl
      exact ⟨j, by omega, h4, x, by rw [h5, h2, e]⟩

/-- Every send_byte issued as a command returns (70_reset_and_hazards.md R316). -/
theorem Run.sendByte_returns {b : Byte} (hf : r.Fair) (hU : r.Undisturbed)
    (hop : (r.state n).host.op = some (.utSendByte b)) : r.Returns n (.utSendByte b) := by
  have hm : ∀ m, (r.state m).host.op = some (.utSendByte b) → r.MovesFrom m := fun m hm => by
    have hl := (hU.inv m).host.label _ hm
    have hl : (r.state m).host.step ∈ sendLabels := by
      cases hc : (r.state m).host.caller <;> simp_all [labelsOf]
    simp only [sendLabels, List.mem_cons, List.not_mem_nil, or_false] at hl
    refine Run.movesFrom hf hU (by simp [hm]) (fun e => ?_) fun e => ?_ <;>
      rcases hl with h | h | h | h <;> simp [h, busHolds] at e
  exact Run.returns_of_moves rfl hop (hm n hop) fun m _ h _ => hm m h

/-- receive_byte returns if, where it waits, a byte is in the RX buffer at some later point, or waits in `rx_data` with
RXI enabled (70_reset_and_hazards.md R316). -/
theorem Run.recvByte_returns (hf : r.Fair) (hU : r.Undisturbed) (hop : (r.state n).host.op = some .utRecvByte)
    (hb : (r.state n).host.step = .v0 → ∃ k, n ≤ k ∧ ((r.state k).ut.rx.empty = false ∨
      ((r.state k).ut.rxReady = true ∧ (r.state k).ut.rxIe = true))) : r.Returns n .utRecvByte := by
  have hl : ∀ m, (r.state m).host.op = some .utRecvByte → (r.state m).host.step ∈ recvLabels := fun m h => by
    have hl := (hU.inv m).host.label _ h
    rw [labelsOf.eq_def] at hl
    split at hl <;> simp_all
  have hh : ∀ m, (r.state m).host.op = some .utRecvByte → (r.state m).host.step ∈ busHolds → r.BusCompletes :=
    fun m h e => by
      have := hl m h
      simp only [recvLabels, busHolds, List.mem_cons, List.not_mem_nil, or_false] at this e
      rcases this with h | h | h <;> simp [h] at e
  refine Run.returns_of_moves rfl hop (Run.movesFrom hf hU (by simp [hop]) hb (hh n hop)) fun m _ h hlt =>
    Run.movesFrom hf hU (by simp [h]) (fun e => ?_) (hh m h)
  have h0 := hl n hop
  simp only [recvLabels, List.mem_cons, List.not_mem_nil, or_false] at h0
  rcases h0 with h0 | h0 | h0 <;> simp [e, h0, microStepsLeft] at hlt

/-- And only if: while the RX buffer stays empty receive_byte stays at V0 (70_reset_and_hazards.md R316, F6). -/
theorem Run.recvByte_waits (hop : (r.state n).host.op.isSome) (hl : (r.state n).host.step = .v0)
    (he : ∀ m, n ≤ m → (r.state m).ut.rx.empty = true) : ∀ m, n ≤ m → (r.state m).host = (r.state n).host :=
  Nat.le_induction rfl fun m hm ih =>
    (perform_held (ih ▸ hop) (by simp [held, ih, hl, he m hm]) (r.follows m)).trans ih

/-- A bus primitive returns if every issued phase completes (70_reset_and_hazards.md R316). -/
theorem Run.busPrimitive_returns {i : Instr} (hf : r.Fair) (hU : r.Undisturbed) (hB : r.BusCompletes)
    (hi : (∃ a d, i = .bmStart a d) ∨ (∃ b, i = .bmWrite b) ∨ i = .bmReadAck ∨ i = .bmReadNack ∨ i = .bmStop)
    (hop : (r.state n).host.op = some i) : r.Returns n i := by
  have hm : ∀ m, (r.state m).host.op = some i → r.MovesFrom m := fun m hm => by
    refine Run.movesFrom hf hU (by simp [hm]) (fun e => ?_) fun _ => hB
    have hl := (hU.inv m).host.label _ hm
    rcases hi with ⟨_, _, rfl⟩ | ⟨_, rfl⟩ | rfl | rfl | rfl <;> cases hc : (r.state m).host.caller <;>
      simp_all [labelsOf, startLabels, writeLabels, ackLabels, nackLabels, stopLabels]
  exact Run.returns_of_moves (by rcases hi with ⟨_, _, rfl⟩ | ⟨_, rfl⟩ | rfl | rfl | rfl <;> rfl) hop (hm n hop)
    fun m _ h _ => hm m h

/-- And only if: while no phase completes HOST stays at its completion hold (70_reset_and_hazards.md R316, F5). -/
theorem Run.busHold_waits (hop : (r.state n).host.op.isSome) (hl : (r.state n).host.step ∈ busHolds)
    (hd : (r.state n).bm.done = false) (hno : ∀ m, n ≤ m → ∀ st v, r.choice m ≠ .busComplete st v) :
    ∀ m, n ≤ m → (r.state m).host = (r.state n).host ∧ (r.state m).bm.done = false := by
  have hh : ∀ s : State, s.host = (r.state n).host → s.bm.done = false → held s = true := fun s e e' => by
    simp only [busHolds, List.mem_cons, List.not_mem_nil, or_false] at hl
    rcases hl with h | h | h | h | h <;> simp [held, e, h, e']
  refine Nat.le_induction ⟨rfl, hd⟩ fun m hm ⟨ih, ih'⟩ => ?_
  have hop' : (r.state m).host.op.isSome := ih ▸ hop
  refine ⟨(perform_held hop' (hh _ ih ih') (r.follows m)).trans ih, ?_⟩
  by_cases hc : r.choice m = .host
  · have h := r.follows m
    rw [hc] at h
    simp only [perform, enabled, hh _ ih ih', Bool.not_true, Bool.and_false, Bool.false_eq_true, if_false] at h
    injection h with h
    rw [← h]; exact ih'
  · rcases (perform_other hop' hc (r.follows m)).2.2.2.2 with e | ⟨st, v, e, _⟩
    · rw [e]; exact ih'
    · exact absurd e (hno m hm st v)

/-! ## Every send_byte, called or issued -/

/-- The micro-steps of send_byte, its hold lifted, in any operation (40_serial_transport.md R122). -/
theorem sendByte_next {s t : State} (hop : s.host.op.isSome) (hu : held s = false) (h : perform .host s = .next t) :
    (s.host.step = .s0 → t.host = { s.host with step := .s1 }) ∧
    (s.host.step = .s1 → t.host = { s.host with step := .s2 }) ∧
    (s.host.step = .s2 → t.host = { s.host with step := .s3 }) := by
  have hne : ¬ s.host.op = none := fun e => by rw [e] at hop; cases hop
  replace h := perform_move h
  rcases h with ⟨_, _, h⟩ | ⟨_, hm⟩ | ⟨h, _⟩ | ⟨h, _⟩ | ⟨_, _, h, _⟩ | ⟨h, _⟩ <;> try cases h
  · rcases h rfl with h | h
    · exact absurd h hne
    · rw [hu] at h; cases h
  · cases hm with
    | same hs =>
      have := hs.label.resolve_left hne
      refine ⟨fun e => absurd e this.2.1, fun e => absurd this.1 ?_, fun e => absurd this.1 ?_⟩ <;>
        simp [e, busyLabels]
    | refl _ h1 h2 =>
      have h1 := h1.resolve_left hne
      have h2 := h2.resolve_left hne
      rw [hu] at h2
      refine ⟨fun e => absurd e (h2.resolve_right (by simp)).1, fun e => absurd h1 ?_, fun e => absurd h1 ?_⟩ <;>
        simp [e, pendingLabels, busyLabels]
    | room _ hl _ h => simp [h, hl]
    | store _ hl _ _ _ _ h => simp [h, hl]
    | publish _ hl h => simp [h, hl]
    | byte _ hl | fetch _ hl | release _ hl => simp [hl]

/-- Every send_byte in progress, issued or called by receive_line, comes to its return at S3
(70_reset_and_hazards.md R316). -/
theorem Run.sendByte_reaches_return (hf : r.Fair) (hU : r.Undisturbed) (hop : (r.state n).host.op.isSome)
    (hl : (r.state n).host.step ∈ sendLabels) :
    ∃ m, n ≤ m ∧ (r.state m).host = { (r.state n).host with step := .s3 } ∧ r.choice m = .host := by
  have mv : ∀ m, (r.state m).host.op.isSome → (r.state m).host.step ∈ sendLabels → r.MovesFrom m := fun m hop hl =>
    Run.movesFrom hf hU hop (fun e => by simp [e, sendLabels] at hl)
      (fun e => by
        simp only [sendLabels, busHolds, List.mem_cons, List.not_mem_nil, or_false] at hl e
        rcases hl with h | h | h | h <;> simp [h] at e)
  have at3 : ∀ n, (r.state n).host.op.isSome → (r.state n).host.step = .s3 →
      ∃ m, n ≤ m ∧ (r.state m).host = { (r.state n).host with step := .s3 } ∧ r.choice m = .host := fun n hop hl => by
    obtain ⟨m, hm, e, _, hc⟩ := mv n hop (by simp [hl, sendLabels])
    exact ⟨m, hm, by rw [e, ← hl], hc⟩
  have next : ∀ (a b : Label), a ∈ sendLabels →
      (∀ s t, s.host.op.isSome → held s = false → perform .host s = .next t → s.host.step = a →
        t.host = { s.host with step := b }) →
      (∀ n, (r.state n).host.op.isSome → (r.state n).host.step = b →
        ∃ m, n ≤ m ∧ (r.state m).host = { (r.state n).host with step := .s3 } ∧ r.choice m = .host) →
      ∀ n, (r.state n).host.op.isSome → (r.state n).host.step = a →
        ∃ m, n ≤ m ∧ (r.state m).host = { (r.state n).host with step := .s3 } ∧ r.choice m = .host :=
    fun a b ha hs hb n hop hl => by
      obtain ⟨m, hm, e, hu, hc⟩ := mv n hop (hl ▸ ha)
      have e' := hs _ _ (e ▸ hop) hu (hc ▸ r.follows m) (e ▸ hl)
      obtain ⟨k, hk, h1, h2⟩ := hb (m + 1) (by rw [e', e]; exact hop) (by rw [e'])
      exact ⟨k, by omega, by rw [h1, e', e], h2⟩
  have at2 := next .s2 .s3 (by decide) (fun _ _ h1 h2 h3 => (sendByte_next h1 h2 h3).2.2) at3
  have at1 := next .s1 .s2 (by decide) (fun _ _ h1 h2 h3 => (sendByte_next h1 h2 h3).2.1) at2
  have at0 := next .s0 .s1 (by decide) (fun _ _ h1 h2 h3 => (sendByte_next h1 h2 h3).1) at1
  simp only [sendLabels, List.mem_cons, List.not_mem_nil, or_false] at hl
  rcases hl with h | h | h | h
  · exact at0 n hop h
  · exact at1 n hop h
  · exact at2 n hop h
  · exact at3 n hop h

/-! ## Every byte reaches `line_out` -/

/-- No HOST transition writes `line_out`. -/
theorem SerialMove.lineOut {s t : State} (h : SerialMove s t) : t.ut.lineOut = s.ut.lineOut := by
  cases h with
  | same hs => rw [hs.ut]
  | refl h => rw [h]
  | room _ _ _ h | store _ _ _ _ _ _ h | publish _ _ h | byte _ _ _ h | fetch _ _ _ _ h => rw [h]; rfl
  | release _ _ _ h => rw [h]

/-- `line_out` changes at a shift-out alone, by the byte in flight (41_serial_handlers_and_line.md R164). -/
theorem perform_lineOut {s t : State} {c : Choice} (h : perform c s = .next t) :
    t.ut.lineOut = s.ut.lineOut ∨ t.ut.lineOut = s.ut.lineOut ++ [s.ut.txData] := by
  replace h := perform_move h
  rcases h with ⟨_, e, _⟩ | ⟨_, hm⟩ | ⟨_, _, h⟩ | ⟨_, _, h⟩ | ⟨v, k, _, _, rfl⟩ | ⟨_, _, rfl⟩
  · exact .inl (by rw [e])
  · exact .inl hm.lineOut
  · rcases rxiBody_next h with ⟨_, rfl⟩ | ⟨_, _, _, rfl⟩ <;> exact .inl rfl
  · rcases txiBody_next h with ⟨_, rfl⟩ | ⟨_, _, _, rfl⟩ <;> exact .inl rfl
  · unfold lineArrive
    dsimp only
    split <;> exact .inl rfl
  · exact .inr rfl

theorem Run.lineOut_mono {m : Nat} (h : n ≤ m) : (r.state n).ut.lineOut.length ≤ (r.state m).ut.lineOut.length :=
  Nat.le_induction le_rfl (fun m _ ih => by
    rcases perform_lineOut (r.follows m) with e | e <;> rw [e]
    · exact ih
    · rw [List.length_append]; omega) m h

/-- F1: after a shift-out of a byte in flight `line_out` is longer. -/
theorem Run.lineOut_grows_of_inFlight (hf : r.Fair) (hU : r.Undisturbed) (h : (r.state n).ut.txReady = false) :
    ∃ m, n ≤ m ∧ (r.state n).ut.lineOut.length < (r.state m).ut.lineOut.length := by
  obtain ⟨m, hm, hr, hc⟩ := Run.shiftsOut hf hU h
  have e := r.follows m
  rw [hc] at e
  simp only [perform, enabled, hr, Bool.not_false, if_true] at e
  injection e with e
  have := Run.lineOut_mono (r := r) hm
  refine ⟨m + 1, by omega, ?_⟩
  rw [← e]
  simp [lineShiftOut]
  omega

/-- While a byte is in flight or queued, `line_out` grows later. -/
theorem Run.lineOut_grows (hf : r.Fair) (hU : r.Undisturbed)
    (h : (r.state n).ut.lineOut.length < (txStream (r.state n)).length) :
    ∃ m, n ≤ m ∧ (r.state n).ut.lineOut.length < (r.state m).ut.lineOut.length := by
  cases hr : (r.state n).ut.txReady
  · exact Run.lineOut_grows_of_inFlight hf hU hr
  have he : (r.state n).ut.tx.empty = false := by
    cases he : (r.state n).ut.tx.empty
    · rfl
    · simp [txStream, hr, CircBuf.liveSlots_length, (CircBuf.empty_iff (hU.inv n).serial.tx).1 he] at h
  obtain ⟨m, hm, he, hen, hc⟩ := Run.transmits hf hU he
  have e := r.follows m
  rw [hc, perform, if_pos hen] at e
  rcases txiBody_next e with ⟨e, _⟩ | ⟨_, d, _, e⟩
  · rw [e] at he; cases he
  · obtain ⟨k, hk, h1⟩ := Run.lineOut_grows_of_inFlight (n := m + 1) hf hU (by rw [e]; rfl)
    have := Run.lineOut_mono (r := r) (show n ≤ m + 1 by omega)
    exact ⟨k, by omega, by omega⟩

/-- Every byte sent so far, in flight or queued at `n` is in `line_out` later, in the same order, given that the
stream of sent bytes only grows at its end (41_serial_handlers_and_line.md R165, 70_reset_and_hazards.md R316). -/
theorem Run.bytes_reach_lineOut (hf : r.Fair) (hU : r.Undisturbed)
    (hg : ∀ m, ∃ l, txStream (r.state (m + 1)) = txStream (r.state m) ++ l) :
    ∃ m, n ≤ m ∧ ((r.state m).ut.lineOut.map some).take (txStream (r.state n)).length = txStream (r.state n) := by
  have hg' : ∀ m, n ≤ m → ∃ l, txStream (r.state m) = txStream (r.state n) ++ l :=
    Nat.le_induction ⟨[], by simp⟩ fun m _ ⟨l, h⟩ => by
      obtain ⟨l', h'⟩ := hg m
      exact ⟨l ++ l', by rw [h', h, List.append_assoc]⟩
  have key : ∀ k m, n ≤ m → (txStream (r.state n)).length - (r.state m).ut.lineOut.length = k →
      ∃ m, n ≤ m ∧ (txStream (r.state n)).length ≤ (r.state m).ut.lineOut.length := fun k => by
    induction k using Nat.strong_induction_on with
    | _ k ih =>
      intro m hm hk
      by_cases hle : (txStream (r.state n)).length ≤ (r.state m).ut.lineOut.length
      · exact ⟨m, hm, hle⟩
      · obtain ⟨l, hl⟩ := hg' m hm
        obtain ⟨j, hj, hlt⟩ := Run.lineOut_grows (n := m) hf hU (by rw [hl, List.length_append]; omega)
        exact ih _ (by omega) j (by omega) rfl
  obtain ⟨m, hm, hle⟩ := key _ n le_rfl rfl
  obtain ⟨l, hl⟩ := hg' m hm
  have h := congrArg (List.take (txStream (r.state n)).length) hl
  rw [List.take_left] at h
  refine ⟨m, hm, ?_⟩
  rwa [txStream.eq_def (r.state m), List.append_assoc, List.take_append_of_le_length (by simpa using hle)] at h

end Sys2Proof.Machine
end

