-- ==== Sys2Proof/Tests/Slice0.lean ====
section
/-! SUPPORT. The model's own tests: the well-formedness checks, the decoding of words written out in
spec/95_test_vectors.md section 2.1, one-step tests whose expected results are that file's vectors, and, for every
statement with hypotheses, states and operands that meet them. -/

namespace Sys2Proof.Tests

open Sys2Proof.Machine

/-! ## States to test on -/

/-- The next state of an outcome, if it is one. -/
def nextOf : Outcome → Option State
  | .next t => some t
  | .fault _ => none
  | .refused _ => none

/-- Both units initialised, HOST idle, the enables as `UT_INIT` leaves them. -/
def ready : State :=
  { State.reset with
    ut.inited := true
    ut.rxIe := true
    ut.gie := true
    bm.inited := true }

/-- `i` in flight at label `l`, in a call of `line` if any. -/
def at_ (i : Instr) (line : Option Label) (l : Label) (s : State) : State :=
  { s with host.op := some i, host.step := l, host.caller := line }

/-- The bus engine in protocol state `b`, direction `d`. -/
def bus (b : BmState) (d : Direction) (s : State) : State := { s with bm.state := b, bm.dir := d }

/-- Buffers of `n` slots. -/
def slots (n : Nat) (s : State) : State := { s with cfg.N := n }

/-- The bytes `bs` in the RX buffer, from slot 0. -/
def rxHolds (bs : List Byte) (s : State) : State :=
  { s with ut.rx := ⟨(List.range bs.length).zip bs, BitVec.ofNat 8 bs.length, 0⟩ }

/-- The bytes `bs` in the TX buffer, from slot 0, with the transmit interrupt enabled. -/
def txHolds (bs : List Byte) (s : State) : State :=
  { s with ut.tx := ⟨(List.range bs.length).zip bs, BitVec.ofNat 8 bs.length, 0⟩, ut.txIe := true }

/-- The reference device at 0x76, one register set. -/
def device : SimDevice := ⟨0x76, [(0xF4, 0x27)], 0, false, .none⟩

/-- A choice at which BUS draws a status and a byte that are not zero. -/
def drawn : Choice → Choice
  | .busComplete _ _ => .busComplete 0x51 0xA5
  | c => c

/-! ## Well-formedness: each check refuses the first value past its field -/

theorem test_wf_baudRate : (Instr.utInit (2 ^ 24)).wellFormed = false := by decide
theorem test_wf_maxLen : (Instr.utRecvLine (2 ^ 16)).wellFormed = false := by decide
theorem test_wf_clockRate : (Instr.bmInit (2 ^ 24)).wellFormed = false := by decide
theorem test_wf_count : (Instr.bmReadRegs 0x76 0xFA 256).wellFormed = false := by decide
theorem test_wf_largest :
    (Instr.utInit (2 ^ 24 - 1)).wellFormed ∧ (Instr.utRecvLine 65535).wellFormed ∧
    (Instr.bmInit (2 ^ 24 - 1)).wellFormed ∧ (Instr.bmReadRegs 0x7F 0xFF 255).wellFormed := by decide

/-! ## Decoding: words of 95_test_vectors.md section 2.1, every row of the opcode map -/

theorem test_decode_utInit : decode 0b00010000_000000000100101100000000 = .ok (.utInit 19200) := by decide
theorem test_decode_utSendByte : decode 0b00010001_0000000000000000_11111111 = .ok (.utSendByte 0xFF) := by decide
theorem test_decode_utRecvByte : decode 0b00010010_000000000000000000000000 = .ok .utRecvByte := by decide
theorem test_decode_utRecvLine : decode 0b00010011_00000000_1111111111111111 = .ok (.utRecvLine 65535) := by decide
theorem test_decode_bmInit : decode 0b00100000_000000011000011010100000 = .ok (.bmInit 100000) := by decide
theorem test_decode_bmStart_write :
    decode 0b00100001_000000000_1110110_0000000_0 = .ok (.bmStart 0x76 .write) := by decide
theorem test_decode_bmStart_read :
    decode 0b00100001_000000000_1111111_0000000_1 = .ok (.bmStart 0x7F .read) := by decide
theorem test_decode_bmWrite : decode 0b00100010_0000000000000000_11110100 = .ok (.bmWrite 0xF4) := by decide
theorem test_decode_bmReadAck : decode 0b00100011_000000000000000000000000 = .ok .bmReadAck := by decide
theorem test_decode_bmReadNack : decode 0b00100100_000000000000000000000000 = .ok .bmReadNack := by decide
theorem test_decode_bmStop : decode 0b00100101_000000000000000000000000 = .ok .bmStop := by decide
theorem test_decode_bmWriteReg :
    decode 0b00101000_0_1110110_11110100_00100111 = .ok (.bmWriteReg 0x76 0xF4 0x27) := by decide
theorem test_decode_bmReadReg :
    decode 0b00101001_0_1110110_11110100_00000000 = .ok (.bmReadReg 0x76 0xF4) := by decide
theorem test_decode_bmReadRegs :
    decode 0b00101010_0_1110110_11111010_00000011 = .ok (.bmReadRegs 0x76 0xFA 3) := by decide

/-- V-ENC-21 to V-ENC-23: a zero operand decodes; it is refused at issue. -/
theorem test_decode_zero_operands :
    decode 0x2A76FA00 = .ok (.bmReadRegs 0x76 0xFA 0) ∧ decode 0x13000000 = .ok (.utRecvLine 0) ∧
    decode 0x10000000 = .ok (.utInit 0) := by decide

/-- V-ILL-1, V-ILL-9: unassigned opcodes. -/
theorem test_decode_unassigned :
    decode 0x00000000 = .error (.unassignedOpcode 0x00) ∧ decode 0x14000000 = .error (.unassignedOpcode 0x14) ∧
    decode 0x26000000 = .error (.unassignedOpcode 0x26) ∧ decode 0x2B000000 = .error (.unassignedOpcode 0x2B) ∧
    decode 0xFFFFFFFF = .error (.unassignedOpcode 0xFF) := by decide

/-- V-ILL-2 to V-ILL-8: a must-be-zero bit is set. -/
theorem test_decode_mustBeZero :
    decode 0x12000001 = .error (.mustBeZero 0x12) ∧ decode 0x11000148 = .error (.mustBeZero 0x11) ∧
    decode 0x13010008 = .error (.mustBeZero 0x13) ∧ decode 0x21008000 = .error (.mustBeZero 0x21) ∧
    decode 0x21007602 = .error (.mustBeZero 0x21) ∧ decode 0x28F6F427 = .error (.mustBeZero 0x28) ∧
    decode 0x2976F401 = .error (.mustBeZero 0x29) := by decide

theorem test_decodeTableWord :
    decodeTableWord 32 0x21007601 = some (.bmStart 0x76 .read) ∧ decodeTableWord 32 0 = none := by decide

/-- V-TX-5: the words of `UT_SEND_STRING "Hi"`. -/
theorem test_encode_string : encodeString [0x48, 0x69] = [0x11000048, 0x11000069] := by decide

/-- 30_encoding.md R99: operands in decimal, the direction as a letter. -/
theorem test_assembly : (Instr.bmStart 0x76 .read).assembly = "BM_START 118, R" := by decide

/-! ## One step of each command: vectors of 95_test_vectors.md sections 2.2 to 2.8 -/

/-- V-DIV-1: the divisor of 19200 baud at 16 MHz. -/
theorem test_utInit_divisor :
    (nextOf (exec (.utInit 19200) (at_ (.utInit 19200) none .i0 State.reset))).map (·.ut.baudDiv) = some 51 := by
  decide

/-- V-DIV-6, V-DIV-8: the two ends of the divisor's range are refused just past it. -/
theorem test_utInit_bad_baud :
    (nextOf (exec (.utInit 1000001) State.reset)).map (·.host.faults) =
      some [.contractViolation .badBaud 0x100F4241] ∧
    (nextOf (exec (.utInit 15) State.reset)).map (·.host.faults) =
      some [.contractViolation .badBaud 0x1000000F] ∧
    (nextOf (exec (.utInit 16) State.reset)).map (·.host.op) = some (some (.utInit 16)) ∧
    (nextOf (exec (.utInit 1000000) State.reset)).map (·.host.faults) = some [] := by decide

/-- V-TX-2: S0 holds on a full buffer of four slots. -/
theorem test_utSendByte_holds :
    let s := at_ (.utSendByte 0x45) none .s0 (slots 4 (txHolds [0x41, 0x42, 0x43] ready))
    nextOf (exec (.utSendByte 0x45) s) = some s := by decide

/-- V-BUF-1 step 6: the head wraps from 3 to 0. -/
theorem test_utSendByte_wraps :
    let s := at_ (.utSendByte 0x44) none .s2
      { slots 4 ready with ut.tx := ⟨[(1, 0x42), (2, 0x43), (3, 0x44)], 3, 1⟩ }
    (nextOf (exec (.utSendByte 0x44) s)).map (·.ut.tx.head) = some 0 := by decide

/-- V-RX-1: V2 returns the byte and moves the tail. -/
theorem test_utRecvByte_returns :
    let s := at_ .utRecvByte none .v2 { rxHolds [0x41] ready with host.locals.v := 0x41 }
    (nextOf (exec .utRecvByte s)).map (fun t => (t.ut.rx.tail, t.host.results)) =
      some (1, [(.utRecvByte, .byte 0x41)]) := by decide

/-- V-RX-2: V0 holds on an empty buffer. -/
theorem test_utRecvByte_holds :
    let s := at_ .utRecvByte none .v0 ready
    nextOf (exec .utRecvByte s) = some s := by decide

/-- V-LN-3: at `max_len - 1` bytes the line ends without a further read. -/
theorem test_utRecvLine_limit :
    let s := at_ (.utRecvLine 4) none .l1 { rxHolds [0x64] ready with
      host.locals.i := 3
      host.locals.lineBuf := [0x61, 0x62, 0x63] }
    (nextOf (exec (.utRecvLine 4) s)).map (·.host.step) = some .l6 := by decide

/-- V-LN-1: the stored bytes, then the marker. -/
theorem test_utRecvLine_returns :
    let s := at_ (.utRecvLine 8) none .l6
      { ready with host.locals.i := 2, host.locals.lineBuf := [0x6F, 0x6B] }
    (nextOf (exec (.utRecvLine 8) s)).map (·.host.results) =
      some [(.utRecvLine 8, .line 2 [0x6F, 0x6B, 0x00])] := by decide

/-- V-BM-1: the rate; `bm_inited` waits for N1. -/
theorem test_bmInit_rate :
    (nextOf (exec (.bmInit 100000) (at_ (.bmInit 100000) none .n0 State.reset))).map
      (fun t => (t.bm.rate, t.bm.inited)) = some (100000, false) := by decide

/-- V-BM-6: refused while a transaction is open. -/
theorem test_bmInit_sequence :
    (nextOf (exec (.bmInit 100000) (bus .writing .write ready))).map (·.host.faults) =
      some [.contractViolation .busSequence 0x200186A0] := by decide

/-- V-ENC-13, V-BM-5: the address byte of 0x7F with direction read is 0xFF. -/
theorem test_bmStart_address :
    (nextOf (exec (.bmStart 0x7F .read)
      (at_ (.bmStart 0x7F .read) none .t2 (bus .started .read ready)))).map
      (fun t => (t.bm.data, t.bm.pending)) = some (0xFF, some (.xmit 0xFF)) := by decide

/-- V-BM-4: not acknowledged, `AddressAcked` all the same. -/
theorem test_bmStart_not_acknowledged :
    (nextOf (exec (.bmStart 0x76 .write) (at_ (.bmStart 0x76 .write) none .t4
      { bus .started .write ready with bm.status := 0x20 }))).map
      (fun t => (t.bm.state, t.host.results)) =
      some (.addressAcked, [(.bmStart 0x76 .write, .status 0x20)]) := by decide

/-- V-BM-3: the byte is handed to the bus. -/
theorem test_bmWrite_issues :
    (nextOf (exec (.bmWrite 0xF4) (at_ (.bmWrite 0xF4) none .w0 (bus .addressAcked .write ready)))).map
      (fun t => (t.bm.data, t.bm.state, t.bm.pending)) =
      some (0xF4, .writing, some (.xmit 0xF4)) := by decide

/-- V-BM-6: no write in a read transaction. -/
theorem test_bmWrite_sequence :
    (nextOf (exec (.bmWrite 0xF4) (bus .addressAcked .read ready))).map (·.host.faults) =
      some [.contractViolation .busSequence 0x220000F4] := by decide

/-- V-BM-5: the byte read is `bm_data`. -/
theorem test_bmReadAck_returns :
    (nextOf (exec .bmReadAck (at_ .bmReadAck none .a2
      { bus .reading .read ready with bm.data := 0x7F, bm.status := 0x50 }))).map (·.host.results) =
      some [(.bmReadAck, .byte 0x7F)] := by decide

theorem test_bmReadAck_issues :
    (nextOf (exec .bmReadAck (at_ .bmReadAck none .a0 (bus .addressAcked .read ready)))).map
      (·.bm.pending) = some (some .recvAck) := by decide

theorem test_bmReadNack_issues :
    (nextOf (exec .bmReadNack (at_ .bmReadNack none .k0 (bus .reading .read ready)))).map
      (·.bm.pending) = some (some .recvNack) := by decide

/-- V-BM-6: no read in a write transaction. -/
theorem test_bmReadNack_sequence :
    (nextOf (exec .bmReadNack (bus .addressAcked .write ready))).map (·.host.faults) =
      some [.contractViolation .busSequence 0x24000000] := by decide

/-- V-BM-3: the trace gains `Stop`; `bm_done` and `bm_status` stay. -/
theorem test_bmStop_stops :
    (nextOf (exec .bmStop (at_ .bmStop none .p0
      { bus .writing .write ready with bm.status := 0x28, bm.done := true }))).map
      (fun t => (t.bm.trace, t.bm.state, t.bm.status, t.bm.done)) =
      some ([.stop], .stopped, 0x28, true) := by decide

/-- V-BM-6: nothing to stop. -/
theorem test_bmStop_sequence :
    (nextOf (exec .bmStop ready)).map (·.host.faults) =
      some [.contractViolation .busSequence 0x25000000] := by decide

/-- V-H-2: an unexpected address status goes to `stop`. -/
theorem test_bmWriteReg_aborts :
    (nextOf (exec (.bmWriteReg 0x76 0xF4 0x27) (at_ (.bmWriteReg 0x76 0xF4 0x27) none .h1
      { bus .addressAcked .write ready with host.locals.st := 0x20 }))).map
      (fun t => (t.host.step, t.host.caller)) = some (.p0, some .h1) := by decide

/-- V-H-1: success returns 0, whatever the last status. -/
theorem test_bmWriteReg_returns :
    (nextOf (exec (.bmWriteReg 0x76 0xF4 0x27) (at_ (.bmWriteReg 0x76 0xF4 0x27) (some .h6) .p1
      { bus .stopped .write ready with host.locals.st := 0x28 }))).map (·.host.results) =
      some [(.bmWriteReg 0x76 0xF4 0x27, .status 0)] := by decide

/-- V-H-8: an unexpected read address status is returned with no value. -/
theorem test_bmReadReg_aborted :
    (nextOf (exec (.bmReadReg 0x76 0xF4) (at_ (.bmReadReg 0x76 0xF4) (some .g5) .p1
      { bus .stopped .read ready with host.locals.st := 0x48 }))).map (·.host.results) =
      some [(.bmReadReg 0x76 0xF4, .statusByte 0x48 none)] := by decide

/-- V-H-7: the repeated start goes to the read direction. -/
theorem test_bmReadReg_restarts :
    (nextOf (exec (.bmReadReg 0x76 0xF4) (at_ (.bmReadReg 0x76 0xF4) (some .g4) .t0
      (bus .writing .write ready)))).map (fun t => (t.bm.dir, t.bm.pending)) =
      some (.read, some .startCond) := by decide

/-- P4: with two bytes of three read, the last read is the one with no acknowledge. -/
theorem test_bmReadRegs_last :
    (nextOf (exec (.bmReadRegs 0x76 0xFA 3) (at_ (.bmReadRegs 0x76 0xFA 3) none .q7
      { bus .reading .read ready with host.locals.k := 2, host.locals.resBytes := [0x7F, 0xE0] }))).map
      (fun t => (t.host.step, t.host.caller)) = some (.k0, some .q8) := by decide

/-- P4: the bytes in order. -/
theorem test_bmReadRegs_returns :
    (nextOf (exec (.bmReadRegs 0x76 0xFA 3) (at_ (.bmReadRegs 0x76 0xFA 3) (some .q9) .p1
      { bus .stopped .read ready with host.locals.resBytes := [0x7F, 0xE0, 0x00] }))).map
      (·.host.results) =
      some [(.bmReadRegs 0x76 0xFA 3, .statusBytes 0 (some [0x7F, 0xE0, 0x00]))] := by decide

/-! ## The agents, the issue, the step -/

/-- V-RX-3: with four slots and one free, the byte is dropped or stored as the tail says. -/
theorem test_rxi_full_and_wrap :
    (nextOf (perform .rxi { slots 4 (rxHolds [0x41, 0x42, 0x43] ready) with
      ut.rxData := 0x44
      ut.rxReady := true })).map
      (fun t => (t.ut.rx.head, t.ut.rxSwDropped, t.ut.rxReady)) = some (3, 1, false) ∧
    (nextOf (perform .rxi { slots 4 ready with
      ut.rx := ⟨[(1, 0x42), (2, 0x43)], 3, 1⟩
      ut.rxData := 0x44
      ut.rxReady := true })).map
      (fun t => (t.ut.rx.buf, t.ut.rx.head)) =
      some ([(1, 0x42), (2, 0x43), (3, 0x44)], 0) := by decide

/-- V-TX-1, V-TX-3, V-TX-4: a byte is taken; an empty buffer disables; `gie == 0` takes nothing. -/
theorem test_txi :
    (nextOf (perform .txi (txHolds [0x48] ready))).map
      (fun t => (t.ut.tx.tail, t.ut.txData, t.ut.txReady)) = some (1, 0x48, false) ∧
    (nextOf (perform .txi { ready with ut.tx := ⟨[], 5, 5⟩, ut.txIe := true })).map
      (fun t => (t.ut.txIe, t.ut.txReady)) = some (false, true) ∧
    nextOf (perform .txi { txHolds [0x48] ready with ut.gie := false }) =
      some { txHolds [0x48] ready with ut.gie := false } := by decide

/-- V-RX-4: a hardware overrun under each policy. -/
theorem test_lineArrive_overrun :
    let s : State := { ready with ut.rxReady := true, ut.rxData := 0x41 }
    let after := fun (p : OverrunPolicy) (k : Bool) =>
      (nextOf (perform (.lineArrive 0x42 k) { s with cfg.RX_OVERRUN_POLICY := p })).map
        fun t => (t.ut.rxData, t.ut.rxHwLost, t.ut.lineIn)
    after .dropNew true = some (0x41, 1, [0x42]) ∧ after .overwrite false = some (0x42, 1, [0x42]) ∧
    after .anyLoss true = some (0x42, 1, [0x42]) ∧ after .anyLoss false = some (0x41, 1, [0x42]) ∧
    after .hold true = some (0x41, 0, []) := by decide

/-- V-BM-5: a receive phase latches status and data. -/
theorem test_busComplete_receive :
    (nextOf (perform (.busComplete 0x50 0x7F) (at_ .bmReadAck none .a1
      { bus .reading .read ready with bm.pending := some .recvAck }))).map
      (fun t => (t.bm.data, t.bm.status, t.bm.done, t.bm.pending, t.bm.trace)) =
      some (0x7F, 0x50, true, none, [.recv .ack 0x7F 0x50]) := by decide

/-- V-EX-1, V-EX-2, V-BM-7: refusals at reset change nothing but the record. -/
theorem test_issue_refused_at_reset :
    nextOf (perform (.issue 0x11000048) State.reset) =
      some { State.reset with host.faults := [.contractViolation .serialNotInited 0x11000048] } ∧
    nextOf (perform (.issue 0) State.reset) =
      some { State.reset with host.faults := [.illegalCommand 0] } ∧
    (nextOf (perform (.issue 0x2A76FA00) State.reset)).map (·.host.faults) =
      some [.contractViolation .busNotInited 0x2A76FA00] := by decide

/-- The word placed by `withFetchWord` is issued by the very next step. -/
theorem test_withFetchWord :
    (nextOf (step (State.reset.withFetchWord 32 0x10004B00))).map (fun t => (t.host.op, t.host.step)) =
      some (some (.utInit 19200), .i0) := by decide

/-- The reference device: the rows of a register write and read (95_test_vectors.md section 4, P3). -/
theorem test_device :
    (device.answer Config.default .startCond).s = 0x08 ∧
    ({ device with busy := true }.answer Config.default .startCond).s = 0x10 ∧
    (device.answer Config.default (.xmit 0xEC)).s = 0x18 ∧
    (device.answer Config.default (.xmit 0xED)).s = 0x40 ∧
    (device.answer Config.default (.xmit 0xEE)).s = 0x20 ∧
    ({ device with sel := .rd, p := 0xF4 }.answer Config.default .recvNack) =
      ⟨0x58, 0x27, { device with sel := .off, p := 0xF5 }⟩ := by decide

/-- SIM_DEVICE's initial registers: one given as 0x00 is not listed, the last one is register 0xFF. -/
theorem test_device_registers : registerCells [0x00, 0x27, 0x00, 0x31] 0xFC = [(0xFD, 0x27), (0xFF, 0x31)] := by
  decide

/-! ## Witnesses: what meets the hypotheses of each statement -/

/-- An outcome that is a next state has one. -/
theorem exists_next {o : Outcome} (h : (nextOf o).isSome) : ∃ t, o = .next t := by
  cases o with
  | next t => exact ⟨t, rfl⟩
  | fault f => simp [nextOf] at h
  | refused r => simp [nextOf] at h

/-- DecodeOfEncode: the largest operand of every number field. -/
theorem witness_DecodeOfEncode :
    (Instr.utInit (2 ^ 24 - 1)).wellFormed ∧ (Instr.utRecvLine 65535).wellFormed ∧
    (Instr.bmInit (2 ^ 24 - 1)).wellFormed ∧ (Instr.bmReadRegs 0x7F 0xFF 255).wellFormed ∧
    (Instr.bmStart 0x7F .read).wellFormed ∧ (Instr.bmWriteReg 0x7F 0xFF 0xFF).wellFormed := by decide

theorem witness_EncodeOfDecode : decode 0x2A7FFFFF = .ok (.bmReadRegs 0x7F 0xFF 255) := by decide

/-- RowsExclusive: a word that selects a row, and one that selects none. -/
theorem witness_RowsExclusive :
    (∃ a : Row, rows[5]? = some a ∧ (0x21007F01 &&& a.mask) = a.mtch ∧ ∃ b : Row, rows[5]? = some b ∧
      (0x21007F01 &&& b.mask) = b.mtch) ∧
    ∀ (j : Nat) (a : Row), rows[j]? = some a → (0x21007F02 &&& a.mask) ≠ a.mtch :=
  ⟨⟨_, rfl, by decide, _, rfl, by decide⟩, fun _ _ h =>
    (by decide : ∀ a ∈ rows, (0x21007F02 &&& a.mask) ≠ a.mtch) _ (List.mem_of_getElem? h)⟩

/-- OperandsAreUnsignedFields: every clause at the largest operands. -/
theorem witness_OperandsAreUnsignedFields :
    decode 0x10FFFFFF = .ok (.utInit (2 ^ 24 - 1)) ∧ decode 0x110000FF = .ok (.utSendByte 0xFF) ∧
    decode 0x1300FFFF = .ok (.utRecvLine 65535) ∧ decode 0x20FFFFFF = .ok (.bmInit (2 ^ 24 - 1)) ∧
    decode 0x21007F01 = .ok (.bmStart 0x7F .read) ∧ decode 0x220000FF = .ok (.bmWrite 0xFF) ∧
    decode 0x287FFFFF = .ok (.bmWriteReg 0x7F 0xFF 0xFF) ∧ decode 0x297FFF00 = .ok (.bmReadReg 0x7F 0xFF) ∧
    decode 0x2A7FFFFF = .ok (.bmReadRegs 0x7F 0xFF 255) := by decide

/-- OperandsAreUnsignedFields: the words of the commands that refuse some operand values, at the ends of their fields,
and with HOST idle each refused value (V-ENC-21 to V-ENC-23, V-DIV-6). -/
theorem witness_OperandsAreUnsignedFields_refused :
    (0x10FFFFFF : Word).toNat / 2 ^ 24 = 0x10 ∧ (0x13000000 : Word).toNat / 2 ^ 16 = 0x1300 ∧
    (0x20000000 : Word).toNat / 2 ^ 24 = 0x20 ∧ (0x2A7FFF00 : Word).toNat / 2 ^ 23 = 0x54 ∧
    ready.host.op = none ∧ decode 0x10000000 = .ok (.utInit 0) ∧ decode 0x100F4241 = .ok (.utInit 1000001) ∧
    ready.cfg.F_REF / (16 * 1000001) = 0 ∧ decode 0x1000000F = .ok (.utInit 15) ∧
    ready.cfg.F_REF / (16 * 15) - 1 > 65535 ∧ decode 0x13000000 = .ok (.utRecvLine 0) ∧
    decode 0x20000000 = .ok (.bmInit 0) ∧ decode 0x2A76FA00 = .ok (.bmReadRegs 0x76 0xFA 0) := by decide

theorem witness_IllegalWords :
    decode 0x29800000 = .error (.mustBeZero 0x29) ∧ ready.host.op = none := by decide

theorem witness_StepIssuesTheDecodedCommand :
    decode 0x21007601 = .ok (.bmStart 0x76 .read) ∧
    ({ ready with inputs := [.issue 0x21007601, .host] } : State).inputs = .issue 0x21007601 :: [.host] ∧
    ({ ready with inputs := [.issue 0x21007601, .host] } : State).host.op = none ∧
    ({ at_ .bmStop none .p0 ready with inputs := [.issue 0x21007601] } : State).host.op ≠ none := by decide

theorem witness_StepRunsTheOperationInFlight :
    ({ at_ .bmStop none .p0 ready with inputs := [.host] } : State).inputs = .host :: [] ∧
    (at_ .bmStop none .p0 ready).host.op = some .bmStop ∧ held (at_ .bmStop none .p0 ready) = false ∧
    held (at_ .bmReadAck none .a1 ready) = true := by decide

theorem witness_FetchWordIsIssuedNext :
    decodeTableWord 32 0x10FFFFFF = some (.utInit (2 ^ 24 - 1)) ∧
    decodeTableWord 29 0x12000000 = some .utRecvByte := by decide

/-- ContractViolationsRefused: each clause's condition, the divisor's at both ends. -/
theorem witness_ContractViolationsRefused :
    ready.host.op = none ∧ ready.cfg.F_REF / (16 * 1000001) = 0 ∧ ready.cfg.F_REF / (16 * 15) - 1 > 65535 ∧
    State.reset.host.op = none ∧ State.reset.ut.inited = false ∧ State.reset.bm.inited = false ∧
    ready.ut.inited = true ∧ ready.bm.inited = true ∧ ready.bm.state = .idle ∧
    (bus .stopped .write ready).bm.state ≠ .idle ∧ (bus .started .read ready).bm.state = .started ∧
    ¬ (((bus .writing .read ready).bm.state = .addressAcked ∨ (bus .writing .read ready).bm.state = .writing) ∧
      (bus .writing .read ready).bm.dir = .write) ∧
    ¬ (((bus .writing .read ready).bm.state = .addressAcked ∨ (bus .writing .read ready).bm.state = .reading) ∧
      (bus .writing .read ready).bm.dir = .read) := by decide

/-- CommandsAccepted: the divisor's two ends, and the bus states. -/
theorem witness_CommandsAccepted :
    ready.host.op = none ∧ ready.cfg.F_REF / (16 * 1000000) ≠ 0 ∧ ready.cfg.F_REF / (16 * 1000000) - 1 ≤ 65535 ∧
    ready.cfg.F_REF / (16 * 16) ≠ 0 ∧ ready.cfg.F_REF / (16 * 16) - 1 ≤ 65535 ∧
    ready.ut.inited = true ∧ ready.bm.inited = true ∧ ready.bm.state = .idle ∧
    (bus .reading .read ready).bm.state ≠ .started ∧ (bus .reading .read ready).bm.state ≠ .stopped ∧
    (bus .writing .write ready).bm.state = .writing ∧ (bus .writing .write ready).bm.dir = .write ∧
    (bus .reading .read ready).bm.state = .reading ∧ (bus .reading .read ready).bm.dir = .read := by decide

theorem witness_UtInitMicroSteps (l : Label) :
    (at_ (.utInit 16) none l ready).host.op = some (.utInit 16) ∧
    (at_ (.utInit 16) none l ready).host.step = l := ⟨rfl, rfl⟩

/-- UtSendByteMicroSteps: at every label; full and not full, the head at its largest value of a buffer of 4. -/
theorem witness_UtSendByteMicroSteps (l : Label) :
    let b := slots 4 (txHolds [0x41, 0x42, 0x43] ready)
    let s := at_ (.utSendByte 0xFF) none l b
    s.host.op = some (.utSendByte 0xFF) ∧ s.host.step = l ∧ s.ut = b.ut ∧ s.cfg = b.cfg ∧
    nextIndex b.cfg.N b.ut.tx.head = b.ut.tx.tail ∧ b.ut.tx.head.toNat < b.cfg.N ∧
    nextIndex 4 (txHolds [0x41, 0x42] ready).ut.tx.head ≠ (txHolds [0x41, 0x42] ready).ut.tx.tail :=
  ⟨rfl, rfl, rfl, rfl, by decide, by decide, by decide⟩

/-- UtRecvByteMicroSteps: at every label; empty, and one byte waiting. -/
theorem witness_UtRecvByteMicroSteps (l : Label) :
    let b := rxHolds [0x41] ready
    let s := at_ .utRecvByte none l b
    s.host.op = some .utRecvByte ∧ s.host.step = l ∧ s.ut = b.ut ∧ s.cfg = b.cfg ∧ b.ut.rx.head ≠ b.ut.rx.tail ∧
    b.ut.rx.tail.toNat < b.cfg.N ∧ b.ut.rx.buf.read? b.ut.rx.tail.toNat = some 0x41 ∧
    (at_ .utRecvByte none l ready).ut.rx.head = (at_ .utRecvByte none l ready).ut.rx.tail :=
  ⟨rfl, rfl, rfl, rfl, by decide, by decide, by decide, rfl⟩

/-- UtRecvLineMicroSteps: both sides of the count test, of the terminator test, of the edit test and of echo, in the
command's own lines and in each of its calls. -/
theorem witness_UtRecvLineMicroSteps (line : Option Label) (l : Label) :
    let b : State := { slots 4 (rxHolds [0x41] (txHolds [0x41, 0x42] ready)) with
      cfg.EDIT_ENABLE := true
      cfg.ECHO_ENABLE := true
      host.locals := { Locals.empty with i := 1, c := 0x08, lineBuf := [0x61], erase := [0x20, 0x08] } }
    let s := at_ (.utRecvLine 3) line l b
    s.host.op = some (.utRecvLine 3) ∧ s.host.caller = line ∧ s.host.step = l ∧ s.ut = b.ut ∧ s.cfg = b.cfg ∧
    s.host.locals = b.host.locals ∧ b.host.locals.i < 3 - 1 ∧ b.host.locals.i ≥ 2 - 1 ∧
    b.host.locals.c ≠ b.cfg.CR ∧ b.host.locals.c ≠ b.cfg.LF ∧ b.host.locals.c ∈ b.cfg.BACKSPACE_CODES ∧
    b.cfg.EDIT_ENABLE = true ∧ b.cfg.ECHO_ENABLE = true ∧ ready.cfg.EDIT_ENABLE = false ∧
    ready.cfg.ECHO_ENABLE = false ∧ b.cfg.ERASE_SEQUENCE = 0x08 :: [0x20, 0x08] ∧ b.host.locals.i > 0 ∧
    Locals.empty.i = 0 ∧ b.host.locals.i ≤ b.host.locals.lineBuf.length ∧
    b.host.locals.erase = 0x20 :: 0x08 :: [] ∧ b.ut.rx.head ≠ b.ut.rx.tail ∧ b.ut.rx.tail.toNat < b.cfg.N ∧
    b.ut.rx.buf.read? b.ut.rx.tail.toNat = some 0x41 ∧ nextIndex b.cfg.N b.ut.tx.head ≠ b.ut.tx.tail ∧
    b.ut.tx.head.toNat < b.cfg.N ∧ (0x0D : Byte) = b.cfg.CR :=
  ⟨rfl, rfl, rfl, rfl, rfl, rfl, by decide⟩

theorem witness_BmInitMicroSteps (l : Label) :
    (at_ (.bmInit (2 ^ 24 - 1)) none l ready).host.op = some (.bmInit (2 ^ 24 - 1)) ∧
    (at_ (.bmInit (2 ^ 24 - 1)) none l ready).host.step = l := ⟨rfl, rfl⟩

/-- BmStartMicroSteps: at every label, `bm_done` 0 and 1, the largest address byte. -/
theorem witness_BmStartMicroSteps (l : Label) (done : Bool) :
    let s := at_ (.bmStart 0x7F .read) none l { ready with bm.done := done }
    s.host.op = some (.bmStart 0x7F .read) ∧ s.host.step = l ∧ s.bm.done = done ∧
    (0xFF : Byte).toNat = (0x7F : DevAddr).toNat * 2 + Direction.read.bit := ⟨rfl, rfl, rfl, by decide⟩

theorem witness_BmWriteMicroSteps (l : Label) (done : Bool) :
    let s := at_ (.bmWrite 0xF4) none l { ready with bm.done := done }
    s.host.op = some (.bmWrite 0xF4) ∧ s.host.step = l ∧ s.bm.done = done := ⟨rfl, rfl, rfl⟩

theorem witness_BmReadMicroSteps (l : Label) (done : Bool) :
    let s := at_ .bmReadAck none l { ready with bm.done := done }
    let u := at_ .bmReadNack none l { ready with bm.done := done }
    s.host.op = some .bmReadAck ∧ u.host.op = some .bmReadNack ∧ s.host.step = l ∧ u.host.step = l ∧
    s.bm.done = done ∧ u.bm.done = done := ⟨rfl, rfl, rfl, rfl, rfl, rfl⟩

theorem witness_BmStopMicroSteps (l : Label) :
    (at_ .bmStop none l ready).host.op = some .bmStop ∧ (at_ .bmStop none l ready).host.step = l := ⟨rfl, rfl⟩

/-- InitCommandsRun: the divisor's two ends; the bus idle. -/
theorem witness_InitCommandsRun :
    State.reset.host.op = none ∧ 16 < 2 ^ 24 ∧ State.reset.cfg.F_REF / (16 * 16) ≠ 0 ∧
    State.reset.cfg.F_REF / (16 * 16) - 1 ≤ 65535 ∧ State.reset.cfg.F_REF / (16 * 1000000) ≠ 0 ∧
    State.reset.cfg.F_REF / (16 * 1000000) - 1 ≤ 65535 ∧ State.reset.bm.state = .idle := by decide

/-- The buffers of the witnesses below are sound. -/
theorem sound_empty : CircBuf.Sound 64 CircBuf.reset :=
  CircBuf.sound_of_checks (by decide) (by decide) (by decide) (by decide) (by decide)

theorem sound_one : CircBuf.Sound 64 (rxHolds [0x41] ready).ut.rx :=
  CircBuf.sound_of_checks (by decide) (by decide) (by decide) (by decide) (by decide)

/-- UtSendByteRuns: an empty buffer of 64 slots. -/
theorem witness_UtSendByteRuns :
    ready.host.op = none ∧ ready.ut.inited = true ∧ ready.cfg.legal ∧ ready.ut.tx.Sound ready.cfg.N ∧
    ready.ut.tx.full ready.cfg.N = false := ⟨rfl, rfl, by decide, sound_empty, by decide⟩

theorem witness_UtRecvByteRuns :
    let s := rxHolds [0x41] ready
    s.host.op = none ∧ s.ut.inited = true ∧ s.cfg.legal ∧ s.ut.rx.Sound s.cfg.N ∧ s.ut.rx.empty = false :=
  ⟨rfl, rfl, by decide, sound_one, by decide⟩

/-- V-LN-1 and V-LN-3: "ok" and a CR with room left, and three bytes at the limit. -/
theorem witness_UtRecvLineRuns :
    let s := rxHolds [0x6F, 0x6B, 0x0D, 0x0A] ready
    s.host.op = none ∧ s.ut.inited = true ∧ s.cfg.legal ∧ s.ut.rx.Sound s.cfg.N ∧ s.cfg.ECHO_ENABLE = false ∧
    s.cfg.EDIT_ENABLE = false ∧ (∀ b ∈ ([0x6F, 0x6B] : List Byte), b ≠ s.cfg.CR ∧ b ≠ s.cfg.LF) ∧
    ([0x6F, 0x6B] : List Byte).length < 8 - 1 ∧ (0x0D : Byte) = s.cfg.CR ∧
    s.ut.rx.liveSlots s.cfg.N = ([0x6F, 0x6B] : List Byte).map some ++ some 0x0D :: [some 0x0A] ∧
    ([0x6F, 0x6B] : List Byte).length = 3 - 1 ∧
    s.ut.rx.liveSlots s.cfg.N = ([0x6F, 0x6B] : List Byte).map some ++ [some 0x0D, some 0x0A] :=
  ⟨rfl, rfl, by decide,
    CircBuf.sound_of_checks (by decide) (by decide) (by decide) (by decide) (by decide), rfl, rfl, by decide,
    by decide, rfl, by decide, rfl, by decide⟩

/-- UtRecvLineRuns at `m = 1`: no byte is read (V-LN-6). -/
theorem witness_UtRecvLineRuns_one :
    let s := rxHolds [0x41] ready
    1 ≤ 1 ∧ ([] : List Byte).length = 1 - 1 ∧ s.ut.rx.liveSlots s.cfg.N = ([] : List Byte).map some ++ [some 0x41] := by
  decide

theorem witness_BmStartRuns :
    let s := bus .writing .write ready
    s.host.op = none ∧ s.bm.inited = true ∧ s.bm.state ≠ .started ∧ s.bm.state ≠ .stopped ∧ s.device = none := by
  decide

theorem witness_BmTransferAndStopRun :
    let s := bus .writing .write ready
    let u := bus .reading .read ready
    s.host.op = none ∧ s.bm.inited = true ∧ s.device = none ∧ s.bm.state = .writing ∧ s.bm.dir = .write ∧
    u.host.op = none ∧ u.bm.inited = true ∧ u.device = none ∧ u.bm.state = .reading ∧ u.bm.dir = .read := by decide

/-- The helper runs: the address byte of the largest address, and statuses expected and not. -/
theorem witness_BmWriteRegRuns :
    ready.host.op = none ∧ ready.bm.inited = true ∧ ready.bm.state = .idle ∧ ready.device = none ∧
    (0xFE : Byte).toNat = (0x7F : DevAddr).toNat * 2 ∧ (0x18 : Byte) = ready.cfg.ST_SLA_W_ACK ∧
    (0x28 : Byte) = ready.cfg.ST_DATA_W_ACK ∧ (0x20 : Byte) ≠ ready.cfg.ST_SLA_W_ACK ∧
    (0x30 : Byte) ≠ ready.cfg.ST_DATA_W_ACK := by decide

theorem witness_BmReadRegRuns :
    ready.host.op = none ∧ ready.bm.inited = true ∧ ready.bm.state = .idle ∧ ready.device = none ∧
    (0xFE : Byte).toNat = (0x7F : DevAddr).toNat * 2 ∧ (0xFF : Byte).toNat = (0x7F : DevAddr).toNat * 2 + 1 ∧
    (0x18 : Byte) = ready.cfg.ST_SLA_W_ACK ∧ (0x28 : Byte) = ready.cfg.ST_DATA_W_ACK ∧
    (0x40 : Byte) = ready.cfg.ST_SLA_R_ACK ∧ (0x48 : Byte) ≠ ready.cfg.ST_SLA_R_ACK ∧
    (0x00 : Byte) ≠ ready.cfg.ST_SLA_W_ACK ∧ (0x30 : Byte) ≠ ready.cfg.ST_DATA_W_ACK := by decide

/-- The largest count of reads, 255. -/
theorem witness_BmReadRegsRuns :
    ready.host.op = none ∧ ready.bm.inited = true ∧ ready.bm.state = .idle ∧ ready.device = none ∧
    (List.replicate 254 ((0x50, 0x7F) : Byte × Byte)).length < 255 ∧ ([] : List (Byte × Byte)).length < 255 ∧
    (0xFE : Byte).toNat = (0x7F : DevAddr).toNat * 2 ∧ (0xFF : Byte).toNat = (0x7F : DevAddr).toNat * 2 + 1 ∧
    (0x18 : Byte) = ready.cfg.ST_SLA_W_ACK ∧ (0x28 : Byte) = ready.cfg.ST_DATA_W_ACK ∧
    (0x40 : Byte) = ready.cfg.ST_SLA_R_ACK ∧ (0x48 : Byte) ≠ ready.cfg.ST_SLA_R_ACK ∧
    (0x20 : Byte) ≠ ready.cfg.ST_SLA_W_ACK ∧ (0x30 : Byte) ≠ ready.cfg.ST_DATA_W_ACK :=
  ⟨rfl, rfl, rfl, rfl, by rw [List.length_replicate]; decide, by decide, by decide⟩

theorem witness_WriteThenReadRegisterReturnsTheValue :
    let s : State := { ready with device := some device }
    s.host.op = none ∧ s.bm.inited = true ∧ s.bm.state = .idle ∧ s.device = some device ∧ device.busy = false ∧
    device.sel = .none ∧
    let cs := Choice.issue (encode (.bmWriteReg device.aDev 0xFF 0)) :: (startChoices 0 0 ++ .host ::
      (writeChoices 0 ++ .host :: (writeChoices 0 ++ .host :: (stopChoices ++
      .issue (encode (.bmReadReg device.aDev 0xFF)) :: (startChoices 0 0 ++ .host ::
      (writeChoices 0 ++ .host :: (startChoices 0 0 ++ .host ::
      (lastReadChoices 0 0 ++ stopChoices))))))))
    cs.map undrawn = cs ∧ (cs.map drawn).map undrawn = cs ∧ cs.map drawn ≠ cs := by decide

/-- HelperChecksGateTheTransaction: a check of each helper, equal and not. -/
theorem witness_HelperChecksGateTheTransaction :
    let s := { at_ (.bmReadRegs 0x76 0xFA 3) none .q5 ready with host.locals.st := 0x40 }
    let u := { at_ (.bmWriteReg 0x76 0xF4 0x27) none .h5 ready with host.locals.st := 0x30 }
    let v := { at_ (.bmReadReg 0x76 0xF4) none .g3 ready with host.locals.st := 0x28 }
    s.host.op = some (.bmReadRegs 0x76 0xFA 3) ∧ s.host.caller = none ∧ s.host.step = .q5 ∧
    s.host.locals.st = s.cfg.ST_SLA_R_ACK ∧
    u.host.op = some (.bmWriteReg 0x76 0xF4 0x27) ∧ u.host.caller = none ∧ u.host.step = .h5 ∧
    u.host.locals.st ≠ u.cfg.ST_DATA_W_ACK ∧
    v.host.op = some (.bmReadReg 0x76 0xF4) ∧ v.host.caller = none ∧ v.host.step = .g3 ∧
    v.host.locals.st = v.cfg.ST_DATA_W_ACK := by decide

/-- CalledPrimitivesRunInPlace: each called operation in some line of a helper. -/
theorem witness_CalledPrimitivesRunInPlace :
    Label.t0 ∈ labelsOf (.bmReadReg 0x76 0xF4) (some .g4) ∧ Label.t3 ∈ labelsOf (.bmReadReg 0x76 0xF4) (some .g0) ∧
    Label.w1 ∈ labelsOf (.bmWriteReg 0x76 0xF4 0x27) (some .h4) ∧
    Label.a0 ∈ labelsOf (.bmReadRegs 0x76 0xFA 3) (some .q7) ∧
    Label.k1 ∈ labelsOf (.bmReadRegs 0x76 0xFA 3) (some .q8) ∧
    Label.p0 ∈ labelsOf (.bmReadRegs 0x76 0xFA 3) (some .q3) ∧
    (at_ (.bmReadReg 0x76 0xF4) (some .g4) .t0 ready).host.op = some (.bmReadReg 0x76 0xF4) ∧
    (at_ (.bmReadReg 0x76 0xF4) (some .g4) .t0 ready).host.caller = some .g4 ∧
    (at_ (.bmReadReg 0x76 0xF4) (some .g0) .t3 ready).bm.done = false ∧
    ({ at_ (.bmReadReg 0x76 0xF4) (some .g0) .t3 ready with bm.done := true } : State).bm.done = true := by decide

/-- CalledPrimitivesRunInPlace: its clauses about operands and returns, in some line each, at the largest address. -/
theorem witness_CalledPrimitivesRunInPlace_operands :
    Label.t2 ∈ labelsOf (.bmReadReg 0x7F 0xF4) (some .g4) ∧ helperDevice (.bmReadReg 0x7F 0xF4) = some 0x7F ∧
    (0xFF : Byte).toNat = (0x7F : DevAddr).toNat * 2 + (startDirection (.bmReadReg 0x7F 0xF4) (some .g4)).bit ∧
    Label.t4 ∈ labelsOf (.bmReadRegs 0x76 0xFA 3) (some .q4) ∧
    Label.w0 ∈ labelsOf (.bmWriteReg 0x76 0xF4 0x27) (some .h4) ∧
    writtenByte (.bmWriteReg 0x76 0xF4 0x27) .h4 = some 0x27 ∧
    writtenByte (.bmWriteReg 0x76 0xF4 0x27) .h2 = some 0xF4 ∧
    Label.w2 ∈ labelsOf (.bmReadReg 0x76 0xF4) (some .g2) ∧
    Label.a2 ∈ labelsOf (.bmReadRegs 0x76 0xFA 255) (some .q7) ∧
    Label.k0 ∈ labelsOf (.bmReadReg 0x76 0xF4) (some .g6) ∧ Label.k2 ∈ labelsOf (.bmReadReg 0x76 0xF4) (some .g6) ∧
    Label.k2 ∈ labelsOf (.bmReadRegs 0x76 0xFA 1) (some .q8) ∧
    Label.p1 ∈ labelsOf (.bmReadRegs 0x76 0xFA 3) (some .q5) ∧
    helperResult (.bmReadRegs 0x76 0xFA 3) .q5 Locals.empty = some (.statusBytes 0 none) ∧
    helperResult (.bmReadReg 0x76 0xF4) .g7 Locals.empty = some (.statusByte 0 (some 0)) ∧
    (at_ (.bmReadRegs 0x76 0xFA 1) (some .q8) .k2 ready).host.step = .k2 := by decide

/-- RxiHandler: takeable, and not for want of each of its three bits; full and not full at the last slot. -/
theorem witness_RxiHandler :
    let s : State := { slots 4 (rxHolds [0x41, 0x42, 0x43] ready) with ut.rxReady := true }
    s.ut.rxReady = true ∧ s.ut.rxIe = true ∧ s.ut.gie = true ∧ nextIndex s.cfg.N s.ut.rx.head = s.ut.rx.tail ∧
    nextIndex 5 s.ut.rx.head ≠ s.ut.rx.tail ∧ s.ut.rx.head.toNat < 5 ∧
    ¬ (ready.ut.rxReady = true ∧ ready.ut.rxIe = true ∧ ready.ut.gie = true) := by decide

theorem witness_TxiHandler :
    let s := txHolds [0x48] ready
    s.ut.txReady = true ∧ s.ut.txIe = true ∧ s.ut.gie = true ∧ s.ut.tx.head ≠ s.ut.tx.tail ∧
    s.ut.tx.tail.toNat < s.cfg.N ∧ s.ut.tx.buf.read? s.ut.tx.tail.toNat = some 0x48 ∧
    (txHolds [] ready).ut.tx.head = (txHolds [] ready).ut.tx.tail ∧
    ¬ (ready.ut.txReady = true ∧ ready.ut.txIe = true ∧ ready.ut.gie = true) := by decide

theorem witness_LineArrives :
    State.reset.ut.inited = false ∧ ready.ut.inited = true ∧ ready.ut.rxReady = false ∧
    ({ ready with ut.rxReady := true } : State).ut.rxReady = true ∧
    ({ ready with cfg.RX_OVERRUN_POLICY := .hold } : State).cfg.RX_OVERRUN_POLICY = .hold ∧
    ({ ready with cfg.RX_OVERRUN_POLICY := .dropNew } : State).cfg.RX_OVERRUN_POLICY = .dropNew ∧
    ({ ready with cfg.RX_OVERRUN_POLICY := .overwrite } : State).cfg.RX_OVERRUN_POLICY = .overwrite ∧
    ready.cfg.RX_OVERRUN_POLICY = .anyLoss := by decide

theorem witness_LineShiftsOut :
    ready.ut.txReady = true ∧ ({ ready with ut.txReady := false } : State).ut.txReady = false := by decide

theorem witness_BusCompletes (k : Phase) :
    ready.bm.pending = none ∧ ready.device = none ∧ ({ ready with bm.pending := some k } : State).bm.pending = some k ∧
    ({ ready with bm.pending := some k, device := some device } : State).device = some device :=
  ⟨rfl, rfl, rfl, rfl⟩

theorem witness_ReferenceDeviceTable :
    device.busy = false ∧ ({ device with busy := true } : SimDevice).busy = true ∧ device.sel = .none ∧
    (0xEC : Byte).toNat / 2 = device.aDev.toNat ∧ (0xEC : Byte).toNat % 2 = 0 ∧
    (0xED : Byte).toNat / 2 = device.aDev.toNat ∧ (0xED : Byte).toNat % 2 = 1 ∧
    (0xFE : Byte).toNat / 2 ≠ device.aDev.toNat ∧ (0xFE : Byte).toNat % 2 = 0 ∧
    (0xFF : Byte).toNat / 2 ≠ device.aDev.toNat ∧ (0xFF : Byte).toNat % 2 = 1 ∧
    ({ device with sel := .wFirst } : SimDevice).sel = .wFirst ∧
    ({ device with sel := .wData, p := 0xFF } : SimDevice).sel = .wData ∧
    ({ device with sel := .rd } : SimDevice).sel = .rd ∧ ({ device with sel := .off } : SimDevice).sel = .off ∧
    ({ device with sel := .off } : SimDevice).sel ≠ .rd := by decide

/-- ResetMeetsTheInvariant: legal parameters at both ends of N. -/
theorem witness_ResetMeetsTheInvariant :
    ({ Config.default with N := 2, F_REF := 1 } : Config).legal ∧ ({ Config.default with N := 256 } : Config).legal := by
  decide

/-- ResetIsStableUntilIssue: the reset state, whatever the rest of it holds, and a choice of each other agent. -/
theorem witness_ResetIsStableUntilIssue :
    State.reset.ut.rxIe = false ∧ State.reset.ut.txIe = false ∧ State.reset.ut.inited = false ∧
    State.reset.ut.txReady = true ∧ State.reset.bm.pending = none ∧ State.reset.host.op = none ∧
    (∀ w, Choice.txi ≠ .issue w) := ⟨rfl, rfl, rfl, rfl, rfl, rfl, fun _ h => by cases h⟩

/-! ### Witnesses of the invariants -/

/-- `BM_START` about to issue its first phase, the reference device attached. -/
def starting : State :=
  { at_ (.bmStart 0x76 .write) none .t0 ready with device := some device, inputs := [.host] }

/-- `BM_WRITE_REG` about to return from its `stop`. -/
def returning : State :=
  { at_ (.bmWriteReg 0x76 0xF4 0x27) (some .h6) .p1 (bus .stopped .write ready) with
    bm.trace := [.stop]
    inputs := [.host] }

/-- `UT_RECV_LINE 3` with one byte stored and the next one in hand: at the terminator test (L3). -/
def lineReading : State :=
  { at_ (.utRecvLine 3) none .l3 ready with
    host.locals.i := 1
    host.locals.c := 0x62
    host.locals.lineBuf := [0x61]
    inputs := [.host] }

/-- `BM_READ_REGS` with two bytes of three read, about to test the index (Q7). -/
def burstReading : State :=
  { at_ (.bmReadRegs 0x76 0xFA 3) none .q7 (bus .reading .read ready) with
    host.locals.k := 2
    host.locals.resBytes := [0x7F, 0xE0]
    inputs := [.host] }

/-- A command without the temporaries in question meets their invariant. -/
theorem locals_of_other {s : State} (h1 : ∀ m, s.host.op ≠ some (.utRecvLine m))
    (h2 : ∀ d r n, s.host.op ≠ some (.bmReadRegs d r n)) : LocalsInv s where
  lineMax m h := absurd h (h1 m)
  lineCount m h := absurd h (h1 m)
  lineRoom m h := absurd h (h1 m)
  lineErase m h := absurd h (h1 m)
  regsCount d r n h := absurd h (h2 d r n)
  regsIndex d r n h := absurd h (h2 d r n)
  regsMore d r n h := absurd h (h2 d r n)
  regsLast d r n h := absurd h (h2 d r n)
  regsAll d r n h := absurd h (h2 d r n)
  regsFresh d r n h := absurd h (h2 d r n)

theorem lineReading_locals : LocalsInv lineReading where
  lineMax m h := by cases h; decide
  lineCount m h := by cases h; decide
  lineRoom m h := by cases h; decide
  lineErase m h := by cases h; decide
  regsCount d r n h := by cases h
  regsIndex d r n h := by cases h
  regsMore d r n h := by cases h
  regsLast d r n h := by cases h
  regsAll d r n h := by cases h
  regsFresh d r n h := by cases h

theorem burstReading_locals : LocalsInv burstReading where
  lineMax m h := by cases h
  lineCount m h := by cases h
  lineRoom m h := by cases h
  lineErase m h := by cases h
  regsCount d r n h := by cases h; decide
  regsIndex d r n h := by cases h; decide
  regsMore d r n h := by cases h; decide
  regsLast d r n h := by cases h; decide
  regsAll d r n h := by cases h; decide
  regsFresh d r n h := by cases h; decide

theorem reading_host : HostInv lineReading ∧ HostInv burstReading :=
  ⟨{ wellFormed := by intro i h; cases h; decide
     inited := by intro i h; cases h; rfl
     label := by intro i h; cases h; decide
     rxQuiet := by decide
     txQuiet := by decide
     txDisabled := by decide },
   { wellFormed := by intro i h; cases h; decide
     inited := by intro i h; cases h; rfl
     label := by intro i h; cases h; decide
     rxQuiet := by decide
     txQuiet := by decide
     txDisabled := by decide }⟩

theorem starting_inv : Inv starting where
  host :=
    { wellFormed := by intro i h; cases h; decide
      inited := by intro i h; cases h; rfl
      label := by intro i h; cases h; decide
      rxQuiet := by decide
      txQuiet := by decide
      txDisabled := by decide }
  serial :=
    { cfg := by decide
      tx := sound_empty
      rx := sound_empty
      room := by decide
      stored := by decide
      byte := by decide
      fetched := by decide }
  locals := locals_of_other (fun _ h => by cases h) (fun _ _ _ h => by cases h)
  bus :=
    { pendingHeld := by decide
      completed := by decide
      idle := by intro h; cases h
      protocol := by intro i h; cases h; exact ⟨by decide, by decide⟩
      registers := by intro d h; cases h; decide }

theorem returning_inv : Inv returning where
  host :=
    { wellFormed := by intro i h; cases h; decide
      inited := by intro i h; cases h; rfl
      label := by intro i h; cases h; decide
      rxQuiet := by decide
      txQuiet := by decide
      txDisabled := by decide }
  serial :=
    { cfg := by decide
      tx := sound_empty
      rx := sound_empty
      room := by decide
      stored := by decide
      byte := by decide
      fetched := by decide }
  locals := locals_of_other (fun _ h => by cases h) (fun _ _ _ h => by cases h)
  bus :=
    { pendingHeld := by decide
      completed := by decide
      idle := by intro h; cases h
      protocol := by intro i h; cases h; exact ⟨by decide, by decide⟩
      registers := by intro d h; cases h }

/-- The four invariants, each with a step from a state that meets it (HostInv, SerialInv, LocalsInv, BusInv). -/
theorem witness_invariants : Inv starting ∧ ∃ t, step starting = .next t :=
  ⟨starting_inv, exists_next (by decide)⟩

theorem witness_StepKeepsTheBufferInvariant : SerialInv starting ∧ ∃ t, step starting = .next t :=
  ⟨starting_inv.serial, exists_next (by decide)⟩

theorem witness_StepKeepsThePosition : HostInv returning ∧ ∃ t, step returning = .next t :=
  ⟨returning_inv.host, exists_next (by decide)⟩

/-- LocalsInv on a line half read and on a burst half read. -/
theorem witness_StepKeepsTheTemporaries :
    (HostInv lineReading ∧ LocalsInv lineReading ∧ ∃ t, step lineReading = .next t) ∧
    (HostInv burstReading ∧ LocalsInv burstReading ∧ ∃ t, step burstReading = .next t) :=
  ⟨⟨reading_host.1, lineReading_locals, exists_next (by decide)⟩,
    reading_host.2, burstReading_locals, exists_next (by decide)⟩

theorem witness_StepKeepsTheBusProtocol :
    HostInv starting ∧ BusInv starting ∧ ∃ t, step starting = .next t :=
  ⟨starting_inv.host, starting_inv.bus, exists_next (by decide)⟩

theorem witness_InvariantStepNeverStops : Inv returning := returning_inv

theorem witness_ParametersFixedAndRecordsOnlyGrow : ∃ t, step returning = .next t := exists_next (by decide)

/-- EachElementHasItsWriter: a step of each agent that changes something it owns. -/
theorem witness_EachElementHasItsWriter :
    (nextOf (perform .rxi { ready with ut.rxReady := true, ut.rxData := 0x41 })).map
      (fun t => (t.ut.rx.head, t.ut.rxReady)) = some (1, false) ∧
    (nextOf (perform .txi (txHolds [0x48] ready))).map (fun t => (t.ut.tx.tail, t.ut.txReady)) = some (1, false) ∧
    (nextOf (perform .host (at_ (.utSendByte 0x41) none .s2 ready))).map (·.ut.tx.head) = some 1 ∧
    (nextOf (perform .host (at_ .utRecvByte none .v2 (rxHolds [0x41] ready)))).map (·.ut.rx.tail) = some 1 ∧
    (nextOf (perform .host (at_ (.utInit 19200) none .i2 State.reset))).map (·.ut.gie) = some true ∧
    (nextOf (perform (.lineArrive 0x41 true) ready)).map (fun t => (t.ut.rxData, t.ut.rxReady)) = some (0x41, true) ∧
    (nextOf (perform .lineShiftOut { ready with ut.txReady := false })).map (·.ut.txReady) = some true := by decide

/-- SerialCommandsFrame: each of the four commands answers a next state. -/
theorem witness_SerialCommandsFrame :
    (∃ t, exec (.utInit 19200) (at_ (.utInit 19200) none .i1 ready) = .next t) ∧
    (∃ t, exec (.utSendByte 0x41) (at_ (.utSendByte 0x41) none .s1 ready) = .next t) ∧
    (∃ t, exec .utRecvByte (at_ .utRecvByte none .v1 (rxHolds [0x41] ready)) = .next t) ∧
    (∃ t, exec (.utRecvLine 8) (at_ (.utRecvLine 8) none .l0 ready) = .next t) :=
  ⟨exists_next (by decide), exists_next (by decide), exists_next (by decide), exists_next (by decide)⟩

/-- BusCommandsFrame: a primitive, a helper and `BM_INIT` answer a next state. -/
theorem witness_BusCommandsFrame :
    (∃ t, exec (.bmWrite 0xF4) (at_ (.bmWrite 0xF4) none .w0 ready) = .next t) ∧
    (∃ t, exec (.bmReadReg 0x76 0xF4) (at_ (.bmReadReg 0x76 0xF4) (some .g7) .p0 ready) = .next t) ∧
    (∃ t, exec (.bmInit 100000) (at_ (.bmInit 100000) none .n1 ready) = .next t) ∧
    ¬ ((∃ r, Instr.bmStop = .utInit r) ∨ (∃ b, Instr.bmStop = .utSendByte b) ∨ Instr.bmStop = .utRecvByte ∨
      (∃ m, Instr.bmStop = .utRecvLine m)) :=
  ⟨exists_next (by decide), exists_next (by decide), exists_next (by decide), by simp⟩

theorem witness_HandlersLeaveTheMainContext :
    (∃ t, perform .rxi { ready with ut.rxReady := true } = .next t) ∧
    (∃ t, perform .txi (txHolds [0x48] ready) = .next t) ∧
    (∃ t, perform (.lineArrive 0x41 true) ready = .next t) ∧
    (∃ t, perform .lineShiftOut { ready with ut.txReady := false } = .next t) :=
  ⟨exists_next (by decide), exists_next (by decide), exists_next (by decide), exists_next (by decide)⟩

/-- TransmitAndReceiveCommute: both interrupts takeable at once. -/
theorem witness_TransmitAndReceiveCommute :
    let s : State := { txHolds [0x48] ready with ut.rxReady := true, ut.rxData := 0x41 }
    takeable .rx s = true ∧ takeable .tx s = true ∧
    nextOf (runChoices [.txi, .rxi] s) = nextOf (runChoices [.rxi, .txi] s) ∧
    (nextOf (runChoices [.txi, .rxi] s)).isSome := by decide

/-- HoldsAreLiftedOnlyByTheirAgent: each hold, and the step that lifts it. -/
theorem witness_HoldsAreLiftedOnlyByTheirAgent :
    let s := at_ (.utSendByte 0x45) none .s0 (slots 4 (txHolds [0x41, 0x42, 0x43] ready))
    let v : State := { at_ .utRecvByte none .v0 ready with ut.rxReady := true }
    let b : State := { at_ .bmReadAck none .a1 ready with bm.pending := some .recvAck }
    hostHeld s ∧ hostHeld v ∧ hostHeld b ∧
    (nextOf (perform .txi s)).map held = some false ∧ (nextOf (perform .rxi v)).map held = some false ∧
    (nextOf (perform (.busComplete 0x50 0x7F) b)).map held = some false := by
  refine ⟨⟨?_, ?_⟩, ⟨?_, ?_⟩, ⟨?_, ?_⟩, ?_, ?_, ?_⟩ <;> decide

theorem witness_PhasesAreIssuedOneAtATime :
    Inv starting ∧ (nextOf (perform .host starting)).map (·.bm.pending) = some (some .startCond) ∧
    starting.bm.pending ≠ some .startCond := ⟨starting_inv, by decide, by decide⟩

theorem witness_HelpersEndWithTheBusReleased :
    Inv returning ∧ returning.host.op = some (.bmWriteReg 0x76 0xF4 0x27) ∧
    (nextOf (perform .host returning)).map (·.host.op) = some none := ⟨returning_inv, rfl, by decide⟩

/-- QueuedBytesKeepTransmitEnabled: a byte queued with `tx_ie` set, and TXI takes it. -/
theorem witness_QueuedBytesKeepTransmitEnabled :
    let s := txHolds [0x48] ready
    SerialInv s ∧ (∃ t, perform .txi s = .next t) ∧ (∀ r, s.host.op ≠ some (.utInit r)) ∧
    s.ut.tx.empty = false ∧ s.ut.txIe = true :=
  ⟨⟨by decide, CircBuf.sound_of_checks (by decide) (by decide) (by decide) (by decide) (by decide), sound_empty,
    by decide, by decide, by decide, by decide⟩, exists_next (by decide), fun _ => (by intro h; cases h), by decide, rfl⟩

/-- CircularBufferIsAFifo: the smallest and the largest capacity, full and empty (V-BUF-3, V-BUF-4). -/
theorem witness_CircularBufferIsAFifo :
    CircBuf.Sound 2 ⟨[(0, 0x41)], 1, 0⟩ ∧ CircBuf.full 2 ⟨[(0, 0x41)], 1, 0⟩ = true ∧
    CircBuf.empty ⟨[(0, 0x41)], 1, 0⟩ = false ∧ CircBuf.Sound 256 ⟨[(255, 0x41)], 0, 255⟩ ∧
    CircBuf.full 256 ⟨[(255, 0x41)], 0, 255⟩ = false ∧ CircBuf.empty ⟨[(255, 0x41)], 0, 255⟩ = false :=
  ⟨CircBuf.sound_of_checks (by decide) (by decide) (by decide) (by decide) (by decide), by decide, by decide,
    CircBuf.sound_of_checks (by decide) (by decide) (by decide) (by decide) (by decide), by decide, by decide⟩

/-- TransmitStreamOnlyGrows and ReceiveStreamLosesOnlyCountedBytes: the publication S2, the delivery V2, and a step of
another agent. -/
theorem witness_TransmitStreamOnlyGrows :
    let s := at_ (.utSendByte 0x41) none .s2 { ready with ut.tx.buf := [(0, 0x41)] }
    SerialInv s ∧ (∃ t, perform .host s = .next t) ∧ s.host.op.isSome ∧ s.host.step = .s2 ∧
    (∃ t, perform (.lineArrive 0x41 true) s = .next t) :=
  ⟨⟨by decide, CircBuf.sound_of_checks (by decide) (by decide) (by decide) (by decide) (by decide), sound_empty,
    by decide, by decide, by decide, by decide⟩, exists_next (by decide), rfl, rfl, exists_next (by decide)⟩

theorem witness_ReceiveStreamLosesOnlyCountedBytes :
    let s := at_ .utRecvByte none .v2 { rxHolds [0x41] ready with host.locals.v := 0x41 }
    SerialInv s ∧ (∃ t, perform .host s = .next t) ∧ s.host.op.isSome ∧ s.host.step = .v2 ∧
    (∃ t, perform (.lineArrive 0x42 true) s = .next t) :=
  ⟨⟨by decide, sound_empty, sound_one, by decide, by decide, by decide, by decide⟩, exists_next (by decide), rfl, rfl,
    exists_next (by decide)⟩

/-- SendStringQueuesItsBytes: "Hi" into an empty buffer. -/
theorem witness_SendStringQueuesItsBytes :
    ready.host.op = none ∧ ready.ut.inited = true ∧ ready.cfg.legal ∧ ready.ut.tx.Sound ready.cfg.N ∧
    (ready.ut.tx.liveSlots ready.cfg.N).length + ([0x48, 0x69] : List Byte).length ≤ ready.cfg.N - 1 :=
  ⟨rfl, rfl, by decide, sound_empty, by decide⟩

/-! ### Infinite runs and fairness (70_reset_and_hazards.md R316) -/

/-- The run that stays for ever in a state HOST is held in, HOST being chosen at every point. -/
def staying (s : State) (h : enabled .host s = false) : Run where
  state := fun _ => s
  choice := fun _ => .host
  follows := fun _ => by simp [perform, h]

/-- It is fair if none of the fair steps is enabled there. -/
theorem staying_fair {s : State} (h : enabled .host s = false) (h1 : enabled .lineShiftOut s = false)
    (h2 : enabled .txi s = false) (h3 : enabled .rxi s = false) : (staying s h).Fair := by
  have no : ∀ {c}, enabled c s = false → (staying s h).WeaklyFair c := fun hc n he => by
    have := he n le_rfl
    rw [show (staying s h).state n = s from rfl, hc] at this
    cases this
  exact ⟨no h1, no h2, no h3, no h⟩

/-- F5: a fair run in which the phase pending for `BM_START` never completes, so that the primitive hangs. -/
theorem test_fair_run_without_completion :
    ∃ r : Run, r.Fair ∧ (r.state 0).bm.pending.isSome ∧ ¬ r.BusCompletes ∧ ∀ n, (r.state n).host.step = .t1 := by
  let s : State := { at_ (.bmStart 0x76 .write) none .t1 (bus .started .write ready) with
    bm.pending := some .startCond }
  refine ⟨staying s (by decide), staying_fair _ (by decide) (by decide) (by decide), by decide, fun h => ?_,
    fun _ => rfl⟩
  obtain ⟨m, _, st, v, hc⟩ := h 0 (by decide)
  cases hc

/-- `UT_RECV_BYTE` waiting for a byte. -/
def waiting : State := at_ .utRecvByte none .v0 ready

theorem waiting_inv : Inv waiting where
  host :=
    { wellFormed := by intro i h; cases h; decide
      inited := by intro i h; cases h; rfl
      label := by intro i h; cases h; decide
      rxQuiet := by decide
      txQuiet := by decide
      txDisabled := by decide }
  serial :=
    { cfg := by decide
      tx := sound_empty
      rx := sound_empty
      room := by decide
      stored := by decide
      byte := by decide
      fetched := by decide }
  locals := locals_of_other (fun _ h => by cases h) (fun _ _ _ h => by cases h)
  bus :=
    { pendingHeld := by decide
      completed := by decide
      idle := by intro h; cases h
      protocol := by intro i h; cases h; exact ⟨by decide, by decide⟩
      registers := by intro d h; cases h }

/-- F6: a fair and undisturbed run in which no byte arrives, so that receive_byte hangs. -/
theorem test_fair_run_without_arrival :
    ∃ r : Run, r.Fair ∧ r.Undisturbed ∧ ∀ n, (r.state n).host.op = some .utRecvByte :=
  ⟨staying waiting (by decide), staying_fair _ (by decide) (by decide) (by decide),
    ⟨fun _ => rfl, fun _ _ h => (by cases h), fun _ => waiting_inv,
      fun _ h => absurd h (by decide : ¬ waiting.ut.tx.empty = false)⟩, fun _ => rfl⟩

end Sys2Proof.Tests
end

section
/-! SUPPORT. What a step of the machine is and what it keeps (spec/00_scope.md): HOST's step, the table of the
reference device, the primitives called by the helpers, and the records that only grow. -/

namespace Sys2Proof.Machine

variable {s t u : State}

/-! ## The step of HOST (00_scope.md R9, R10) -/

/-- A step with a choice placed is that agent's step, the choice used up (log 4). -/
theorem step_placed {c : Choice} {rest : List Choice} (h : s.inputs = c :: rest) :
    step s = perform c { s with inputs := rest } := by
  simp only [step, h]; rfl

/-- A choice that is not enabled does nothing (log 5). -/
theorem perform_not_enabled {c : Choice} (h : enabled c s = false) : perform c s = .next s := by
  simp [perform, h]

/-- HOST's step, when it is not held, is `exec` of the command in flight (10_state.md R24). -/
theorem perform_host {i : Instr} (hop : s.host.op = some i) (hh : held s = false) :
    perform .host s = exec i s := by
  simp [perform, enabled, hostMicroStep, hop, hh]

/-- Settles O8: the step is HOST's at the state with the choice used up, and HOST's is enabled unless it is held. -/
theorem stepRunsTheOperationInFlight : Obligations.StepRunsTheOperationInFlight := by
  intro s rest i hin hop
  rw [step_placed hin]
  refine ⟨fun hh => perform_host hop hh, fun hh => perform_not_enabled ?_⟩
  have hheld : held { s with inputs := rest } = true := hh
  simp [enabled, hheld]

/-! ## The reference device (95_test_vectors.md section 4) -/

section Device

variable {d : SimDevice} {cfg : Config} {x : Byte}

/-- `StartCond` when the device is not busy. -/
theorem SimDevice.answer_start_idle (h : d.busy = false) :
    d.answer cfg .startCond = ⟨0x08, 0, { d with busy := true, sel := .none }⟩ := by
  simp [SimDevice.answer, SimDevice.onStart, h]

/-- `StartCond` when the device is busy: a repeated start. -/
theorem SimDevice.answer_start_busy (h : d.busy = true) :
    d.answer cfg .startCond = ⟨0x10, 0, { d with sel := .none }⟩ := by
  simp [SimDevice.answer, SimDevice.onStart, h]

/-- An address byte is one sent to a device not yet selected. -/
theorem SimDevice.answer_address (h : d.sel = .none) : d.answer cfg (.xmit x) = d.onAddress cfg x := by
  simp [SimDevice.answer, SimDevice.onXmit, h]

/-- The first data byte written is the register number. -/
theorem SimDevice.answer_register (h : d.sel = .wFirst) :
    d.answer cfg (.xmit x) = ⟨cfg.ST_DATA_W_ACK, 0, { d with p := x, sel := .wData }⟩ := by
  simp [SimDevice.answer, SimDevice.onXmit, h]

/-- Each further data byte written goes into the register at the pointer. -/
theorem SimDevice.answer_data (h : d.sel = .wData) :
    d.answer cfg (.xmit x) =
      ⟨cfg.ST_DATA_W_ACK, 0, { d with regs := d.regs.writeReg d.p x, p := d.p + 1 }⟩ := by
  simp [SimDevice.answer, SimDevice.onXmit, h]

/-- A data byte to a device selected for reading or not selected is not acknowledged. -/
theorem SimDevice.answer_unexpected (h : d.sel = .rd ∨ d.sel = .off) :
    d.answer cfg (.xmit x) = ⟨0x30, 0, d⟩ := by
  rcases h with h | h <;> simp [SimDevice.answer, SimDevice.onXmit, h]

/-- Settles O38, row by row; a register read after a write is `Memory.readReg_writeReg_same` and `_other`, the initial
contents `registerStore_spec`. -/
theorem referenceDeviceTable : Obligations.ReferenceDeviceTable := by
  refine ⟨fun a regs => ⟨rfl, rfl, rfl, rfl, (registerStore_spec regs).2.2⟩, fun cfg d x => ?_⟩
  refine ⟨SimDevice.answer_start_idle, SimDevice.answer_start_busy, ?ownWrite, ?ownRead, ?otherWrite, ?otherRead,
    SimDevice.answer_register, ?data, SimDevice.answer_unexpected, ?selected, ?unselected⟩
  case ownWrite | ownRead | otherWrite | otherRead =>
    intro hs ha hx; simp [SimDevice.answer_address hs, SimDevice.onAddress, ha, hx]
  case data =>
    exact fun hs => ⟨_, SimDevice.answer_data hs, d.regs.readReg_writeReg_same d.p x,
      fun _ hr => d.regs.readReg_writeReg_other x hr⟩
  case selected =>
    intro hs; simp [SimDevice.answer, SimDevice.onRecvAck, SimDevice.onRecvNack, SimDevice.bump, hs]
  case unselected => intro hs; simp [SimDevice.answer, SimDevice.onRecvAck, SimDevice.onRecvNack, hs]

end Device

/-! ## The primitives called by the helpers (42_bus_primitives.md R192 to R197, 43_bus_helpers.md R231 to R233) -/

section Called

section MicroSteps

variable {a : DevAddr} {dir : Direction} {b : Byte} {ret : Byte → State → State} {next : State → State}

/-! The micro-steps of each primitive, one equation per label. -/

theorem startMicro_t0 (h : s.host.step = .t0) :
    startMicro a dir ret s = .next ((startCondition dir s).advance .t1) := by simp [startMicro, h]

theorem startMicro_t1 (h : s.host.step = .t1) : startMicro a dir ret s = .next (awaitDone .t2 s) := by
  simp [startMicro, h]

theorem startMicro_t2 (h : s.host.step = .t2) :
    startMicro a dir ret s = .next ((startAddress a dir s).advance .t3) := by simp [startMicro, h]

theorem startMicro_t3 (h : s.host.step = .t3) : startMicro a dir ret s = .next (awaitDone .t4 s) := by
  simp [startMicro, h]

theorem startMicro_t4 (h : s.host.step = .t4) :
    startMicro a dir ret s = .next (ret s.bm.status (s.withBm { s.bm with state := .addressAcked })) := by
  simp [startMicro, h]

theorem writeMicro_w0 (h : s.host.step = .w0) :
    writeMicro b ret s = .next ((writeByte b s).advance .w1) := by simp [writeMicro, h]

theorem writeMicro_w1 (h : s.host.step = .w1) : writeMicro b ret s = .next (awaitDone .w2 s) := by
  simp [writeMicro, h]

theorem writeMicro_w2 (h : s.host.step = .w2) : writeMicro b ret s = .next (ret s.bm.status s) := by
  simp [writeMicro, h]

theorem readAckMicro_a0 (h : s.host.step = .a0) :
    readAckMicro ret s = .next ((readIssue .recvAck s).advance .a1) := by simp [readAckMicro, h]

theorem readAckMicro_a1 (h : s.host.step = .a1) : readAckMicro ret s = .next (awaitDone .a2 s) := by
  simp [readAckMicro, h]

theorem readAckMicro_a2 (h : s.host.step = .a2) : readAckMicro ret s = .next (ret s.bm.data s) := by
  simp [readAckMicro, h]

theorem readNackMicro_k0 (h : s.host.step = .k0) :
    readNackMicro ret s = .next ((readIssue .recvNack s).advance .k1) := by simp [readNackMicro, h]

theorem readNackMicro_k1 (h : s.host.step = .k1) : readNackMicro ret s = .next (awaitDone .k2 s) := by
  simp [readNackMicro, h]

theorem readNackMicro_k2 (h : s.host.step = .k2) : readNackMicro ret s = .next (ret s.bm.data s) := by
  simp [readNackMicro, h]

theorem stopMicro_p0 (h : s.host.step = .p0) : stopMicro next s = .next ((stopCondition s).advance .p1) := by
  simp [stopMicro, h]

theorem stopMicro_p1 (h : s.host.step = .p1) : stopMicro next s = .next (next (stopSettled s)) := by
  simp [stopMicro, h]

/-- A completion hold with `bm_done` clear changes nothing (R197). -/
theorem awaitDone_held {l : Label} (hl : s.host.step ∈ busHolds) (hd : s.bm.done = false) : awaitDone l s = s := by
  rcases awaitDone_cases l hl with ⟨_, h⟩ | ⟨hd', _⟩
  · exact h
  · simp [hd] at hd'

/-- A completion hold with `bm_done` set is lifted (R197). -/
theorem awaitDone_lifted {l : Label} (hl : s.host.step ∈ busHolds) (hd : s.bm.done = true) :
    awaitDone l s = s.advance l := by
  rcases awaitDone_cases l hl with ⟨hd', _⟩ | ⟨_, h⟩
  · simp [hd] at hd'
  · exact h

/-- The byte with the value of R192 is the address byte. -/
theorem eq_addressByte {x : Byte} (h : x.toNat = a.toNat * 2 + dir.bit) : x = addressByte a dir := by
  rw [addressByte, ← h, BitVec.ofNat_toNat, BitVec.setWidth_eq]

/-- A return leaves HOST as the statements write it, `host.step` where it was. -/
theorem State.ret_eq_returned {l : Label} (i : Instr) (r : Result) (h : s.host.step = l) :
    s.ret i r = { s with host := returned s.host i l r } := by
  subst h; rfl

end MicroSteps

/-- Each completion hold with the label it lifts to (R197). -/
def holdExits : List (Label × Label) := [(.t1, .t2), (.t3, .t4), (.w1, .w2), (.a1, .a2), (.k1, .k2)]

/-- Each line of a helper that calls `start`, with the line that checks its status (R231 to R233). -/
def startLines : List (Label × Label) := [(.h0, .h1), (.g0, .g1), (.g4, .g5), (.q0, .q1), (.q4, .q5)]

/-- Each line of a helper that calls `write`, with the line that checks its status (R231 to R233). -/
def writeLines : List (Label × Label) := [(.h2, .h3), (.h4, .h5), (.g2, .g3), (.q2, .q3)]

/-- What `exec i` is at a label of a call in line `line`: the micro-step of the primitive called there, with the
operands of the line, its return going to that line (00_scope.md R9 `call`). The two operations of the Serial
Transport that `receive_line` calls are told from these by their labels. -/
inductive CalledPrimitive (i : Instr) (line : Label) (s : State) : Prop
  | start (dev : DevAddr) (check : Label) (hl : s.host.step ∈ startLabels) (hdev : helperDevice i = some dev)
      (hcheck : ∀ c, (line, c) ∈ startLines → c = check)
      (he : exec i s = startMicro dev (startDirection i (some line)) (statusThen check) s)
  | write (x : Byte) (check : Label) (hl : s.host.step ∈ writeLabels) (hx : writtenByte i line = some x)
      (hcheck : ∀ c, (line, c) ∈ writeLines → c = check) (he : exec i s = writeMicro x (statusThen check) s)
  | readNext (hl : s.host.step ∈ ackLabels) (he : exec i s = readAckMicro readRegsStore s)
  | readOne (dev : DevAddr) (reg : Byte) (hl : s.host.step ∈ nackLabels) (hi : i = .bmReadReg dev reg)
      (he : exec i s =
        readNackMicro (fun v t => (t.withLocals { t.host.locals with v := v }).call .g7 .p0) s)
  | readLast (dev : DevAddr) (reg : Byte) (count : Nat) (hl : s.host.step ∈ nackLabels)
      (hi : i = .bmReadRegs dev reg count) (hline : line = .q8)
      (he : exec i s = readNackMicro (readRegsLast count) s)
  | stop (r : Locals → Result) (hl : s.host.step ∈ stopLabels) (hr : ∀ l, helperResult i line l = some (r l))
      (he : exec i s = stopMicro (fun t => t.ret i (r t.host.locals)) s)
  | serial (hl : s.host.step ∈ serialLabels)

section Classified

variable {i : Instr} {line : Label} {dev : DevAddr} {reg val : Byte} {count : Nat}

/-- `write_register` at a label of a call (R231). -/
theorem writeReg_called (hop : s.host.op = some (.bmWriteReg dev reg val)) (hc : s.host.caller = some line)
    (hl : s.host.step ∈ labelsOf (.bmWriteReg dev reg val) (some line)) :
    CalledPrimitive (.bmWriteReg dev reg val) line s := by
  have he : exec (.bmWriteReg dev reg val) s = writeRegMicro dev reg val s := runCommand_inFlight hop
  unfold writeRegMicro at he
  split at he <;> rename_i hline <;> cases hc.symm.trans hline
  · exact .start dev .h1 hl rfl (by simp [startLines]) he
  · exact .write reg .h3 hl rfl (by simp [writeLines]) he
  · exact .write val .h5 hl rfl (by simp [writeLines]) he
  · exact .stop (fun _ => .status 0) hl (fun _ => rfl) he
  iterate 3 exact .stop (fun l => .status l.st) hl (fun _ => rfl) he
  · unfold labelsOf at hl
    split at hl <;> simp_all

/-- `read_register` at a label of a call (R232). -/
theorem readReg_called (hop : s.host.op = some (.bmReadReg dev reg)) (hc : s.host.caller = some line)
    (hl : s.host.step ∈ labelsOf (.bmReadReg dev reg) (some line)) : CalledPrimitive (.bmReadReg dev reg) line s := by
  have he : exec (.bmReadReg dev reg) s = readRegMicro dev reg s := runCommand_inFlight hop
  unfold readRegMicro at he
  split at he <;> rename_i hline <;> cases hc.symm.trans hline
  · exact .start dev .g1 hl rfl (by simp [startLines]) he
  · exact .write reg .g3 hl rfl (by simp [writeLines]) he
  · exact .start dev .g5 hl rfl (by simp [startLines]) he
  · exact .readOne dev reg hl rfl he
  · exact .stop (fun l => .statusByte 0 (some l.v)) hl (fun _ => rfl) he
  iterate 3 exact .stop (fun l => .statusByte l.st none) hl (fun _ => rfl) he
  · unfold labelsOf at hl
    split at hl <;> simp_all

/-- `read_registers` at a label of a call (R233). -/
theorem readRegs_called (hop : s.host.op = some (.bmReadRegs dev reg count)) (hc : s.host.caller = some line)
    (hl : s.host.step ∈ labelsOf (.bmReadRegs dev reg count) (some line)) :
    CalledPrimitive (.bmReadRegs dev reg count) line s := by
  have he : exec (.bmReadRegs dev reg count) s = readRegsMicro dev reg count s := runCommand_inFlight hop
  unfold readRegsMicro at he
  split at he <;> rename_i hline <;> cases hc.symm.trans hline
  · exact .start dev .q1 hl rfl (by simp [startLines]) he
  · exact .write reg .q3 hl rfl (by simp [writeLines]) he
  · exact .start dev .q5 hl rfl (by simp [startLines]) he
  · exact .readNext hl he
  · exact .readLast dev reg count hl rfl rfl he
  · exact .stop (fun l => .statusBytes 0 (some (l.resBytes.take count))) hl (fun _ => rfl) he
  iterate 3 exact .stop (fun l => .statusBytes l.st none) hl (fun _ => rfl) he
  · unfold labelsOf at hl
    split at hl <;> simp_all

/-- Every label at which HOST is inside a call: only the three helpers and `receive_line` call (R24). -/
theorem calledPrimitive (hop : s.host.op = some i) (hc : s.host.caller = some line)
    (hl : s.host.step ∈ labelsOf i (some line)) : CalledPrimitive i line s := by
  cases i with
  | bmWriteReg dev reg val => exact writeReg_called hop hc hl
  | bmReadReg dev reg => exact readReg_called hop hc hl
  | bmReadRegs dev reg count => exact readRegs_called hop hc hl
  | utRecvLine n =>
    refine .serial (List.mem_append.2 ?_)
    unfold labelsOf at hl
    split at hl <;> simp_all
  | _ => simp [labelsOf] at hl

/-! The label tells which primitive is called: the label sets of the primitives are disjoint (R24). -/

theorem CalledPrimitive.of_start (h : CalledPrimitive i line s) (hs : s.host.step ∈ startLabels) :
    ∃ dev check, helperDevice i = some dev ∧ (∀ c, (line, c) ∈ startLines → c = check) ∧
      exec i s = startMicro dev (startDirection i (some line)) (statusThen check) s := by
  cases h with
  | start dev check _ hdev hcheck he => exact ⟨dev, check, hdev, hcheck, he⟩
  | write _ _ hl | readNext hl | readOne _ _ hl | readLast _ _ _ hl | stop _ hl | serial hl =>
    exact absurd hs ((by decide : ∀ l ∈ _, l ∉ startLabels) _ hl)

theorem CalledPrimitive.of_write (h : CalledPrimitive i line s) (hs : s.host.step ∈ writeLabels) :
    ∃ x check, writtenByte i line = some x ∧ (∀ c, (line, c) ∈ writeLines → c = check) ∧
      exec i s = writeMicro x (statusThen check) s := by
  cases h with
  | write x check _ hx hcheck he => exact ⟨x, check, hx, hcheck, he⟩
  | start _ _ hl | readNext hl | readOne _ _ hl | readLast _ _ _ hl | stop _ hl | serial hl =>
    exact absurd hs ((by decide : ∀ l ∈ _, l ∉ writeLabels) _ hl)

theorem CalledPrimitive.of_readAck (h : CalledPrimitive i line s) (hs : s.host.step ∈ ackLabels) :
    exec i s = readAckMicro readRegsStore s := by
  cases h with
  | readNext _ he => exact he
  | start _ _ hl | write _ _ hl | readOne _ _ hl | readLast _ _ _ hl | stop _ hl | serial hl =>
    exact absurd hs ((by decide : ∀ l ∈ _, l ∉ ackLabels) _ hl)

theorem CalledPrimitive.of_readNack (h : CalledPrimitive i line s) (hs : s.host.step ∈ nackLabels) :
    (∃ dev reg, i = .bmReadReg dev reg ∧ exec i s =
      readNackMicro (fun v t => (t.withLocals { t.host.locals with v := v }).call .g7 .p0) s) ∨
    (∃ dev reg count, i = .bmReadRegs dev reg count ∧ line = .q8 ∧
      exec i s = readNackMicro (readRegsLast count) s) := by
  cases h with
  | readOne dev reg _ hi he => exact .inl ⟨dev, reg, hi, he⟩
  | readLast dev reg count _ hi hline he => exact .inr ⟨dev, reg, count, hi, hline, he⟩
  | start _ _ hl | write _ _ hl | readNext hl | stop _ hl | serial hl =>
    exact absurd hs ((by decide : ∀ l ∈ _, l ∉ nackLabels) _ hl)

theorem CalledPrimitive.of_stop (h : CalledPrimitive i line s) (hs : s.host.step ∈ stopLabels) :
    ∃ r : Locals → Result, (∀ l, helperResult i line l = some (r l)) ∧
      exec i s = stopMicro (fun t => t.ret i (r t.host.locals)) s := by
  cases h with
  | stop r _ hr he => exact ⟨r, hr, he⟩
  | start _ _ hl | write _ _ hl | readNext hl | readOne _ _ hl | readLast _ _ _ hl | serial hl =>
    exact absurd hs ((by decide : ∀ l ∈ _, l ∉ stopLabels) _ hl)

/-- At a completion hold every called primitive waits, whatever it is and whoever calls it (R197). -/
theorem CalledPrimitive.exec_hold (h : CalledPrimitive i line s) {l next : Label} (hn : (l, next) ∈ holdExits)
    (hs : s.host.step = l) : exec i s = .next (awaitDone next s) := by
  simp only [holdExits, List.mem_cons, Prod.mk.injEq, List.not_mem_nil, or_false] at hn
  rcases hn with ⟨rfl, rfl⟩ | ⟨rfl, rfl⟩ | ⟨rfl, rfl⟩ | ⟨rfl, rfl⟩ | ⟨rfl, rfl⟩
  · obtain ⟨_, _, _, _, he⟩ := h.of_start (hs ▸ by decide)
    exact he.trans (startMicro_t1 hs)
  · obtain ⟨_, _, _, _, he⟩ := h.of_start (hs ▸ by decide)
    exact he.trans (startMicro_t3 hs)
  · obtain ⟨_, _, _, _, he⟩ := h.of_write (hs ▸ by decide)
    exact he.trans (writeMicro_w1 hs)
  · exact (h.of_readAck (hs ▸ by decide)).trans (readAckMicro_a1 hs)
  · rcases h.of_readNack (hs ▸ by decide) with ⟨_, _, _, he⟩ | ⟨_, _, _, _, _, he⟩
    · exact he.trans (readNackMicro_k1 hs)
    · exact he.trans (readNackMicro_k1 hs)

/-- At K0 the read with no acknowledge is issued, whichever helper calls it (R195). -/
theorem CalledPrimitive.exec_k0 (h : CalledPrimitive i line s) (hs : s.host.step = .k0) :
    exec i s = .next ((readIssue .recvNack s).advance .k1) := by
  rcases h.of_readNack (hs ▸ by decide) with ⟨_, _, _, he⟩ | ⟨_, _, _, _, _, he⟩
  · exact he.trans (readNackMicro_k0 hs)
  · exact he.trans (readNackMicro_k0 hs)

/-- At P1 the helper returns its result (R196, R231 to R233). -/
theorem CalledPrimitive.exec_p1 (h : CalledPrimitive i line s) {r : Result}
    (hr : helperResult i line s.host.locals = some r) (hs : s.host.step = .p1) :
    exec i s = .next ((stopSettled s).ret i r) := by
  obtain ⟨r', hr', he⟩ := h.of_stop (hs ▸ by decide)
  obtain rfl : r' s.host.locals = r := Option.some.inj ((hr' _).symm.trans hr)
  exact he.trans (stopMicro_p1 hs)

/-- Each completion hold has a label it lifts to. -/
theorem exists_holdExit {l : Label} (h : l ∈ busHolds) : ∃ next, (l, next) ∈ holdExits := by
  simp only [busHolds, List.mem_cons, List.not_mem_nil, or_false] at h
  rcases h with rfl | rfl | rfl | rfl | rfl <;> simp [holdExits]

theorem mem_busHolds_of_holdExit {l next : Label} (h : (l, next) ∈ holdExits) : l ∈ busHolds :=
  List.mem_map_of_mem (f := Prod.fst) h

end Classified

/-- Settles O32: the label says which primitive is called (`calledPrimitive`), and its micro-step there is the equation
of that primitive at that label, with the return of the line. -/
theorem calledPrimitivesRunInPlace : Obligations.CalledPrimitivesRunInPlace := by
  intro i s line hop hc hl
  have h := calledPrimitive hop hc hl
  refine ⟨?t0, ?held, ?lifted, ?t2, ?t4, ?w0, ?w2, ?a0, h.exec_k0, ?a2, ?readOne, ?readLast, ?p0, ?p1⟩
  case t0 =>
    intro hs
    obtain ⟨_, _, _, _, he⟩ := h.of_start (hs ▸ by decide)
    exact he.trans (startMicro_t0 hs)
  case held =>
    intro hs hd
    obtain ⟨next, hn⟩ := exists_holdExit hs
    rw [h.exec_hold hn rfl, awaitDone_held hs hd]
  case lifted =>
    intro l next hn hs hd
    rw [h.exec_hold hn hs, awaitDone_lifted (hs ▸ mem_busHolds_of_holdExit hn) hd]
    rfl
  case t2 =>
    intro dev x hdev hx hs
    obtain ⟨dev', _, hdev', _, he⟩ := h.of_start (hs ▸ by decide)
    obtain rfl : dev' = dev := Option.some.inj (hdev'.symm.trans hdev)
    rw [he, startMicro_t2 hs, eq_addressByte hx]
    rfl
  case t4 =>
    intro check hcheck hs
    obtain ⟨_, _, _, hunique, he⟩ := h.of_start (hs ▸ by decide)
    rw [he, startMicro_t4 hs, hunique check hcheck]
    rfl
  case w0 =>
    intro x hx hs
    obtain ⟨x', _, hx', _, he⟩ := h.of_write (hs ▸ by decide)
    obtain rfl : x' = x := Option.some.inj (hx'.symm.trans hx)
    exact he.trans (writeMicro_w0 hs)
  case w2 =>
    intro check hcheck hs
    obtain ⟨_, _, _, hunique, he⟩ := h.of_write (hs ▸ by decide)
    rw [he, writeMicro_w2 hs, hunique check hcheck]
    rfl
  case a0 => exact fun hs => (h.of_readAck (hs ▸ by decide)).trans (readAckMicro_a0 hs)
  case a2 => exact fun hs => (h.of_readAck (hs ▸ by decide)).trans (readAckMicro_a2 hs)
  case readOne =>
    intro hline hs
    rcases h.of_readNack (hs ▸ by decide) with ⟨_, _, _, he⟩ | ⟨_, _, _, _, hline', _⟩
    · exact he.trans (readNackMicro_k2 hs)
    · cases hline.symm.trans hline'
  case readLast =>
    intro dev reg count hi hs
    rcases h.of_readNack (hs ▸ by decide) with ⟨_, _, hi', _⟩ | ⟨_, _, _, hi', _, he⟩
    · cases hi.symm.trans hi'
    · cases hi.symm.trans hi'
      exact he.trans (readNackMicro_k2 hs)
  case p0 =>
    intro hs
    obtain ⟨_, _, he⟩ := h.of_stop (hs ▸ by decide)
    exact he.trans (stopMicro_p0 hs)
  case p1 =>
    intro r hr hs
    rw [h.exec_p1 hr hs, State.ret_eq_returned (s := stopSettled s) i r hs]
    rfl

end Called

/-! ## The records that only grow (10_state.md R25, R30 to R33, R42, R43) -/

section Records

/-- `ys` is `xs` with at most one entry appended. -/
def Appends {α : Type} (xs ys : List α) : Prop := ∃ x, ys = xs ++ x ∧ x.length ≤ 1

theorem Appends.refl {α : Type} (xs : List α) : Appends xs xs := ⟨[], by simp⟩

theorem Appends.one {α : Type} (xs : List α) (x : α) : Appends xs (xs ++ [x]) := ⟨[x], rfl, le_rfl⟩

/-- What no step undoes in the Serial Transport: the two enables and `ut_inited`, the line traces, the loss counters
(R30 to R33). -/
structure Serial.Grows (u v : Serial) : Prop where
  gie : u.gie = true → v.gie = true
  rxIe : u.rxIe = true → v.rxIe = true
  inited : u.inited = true → v.inited = true
  lineOut : Appends u.lineOut v.lineOut
  lineIn : Appends u.lineIn v.lineIn
  rxSwDropped : u.rxSwDropped ≤ v.rxSwDropped
  rxHwLost : u.rxHwLost ≤ v.rxHwLost

/-- What no step undoes in the Bus Master Engine: `bm_inited` and the trace (R42, R43). -/
structure BusMaster.Grows (b c : BusMaster) : Prop where
  inited : b.inited = true → c.inited = true
  trace : Appends b.trace c.trace

/-- What no step undoes in the machine: with the two units the parameters and HOST's records (R25; 00_scope.md R5). -/
structure Grows (s t : State) : Prop where
  cfg : t.cfg = s.cfg
  ut : s.ut.Grows t.ut
  bm : s.bm.Grows t.bm
  results : Appends s.host.results t.host.results
  faults : Appends s.host.faults t.host.faults

/-- The Serial Transport where nothing of it but its buffers, link registers, divisor and `tx_ie` changes. -/
theorem Serial.Grows.of_eq {u v : Serial} (hg : v.gie = u.gie) (hr : v.rxIe = u.rxIe) (hi : v.inited = u.inited)
    (ho : v.lineOut = u.lineOut) (hl : v.lineIn = u.lineIn) (hd : v.rxSwDropped = u.rxSwDropped)
    (hw : v.rxHwLost = u.rxHwLost) : u.Grows v where
  gie := (hg ▸ ·)
  rxIe := (hr ▸ ·)
  inited := (hi ▸ ·)
  lineOut := ho ▸ .refl _
  lineIn := hl ▸ .refl _
  rxSwDropped := hd.ge
  rxHwLost := hw.ge

theorem Serial.Grows.refl (u : Serial) : u.Grows u := .of_eq rfl rfl rfl rfl rfl rfl rfl

/-- The bus where neither `bm_inited` nor the trace changes. -/
theorem BusMaster.Grows.of_eq {b c : BusMaster} (hi : c.inited = b.inited) (ht : c.trace = b.trace) : b.Grows c :=
  ⟨(hi ▸ ·), ht ▸ .refl _⟩

theorem BusMaster.Grows.refl (b : BusMaster) : b.Grows b := .of_eq rfl rfl

theorem Grows.refl (s : State) : Grows s s := ⟨rfl, .refl _, .refl _, .refl _, .refl _⟩

/-- A step of another agent on the Serial Transport. -/
theorem Grows.withUt {v : Serial} (h : s.ut.Grows v) : Grows s (s.withUt v) := ⟨rfl, h, .refl _, .refl _, .refl _⟩

/-- A change of HOST's sequencing alone, with at most one result recorded: an update of the label or of the
temporaries, and what a caller does with a return (00_scope.md R9). -/
structure HostOnly (u t : State) : Prop where
  cfg : t.cfg = u.cfg
  ut : t.ut = u.ut
  bm : t.bm = u.bm
  results : Appends u.host.results t.host.results
  faults : t.host.faults = u.host.faults

/-- HOST moves on without a result. -/
theorem HostOnly.of_move (hc : t.cfg = u.cfg) (hu : t.ut = u.ut) (hb : t.bm = u.bm)
    (hr : t.host.results = u.host.results) (hf : t.host.faults = u.host.faults) : HostOnly u t :=
  ⟨hc, hu, hb, hr ▸ .refl _, hf⟩

theorem HostOnly.refl (u : State) : HostOnly u u := .of_move rfl rfl rfl rfl rfl

theorem HostOnly.advance (u : State) (l : Label) : HostOnly u (u.advance l) := .of_move rfl rfl rfl rfl rfl

theorem HostOnly.ret (u : State) (i : Instr) (r : Result) : HostOnly u (u.ret i r) :=
  ⟨rfl, rfl, rfl, .one _ _, rfl⟩

theorem HostOnly.awaitDone (u : State) (l : Label) : HostOnly u (awaitDone l u) := by
  unfold Machine.awaitDone
  split
  · exact .refl u
  · exact .advance u l

theorem HostOnly.statusThen (u : State) (l : Label) (st : Byte) : HostOnly u (statusThen l st u) :=
  .of_move rfl rfl rfl rfl rfl

theorem HostOnly.checkStatus (u : State) (e : Byte) (line next first : Label) :
    HostOnly u (checkStatus e line next first u) := by
  unfold Machine.checkStatus
  split <;> exact .of_move rfl rfl rfl rfl rfl

/-- A HOST transition: what it does to the two units, then what it does to HOST. -/
theorem Grows.of_host (hc : u.cfg = s.cfg) (hu : s.ut.Grows u.ut) (hb : s.bm.Grows u.bm) (hh : u.host = s.host)
    (h : HostOnly u t) : Grows s t where
  cfg := h.cfg.trans hc
  ut := h.ut ▸ hu
  bm := h.bm ▸ hb
  results := hh ▸ h.results
  faults := by rw [h.faults, hh]; exact .refl _

/-- A HOST transition that changes neither unit. -/
theorem HostOnly.grows (h : HostOnly s t) : Grows s t := .of_host rfl (.refl _) (.refl _) rfl h

/-- A HOST transition that changes the Serial Transport. -/
theorem HostOnly.grows_ut {v : Serial} (h : HostOnly (s.withUt v) t) (hv : s.ut.Grows v) : Grows s t :=
  .of_host (u := s.withUt v) rfl hv (.refl _) rfl h

/-- A HOST transition that changes the bus. -/
theorem HostOnly.grows_bm {b : BusMaster} (h : HostOnly (s.withBm b) t) (hb : s.bm.Grows b) : Grows s t :=
  .of_host (u := s.withBm b) rfl (.refl _) hb rfl h

/-! The operations, called or not: each keeps the records when what its caller does with the return does. -/

section Operations

variable {ret : Byte → State → State} {next : State → State}

theorem sendByteMicro_grows {b : Byte} (hn : ∀ v, HostOnly v (next v)) (h : sendByteMicro b next s = .next t) :
    Grows s t := by
  rcases sendByteMicro_next h with ⟨_, _, rfl⟩ | ⟨_, _, rfl⟩ | ⟨_, tx, _, rfl⟩ | ⟨_, rfl⟩ | ⟨_, rfl⟩
  · exact .refl _
  · exact (HostOnly.advance _ _).grows
  · exact (HostOnly.advance _ _).grows_ut (.of_eq rfl rfl rfl rfl rfl rfl rfl)
  · exact (HostOnly.advance _ _).grows_ut (.of_eq rfl rfl rfl rfl rfl rfl rfl)
  · exact (hn _).grows_ut (.of_eq rfl rfl rfl rfl rfl rfl rfl)

theorem recvByteMicro_grows (hr : ∀ b v, HostOnly v (ret b v)) (h : recvByteMicro ret s = .next t) : Grows s t := by
  rcases recvByteMicro_next h with ⟨_, _, rfl⟩ | ⟨_, _, rfl⟩ | ⟨_, v, _, rfl⟩ | ⟨_, rfl⟩
  · exact .refl _
  · exact (HostOnly.advance _ _).grows
  · exact HostOnly.grows (.of_move rfl rfl rfl rfl rfl)
  · exact (hr _ _).grows_ut (.of_eq rfl rfl rfl rfl rfl rfl rfl)

theorem startMicro_grows {a : DevAddr} {dir : Direction} (hr : ∀ b v, HostOnly v (ret b v))
    (h : startMicro a dir ret s = .next t) : Grows s t := by
  rcases startMicro_next h with ⟨_, rfl⟩ | ⟨_, rfl⟩ | ⟨_, rfl⟩ | ⟨_, rfl⟩ | ⟨_, rfl⟩
  · exact (HostOnly.advance _ _).grows_bm (.of_eq rfl rfl)
  · exact (HostOnly.awaitDone _ _).grows
  · exact (HostOnly.advance _ _).grows_bm (.of_eq rfl rfl)
  · exact (HostOnly.awaitDone _ _).grows
  · exact (hr _ _).grows_bm (.of_eq rfl rfl)

theorem writeMicro_grows {b : Byte} (hr : ∀ b v, HostOnly v (ret b v)) (h : writeMicro b ret s = .next t) :
    Grows s t := by
  rcases writeMicro_next h with ⟨_, rfl⟩ | ⟨_, rfl⟩ | ⟨_, rfl⟩
  · exact (HostOnly.advance _ _).grows_bm (.of_eq rfl rfl)
  · exact (HostOnly.awaitDone _ _).grows
  · exact (hr _ _).grows

theorem readAckMicro_grows (hr : ∀ b v, HostOnly v (ret b v)) (h : readAckMicro ret s = .next t) : Grows s t := by
  rcases readAckMicro_next h with ⟨_, rfl⟩ | ⟨_, rfl⟩ | ⟨_, rfl⟩
  · exact (HostOnly.advance _ _).grows_bm (.of_eq rfl rfl)
  · exact (HostOnly.awaitDone _ _).grows
  · exact (hr _ _).grows

theorem readNackMicro_grows (hr : ∀ b v, HostOnly v (ret b v)) (h : readNackMicro ret s = .next t) :
    Grows s t := by
  rcases readNackMicro_next h with ⟨_, rfl⟩ | ⟨_, rfl⟩ | ⟨_, rfl⟩
  · exact (HostOnly.advance _ _).grows_bm (.of_eq rfl rfl)
  · exact (HostOnly.awaitDone _ _).grows
  · exact (hr _ _).grows

theorem stopMicro_grows (hn : ∀ v, HostOnly v (next v)) (h : stopMicro next s = .next t) : Grows s t := by
  rcases stopMicro_next h with ⟨_, rfl⟩ | ⟨_, rfl⟩
  · exact .of_host (u := stopCondition s) rfl (.refl _) ⟨id, .one _ _⟩ rfl (.advance _ _)
  · exact (hn _).grows_bm (.of_eq rfl rfl)

end Operations

/-! The commands. -/

theorem utInitMicro_grows {r : Nat} (h : utInitMicro r s = .next t) : Grows s t := by
  rcases utInitMicro_next h with ⟨_, rfl⟩ | ⟨_, rfl⟩ | ⟨_, rfl⟩ | ⟨_, rfl⟩
  · exact (HostOnly.advance _ _).grows_ut (.of_eq rfl rfl rfl rfl rfl rfl rfl)
  · exact (HostOnly.advance _ _).grows_ut ⟨id, fun _ => rfl, id, .refl _, .refl _, le_rfl, le_rfl⟩
  · exact (HostOnly.advance _ _).grows_ut ⟨fun _ => rfl, id, id, .refl _, .refl _, le_rfl, le_rfl⟩
  · exact (HostOnly.ret _ _ _).grows_ut ⟨id, id, fun _ => rfl, .refl _, .refl _, le_rfl, le_rfl⟩

theorem bmInitMicro_grows {r : Nat} (h : bmInitMicro r s = .next t) : Grows s t := by
  rcases bmInitMicro_next h with ⟨_, rfl⟩ | ⟨_, rfl⟩
  · exact (HostOnly.advance _ _).grows_bm (.of_eq rfl rfl)
  · exact (HostOnly.ret _ _ _).grows_bm ⟨fun _ => rfl, .refl _⟩

theorem HostOnly.lineEraseNext (u : State) : HostOnly u (lineEraseNext u) := by
  unfold Machine.lineEraseNext
  split <;> exact .of_move rfl rfl rfl rfl rfl

/-- A change of the temporaries before a move of HOST. -/
theorem HostOnly.after_locals {l : Locals} (h : HostOnly (s.withLocals l) t) : HostOnly s t :=
  ⟨h.cfg, h.ut, h.bm, h.results, h.faults⟩

theorem recvLineMicro_grows {m : Nat} (h : recvLineMicro m s = .next t) : Grows s t := by
  unfold recvLineMicro at h
  split at h
  · refine recvByteMicro_grows (fun _ _ => ?_) h
    exact .of_move rfl rfl rfl rfl rfl
  · split at h
    · exact sendByteMicro_grows (fun v => (HostOnly.lineEraseNext _).after_locals) h
    · cases h
  · refine sendByteMicro_grows (fun _ => ?_) h
    exact .of_move rfl rfl rfl rfl rfl
  · cases h
  · apply HostOnly.grows
    split at h <;> cases h
    · exact .of_move rfl rfl rfl rfl rfl
    · unfold lineTest
      split <;> exact .of_move rfl rfl rfl rfl rfl
    · unfold lineTerminator
      split <;> exact .of_move rfl rfl rfl rfl rfl
    · unfold lineEdit
      split
      · split
        · exact (HostOnly.lineEraseNext _).after_locals
        · exact .of_move rfl rfl rfl rfl rfl
      · exact .of_move rfl rfl rfl rfl rfl
    · unfold lineStore
      dsimp only
      split <;> exact .of_move rfl rfl rfl rfl rfl
    · exact .ret _ _ _

theorem writeRegMicro_grows {d : DevAddr} {r v : Byte} (h : writeRegMicro d r v s = .next t) : Grows s t := by
  unfold writeRegMicro at h
  split at h
  · exact startMicro_grows (fun _ _ => .statusThen _ _ _) h
  · exact writeMicro_grows (fun _ _ => .statusThen _ _ _) h
  · exact writeMicro_grows (fun _ _ => .statusThen _ _ _) h
  iterate 4 exact stopMicro_grows (fun _ => .ret _ _ _) h
  · cases h
  · split at h <;> cases h <;> exact (HostOnly.checkStatus _ _ _ _ _).grows

theorem readRegMicro_grows {d : DevAddr} {r : Byte} (h : readRegMicro d r s = .next t) : Grows s t := by
  unfold readRegMicro at h
  split at h
  · exact startMicro_grows (fun _ _ => .statusThen _ _ _) h
  · exact writeMicro_grows (fun _ _ => .statusThen _ _ _) h
  · exact startMicro_grows (fun _ _ => .statusThen _ _ _) h
  · refine readNackMicro_grows (fun _ _ => ?_) h
    exact .of_move rfl rfl rfl rfl rfl
  iterate 4 exact stopMicro_grows (fun _ => .ret _ _ _) h
  · cases h
  · split at h <;> cases h <;> exact (HostOnly.checkStatus _ _ _ _ _).grows

theorem readRegsMicro_grows {d : DevAddr} {r : Byte} {n : Nat} (h : readRegsMicro d r n s = .next t) :
    Grows s t := by
  unfold readRegsMicro at h
  split at h
  · exact startMicro_grows (fun _ _ => .statusThen _ _ _) h
  · exact writeMicro_grows (fun _ _ => .statusThen _ _ _) h
  · exact startMicro_grows (fun _ _ => .statusThen _ _ _) h
  · refine readAckMicro_grows (fun _ _ => ?_) h
    exact .of_move rfl rfl rfl rfl rfl
  · refine readNackMicro_grows (fun _ _ => ?_) h
    exact .of_move rfl rfl rfl rfl rfl
  iterate 4 exact stopMicro_grows (fun _ => .ret _ _ _) h
  · cases h
  · apply HostOnly.grows
    split at h <;> cases h
    · exact .checkStatus _ _ _ _ _
    · exact .checkStatus _ _ _ _ _
    · unfold readRegsAddressed
      split <;> exact .of_move rfl rfl rfl rfl rfl
    · exact .of_move rfl rfl rfl rfl rfl
    · unfold readRegsTest
      split <;> exact .of_move rfl rfl rfl rfl rfl

/-- A refusal appends its record and changes nothing else (60_exceptions.md R272, R273). -/
theorem Grows.raise (s : State) (f : FaultRecord) : Grows s (s.raise f) :=
  ⟨rfl, .refl _, .refl _, .refl _, .one _ _⟩

theorem runCommand_grows {i : Instr} {check : State → Option Reason} {line : Option Label} {first : Label}
    {micro : State → Outcome} (hm : micro s = .next t → Grows s t)
    (h : runCommand i check line first micro s = .next t) : Grows s t := by
  rcases runCommand_next h with ⟨_, _, _, rfl⟩ | ⟨_, _, rfl⟩ | ⟨_, h⟩ | ⟨_, _, _, rfl⟩
  · exact .raise _ _
  · exact HostOnly.grows (.of_move rfl rfl rfl rfl rfl)
  · exact hm h
  · exact .refl _

/-- One HOST transition of any command undoes nothing. -/
theorem exec_grows {i : Instr} (h : exec i s = .next t) : Grows s t := by
  cases i <;> refine runCommand_grows (fun hm => ?_) h
  case utInit r => exact utInitMicro_grows hm
  case utSendByte b => exact sendByteMicro_grows (fun _ => .ret _ _ _) hm
  case utRecvByte => exact recvByteMicro_grows (fun _ _ => .ret _ _ _) hm
  case utRecvLine n => exact recvLineMicro_grows hm
  case bmInit r => exact bmInitMicro_grows hm
  case bmStart a d => exact startMicro_grows (fun _ _ => .ret _ _ _) hm
  case bmWrite b => exact writeMicro_grows (fun _ _ => .ret _ _ _) hm
  case bmReadAck => exact readAckMicro_grows (fun _ _ => .ret _ _ _) hm
  case bmReadNack => exact readNackMicro_grows (fun _ _ => .ret _ _ _) hm
  case bmStop => exact stopMicro_grows (fun _ => .ret _ _ _) hm
  case bmWriteReg d r v => exact writeRegMicro_grows hm
  case bmReadReg d r => exact readRegMicro_grows hm
  case bmReadRegs d r n => exact readRegsMicro_grows hm

/-! The steps of the other agents (00_scope.md R7). -/

theorem rxiBody_grows (h : rxiBody s = .next t) : Grows s t := by
  rcases rxiBody_next h with ⟨_, rfl⟩ | ⟨_, rx, _, rfl⟩
  · exact .withUt ⟨id, id, id, .refl _, .refl _, Nat.le_succ _, le_rfl⟩
  · exact .withUt (.of_eq rfl rfl rfl rfl rfl rfl rfl)

theorem txiBody_grows (h : txiBody s = .next t) : Grows s t := by
  rcases txiBody_next h with ⟨_, rfl⟩ | ⟨_, d, _, rfl⟩
  · exact .withUt (.of_eq rfl rfl rfl rfl rfl rfl rfl)
  · exact .withUt (.of_eq rfl rfl rfl rfl rfl rfl rfl)

theorem lineArrive_grows (v : Byte) (keepNew : Bool) (s : State) : Grows s (lineArrive v keepNew s) := by
  unfold lineArrive
  dsimp only
  split
  · exact .withUt ⟨id, id, id, .refl _, .one _ _, le_rfl, Nat.le_succ _⟩
  · exact .withUt ⟨id, id, id, .refl _, .one _ _, le_rfl, le_rfl⟩

theorem lineShiftOut_grows (s : State) : Grows s (lineShiftOut s) :=
  .withUt ⟨id, id, id, .one _ _, .refl _, le_rfl, le_rfl⟩

theorem busComplete_grows (st v : Byte) (s : State) : Grows s (busComplete st v s) := by
  unfold busComplete
  split
  · exact .refl s
  · split <;> exact ⟨rfl, .refl _, ⟨id, .one _ _⟩, .refl _, .refl _⟩

/-- The step of any agent undoes nothing. -/
theorem perform_grows {c : Choice} (h : perform c s = .next t) : Grows s t := by
  rcases perform_next h with ⟨_, rfl⟩ | ⟨_, ⟨w, _, h⟩ | ⟨_, h⟩ | ⟨_, h⟩ | ⟨_, h⟩ | ⟨v, k, _, rfl⟩ |
    ⟨_, rfl⟩ | ⟨st, v, _, rfl⟩⟩
  · exact .refl _
  · rcases issueWord_next h with ⟨_, rfl⟩ | ⟨_, i, _, h⟩ | ⟨_, _, rfl⟩
    · exact .refl _
    · exact exec_grows h
    · exact .raise _ _
  · rcases hostMicroStep_next h with ⟨_, rfl⟩ | ⟨i, _, h⟩
    · exact .refl _
    · exact exec_grows h
  · exact rxiBody_grows h
  · exact txiBody_grows h
  · exact lineArrive_grows v k s
  · exact lineShiftOut_grows s
  · exact busComplete_grows st v s

/-- A step undoes nothing: using up its choice touches no record. -/
theorem step_grows (h : step s = .next t) : Grows s t := by
  obtain ⟨c, ins, n, he⟩ := step_eq_perform s
  obtain ⟨hcfg, hut, hbm, hresults, hfaults⟩ := perform_grows (he.symm.trans h)
  exact ⟨hcfg, hut, hbm, hresults, hfaults⟩

/-- Settles O47: `step_grows`, field by field. -/
theorem parametersFixedAndRecordsOnlyGrow : Obligations.ParametersFixedAndRecordsOnlyGrow := by
  intro s t h
  obtain ⟨hcfg, hut, hbm, hresults, hfaults⟩ := step_grows h
  exact ⟨hcfg, hut.gie, hut.rxIe, hut.inited, hbm.inited, hresults, hfaults, hut.lineOut, hut.lineIn, hbm.trace,
    hut.rxSwDropped, hut.rxHwLost⟩

end Records

end Sys2Proof.Machine
end

section
/-! SUPPORT. The circular buffers as FIFOs, and what every step keeps of them (spec/10_state.md R21 to R23, R50). -/

namespace Sys2Proof.Machine

variable {s t : State}

/-! ## The circular buffer as a FIFO (10_state.md R23, 20_memory.md R63 to R65) -/

namespace CircBuf

variable {N : Nat} {r r' : CircBuf}

/-- A slot write moves neither index (20_memory.md R63). -/
theorem store_indices {sp : Space} {v : Byte} (h : r.store sp N v = .ok r') : r'.head = r.head ∧ r'.tail = r.tail := by
  unfold store at h
  split at h <;> cases h
  exact ⟨rfl, rfl⟩

/-- A whole enqueue into a sound buffer with room: the slot write succeeds and shows nothing; the publication keeps
the buffer sound and adds the byte at the end (20_memory.md R63, R65). -/
theorem enqueue_spec (h2 : 2 ≤ N) (h256 : N ≤ 256) (hs : r.Sound N) (hf : r.full N = false) (sp : Space) (v : Byte) :
    ∃ r', r.store sp N v = .ok r' ∧ r'.liveSlots N = r.liveSlots N ∧ (r'.publish N).Sound N ∧
      (r'.publish N).liveSlots N = r.liveSlots N ++ [some v] := by
  obtain ⟨r', hr, he, hs', hv, hl, _⟩ := store_spec hs sp v
  have hhead : r'.head = r.head := by rw [he]
  have hfull : r'.full N = false := by rw [he]; exact hf
  have hv' : r'.buf.read? r'.head.toNat = some v := by rw [hhead]; exact hv
  obtain ⟨hp, hpl⟩ := publish_spec h2 h256 hs' hfull (by simp [hv'])
  exact ⟨r', hr, hl, hp, by rw [hpl, hl, hv']⟩

/-- A whole enqueue leaves the slot of the oldest live byte as it was (20_memory.md R72). -/
theorem enqueue_keeps_oldest (h2 : 2 ≤ N) (h256 : N ≤ 256) (hs : r.Sound N) (hf : r.full N = false) {sp : Space}
    {v : Byte} (h : r.store sp N v = .ok r') (he : r.empty = false) :
    (r'.publish N).empty = false ∧
      (r'.publish N).buf.read? (r'.publish N).tail.toNat = r.buf.read? r.tail.toNat := by
  obtain ⟨r'', hr, e, hs', hv, _, hother⟩ := store_spec hs sp v
  obtain rfl : r'' = r' := Except.ok.inj (hr.symm.trans h)
  have htail : r.tail.toNat ≠ r.head.toNat := fun h => by
    simp [empty, (BitVec.eq_of_toNat_eq h).symm] at he
  refine ⟨publish_not_empty h2 h256 hs' (by rw [e]; exact hf) ?_, ?_⟩
  · rw [(store_indices h).1]; simp [hv]
  · change r''.buf.read? r''.tail.toNat = _
    rw [(store_indices h).2, hother _ htail]

/-- At most N - 1 live bytes (10_state.md R23). -/
theorem liveSlots_length_le (hs : r.Sound N) : (r.liveSlots N).length ≤ N - 1 := by
  have := liveCount_lt hs.head_lt hs.tail_lt
  rw [liveSlots_length]; omega

/-- A whole dequeue from a sound buffer that is not empty takes the oldest live byte (20_memory.md R64, R65). -/
theorem dequeue_spec (h2 : 2 ≤ N) (h256 : N ≤ 256) (hs : r.Sound N) (he : r.empty = false) (sp : Space) :
    ∃ d, r.fetch sp N = .ok d ∧ (r.release N).Sound N ∧ r.liveSlots N = some d :: (r.release N).liveSlots N := by
  obtain ⟨d, hd, hread⟩ := fetch_spec hs he sp
  obtain ⟨hs', hl⟩ := release_spec h2 h256 hs he
  exact ⟨d, hd, hs', hread ▸ hl⟩

end CircBuf

/-- Settles O57: `enqueue_spec` and `dequeue_spec`, with the live count deciding empty and full. -/
theorem circularBufferIsAFifo : Obligations.CircularBufferIsAFifo := by
  intro N r sp v h2 h256 hs
  refine ⟨CircBuf.liveSlots_length_le hs, ?full, ?empty, fun hf => CircBuf.enqueue_spec h2 h256 hs hf sp v,
    fun he => CircBuf.dequeue_spec h2 h256 hs he sp⟩
  case full => rw [CircBuf.liveSlots_length]; exact CircBuf.full_iff h2 h256 hs
  case empty => rw [← List.length_eq_zero_iff, CircBuf.liveSlots_length]; exact CircBuf.empty_iff hs

/-! ## The buffer invariant (10_state.md R21 to R23, R50) -/

/-- HOST at no label between whose micro-steps it relies on a buffer: only the buffers' soundness is asked. -/
theorem SerialInv.of_not_busy (hcfg : t.cfg.legal) (htx : t.ut.tx.Sound t.cfg.N) (hrx : t.ut.rx.Sound t.cfg.N)
    (hpos : t.host.op = none ∨ t.host.step ∉ busyLabels) : SerialInv t := by
  have away : t.host.op.isSome → ∀ l ∈ busyLabels, t.host.step ≠ l := by
    rintro hop l hl rfl
    rcases hpos with h | h
    · simp [h] at hop
    · exact h hl
  exact {
    cfg := hcfg
    tx := htx
    rx := hrx
    room := fun hop hl => by rcases hl with hl | hl <;> exact absurd hl (away hop _ (by decide))
    stored := fun hop hl => absurd hl (away hop _ (by decide))
    byte := fun hop hl => by rcases hl with hl | hl <;> exact absurd hl (away hop _ (by decide))
    fetched := fun hop hl => absurd hl (away hop _ (by decide)) }

/-- A step that leaves HOST where it is: what HOST knows of the two buffers still holds when the TX buffer's slots and
head stay, no place of it is lost, and the RX buffer's oldest byte stays (20_memory.md R72). -/
theorem SerialInv.of_host_unmoved (hI : SerialInv s) (hcfg : t.cfg = s.cfg) (hhost : t.host = s.host)
    (htx : t.ut.tx.Sound s.cfg.N) (hrx : t.ut.rx.Sound s.cfg.N)
    (hroom : s.ut.tx.full s.cfg.N = false → t.ut.tx.full s.cfg.N = false)
    (hhead : t.ut.tx.buf.read? t.ut.tx.head.toNat = s.ut.tx.buf.read? s.ut.tx.head.toNat)
    (holdest : s.ut.rx.empty = false → t.ut.rx.empty = false ∧
      t.ut.rx.buf.read? t.ut.rx.tail.toNat = s.ut.rx.buf.read? s.ut.rx.tail.toNat) : SerialInv t := by
  have hsend : sendingByte t = sendingByte s := by simp only [sendingByte, hhost]
  exact {
    cfg := hcfg ▸ hI.cfg
    tx := hcfg ▸ htx
    rx := hcfg ▸ hrx
    room := fun hop hl => by rw [hhost] at hop hl; rw [hcfg]; exact hroom (hI.room hop hl)
    stored := fun hop hl => by rw [hhost] at hop hl; rw [hsend, hhead]; exact hI.stored hop hl
    byte := fun hop hl => by rw [hhost] at hop hl; exact (holdest (hI.byte hop hl)).1
    fetched := fun hop hl => by
      rw [hhost] at hop hl ⊢
      rw [(holdest (hI.byte hop (.inr hl))).2]
      exact hI.fetched hop hl }

/-- A step that changes neither buffer and leaves HOST where it is. -/
theorem SerialInv.of_same_buffers (hI : SerialInv s) (hcfg : t.cfg = s.cfg) (hhost : t.host = s.host)
    (htx : t.ut.tx = s.ut.tx) (hrx : t.ut.rx = s.ut.rx) : SerialInv t :=
  hI.of_host_unmoved hcfg hhost (htx ▸ hI.tx) (hrx ▸ hI.rx) (htx ▸ id) (by rw [htx]) fun he => by
    rw [hrx]; exact ⟨he, rfl⟩

/-- A HOST transition keeps the buffer invariant: what HOST relies on at S1, S2, V1 and V2 is what the micro-step
before found or did. -/
theorem SerialMove.keeps_serialInv (hI : SerialInv s) (h : SerialMove s t) : SerialInv t := by
  obtain ⟨hN, hN2⟩ := Config.legal_N hI.cfg
  cases h with
  | same hs =>
    have htx : t.ut.tx = s.ut.tx := by rw [hs.ut]
    have hrx : t.ut.rx = s.ut.rx := by rw [hs.ut]
    exact .of_not_busy (hs.cfg ▸ hI.cfg) (htx ▸ hs.cfg ▸ hI.tx) (hrx ▸ hs.cfg ▸ hI.rx) hs.pos
  | refl e => exact e ▸ hI
  | room _ _ hf e =>
    subst e
    exact { cfg := hI.cfg, tx := hI.tx, rx := hI.rx, room := fun _ _ => hf, stored := by simp, byte := by simp,
            fetched := by simp }
  | store hop hl b hb tx hs e =>
    obtain ⟨r', hr, heq, hsound, hv, _⟩ := CircBuf.store_spec hI.tx .txbuf b
    obtain rfl : tx = r' := Except.ok.inj (hs.symm.trans hr)
    have hfull : tx.full s.cfg.N = false := by rw [heq]; exact hI.room hop (.inl hl)
    have hsome : (sendingByte s).isSome := by simp [hb]
    have hstored : tx.buf.read? tx.head.toNat = sendingByte s := by
      rw [(CircBuf.store_indices hs).1, hv, hb]
    subst e
    exact { cfg := hI.cfg, tx := hsound, rx := hI.rx, room := fun _ _ => hfull,
            stored := fun _ _ => ⟨hsome, hstored⟩, byte := by simp,
            fetched := by simp }
  | publish hop hl e =>
    obtain ⟨hsome, hread⟩ := hI.stored hop hl
    have hsound := (CircBuf.publish_spec hN hN2 hI.tx (hI.room hop (.inr hl)) (hread ▸ hsome)).1
    subst e
    exact .of_not_busy hI.cfg hsound hI.rx (.inr (by simp [busyLabels]))
  | byte _ _ hf e =>
    subst e
    exact { cfg := hI.cfg, tx := hI.tx, rx := hI.rx, room := by simp, stored := by simp, byte := fun _ _ => hf,
            fetched := by simp }
  | fetch hop hl v hs e =>
    have hbyte := hI.byte hop (.inl hl)
    obtain ⟨d, hd, hread⟩ := CircBuf.fetch_spec hI.rx hbyte .rxbuf
    obtain rfl : v = d := Except.ok.inj (hs.symm.trans hd)
    subst e
    exact { cfg := hI.cfg, tx := hI.tx, rx := hI.rx, room := by simp, stored := by simp,
            byte := fun _ _ => hbyte, fetched := fun _ _ => hread }
  | release hop hl hcfg hut hpos =>
    have hsound := (CircBuf.release_spec hN hN2 hI.rx (hI.byte hop (.inr hl))).1
    have htx : t.ut.tx = s.ut.tx := by rw [hut]
    have hrx : t.ut.rx = s.ut.rx.release s.cfg.N := by rw [hut]
    exact .of_not_busy (hcfg ▸ hI.cfg) (htx ▸ hcfg ▸ hI.tx) (hrx ▸ hcfg ▸ hsound) hpos

/-- RXI adds a byte behind the oldest one, or none. -/
theorem rxiBody_keeps_serialInv (hI : SerialInv s) (h : rxiBody s = .next t) : SerialInv t := by
  obtain ⟨hN, hN2⟩ := Config.legal_N hI.cfg
  rcases rxiBody_next h with ⟨_, rfl⟩ | ⟨hf, rx, hs, rfl⟩
  · exact hI.of_same_buffers rfl rfl rfl rfl
  · obtain ⟨r', hr, _, hsound, _⟩ := CircBuf.enqueue_spec hN hN2 hI.rx hf .rxbuf s.ut.rxData
    obtain rfl : rx = r' := Except.ok.inj (hs.symm.trans hr)
    exact hI.of_host_unmoved rfl rfl hI.tx hsound id rfl (CircBuf.enqueue_keeps_oldest hN hN2 hI.rx hf hs)

/-- TXI frees a place of the TX buffer, or changes neither buffer. -/
theorem txiBody_keeps_serialInv (hI : SerialInv s) (h : txiBody s = .next t) : SerialInv t := by
  obtain ⟨hN, hN2⟩ := Config.legal_N hI.cfg
  rcases txiBody_next h with ⟨_, rfl⟩ | ⟨he, d, _, rfl⟩
  · exact hI.of_same_buffers rfl rfl rfl rfl
  · exact hI.of_host_unmoved rfl rfl (CircBuf.release_spec hN hN2 hI.tx he).1 hI.rx
      (fun _ => CircBuf.release_not_full hN hN2 hI.tx he) rfl fun he => ⟨he, rfl⟩

theorem lineArrive_keeps_serialInv (hI : SerialInv s) (v : Byte) (k : Bool) : SerialInv (lineArrive v k s) := by
  unfold lineArrive
  dsimp only
  split <;> exact hI.of_same_buffers rfl rfl rfl rfl

theorem busComplete_keeps_serialInv (hI : SerialInv s) (st v : Byte) : SerialInv (busComplete st v s) := by
  unfold busComplete
  split
  · exact hI
  · split <;> exact hI.of_same_buffers rfl rfl rfl rfl

theorem raise_keeps_serialInv (hI : SerialInv s) (hop : s.host.op = none) (f : FaultRecord) : SerialInv (s.raise f) :=
  .of_not_busy hI.cfg hI.tx hI.rx (.inl hop)

/-- The step of any agent keeps the buffer invariant. -/
theorem perform_keeps_serialInv {c : Choice} (hI : SerialInv s) (h : perform c s = .next t) : SerialInv t := by
  rcases perform_next h with ⟨_, rfl⟩ | ⟨_, ⟨w, _, h⟩ | ⟨_, h⟩ | ⟨_, h⟩ | ⟨_, h⟩ | ⟨v, k, _, rfl⟩ |
    ⟨_, rfl⟩ | ⟨st, v, _, rfl⟩⟩
  · exact hI
  · rcases issueWord_next h with ⟨_, rfl⟩ | ⟨hop, i, _, h⟩ | ⟨hop, _, rfl⟩
    · exact hI
    · exact (exec_move i (.inl hop) h).keeps_serialInv hI
    · exact raise_keeps_serialInv hI hop _
  · rcases hostMicroStep_next h with ⟨_, rfl⟩ | ⟨i, hop, h⟩
    · exact hI
    · exact (exec_move i (.inr hop) h).keeps_serialInv hI
  · exact rxiBody_keeps_serialInv hI h
  · exact txiBody_keeps_serialInv hI h
  · exact lineArrive_keeps_serialInv hI v k
  · exact hI.of_same_buffers rfl rfl rfl rfl
  · exact busComplete_keeps_serialInv hI st v

/-- Settles O42: a step is the step of one agent, and which choices are still to come is no part of the invariant. -/
theorem stepKeepsTheBufferInvariant : Obligations.StepKeepsTheBufferInvariant := by
  intro s t hI h
  obtain ⟨c, ins, n, he⟩ := step_eq_perform s
  have hI' : SerialInv { s with inputs := ins, draws := n } := hI.of_same_buffers rfl rfl rfl rfl
  exact perform_keeps_serialInv hI' (he.symm.trans h)

end Sys2Proof.Machine
end

section
/-! SUPPORT. Where HOST is in the command in flight and which agent writes which element of the Serial Transport
(spec/10_state.md R24, R26). -/

namespace Sys2Proof.Machine

variable {s t : State}

/-! ## HOST's position in the command in flight (10_state.md R24) -/

section Position

variable {i : Instr} {l : Label}

/-- HOST is idle, or at a label of command `i`, in flight (10_state.md R24). -/
def AtLabelOf (i : Instr) (t : State) : Prop :=
  t.host.op = none ∨ (t.host.op = some i ∧ t.host.step ∈ labelsOf i t.host.caller)

/-- What a caller does with a return leads to a label of the caller's command (00_scope.md R9 `call`). -/
def ReturnsInto (i : Instr) (ret : State → State) : Prop := ∀ u, u.host.op = some i → AtLabelOf i (ret u)

theorem returnsInto_ret (j : Instr) (r : State → Result) : ReturnsInto i fun u => u.ret j (r u) :=
  fun _ _ => .inl rfl

theorem returnsInto_statusThen (hl : l ∈ labelsOf i none) (v : Byte) : ReturnsInto i (statusThen l v) :=
  fun _ hop => .inr ⟨hop, hl⟩

/-- HOST goes on inside the operation called in the same line. -/
theorem AtLabelOf.of_label {ls : List Label} (hop : t.host.op = some i) (hls : labelsOf i t.host.caller = ls)
    (hstep : t.host.step = l) (hl : l ∈ ls) : AtLabelOf i t :=
  .inr ⟨hop, by rw [hls, hstep]; exact hl⟩

theorem AtLabelOf.awaitDone {ls : List Label} {m : Label} (hop : s.host.op = some i)
    (hls : labelsOf i s.host.caller = ls) (hstep : s.host.step = m) (hm : m ∈ ls) (hl : l ∈ ls) :
    AtLabelOf i (awaitDone l s) := by
  unfold Machine.awaitDone
  split
  · exact .of_label hop hls hstep hm
  · exact .of_label hop hls (l := l) rfl hl

theorem AtLabelOf.checkStatus {e : Byte} {line next first : Label} (hop : s.host.op = some i)
    (hnext : first ∈ labelsOf i (some next)) (habort : labelsOf i (some line) = stopLabels) :
    AtLabelOf i (checkStatus e line next first s) := by
  unfold Machine.checkStatus
  split
  · exact .inr ⟨hop, hnext⟩
  · exact .of_label (l := .p0) hop habort rfl (by decide)

/-! Each operation, called or not, goes through its own labels and then into its caller. -/

theorem sendByteMicro_atLabel {b : Byte} {ret : State → State} (hop : s.host.op = some i)
    (hls : labelsOf i s.host.caller = sendLabels) (hret : ReturnsInto i ret) (h : sendByteMicro b ret s = .next t) :
    AtLabelOf i t := by
  rcases sendByteMicro_next h with ⟨hl, _, rfl⟩ | ⟨_, _, rfl⟩ | ⟨_, _, _, rfl⟩ | ⟨_, rfl⟩ | ⟨_, rfl⟩
  · exact .of_label hop hls hl (by decide)
  · exact .of_label (l := .s1) hop hls rfl (by decide)
  · exact .of_label (l := .s2) hop hls rfl (by decide)
  · exact .of_label (l := .s3) hop hls rfl (by decide)
  · exact hret _ hop

theorem recvByteMicro_atLabel {ret : Byte → State → State} (hop : s.host.op = some i)
    (hls : labelsOf i s.host.caller = recvLabels) (hret : ∀ v, ReturnsInto i (ret v))
    (h : recvByteMicro ret s = .next t) : AtLabelOf i t := by
  rcases recvByteMicro_next h with ⟨hl, _, rfl⟩ | ⟨_, _, rfl⟩ | ⟨_, _, _, rfl⟩ | ⟨_, rfl⟩
  · exact .of_label hop hls hl (by decide)
  · exact .of_label (l := .v1) hop hls rfl (by decide)
  · exact .of_label (l := .v2) hop hls rfl (by decide)
  · exact hret _ _ hop

theorem startMicro_atLabel {a : DevAddr} {d : Direction} {ret : Byte → State → State} (hop : s.host.op = some i)
    (hls : labelsOf i s.host.caller = startLabels) (hret : ∀ v, ReturnsInto i (ret v))
    (h : startMicro a d ret s = .next t) : AtLabelOf i t := by
  rcases startMicro_next h with ⟨_, rfl⟩ | ⟨hl, rfl⟩ | ⟨_, rfl⟩ | ⟨hl, rfl⟩ | ⟨_, rfl⟩
  · exact .of_label (l := .t1) hop hls rfl (by decide)
  · exact .awaitDone hop hls hl (by decide) (by decide)
  · exact .of_label (l := .t3) hop hls rfl (by decide)
  · exact .awaitDone hop hls hl (by decide) (by decide)
  · exact hret _ _ hop

theorem writeMicro_atLabel {b : Byte} {ret : Byte → State → State} (hop : s.host.op = some i)
    (hls : labelsOf i s.host.caller = writeLabels) (hret : ∀ v, ReturnsInto i (ret v))
    (h : writeMicro b ret s = .next t) : AtLabelOf i t := by
  rcases writeMicro_next h with ⟨_, rfl⟩ | ⟨hl, rfl⟩ | ⟨_, rfl⟩
  · exact .of_label (l := .w1) hop hls rfl (by decide)
  · exact .awaitDone hop hls hl (by decide) (by decide)
  · exact hret _ _ hop

theorem readAckMicro_atLabel {ret : Byte → State → State} (hop : s.host.op = some i)
    (hls : labelsOf i s.host.caller = ackLabels) (hret : ∀ v, ReturnsInto i (ret v))
    (h : readAckMicro ret s = .next t) : AtLabelOf i t := by
  rcases readAckMicro_next h with ⟨_, rfl⟩ | ⟨hl, rfl⟩ | ⟨_, rfl⟩
  · exact .of_label (l := .a1) hop hls rfl (by decide)
  · exact .awaitDone hop hls hl (by decide) (by decide)
  · exact hret _ _ hop

theorem readNackMicro_atLabel {ret : Byte → State → State} (hop : s.host.op = some i)
    (hls : labelsOf i s.host.caller = nackLabels) (hret : ∀ v, ReturnsInto i (ret v))
    (h : readNackMicro ret s = .next t) : AtLabelOf i t := by
  rcases readNackMicro_next h with ⟨_, rfl⟩ | ⟨hl, rfl⟩ | ⟨_, rfl⟩
  · exact .of_label (l := .k1) hop hls rfl (by decide)
  · exact .awaitDone hop hls hl (by decide) (by decide)
  · exact hret _ _ hop

theorem stopMicro_atLabel {ret : State → State} (hop : s.host.op = some i)
    (hls : labelsOf i s.host.caller = stopLabels) (hret : ReturnsInto i ret) (h : stopMicro ret s = .next t) :
    AtLabelOf i t := by
  rcases stopMicro_next h with ⟨_, rfl⟩ | ⟨_, rfl⟩
  · exact .of_label (l := .p1) hop hls rfl (by decide)
  · exact hret _ hop

/-! The commands. -/

/-- A command that calls nothing is at its own level (10_state.md R24). -/
theorem labelsOf_callsNothing (hi : callsNothing i) (hl : s.host.step ∈ labelsOf i s.host.caller) :
    labelsOf i s.host.caller = labelsOf i none := by
  cases hc : s.host.caller with
  | none => rfl
  | some line =>
    rw [hc] at hl
    cases i <;> simp [callsNothing, labelsOf] at hi hl

theorem utInitMicro_atLabel {r : Nat} (hop : s.host.op = some (.utInit r))
    (hls : labelsOf (.utInit r) s.host.caller = [.i0, .i1, .i2, .i3]) (h : utInitMicro r s = .next t) :
    AtLabelOf (.utInit r) t := by
  rcases utInitMicro_next h with ⟨_, rfl⟩ | ⟨_, rfl⟩ | ⟨_, rfl⟩ | ⟨_, rfl⟩
  · exact .of_label (l := .i1) hop hls rfl (by decide)
  · exact .of_label (l := .i2) hop hls rfl (by decide)
  · exact .of_label (l := .i3) hop hls rfl (by decide)
  · exact .inl rfl

theorem bmInitMicro_atLabel {r : Nat} (hop : s.host.op = some (.bmInit r))
    (hls : labelsOf (.bmInit r) s.host.caller = [.n0, .n1]) (h : bmInitMicro r s = .next t) :
    AtLabelOf (.bmInit r) t := by
  rcases bmInitMicro_next h with ⟨_, rfl⟩ | ⟨_, rfl⟩
  · exact .of_label (l := .n1) hop hls rfl (by decide)
  · exact .inl rfl

theorem returnsInto_lineEraseNext {m : Nat} : ReturnsInto (.utRecvLine m) lineEraseNext := by
  intro u hop
  unfold lineEraseNext
  split <;> exact .inr ⟨hop, by simp [labelsOf, sendLabels]⟩

/-- At the level of `receive_line` (R127). -/
theorem recvLineMicro_atLabel {m : Nat} (hop : s.host.op = some (.utRecvLine m)) (h : recvLineMicro m s = .next t) :
    AtLabelOf (.utRecvLine m) t := by
  unfold recvLineMicro at h
  split at h <;> rename_i hc
  · refine recvByteMicro_atLabel hop (by rw [hc]; rfl) (fun _ u hu => ?_) h
    exact .inr ⟨hu, by simp [labelsOf]⟩
  · split at h
    · refine sendByteMicro_atLabel hop (by rw [hc]; rfl) ?_ h
      exact fun u hu => returnsInto_lineEraseNext (u.withLocals _) hu
    · cases h
  · refine sendByteMicro_atLabel hop (by rw [hc]; rfl) (fun u hu => ?_) h
    exact .inr ⟨hu, by simp [labelsOf]⟩
  · cases h
  · split at h <;> cases h
    · exact .inr ⟨hop, by simp [labelsOf]⟩
    · unfold lineTest
      split <;> exact .inr ⟨hop, by simp [labelsOf, recvLabels]⟩
    · unfold lineTerminator
      split <;> exact .inr ⟨hop, by simp [labelsOf]⟩
    · unfold lineEdit
      split
      · split
        · exact returnsInto_lineEraseNext (s.withLocals _) hop
        · exact .inr ⟨hop, by simp [labelsOf]⟩
      · exact .inr ⟨hop, by simp [labelsOf]⟩
    · unfold lineStore
      dsimp only
      split <;> exact .inr ⟨hop, by simp [labelsOf, sendLabels]⟩
    · exact .inl rfl

/-- A helper's lines: a check line leads to the next call or to `stop` in its own line (R230). -/
theorem writeRegMicro_atLabel {d : DevAddr} {r v : Byte} (hop : s.host.op = some (.bmWriteReg d r v))
    (h : writeRegMicro d r v s = .next t) : AtLabelOf (.bmWriteReg d r v) t := by
  unfold writeRegMicro at h
  split at h <;> rename_i hc
  · exact startMicro_atLabel hop (by rw [hc]; rfl) (returnsInto_statusThen (by simp [labelsOf])) h
  · exact writeMicro_atLabel hop (by rw [hc]; rfl) (returnsInto_statusThen (by simp [labelsOf])) h
  · exact writeMicro_atLabel hop (by rw [hc]; rfl) (returnsInto_statusThen (by simp [labelsOf])) h
  iterate 4 exact stopMicro_atLabel hop (by rw [hc]; rfl) (returnsInto_ret _ _) h
  · cases h
  · split at h <;> cases h
    · exact .checkStatus hop (by simp [labelsOf, writeLabels]) rfl
    · exact .checkStatus hop (by simp [labelsOf, writeLabels]) rfl
    · exact .checkStatus hop (by simp [labelsOf, stopLabels]) rfl

theorem readRegMicro_atLabel {d : DevAddr} {r : Byte} (hop : s.host.op = some (.bmReadReg d r))
    (h : readRegMicro d r s = .next t) : AtLabelOf (.bmReadReg d r) t := by
  unfold readRegMicro at h
  split at h <;> rename_i hc
  · exact startMicro_atLabel hop (by rw [hc]; rfl) (returnsInto_statusThen (by simp [labelsOf])) h
  · exact writeMicro_atLabel hop (by rw [hc]; rfl) (returnsInto_statusThen (by simp [labelsOf])) h
  · exact startMicro_atLabel hop (by rw [hc]; rfl) (returnsInto_statusThen (by simp [labelsOf])) h
  · refine readNackMicro_atLabel hop (by rw [hc]; rfl) (fun _ u hu => ?_) h
    exact .inr ⟨hu, by simp [labelsOf, stopLabels]⟩
  iterate 4 exact stopMicro_atLabel hop (by rw [hc]; rfl) (returnsInto_ret _ _) h
  · cases h
  · split at h <;> cases h
    · exact .checkStatus hop (by simp [labelsOf, writeLabels]) rfl
    · exact .checkStatus hop (by simp [labelsOf, startLabels]) rfl
    · exact .checkStatus hop (by simp [labelsOf, nackLabels]) rfl

theorem readRegsMicro_atLabel {d : DevAddr} {r : Byte} {n : Nat} (hop : s.host.op = some (.bmReadRegs d r n))
    (h : readRegsMicro d r n s = .next t) : AtLabelOf (.bmReadRegs d r n) t := by
  unfold readRegsMicro at h
  split at h <;> rename_i hc
  · exact startMicro_atLabel hop (by rw [hc]; rfl) (returnsInto_statusThen (by simp [labelsOf])) h
  · exact writeMicro_atLabel hop (by rw [hc]; rfl) (returnsInto_statusThen (by simp [labelsOf])) h
  · exact startMicro_atLabel hop (by rw [hc]; rfl) (returnsInto_statusThen (by simp [labelsOf])) h
  · refine readAckMicro_atLabel hop (by rw [hc]; rfl) (fun _ u hu => ?_) h
    exact .inr ⟨hu, by simp [readRegsStore, labelsOf]⟩
  · refine readNackMicro_atLabel hop (by rw [hc]; rfl) (fun _ u hu => ?_) h
    exact .inr ⟨hu, by simp [readRegsLast, labelsOf, stopLabels]⟩
  iterate 4 exact stopMicro_atLabel hop (by rw [hc]; rfl) (returnsInto_ret _ _) h
  · cases h
  · split at h <;> cases h
    · exact .checkStatus hop (by simp [labelsOf, writeLabels]) rfl
    · exact .checkStatus hop (by simp [labelsOf, startLabels]) rfl
    · unfold readRegsAddressed
      split <;> exact .inr ⟨hop, by simp [labelsOf, stopLabels]⟩
    · exact .inr ⟨hop, by simp [labelsOf]⟩
    · unfold readRegsTest
      split <;> exact .inr ⟨hop, by simp [labelsOf, ackLabels, nackLabels]⟩

/-- A micro-step of the command in flight ends it or leads to another of its labels (10_state.md R24). -/
theorem exec_atLabel (hop : s.host.op = some i) (hl : s.host.step ∈ labelsOf i s.host.caller)
    (h : exec i s = .next t) : AtLabelOf i t := by
  cases i <;> replace h := (runCommand_inFlight hop).symm.trans h
  case utInit r => exact utInitMicro_atLabel hop (labelsOf_callsNothing rfl hl) h
  case utSendByte b => exact sendByteMicro_atLabel hop (labelsOf_callsNothing rfl hl) (returnsInto_ret _ _) h
  case utRecvByte => exact recvByteMicro_atLabel hop (labelsOf_callsNothing rfl hl) (fun _ => returnsInto_ret _ _) h
  case utRecvLine m => exact recvLineMicro_atLabel hop h
  case bmInit r => exact bmInitMicro_atLabel hop (labelsOf_callsNothing rfl hl) h
  case bmStart a d => exact startMicro_atLabel hop (labelsOf_callsNothing rfl hl) (fun _ => returnsInto_ret _ _) h
  case bmWrite b => exact writeMicro_atLabel hop (labelsOf_callsNothing rfl hl) (fun _ => returnsInto_ret _ _) h
  case bmReadAck => exact readAckMicro_atLabel hop (labelsOf_callsNothing rfl hl) (fun _ => returnsInto_ret _ _) h
  case bmReadNack => exact readNackMicro_atLabel hop (labelsOf_callsNothing rfl hl) (fun _ => returnsInto_ret _ _) h
  case bmStop => exact stopMicro_atLabel hop (labelsOf_callsNothing rfl hl) (returnsInto_ret _ _) h
  case bmWriteReg d r v => exact writeRegMicro_atLabel hop h
  case bmReadReg d r => exact readRegMicro_atLabel hop h
  case bmReadRegs d r n => exact readRegsMicro_atLabel hop h

end Position

/-! ## The issue of a command (30_encoding.md R102, R104) -/

section Issue

variable {i : Instr}

/-- With HOST idle a command is refused, with a record, or starts, its contract met. -/
theorem runCommand_issue {check : State → Option Reason} {line : Option Label} {first : Label}
    {micro : State → Outcome} (hop : s.host.op = none) (h : runCommand i check line first micro s = .next t) :
    (∃ f, t = s.raise f) ∨ (check s = none ∧ t = s.begin i line first) := by
  rcases runCommand_next h with ⟨_, reason, _, rfl⟩ | ⟨_, hc, rfl⟩ | ⟨hop', _⟩ | ⟨_, _, hop', _⟩
  · exact .inl ⟨_, rfl⟩
  · exact .inr ⟨hc, rfl⟩
  · simp [hop] at hop'
  · simp [hop] at hop'

/-- A check that refuses nothing does not refuse by its first row, which asks that the unit be initialised
(30_encoding.md R104, 60_exceptions.md R267). -/
theorem inited_of_first_row {inited : Bool} {reason : Reason} {rest : List (Bool × Reason)}
    (h : firstRefusal ((!inited, reason) :: rest) = none) : inited = true := by
  cases inited
  · cases h
  · rfl

/-- The issue of a command: a refusal recorded, or a start at a first label of it, its unit initialised. -/
theorem exec_issue (hop : s.host.op = none) (h : exec i s = .next t) :
    (∃ f, t = s.raise f) ∨
      ∃ line first, t = s.begin i line first ∧ first ∈ labelsOf i line ∧ unitInited i s := by
  cases i <;> refine (runCommand_issue hop h).imp_right fun ⟨hc, ht⟩ => ⟨_, _, ht, ?_⟩
  case utInit | bmInit => exact ⟨by simp [labelsOf], trivial⟩
  case utSendByte | utRecvByte => exact ⟨by simp [labelsOf, sendLabels, recvLabels], inited_of_first_row hc⟩
  case utRecvLine => exact ⟨by simp [labelsOf], inited_of_first_row hc⟩
  case bmStart | bmWriteReg | bmReadReg | bmReadRegs =>
    exact ⟨by simp [labelsOf, startLabels], inited_of_first_row hc⟩
  case bmWrite => exact ⟨by simp [labelsOf, writeLabels], inited_of_first_row hc⟩
  case bmReadAck => exact ⟨by simp [labelsOf, ackLabels], inited_of_first_row hc⟩
  case bmReadNack => exact ⟨by simp [labelsOf, nackLabels], inited_of_first_row hc⟩
  case bmStop => exact ⟨by simp [labelsOf, stopLabels], inited_of_first_row hc⟩

/-- Every row's operands fit the fields they are taken from (30_encoding.md R92). -/
theorem operands_wellFormed (w : Word) : ∀ r ∈ rows, (r.operands w).wellFormed := by
  have hcount := (Word.fieldC w).isLt
  simp [rows, Instr.wellFormed, Word.imm24, Word.len16]
  omega

/-- What decodes fits its encoding (30_encoding.md R92). -/
theorem decode_wellFormed {w : Word} (h : decode w = .ok i) : i.wellFormed := by
  unfold decode at h
  split at h
  · rename_i r hr
    cases h
    exact operands_wellFormed w r (List.mem_of_find?_eq_some hr)
  · split at h <;> cases h

end Issue

/-! ## What HOST writes of the Serial Transport (10_state.md R26) -/

/-- What every HOST transition leaves of the Serial Transport: RXI's end of the RX buffer, TXI's end of the TX buffer,
and the link registers. -/
structure HandlersKept (u v : Serial) : Prop where
  rxHead : v.rx.head = u.rx.head
  rxBuf : v.rx.buf = u.rx.buf
  txTail : v.tx.tail = u.tx.tail
  rxReady : v.rxReady = u.rxReady
  rxData : v.rxData = u.rxData
  txReady : v.txReady = u.txReady
  txData : v.txData = u.txData

theorem SerialMove.handlersKept (h : SerialMove s t) : HandlersKept s.ut t.ut := by
  cases h with
  | same hs => rw [hs.ut]; exact ⟨rfl, rfl, rfl, rfl, rfl, rfl, rfl⟩
  | store _ _ b _ tx hs e => rw [e]; exact ⟨rfl, rfl, (CircBuf.store_indices hs).2, rfl, rfl, rfl, rfl⟩
  | release _ _ _ hut => rw [hut]; exact ⟨rfl, rfl, rfl, rfl, rfl, rfl, rfl⟩
  | refl e | room _ _ _ e | publish _ _ e | byte _ _ _ e | fetch _ _ _ _ e =>
    rw [e]; exact ⟨rfl, rfl, rfl, rfl, rfl, rfl, rfl⟩

/-- What a micro-step of command `i` does to the interrupt enables (10_state.md R30, R31). -/
inductive EnablesMove (i : Instr) (u v : Serial) : Prop
  | init (baudRate : Nat) (hi : i = .utInit baudRate) (htx : v.txIe = u.txIe ∨ v.txIe = false)
  | send (hi : ∀ s : State, unitInited i s → s.ut.inited = true) (hrx : v.rxIe = u.rxIe) (hg : v.gie = u.gie)
      (htx : v.txIe = true)
  | kept (hrx : v.rxIe = u.rxIe) (hg : v.gie = u.gie) (htx : v.txIe = u.txIe)

section Enables

variable {i : Instr}

theorem EnablesMove.of_ut_eq (h : t.ut = s.ut) : EnablesMove i s.ut t.ut := by
  rw [h]; exact .kept rfl rfl rfl

/-- `send_byte` sets `tx_ie` as it returns and touches no other enable (40_serial_transport.md R122). -/
theorem sendByteMicro_enables {b : Byte} {ret : State → State}
    (hi : ∀ s : State, unitInited i s → s.ut.inited = true) (hret : QuietReturn ret)
    (h : sendByteMicro b ret s = .next t) : EnablesMove i s.ut t.ut := by
  rcases sendByteMicro_next h with ⟨_, _, rfl⟩ | ⟨_, _, rfl⟩ | ⟨_, tx, _, rfl⟩ | ⟨_, rfl⟩ | ⟨_, rfl⟩
  iterate 4 exact .kept rfl rfl rfl
  obtain ⟨_, hut, _⟩ := hret (s.withUt { s.ut with txIe := true })
  rw [hut]
  exact .send hi rfl rfl rfl

theorem recvByteMicro_enables {ret : Byte → State → State} (hret : ∀ v, QuietReturn (ret v))
    (h : recvByteMicro ret s = .next t) : EnablesMove i s.ut t.ut := by
  rcases recvByteMicro_next h with ⟨_, _, rfl⟩ | ⟨_, _, rfl⟩ | ⟨_, v, _, rfl⟩ | ⟨_, rfl⟩
  iterate 3 exact .kept rfl rfl rfl
  obtain ⟨_, hut, _⟩ := hret s.host.locals.v (s.withUt { s.ut with rx := s.ut.rx.release s.cfg.N })
  rw [hut]
  exact .kept rfl rfl rfl

theorem utInitMicro_enables {r : Nat} (h : utInitMicro r s = .next t) : EnablesMove (.utInit r) s.ut t.ut := by
  rcases utInitMicro_next h with ⟨_, rfl⟩ | ⟨_, rfl⟩ | ⟨_, rfl⟩ | ⟨_, rfl⟩
  · exact .init r rfl (.inl rfl)
  · exact .init r rfl (.inr rfl)
  · exact .init r rfl (.inl rfl)
  · exact .init r rfl (.inl rfl)

/-- The lines of `receive_line` that are no call touch HOST alone (40_serial_transport.md R127). -/
theorem recvLineMicro_ut_of_own {m : Nat} (hc : s.host.caller = none) (h : recvLineMicro m s = .next t) :
    t.ut = s.ut := by
  simp only [recvLineMicro, hc] at h
  split at h <;> cases h
  · rfl
  · unfold lineTest
    split <;> rfl
  · unfold lineTerminator
    split <;> rfl
  · unfold lineEdit
    split
    · split
      · exact (quiet_lineEraseNext _).2.1
      · rfl
    · rfl
  · unfold lineStore
    dsimp only
    split <;> rfl
  · rfl

theorem recvLineMicro_enables {m : Nat} (h : recvLineMicro m s = .next t) :
    EnablesMove (.utRecvLine m) s.ut t.ut := by
  cases hc : s.host.caller with
  | none => exact .of_ut_eq (recvLineMicro_ut_of_own hc h)
  | some line =>
    unfold recvLineMicro at h
    split at h
    · refine recvByteMicro_enables ?_ h
      exact fun _ _ => ⟨rfl, rfl, .inr (by simp [busyLabels])⟩
    · split at h
      · refine sendByteMicro_enables (fun _ => id) ?_ h
        exact fun u => quiet_lineEraseNext (u.withLocals _)
      · cases h
    · refine sendByteMicro_enables (fun _ => id) ?_ h
      exact fun _ => ⟨rfl, rfl, .inr (by simp [busyLabels])⟩
    · cases h
    · rename_i hn
      cases hc.symm.trans hn

/-- What a micro-step of the command in flight does to the enables: only `UT_INIT` and `send_byte` write them. -/
theorem exec_enables (hop : s.host.op = some i) (h : exec i s = .next t) : EnablesMove i s.ut t.ut := by
  cases i <;> replace h := (runCommand_inFlight hop).symm.trans h
  case utInit r => exact utInitMicro_enables h
  case utSendByte b => exact sendByteMicro_enables (fun _ => id) (quiet_ret _ _) h
  case utRecvByte => exact recvByteMicro_enables (fun _ => quiet_ret _ _) h
  case utRecvLine m => exact recvLineMicro_enables h
  case bmInit r => rcases bmInitMicro_next h with ⟨_, rfl⟩ | ⟨_, rfl⟩ <;> exact .of_ut_eq rfl
  case bmStart a d => exact .of_ut_eq (startMicro_quiet (fun _ => quiet_ret _ _) h).ut
  case bmWrite b => exact .of_ut_eq (writeMicro_quiet (fun _ => quiet_ret _ _) h).ut
  case bmReadAck => exact .of_ut_eq (readAckMicro_quiet (fun _ => quiet_ret _ _) h).ut
  case bmReadNack => exact .of_ut_eq (readNackMicro_quiet (fun _ => quiet_ret _ _) h).ut
  case bmStop => exact .of_ut_eq (stopMicro_quiet (quiet_ret _ _) h).ut
  case bmWriteReg d r v => exact .of_ut_eq (writeRegMicro_quiet h).ut
  case bmReadReg d r => exact .of_ut_eq (readRegMicro_quiet h).ut
  case bmReadRegs d r n => exact .of_ut_eq (readRegsMicro_quiet h).ut

end Enables

/-! ## What each agent writes of the Serial Transport -/

theorem busComplete_ut (st v : Byte) (s : State) : (busComplete st v s).ut = s.ut := by
  unfold busComplete
  split
  · rfl
  · split <;> rfl

/-- An issue writes nothing of the Serial Transport (30_encoding.md R102). -/
theorem issueWord_ut {w : Word} (h : issueWord w s = .next t) : t.ut = s.ut := by
  rcases issueWord_next h with ⟨_, rfl⟩ | ⟨hop, i, _, h⟩ | ⟨_, _, rfl⟩
  · rfl
  · rcases exec_issue hop h with ⟨f, rfl⟩ | ⟨line, first, rfl, _⟩ <;> rfl
  · rfl

/-- The writers of the Serial Transport: HOST's micro-steps, the two handlers taken, and LINE. -/
theorem perform_writes {c : Choice} (h : perform c s = .next t) :
    t.ut = s.ut ∨
    (c = .host ∧ HandlersKept s.ut t.ut ∧ ∃ i, s.host.op = some i ∧ EnablesMove i s.ut t.ut) ∨
    (c = .rxi ∧ rxiBody s = .next t) ∨
    (c = .txi ∧ s.ut.txIe = true ∧ txiBody s = .next t) ∨
    (∃ v k, c = .lineArrive v k ∧ s.ut.inited = true ∧ t = lineArrive v k s) ∨
    (c = .lineShiftOut ∧ t = lineShiftOut s) := by
  replace h := perform_next h
  rcases h with ⟨_, rfl⟩ | ⟨he, ⟨w, _, h⟩ | ⟨rfl, h⟩ | ⟨rfl, h⟩ | ⟨rfl, h⟩ | ⟨v, k, rfl, rfl⟩ |
    ⟨rfl, rfl⟩ | ⟨st, v, _, rfl⟩⟩
  · exact .inl rfl
  · exact .inl (issueWord_ut h)
  · rcases hostMicroStep_next h with ⟨_, rfl⟩ | ⟨i, hop, h⟩
    · exact .inl rfl
    · exact .inr (.inl ⟨rfl, (exec_move i (.inr hop) h).handlersKept, i, hop, exec_enables hop h⟩)
  · exact .inr (.inr (.inl ⟨rfl, h⟩))
  · simp only [enabled, takeable, irqEnabled, Bool.and_eq_true] at he
    exact .inr (.inr (.inr (.inl ⟨rfl, he.1.2, h⟩)))
  · simp only [enabled, lineMayArrive, Bool.and_eq_true] at he
    exact .inr (.inr (.inr (.inr (.inl ⟨v, k, rfl, he.1, rfl⟩))))
  · exact .inr (.inr (.inr (.inr (.inr ⟨rfl, rfl⟩))))
  · exact .inl (busComplete_ut st v s)

/-- Settles O48: `perform_writes`, agent by agent. -/
theorem eachElementHasItsWriter : Obligations.EachElementHasItsWriter := by
  intro s t c h
  replace h := perform_writes h
  rcases h with hut | ⟨rfl, hk, i, hop, he⟩ | ⟨rfl, h⟩ | ⟨rfl, _, h⟩ | ⟨v, k, rfl, _, rfl⟩ | ⟨rfl, rfl⟩
  · simp [hut]
  · obtain ⟨hrxHead, hrxBuf, htxTail, hrxReady, hrxData, htxReady, htxData⟩ := hk
    simp only [hrxHead, hrxBuf, htxTail, hrxReady, hrxData, htxReady, htxData]
    cases he with
    | init r hi htx => simp [hop, hi]
    | send _ hrx hg htx => simp [hrx, hg, htx]
    | kept hrx hg htx => simp [hrx, hg, htx]
  · rcases rxiBody_next h with ⟨_, rfl⟩ | ⟨_, rx, hs, rfl⟩
    · simp
    · simp [CircBuf.publish, (CircBuf.store_indices hs).2]
  · rcases txiBody_next h with ⟨_, rfl⟩ | ⟨_, d, _, rfl⟩
    · simp
    · simp [CircBuf.release]
  · unfold lineArrive
    dsimp only
    split <;> simp
  · simp [lineShiftOut]

/-! ## HOST's invariant (10_state.md R24, 70_reset_and_hazards.md R302, R305) -/

/-- The link is quiet and TXI not enabled before `UT_INIT` (70_reset_and_hazards.md R302). -/
structure LinkQuiet (u : Serial) : Prop where
  rxQuiet : u.rxReady = true → u.inited = true
  txQuiet : u.txReady = false → u.inited = true
  txDisabled : u.txIe = true → u.inited = true

/-- The link stays quiet: a byte arrives only after `UT_INIT`, TXI sends only when enabled, and only a `send_byte`
enables it. -/
theorem perform_keeps_linkQuiet {c : Choice} (hI : HostInv s) (h : perform c s = .next t) : LinkQuiet t.ut := by
  have hmono := (perform_grows h).ut.inited
  rcases perform_writes h with hut | ⟨_, hk, i, hop, he⟩ | ⟨_, h⟩ | ⟨_, hie, h⟩ | ⟨v, k, _, hi, rfl⟩ | ⟨_, rfl⟩
  · rw [hut]; exact ⟨hI.rxQuiet, hI.txQuiet, hI.txDisabled⟩
  · refine ⟨fun h => hmono (hI.rxQuiet (hk.rxReady ▸ h)), fun h => hmono (hI.txQuiet (hk.txReady ▸ h)),
      fun h => hmono ?_⟩
    cases he with
    | init r _ htx =>
      rcases htx with htx | htx
      · exact hI.txDisabled (htx ▸ h)
      · simp [htx] at h
    | send hser => exact hser s (hI.inited i hop)
    | kept _ _ htx => exact hI.txDisabled (htx ▸ h)
  · rcases rxiBody_next h with ⟨_, rfl⟩ | ⟨_, rx, _, rfl⟩ <;> exact ⟨by simp, hI.txQuiet, hI.txDisabled⟩
  · have hi : t.ut.inited = true := hmono (hI.txDisabled hie)
    exact ⟨fun _ => hi, fun _ => hi, fun _ => hi⟩
  · exact ⟨fun _ => hmono hi, fun _ => hmono hi, fun _ => hmono hi⟩
  · exact ⟨hI.rxQuiet, by simp [lineShiftOut], hI.txDisabled⟩

/-- HOST's part of the invariant: the command in flight fits its encoding, its unit is initialised, and HOST is at one
of its labels (10_state.md R24, 70_reset_and_hazards.md R305). -/
structure Positioned (i : Instr) (s : State) : Prop where
  wellFormed : i.wellFormed
  inited : unitInited i s
  label : s.host.step ∈ labelsOf i s.host.caller

theorem HostInv.positioned {i : Instr} (hI : HostInv s) (hop : s.host.op = some i) : Positioned i s :=
  ⟨hI.wellFormed i hop, hI.inited i hop, hI.label i hop⟩

/-- No step takes an initialised unit back (10_state.md R32, R42). -/
theorem Grows.unitInited {i : Instr} (hg : Grows s t) (h : unitInited i s) : unitInited i t := by
  cases i with
  | utInit | bmInit => trivial
  | utSendByte | utRecvByte | utRecvLine => exact hg.ut.inited h
  | _ => exact hg.bm.inited h

/-- An agent other than HOST leaves HOST where it is. -/
theorem Positioned.of_host_unmoved {i : Instr} (hI : HostInv s) (hg : Grows s t) (hhost : t.host = s.host)
    (hop : t.host.op = some i) : Positioned i t := by
  rw [hhost] at hop
  exact ⟨hI.wellFormed i hop, hg.unitInited (hI.inited i hop), hhost ▸ hI.label i hop⟩

theorem busComplete_host (st v : Byte) (s : State) : (busComplete st v s).host = s.host := by
  unfold busComplete
  split
  · rfl
  · split <;> rfl

theorem lineArrive_host (v : Byte) (keepNew : Bool) (s : State) : (lineArrive v keepNew s).host = s.host := by
  unfold lineArrive
  dsimp only
  split <;> rfl

/-- An issue starts a command at one of its first labels, or leaves HOST idle (30_encoding.md R102). -/
theorem issueWord_positioned {w : Word} {i : Instr} (hI : HostInv s) (hg : Grows s t) (h : issueWord w s = .next t)
    (hop' : t.host.op = some i) : Positioned i t := by
  rcases issueWord_next h with ⟨_, rfl⟩ | ⟨hop, j, hj, h⟩ | ⟨hop, _, rfl⟩
  · exact hI.positioned hop'
  · rcases exec_issue hop h with ⟨f, rfl⟩ | ⟨line, first, rfl, hl, hu⟩
    · cases hop.symm.trans hop'
    · obtain rfl : j = i := Option.some.inj hop'
      exact ⟨decode_wellFormed hj, hg.unitInited hu, hl⟩
  · cases hop.symm.trans hop'

/-- A micro-step of HOST stays inside the command in flight, or ends it (10_state.md R24). -/
theorem hostMicroStep_positioned {i : Instr} (hI : HostInv s) (hg : Grows s t) (h : hostMicroStep s = .next t)
    (hop' : t.host.op = some i) : Positioned i t := by
  rcases hostMicroStep_next h with ⟨_, rfl⟩ | ⟨j, hop, h⟩
  · exact hI.positioned hop'
  · rcases exec_atLabel hop (hI.label j hop) h with hnone | ⟨hj, hl⟩
    · cases hnone.symm.trans hop'
    · obtain rfl : j = i := Option.some.inj (hj.symm.trans hop')
      exact ⟨hI.wellFormed j hop, hg.unitInited (hI.inited j hop), hl⟩

/-- HOST's position after the step of any agent. -/
theorem perform_positioned {c : Choice} {i : Instr} (hI : HostInv s) (h : perform c s = .next t)
    (hop' : t.host.op = some i) : Positioned i t := by
  have hg := perform_grows h
  rcases perform_next h with ⟨_, rfl⟩ | ⟨_, ⟨w, _, h⟩ | ⟨_, h⟩ | ⟨_, h⟩ | ⟨_, h⟩ | ⟨v, k, _, rfl⟩ |
    ⟨_, rfl⟩ | ⟨st, v, _, rfl⟩⟩
  · exact hI.positioned hop'
  · exact issueWord_positioned hI hg h hop'
  · exact hostMicroStep_positioned hI hg h hop'
  · rcases rxiBody_next h with ⟨_, rfl⟩ | ⟨_, _, _, rfl⟩ <;> exact .of_host_unmoved hI hg rfl hop'
  · rcases txiBody_next h with ⟨_, rfl⟩ | ⟨_, _, _, rfl⟩ <;> exact .of_host_unmoved hI hg rfl hop'
  · exact .of_host_unmoved hI hg (lineArrive_host v k s) hop'
  · exact .of_host_unmoved hI hg rfl hop'
  · exact .of_host_unmoved hI hg (busComplete_host st v s) hop'

/-- The step of any agent keeps HOST's invariant. -/
theorem perform_keeps_hostInv {c : Choice} (hI : HostInv s) (h : perform c s = .next t) : HostInv t := by
  obtain ⟨hrx, htx, hie⟩ := perform_keeps_linkQuiet hI h
  exact {
    wellFormed := fun _ hop => (perform_positioned hI h hop).wellFormed
    inited := fun _ hop => (perform_positioned hI h hop).inited
    label := fun _ hop => (perform_positioned hI h hop).label
    rxQuiet := hrx
    txQuiet := htx
    txDisabled := hie }

/-- Settles O43: a step is the step of one agent, and which choices are still to come is no part of the invariant. -/
theorem stepKeepsThePosition : Obligations.StepKeepsThePosition := by
  intro s t hI h
  obtain ⟨c, ins, n, he⟩ := step_eq_perform s
  obtain ⟨hwf, hinited, hlabel, hrx, htx, hie⟩ := hI
  have hg : Grows s { s with inputs := ins, draws := n } := ⟨rfl, .refl _, .refl _, .refl _, .refl _⟩
  have hI' : HostInv { s with inputs := ins, draws := n } :=
    ⟨hwf, fun i hop => hg.unitInited (hinited i hop), hlabel, hrx, htx, hie⟩
  exact perform_keeps_hostInv hI' (he.symm.trans h)

end Sys2Proof.Machine
end

section
/-! SUPPORT. The state after reset (spec/10_state.md R49). -/

namespace Sys2Proof.Machine

variable {s t : State}

/-- Settles O39: each value is the one the reset state is written with. -/
theorem resetValues : Obligations.ResetValues := by
  refine ⟨rfl, fun cfg device s hs => ?_⟩
  subst hs
  exact ⟨rfl, rfl, rfl, rfl, rfl, rfl, rfl, rfl, rfl, rfl, rfl, rfl, rfl, rfl, rfl, rfl, rfl, rfl, rfl, rfl, rfl, rfl,
    rfl, rfl⟩

/-- The empty buffer is sound at every capacity. -/
theorem CircBuf.reset_sound {N : Nat} (hN : 0 < N) : CircBuf.reset.Sound N :=
  CircBuf.sound_of_checks hN hN .nil (by simp [reset]) (by simp [reset, liveCount])

theorem hostInv_resetWith (cfg : Config) (device : Option SimDevice) : HostInv (State.resetWith cfg device) where
  wellFormed _ h := by cases h
  inited _ h := by cases h
  label _ h := by cases h
  rxQuiet h := by cases h
  txQuiet h := by cases h
  txDisabled h := by cases h

theorem serialInv_resetWith {cfg : Config} (hcfg : cfg.legal) (device : Option SimDevice) :
    SerialInv (State.resetWith cfg device) := by
  have hN : 0 < cfg.N := by have := Config.legal_N hcfg; omega
  exact .of_not_busy hcfg (CircBuf.reset_sound hN) (CircBuf.reset_sound hN) (.inl rfl)

theorem localsInv_of_idle (hop : s.host.op = none) : LocalsInv s := by
  constructor <;> simp [hop]

theorem busInv_resetWith (cfg : Config) {device : Option SimDevice}
    (hdev : ∀ d, device = some d → d.regs.wf ∧ ∀ c ∈ d.regs, c.2 ≠ 0) : BusInv (State.resetWith cfg device) where
  pendingHeld h := by cases h
  completed h := by cases h
  idle _ := by simp [settled, BusMaster.reset]
  protocol _ h := by cases h
  registers := hdev

/-- The reset state meets the whole invariant when the registers of the device, if any, are canonical. -/
theorem inv_resetWith {cfg : Config} (hcfg : cfg.legal) {device : Option SimDevice}
    (hdev : ∀ d, device = some d → d.regs.wf ∧ ∀ c ∈ d.regs, c.2 ≠ 0) : Inv (State.resetWith cfg device) where
  host := hostInv_resetWith cfg device
  serial := serialInv_resetWith hcfg device
  locals := localsInv_of_idle rfl
  bus := busInv_resetWith cfg hdev

/-- Settles O41: with the free bus there is no device, and the reference device starts with its registers canonical
(`registerStore_spec`). -/
theorem resetMeetsTheInvariant : Obligations.ResetMeetsTheInvariant := by
  refine ⟨inv_resetWith (by decide) (by simp), fun cfg hcfg => ⟨inv_resetWith hcfg (by simp), fun a regs => ?_⟩⟩
  refine inv_resetWith hcfg fun d hd => ?_
  cases hd
  obtain ⟨hwf, hne, _⟩ := registerStore_spec regs
  exact ⟨hwf, hne⟩

end Sys2Proof.Machine
end

section
/-! SUPPORT. From every state that meets the invariant each agent's step answers a next state (spec/20_memory.md R67,
spec/41_serial_handlers_and_line.md R162, spec/60_exceptions.md R269, R274): HOST is at a label of the operation in
flight, and every slot it or a handler reads or writes is there. -/

namespace Sys2Proof.Machine

variable {s t : State} {i : Instr}

/-! ## The operations, each at any of its labels -/

section Operations

variable {a : DevAddr} {d : Direction} {b : Byte} {ret : Byte → State → State} {next : State → State}

theorem startMicro_answers (hl : s.host.step ∈ startLabels) : ∃ t, startMicro a d ret s = .next t := by
  simp only [startLabels, List.mem_cons, List.not_mem_nil, or_false] at hl
  rcases hl with hl | hl | hl | hl | hl
  · exact ⟨_, startMicro_t0 hl⟩
  · exact ⟨_, startMicro_t1 hl⟩
  · exact ⟨_, startMicro_t2 hl⟩
  · exact ⟨_, startMicro_t3 hl⟩
  · exact ⟨_, startMicro_t4 hl⟩

theorem writeMicro_answers (hl : s.host.step ∈ writeLabels) : ∃ t, writeMicro b ret s = .next t := by
  simp only [writeLabels, List.mem_cons, List.not_mem_nil, or_false] at hl
  rcases hl with hl | hl | hl
  · exact ⟨_, writeMicro_w0 hl⟩
  · exact ⟨_, writeMicro_w1 hl⟩
  · exact ⟨_, writeMicro_w2 hl⟩

theorem readAckMicro_answers (hl : s.host.step ∈ ackLabels) : ∃ t, readAckMicro ret s = .next t := by
  simp only [ackLabels, List.mem_cons, List.not_mem_nil, or_false] at hl
  rcases hl with hl | hl | hl
  · exact ⟨_, readAckMicro_a0 hl⟩
  · exact ⟨_, readAckMicro_a1 hl⟩
  · exact ⟨_, readAckMicro_a2 hl⟩

theorem readNackMicro_answers (hl : s.host.step ∈ nackLabels) : ∃ t, readNackMicro ret s = .next t := by
  simp only [nackLabels, List.mem_cons, List.not_mem_nil, or_false] at hl
  rcases hl with hl | hl | hl
  · exact ⟨_, readNackMicro_k0 hl⟩
  · exact ⟨_, readNackMicro_k1 hl⟩
  · exact ⟨_, readNackMicro_k2 hl⟩

theorem stopMicro_answers (hl : s.host.step ∈ stopLabels) : ∃ t, stopMicro next s = .next t := by
  simp only [stopLabels, List.mem_cons, List.not_mem_nil, or_false] at hl
  rcases hl with hl | hl
  · exact ⟨_, stopMicro_p0 hl⟩
  · exact ⟨_, stopMicro_p1 hl⟩

/-- S1 writes the slot at the head, which a sound buffer has (40_serial_transport.md R122). -/
theorem sendByteMicro_answers (htx : s.ut.tx.Sound s.cfg.N) (hl : s.host.step ∈ sendLabels) :
    ∃ t, sendByteMicro b next s = .next t := by
  simp only [sendLabels, List.mem_cons, List.not_mem_nil, or_false] at hl
  unfold sendByteMicro
  rcases hl with hl | hl | hl | hl <;> simp only [hl]
  · split <;> exact ⟨_, rfl⟩
  · obtain ⟨r, hr, _⟩ := CircBuf.store_spec htx .txbuf b
    exact ⟨_, by rw [hr]⟩
  · exact ⟨_, rfl⟩
  · exact ⟨_, rfl⟩

/-- V1 reads the slot at the tail, which is live as the RX buffer is not empty there (40_serial_transport.md R125). -/
theorem recvByteMicro_answers (hI : SerialInv s) (hop : s.host.op.isSome) (hl : s.host.step ∈ recvLabels) :
    ∃ t, recvByteMicro ret s = .next t := by
  simp only [recvLabels, List.mem_cons, List.not_mem_nil, or_false] at hl
  unfold recvByteMicro
  rcases hl with hl | hl | hl
  · simp only [hl]
    split <;> exact ⟨_, rfl⟩
  · obtain ⟨v, hv, _⟩ := CircBuf.fetch_spec hI.rx (hI.byte hop (.inl hl)) .rxbuf
    exact ⟨_, by rw [hl, hv]⟩
  · exact ⟨_, by rw [hl]⟩

end Operations

/-! ## The commands at their own level -/

theorem utInitMicro_answers {r : Nat} (hl : s.host.step ∈ labelsOf (.utInit r) none) :
    ∃ t, utInitMicro r s = .next t := by
  simp only [labelsOf, List.mem_cons, List.not_mem_nil, or_false] at hl
  rcases hl with hl | hl | hl | hl <;> exact ⟨_, by rw [utInitMicro, hl]⟩

theorem bmInitMicro_answers {r : Nat} (hl : s.host.step ∈ labelsOf (.bmInit r) none) :
    ∃ t, bmInitMicro r s = .next t := by
  simp only [labelsOf, List.mem_cons, List.not_mem_nil, or_false] at hl
  rcases hl with hl | hl <;> exact ⟨_, by rw [bmInitMicro, hl]⟩

theorem writeRegMicro_answers_own {dev : DevAddr} {reg val : Byte} (hc : s.host.caller = none)
    (hl : s.host.step ∈ labelsOf (.bmWriteReg dev reg val) none) : ∃ t, writeRegMicro dev reg val s = .next t := by
  simp only [labelsOf, List.mem_cons, List.not_mem_nil, or_false] at hl
  rcases hl with hl | hl | hl <;> exact ⟨_, by rw [writeRegMicro, hc, hl]⟩

theorem readRegMicro_answers_own {dev : DevAddr} {reg : Byte} (hc : s.host.caller = none)
    (hl : s.host.step ∈ labelsOf (.bmReadReg dev reg) none) : ∃ t, readRegMicro dev reg s = .next t := by
  simp only [labelsOf, List.mem_cons, List.not_mem_nil, or_false] at hl
  rcases hl with hl | hl | hl <;> exact ⟨_, by rw [readRegMicro, hc, hl]⟩

theorem readRegsMicro_answers_own {dev : DevAddr} {reg : Byte} {count : Nat} (hc : s.host.caller = none)
    (hl : s.host.step ∈ labelsOf (.bmReadRegs dev reg count) none) :
    ∃ t, readRegsMicro dev reg count s = .next t := by
  simp only [labelsOf, List.mem_cons, List.not_mem_nil, or_false] at hl
  rcases hl with hl | hl | hl | hl | hl <;> exact ⟨_, by rw [readRegsMicro, hc, hl]⟩

/-! ## The commands that call -/

/-- A helper calls bus primitives alone (43_bus_helpers.md R231 to R233). -/
theorem helper_label_not_serial {line : Label} (hdev : (helperDevice i).isSome)
    (hl : s.host.step ∈ labelsOf i (some line)) : s.host.step ∉ serialLabels := by
  cases i with
  | bmWriteReg | bmReadReg | bmReadRegs =>
    unfold labelsOf at hl
    split at hl <;> try contradiction
    all_goals exact (by decide : ∀ l ∈ _, l ∉ serialLabels) _ hl
  | _ => cases hdev

/-- A helper inside a call does the micro-step of the primitive called. -/
theorem CalledPrimitive.answers {line : Label} (h : CalledPrimitive i line s) (hn : s.host.step ∉ serialLabels) :
    ∃ t, exec i s = .next t := by
  cases h with
  | start _ _ hl _ _ he => exact he ▸ startMicro_answers hl
  | write _ _ hl _ _ he => exact he ▸ writeMicro_answers hl
  | readNext hl he => exact he ▸ readAckMicro_answers hl
  | readOne _ _ hl _ he => exact he ▸ readNackMicro_answers hl
  | readLast _ _ _ hl _ _ he => exact he ▸ readNackMicro_answers hl
  | stop _ hl _ he => exact he ▸ stopMicro_answers hl
  | serial hl => exact absurd hl hn

/-- A helper, in a call or at its own level. -/
theorem helper_answers {micro : State → Outcome} (hop : s.host.op = some i)
    (hl : s.host.step ∈ labelsOf i s.host.caller) (hdev : (helperDevice i).isSome) (he : exec i s = micro s)
    (hown : s.host.caller = none → s.host.step ∈ labelsOf i none → ∃ t, micro s = .next t) :
    ∃ t, micro s = .next t := by
  cases hc : s.host.caller with
  | none => exact hown hc (hc ▸ hl)
  | some line =>
    rw [hc] at hl
    exact he ▸ (calledPrimitive hop hc hl).answers (helper_label_not_serial hdev hl)

/-- `receive_line`: its own lines, and the two operations it calls; in a call of L4 there is a byte of the erase
sequence left to send (40_serial_transport.md R127, R129). -/
theorem recvLineMicro_answers {m : Nat} (hS : SerialInv s) (hL : LocalsInv s)
    (hop : s.host.op = some (.utRecvLine m)) (hl : s.host.step ∈ labelsOf (.utRecvLine m) s.host.caller) :
    ∃ t, recvLineMicro m s = .next t := by
  unfold recvLineMicro
  split <;> rename_i hc <;> rw [hc] at hl
  · exact recvByteMicro_answers hS (by simp [hop]) hl
  · split
    · exact sendByteMicro_answers hS.tx hl
    · rename_i he
      exact absurd he (hL.lineErase m hop hc)
  · exact sendByteMicro_answers hS.tx hl
  · unfold labelsOf at hl
    split at hl <;> simp_all
  · simp only [labelsOf, List.mem_cons, List.not_mem_nil, or_false] at hl
    rcases hl with hl | hl | hl | hl | hl | hl <;> exact ⟨_, by rw [hl]⟩

/-! ## HOST -/

/-- A HOST transition of a command that is not in flight always answers: a refusal, a start, or nothing
(30_encoding.md R102). -/
theorem runCommand_answers {check : State → Option Reason} {line : Option Label} {first : Label}
    {micro : State → Outcome} (hm : s.host.op = some i → ∃ t, micro s = .next t) :
    ∃ t, runCommand i check line first micro s = .next t := by
  unfold runCommand
  split
  · split <;> exact ⟨_, rfl⟩
  · rename_i j hop
    split
    · rename_i hj
      exact hm (hj ▸ hop)
    · exact ⟨_, rfl⟩

/-- Every command answers in a state that meets the invariant: the label HOST is at is one of the command in flight
(10_state.md R24). -/
theorem exec_answers (hI : Inv s) (i : Instr) : ∃ t, exec i s = .next t := by
  have own (hi : callsNothing i) (hop : s.host.op = some i) : s.host.step ∈ labelsOf i none :=
    have hl := hI.host.label i hop
    labelsOf_callsNothing hi hl ▸ hl
  cases i <;> refine runCommand_answers fun hop => ?_
  case utInit r => exact utInitMicro_answers (own rfl hop)
  case utSendByte b => exact sendByteMicro_answers hI.serial.tx (own rfl hop)
  case utRecvByte => exact recvByteMicro_answers hI.serial (by simp [hop]) (own rfl hop)
  case utRecvLine m => exact recvLineMicro_answers hI.serial hI.locals hop (hI.host.label _ hop)
  case bmInit r => exact bmInitMicro_answers (own rfl hop)
  case bmStart a d => exact startMicro_answers (own rfl hop)
  case bmWrite b => exact writeMicro_answers (own rfl hop)
  case bmReadAck => exact readAckMicro_answers (own rfl hop)
  case bmReadNack => exact readNackMicro_answers (own rfl hop)
  case bmStop => exact stopMicro_answers (own rfl hop)
  case bmWriteReg d r v =>
    exact helper_answers hop (hI.host.label _ hop) rfl (runCommand_inFlight hop) writeRegMicro_answers_own
  case bmReadReg d r =>
    exact helper_answers hop (hI.host.label _ hop) rfl (runCommand_inFlight hop) readRegMicro_answers_own
  case bmReadRegs d r n =>
    exact helper_answers hop (hI.host.label _ hop) rfl (runCommand_inFlight hop) readRegsMicro_answers_own

theorem issueWord_answers (hI : Inv s) (w : Word) : ∃ t, issueWord w s = .next t := by
  unfold issueWord
  split
  · exact ⟨_, rfl⟩
  · split
    · exact exec_answers hI _
    · exact ⟨_, rfl⟩

theorem hostMicroStep_answers (hI : Inv s) : ∃ t, hostMicroStep s = .next t := by
  unfold hostMicroStep
  split
  · exact exec_answers hI _
  · exact ⟨_, rfl⟩

/-! ## The handlers, and the step -/

/-- RXI writes the slot at the head (41_serial_handlers_and_line.md R160). -/
theorem rxiBody_answers (hrx : s.ut.rx.Sound s.cfg.N) : ∃ t, rxiBody s = .next t := by
  obtain ⟨rx, hr, _⟩ := CircBuf.store_spec hrx .rxbuf s.ut.rxData
  simp only [rxiBody, hr]
  split <;> exact ⟨_, rfl⟩

/-- TXI reads the slot at the tail, when the buffer is not empty (41_serial_handlers_and_line.md R161). -/
theorem txiBody_answers (htx : s.ut.tx.Sound s.cfg.N) : ∃ t, txiBody s = .next t := by
  unfold txiBody
  split
  · exact ⟨_, rfl⟩
  · rename_i he
    obtain ⟨d, hd, _⟩ := CircBuf.fetch_spec htx (by simpa using he) .txbuf
    exact ⟨_, by rw [hd]⟩

/-- The step of any agent answers. -/
theorem perform_answers (hI : Inv s) (c : Choice) : ∃ t, perform c s = .next t := by
  unfold perform
  split
  · cases c with
    | issue w => exact issueWord_answers hI w
    | host => exact hostMicroStep_answers hI
    | rxi => exact rxiBody_answers hI.serial.rx
    | txi => exact txiBody_answers hI.serial.tx
    | lineArrive | lineShiftOut | busComplete => exact ⟨_, rfl⟩
  · exact ⟨_, rfl⟩

/-- Which choices are still to come is no part of the invariant (log 4). -/
theorem Inv.of_choices (hI : Inv s) (ins : List Choice) (n : Nat) : Inv { s with inputs := ins, draws := n } where
  host := { hI.host with }
  serial := { hI.serial with }
  locals := { hI.locals with }
  bus := { hI.bus with }

/-- Settles O46: a step is the step of one agent, and that of every agent answers (`perform_answers`). -/
theorem invariantStepNeverStops : Obligations.InvariantStepNeverStops := by
  intro s hI
  obtain ⟨c, ins, n, he⟩ := step_eq_perform s
  rw [he]
  exact perform_answers (hI.of_choices ins n) c

end Sys2Proof.Machine
end

section
/-! SUPPORT. The frames of the commands (spec/20_memory.md R61): what one HOST transition of a command of the Serial
Transport or of the bus can write, said once for every micro-step. -/

namespace Sys2Proof.Machine

variable {s t : State} {i : Instr}

/-! ## Moves of HOST alone (00_scope.md R9, 10_state.md R24, R25) -/

/-- Nothing but HOST's sequencing changes. -/
def HostAlone (u t : State) : Prop := ∃ h : Sequencer, t = u.withHost h

theorem HostAlone.refl (u : State) : HostAlone u u := ⟨u.host, rfl⟩

theorem HostAlone.awaitDone (u : State) (l : Label) : HostAlone u (awaitDone l u) := by
  unfold Machine.awaitDone
  split
  · exact .refl u
  · exact ⟨_, rfl⟩

theorem HostAlone.statusThen (l : Label) (v : Byte) (u : State) : HostAlone u (statusThen l v u) := ⟨_, rfl⟩

theorem HostAlone.checkStatus (u : State) (e : Byte) (line next first : Label) :
    HostAlone u (checkStatus e line next first u) := by
  unfold Machine.checkStatus
  split <;> exact ⟨_, rfl⟩

theorem HostAlone.lineEraseNext (u : State) : HostAlone u (lineEraseNext u) := by
  unfold Machine.lineEraseNext
  split <;> exact ⟨_, rfl⟩

/-- A change of the temporaries before a move of HOST. -/
theorem HostAlone.after_locals {l : Locals} (h : HostAlone (s.withLocals l) t) : HostAlone s t := by
  obtain ⟨q, rfl⟩ := h
  exact ⟨q, rfl⟩

theorem runCommand_hostAlone {check : State → Option Reason} {line : Option Label} {first : Label}
    {micro : State → Outcome} (h : runCommand i check line first micro s = .next t) :
    HostAlone s t ∨ s.host.op = some i := by
  rcases runCommand_next h with ⟨_, _, _, rfl⟩ | ⟨_, _, rfl⟩ | ⟨hop, _⟩ | ⟨_, _, _, rfl⟩
  · exact .inl ⟨_, rfl⟩
  · exact .inl ⟨_, rfl⟩
  · exact .inr hop
  · exact .inl (.refl _)

/-- A HOST transition of a command that is not in flight moves HOST alone (30_encoding.md R102). -/
theorem exec_hostAlone (h : exec i s = .next t) : HostAlone s t ∨ s.host.op = some i := by
  cases i <;> exact runCommand_hostAlone h

/-- A command of the Serial Transport (30_encoding.md R93). -/
def isSerial (i : Instr) : Prop :=
  (∃ r, i = .utInit r) ∨ (∃ b, i = .utSendByte b) ∨ i = .utRecvByte ∨ ∃ m, i = .utRecvLine m

/-! ## The bus commands (42_bus_primitives.md R190 to R196, 43_bus_helpers.md R231 to R233) -/

section Bus

/-- What a micro-step of `start`, `write`, the reads or `stop`, called or not, can do outside HOST: the registers of a
phase change, or, at P0, the stop condition is sent. -/
inductive PhaseMove (s t : State) : Prop
  | registers (dir : Direction) (state : BmState) (data : Byte) (done : Bool) (pending : Option Phase)
      (h : HostAlone (s.withBm
        { s.bm with dir := dir, state := state, data := data, done := done, pending := pending }) t)
  | stop (hl : s.host.step = .p0) (h : HostAlone (stopCondition s) t)

theorem HostAlone.phaseMove (h : HostAlone s t) : PhaseMove s t :=
  .registers s.bm.dir s.bm.state s.bm.data s.bm.done s.bm.pending h

variable {ret : Byte → State → State} {next : State → State}

theorem startMicro_phaseMove {a : DevAddr} {d : Direction} (hr : ∀ v u, HostAlone u (ret v u))
    (h : startMicro a d ret s = .next t) : PhaseMove s t := by
  rcases startMicro_next h with ⟨_, rfl⟩ | ⟨_, rfl⟩ | ⟨_, rfl⟩ | ⟨_, rfl⟩ | ⟨_, rfl⟩
  · exact .registers _ _ _ _ _ ⟨_, rfl⟩
  · exact (HostAlone.awaitDone _ _).phaseMove
  · exact .registers _ _ _ _ _ ⟨_, rfl⟩
  · exact (HostAlone.awaitDone _ _).phaseMove
  · exact .registers _ _ _ _ _ (hr _ _)

theorem writeMicro_phaseMove {b : Byte} (hr : ∀ v u, HostAlone u (ret v u)) (h : writeMicro b ret s = .next t) :
    PhaseMove s t := by
  rcases writeMicro_next h with ⟨_, rfl⟩ | ⟨_, rfl⟩ | ⟨_, rfl⟩
  · exact .registers _ _ _ _ _ ⟨_, rfl⟩
  · exact (HostAlone.awaitDone _ _).phaseMove
  · exact (hr _ _).phaseMove

theorem readAckMicro_phaseMove (hr : ∀ v u, HostAlone u (ret v u)) (h : readAckMicro ret s = .next t) :
    PhaseMove s t := by
  rcases readAckMicro_next h with ⟨_, rfl⟩ | ⟨_, rfl⟩ | ⟨_, rfl⟩
  · exact .registers _ _ _ _ _ ⟨_, rfl⟩
  · exact (HostAlone.awaitDone _ _).phaseMove
  · exact (hr _ _).phaseMove

theorem readNackMicro_phaseMove (hr : ∀ v u, HostAlone u (ret v u)) (h : readNackMicro ret s = .next t) :
    PhaseMove s t := by
  rcases readNackMicro_next h with ⟨_, rfl⟩ | ⟨_, rfl⟩ | ⟨_, rfl⟩
  · exact .registers _ _ _ _ _ ⟨_, rfl⟩
  · exact (HostAlone.awaitDone _ _).phaseMove
  · exact (hr _ _).phaseMove

theorem stopMicro_phaseMove (hn : ∀ u, HostAlone u (next u)) (h : stopMicro next s = .next t) : PhaseMove s t := by
  rcases stopMicro_next h with ⟨hl, rfl⟩ | ⟨_, rfl⟩
  · exact .stop hl ⟨_, rfl⟩
  · exact .registers _ _ _ _ _ (hn _)

theorem writeRegMicro_phaseMove {d : DevAddr} {r v : Byte} (h : writeRegMicro d r v s = .next t) : PhaseMove s t := by
  unfold writeRegMicro at h
  split at h
  · exact startMicro_phaseMove (HostAlone.statusThen _) h
  · exact writeMicro_phaseMove (HostAlone.statusThen _) h
  · exact writeMicro_phaseMove (HostAlone.statusThen _) h
  iterate 4 exact stopMicro_phaseMove (fun _ => ⟨_, rfl⟩) h
  · cases h
  · split at h <;> cases h <;> exact (HostAlone.checkStatus _ _ _ _ _).phaseMove

theorem readRegMicro_phaseMove {d : DevAddr} {r : Byte} (h : readRegMicro d r s = .next t) : PhaseMove s t := by
  unfold readRegMicro at h
  split at h
  · exact startMicro_phaseMove (HostAlone.statusThen _) h
  · exact writeMicro_phaseMove (HostAlone.statusThen _) h
  · exact startMicro_phaseMove (HostAlone.statusThen _) h
  · exact readNackMicro_phaseMove (fun _ _ => ⟨_, rfl⟩) h
  iterate 4 exact stopMicro_phaseMove (fun _ => ⟨_, rfl⟩) h
  · cases h
  · split at h <;> cases h <;> exact (HostAlone.checkStatus _ _ _ _ _).phaseMove

theorem readRegsMicro_phaseMove {d : DevAddr} {r : Byte} {n : Nat} (h : readRegsMicro d r n s = .next t) :
    PhaseMove s t := by
  unfold readRegsMicro at h
  split at h
  · exact startMicro_phaseMove (HostAlone.statusThen _) h
  · exact writeMicro_phaseMove (HostAlone.statusThen _) h
  · exact startMicro_phaseMove (HostAlone.statusThen _) h
  · exact readAckMicro_phaseMove (fun _ _ => ⟨_, rfl⟩) h
  · exact readNackMicro_phaseMove (fun _ _ => ⟨_, rfl⟩) h
  iterate 4 exact stopMicro_phaseMove (fun _ => ⟨_, rfl⟩) h
  · cases h
  · apply HostAlone.phaseMove
    split at h <;> cases h
    · exact .checkStatus _ _ _ _ _
    · exact .checkStatus _ _ _ _ _
    · unfold readRegsAddressed
      split <;> exact ⟨_, rfl⟩
    · exact ⟨_, rfl⟩
    · unfold readRegsTest
      split <;> exact ⟨_, rfl⟩

/-- A micro-step of any bus command but `BM_INIT`. -/
theorem exec_phaseMove (hop : s.host.op = some i) (hi : ∀ r, i ≠ .bmInit r)
    (hn : ¬ isSerial i) (h : exec i s = .next t) : PhaseMove s t := by
  cases i <;> replace h := (runCommand_inFlight hop).symm.trans h
  case utInit | utSendByte | utRecvByte | utRecvLine => simp [isSerial] at hn
  case bmInit r => exact absurd rfl (hi r)
  case bmStart => exact startMicro_phaseMove (fun _ _ => ⟨_, rfl⟩) h
  case bmWrite => exact writeMicro_phaseMove (fun _ _ => ⟨_, rfl⟩) h
  case bmReadAck => exact readAckMicro_phaseMove (fun _ _ => ⟨_, rfl⟩) h
  case bmReadNack => exact readNackMicro_phaseMove (fun _ _ => ⟨_, rfl⟩) h
  case bmStop => exact stopMicro_phaseMove (fun _ => ⟨_, rfl⟩) h
  case bmWriteReg => exact writeRegMicro_phaseMove h
  case bmReadReg => exact readRegMicro_phaseMove h
  case bmReadRegs => exact readRegsMicro_phaseMove h

/-- A micro-step of `BM_INIT` writes the rate, the timing and `bm_inited` alone (42_bus_primitives.md R190). -/
theorem bmInitMicro_writes {r : Nat} (h : bmInitMicro r s = .next t) : ∃ rate timing inited,
    HostAlone (s.withBm { s.bm with rate := rate, timing := timing, inited := inited }) t := by
  rcases bmInitMicro_next h with ⟨_, rfl⟩ | ⟨_, rfl⟩ <;> exact ⟨_, _, _, _, rfl⟩

/-- Settles O50: a command not in flight moves HOST alone; a micro-step of `BM_INIT` writes its three registers, and
that of another bus command the registers of a phase, or, at P0, the stop condition (`exec_phaseMove`). -/
theorem busCommandsFrame : Obligations.BusCommandsFrame := by
  intro i s t h hn
  rcases exec_hostAlone h with ⟨q, rfl⟩ | hop
  · exact ⟨rfl, rfl, rfl, rfl, rfl, fun _ => ⟨rfl, rfl⟩, fun _ => ⟨rfl, rfl, rfl⟩, fun _ => rfl⟩
  by_cases hi : ∃ r, i = .bmInit r
  · obtain ⟨r, rfl⟩ := hi
    obtain ⟨_, _, _, q, rfl⟩ := bmInitMicro_writes ((runCommand_inFlight hop).symm.trans h)
    exact ⟨rfl, rfl, rfl, rfl, rfl, fun _ => ⟨rfl, rfl⟩, fun h => absurd rfl (h r), fun _ => rfl⟩
  · cases exec_phaseMove hop (not_exists.1 hi) hn h with
    | registers _ _ _ _ _ h =>
      obtain ⟨q, rfl⟩ := h
      exact ⟨rfl, rfl, rfl, rfl, rfl, fun _ => ⟨rfl, rfl⟩, fun _ => ⟨rfl, rfl, rfl⟩, fun h => absurd h hi⟩
    | stop hl h =>
      obtain ⟨q, rfl⟩ := h
      exact ⟨rfl, rfl, rfl, rfl, rfl, fun h => by simp [hop, hl] at h, fun _ => ⟨rfl, rfl, rfl⟩,
        fun h => absurd h hi⟩

end Bus

/-! ## The commands of the Serial Transport (40_serial_transport.md R120, R122, R125, R127) -/

section SerialTransport

/-- An enqueue's slot write, whether the buffer is sound or not (20_memory.md R63). -/
theorem CircBuf.store_eq {r r' : CircBuf} {sp : Space} {N : Nat} {v : Byte} (h : r.store sp N v = .ok r') :
    r' = { r with buf := r.buf.write r.head.toNat v } := by
  unfold store Memory.writeSlot at h
  split at h <;> cases h
  rename_i hb
  split at hb <;> cases hb
  rfl

/-- What one HOST transition of command `i` can write of the Serial Transport: `UT_INIT` the divisor, the enables and
`ut_inited`; `send_byte`, issued or called, `tx_head`, `tx_ie` and, at S1, the slot at the head; `receive_byte` the
index `rx_tail`. -/
inductive SerialWrites (i : Instr) (s t : State) : Prop
  | nothing (h : HostAlone s t)
  | init (r : Nat) (hi : i = .utInit r) (baudDiv : BitVec 16) (rxIe txIe gie inited : Bool)
      (h : HostAlone (s.withUt { s.ut with
        baudDiv := baudDiv, rxIe := rxIe, txIe := txIe, gie := gie, inited := inited }) t)
  | send (hi : (∃ b, i = .utSendByte b) ∨ ∃ m, i = .utRecvLine m) (buf : Memory) (head : Byte) (txIe : Bool)
      (hslots : ∀ a, a ≠ s.ut.tx.head.toNat ∨ s.host.op = none ∨ s.host.step ≠ .s1 →
        buf.read? a = s.ut.tx.buf.read? a)
      (h : HostAlone (s.withUt { s.ut with tx := { s.ut.tx with buf := buf, head := head }, txIe := txIe }) t)
  | recv (hi : i = .utRecvByte ∨ ∃ m, i = .utRecvLine m) (tail : Byte)
      (h : HostAlone (s.withUt { s.ut with rx := { s.ut.rx with tail := tail } }) t)

theorem sendByteMicro_writes {b : Byte} {next : State → State} (hop : s.host.op = some i)
    (hi : (∃ b, i = .utSendByte b) ∨ ∃ m, i = .utRecvLine m) (hn : ∀ u, HostAlone u (next u))
    (h : sendByteMicro b next s = .next t) : SerialWrites i s t := by
  rcases sendByteMicro_next h with ⟨_, _, rfl⟩ | ⟨_, _, rfl⟩ | ⟨hl, tx, hs, rfl⟩ | ⟨_, rfl⟩ | ⟨_, rfl⟩
  · exact .nothing (.refl _)
  · exact .nothing ⟨_, rfl⟩
  · rw [CircBuf.store_eq hs]
    refine .send hi _ _ _ (fun a ha => Memory.read?_write_other _ _ ?_) ⟨_, rfl⟩
    simpa [hop, hl] using ha
  · exact .send hi _ _ _ (fun _ _ => rfl) ⟨_, rfl⟩
  · exact .send hi _ _ _ (fun _ _ => rfl) (hn _)

theorem recvByteMicro_writes {ret : Byte → State → State} (hi : i = .utRecvByte ∨ ∃ m, i = .utRecvLine m)
    (hr : ∀ v u, HostAlone u (ret v u)) (h : recvByteMicro ret s = .next t) : SerialWrites i s t := by
  rcases recvByteMicro_next h with ⟨_, _, rfl⟩ | ⟨_, _, rfl⟩ | ⟨_, _, _, rfl⟩ | ⟨_, rfl⟩
  · exact .nothing (.refl _)
  · exact .nothing ⟨_, rfl⟩
  · exact .nothing ⟨_, rfl⟩
  · exact .recv hi _ (hr _ _)

theorem utInitMicro_writes {r : Nat} (h : utInitMicro r s = .next t) : SerialWrites (.utInit r) s t := by
  rcases utInitMicro_next h with ⟨_, rfl⟩ | ⟨_, rfl⟩ | ⟨_, rfl⟩ | ⟨_, rfl⟩ <;>
    exact .init r rfl _ _ _ _ _ ⟨_, rfl⟩

/-- The lines of `receive_line` that are no call move HOST alone (R127). -/
theorem recvLineMicro_writes {m : Nat} (hop : s.host.op = some (.utRecvLine m)) (h : recvLineMicro m s = .next t) :
    SerialWrites (.utRecvLine m) s t := by
  unfold recvLineMicro at h
  split at h
  · exact recvByteMicro_writes (.inr ⟨m, rfl⟩) (fun _ _ => ⟨_, rfl⟩) h
  · split at h
    · exact sendByteMicro_writes hop (.inr ⟨m, rfl⟩) (fun _ => (HostAlone.lineEraseNext _).after_locals) h
    · cases h
  · exact sendByteMicro_writes hop (.inr ⟨m, rfl⟩) (fun _ => ⟨_, rfl⟩) h
  · cases h
  · apply SerialWrites.nothing
    split at h <;> cases h
    · exact ⟨_, rfl⟩
    · unfold lineTest
      split <;> exact ⟨_, rfl⟩
    · unfold lineTerminator
      split <;> exact ⟨_, rfl⟩
    · unfold lineEdit
      split
      · split
        · exact (HostAlone.lineEraseNext _).after_locals
        · exact ⟨_, rfl⟩
      · exact ⟨_, rfl⟩
    · unfold lineStore
      dsimp only
      split <;> exact ⟨_, rfl⟩
    · exact ⟨_, rfl⟩

/-- One HOST transition of a command of the Serial Transport, its issue or a micro-step of it. -/
theorem exec_serialWrites (hi : isSerial i) (h : exec i s = .next t) : SerialWrites i s t := by
  rcases exec_hostAlone h with hq | hop
  · exact .nothing hq
  rcases hi with ⟨r, rfl⟩ | ⟨b, rfl⟩ | rfl | ⟨m, rfl⟩ <;> replace h := (runCommand_inFlight hop).symm.trans h
  · exact utInitMicro_writes h
  · exact sendByteMicro_writes hop (.inl ⟨b, rfl⟩) (fun _ => ⟨_, rfl⟩) h
  · exact recvByteMicro_writes (.inl rfl) (fun _ _ => ⟨_, rfl⟩) h
  · exact recvLineMicro_writes hop h

/-- Settles O49: what each command can write is `exec_serialWrites`; everything else is as before. -/
theorem serialCommandsFrame : Obligations.SerialCommandsFrame := by
  intro i s t h hi
  cases exec_serialWrites hi h with
  | nothing h =>
    obtain ⟨q, rfl⟩ := h
    exact ⟨rfl, rfl, rfl, rfl, rfl, rfl, rfl, rfl, rfl, rfl, rfl, rfl, rfl, rfl, rfl, rfl, fun _ _ => rfl,
      fun _ => ⟨rfl, rfl⟩, fun _ => rfl, fun _ => rfl, fun _ => rfl⟩
  | init r hi _ _ _ _ _ h =>
    obtain ⟨q, rfl⟩ := h
    exact ⟨rfl, rfl, rfl, rfl, rfl, rfl, rfl, rfl, rfl, rfl, rfl, rfl, rfl, rfl, rfl, rfl, fun _ _ => rfl,
      fun _ => ⟨rfl, rfl⟩, by simp [hi], by simp [hi], by simp [hi]⟩
  | send hi _ _ _ hslots h =>
    obtain ⟨q, rfl⟩ := h
    refine ⟨rfl, rfl, rfl, rfl, rfl, rfl, rfl, rfl, rfl, rfl, rfl, rfl, rfl, rfl, rfl, rfl, hslots,
      ?_, fun _ => rfl, ?_, fun _ => rfl⟩
    · rintro ⟨r, rfl⟩; simp at hi
    · rintro rfl; simp at hi
  | recv hi _ h =>
    obtain ⟨q, rfl⟩ := h
    refine ⟨rfl, rfl, rfl, rfl, rfl, rfl, rfl, rfl, rfl, rfl, rfl, rfl, rfl, rfl, rfl, rfl, fun _ _ => rfl,
      ?_, ?_, fun _ => rfl, fun _ => rfl⟩
    · rintro ⟨r, rfl⟩; simp at hi
    · rintro ⟨b, rfl⟩; simp at hi

end SerialTransport

end Sys2Proof.Machine
end

section
/-! SUPPORT. The encoding (spec/30_encoding.md R90 to R97): words as numbers, what a word that selects a row looks like,
and that decoding and encoding are inverse. -/

namespace Sys2Proof

variable {w x : Word} {i : Instr}

/-! ## The fields of a word, by div and mod (R90, R92) -/

@[simp] theorem fieldB_toNat : (Word.fieldB w).toNat = w.toNat / 2 ^ 8 % 2 ^ 8 := by
  simp [Word.fieldB, Nat.shiftRight_eq_div_pow]

@[simp] theorem fieldC_toNat : (Word.fieldC w).toNat = w.toNat % 2 ^ 8 := by
  simp [Word.fieldC]

@[simp] theorem imm24_eq : Word.imm24 w = w.toNat % 2 ^ 24 := by
  simp [Word.imm24]

@[simp] theorem len16_eq : Word.len16 w = w.toNat % 2 ^ 16 := by
  simp [Word.len16]

@[simp] theorem address_toNat : (Word.address w).toNat = w.toNat / 2 ^ 8 % 2 ^ 7 := by
  simp [Word.address, Nat.shiftRight_eq_div_pow]

@[simp] theorem dev_toNat : (Word.dev w).toNat = w.toNat / 2 ^ 16 % 2 ^ 7 := by
  simp [Word.dev, Nat.shiftRight_eq_div_pow]

@[simp] theorem direction_bit : (Word.direction w).bit = w.toNat % 2 := by
  have hbit : w.getLsbD 0 = decide (w.toNat % 2 = 1) := by
    simp [BitVec.getLsbD, Nat.testBit_zero]
  unfold Word.direction
  rw [hbit]
  split <;> simp_all [Direction.bit]

/-! A field holds an operand iff it holds its number. -/

theorem fieldB_eq_iff {b : Byte} : Word.fieldB w = b ↔ w.toNat / 2 ^ 8 % 2 ^ 8 = b.toNat := by
  rw [← BitVec.toNat_inj, fieldB_toNat]

theorem fieldC_eq_iff {b : Byte} : Word.fieldC w = b ↔ w.toNat % 2 ^ 8 = b.toNat := by
  rw [← BitVec.toNat_inj, fieldC_toNat]

theorem address_eq_iff {a : DevAddr} : Word.address w = a ↔ w.toNat / 2 ^ 8 % 2 ^ 7 = a.toNat := by
  rw [← BitVec.toNat_inj, address_toNat]

theorem dev_eq_iff {d : DevAddr} : Word.dev w = d ↔ w.toNat / 2 ^ 16 % 2 ^ 7 = d.toNat := by
  rw [← BitVec.toNat_inj, dev_toNat]

theorem Direction.bit_lt (d : Direction) : d.bit < 2 := by
  cases d <;> decide

theorem Direction.bit_inj {d e : Direction} : d.bit = e.bit ↔ d = e := by
  cases d <;> cases e <;> decide

theorem direction_eq_iff {d : Direction} : Word.direction w = d ↔ w.toNat % 2 = d.bit := by
  rw [← Direction.bit_inj, direction_bit]

/-! ## The word of a command, as a number (R91) -/

theorem toNat_append_eq_add {m n : Nat} (a : BitVec m) (b : BitVec n) :
    (a ++ b).toNat = a.toNat * 2 ^ n + b.toNat := by
  rw [BitVec.toNat_append, ← Nat.shiftLeft_add_eq_or_of_lt b.isLt, Nat.shiftLeft_eq]

/-- The operands of a command as a number, each in its field (R91). -/
def Instr.operandNumber : Instr → Nat
  | .utInit rate | .bmInit rate => rate
  | .utSendByte byte | .bmWrite byte => byte.toNat
  | .utRecvLine maxLen => maxLen
  | .bmStart address direction => address.toNat * 2 ^ 8 + direction.bit
  | .bmWriteReg dev reg val => dev.toNat * 2 ^ 16 + reg.toNat * 2 ^ 8 + val.toNat
  | .bmReadReg dev reg => dev.toNat * 2 ^ 16 + reg.toNat * 2 ^ 8
  | .bmReadRegs dev reg count => dev.toNat * 2 ^ 16 + reg.toNat * 2 ^ 8 + count
  | .utRecvByte | .bmReadAck | .bmReadNack | .bmStop => 0

theorem operandBits_toNat (hi : i.wellFormed = true) : i.operandBits.toNat = i.operandNumber := by
  cases i <;> simp only [Instr.operandBits, Instr.operandNumber, toNat_append_eq_add, BitVec.toNat_ofNat]
  case utInit | utRecvLine | bmInit | bmReadRegs => simp [Instr.wellFormed] at hi; omega
  case bmStart d => have := d.bit_lt; omega
  all_goals simp <;> omega

/-- The word of a command is its opcode above its operands. -/
theorem encode_toNat (hi : i.wellFormed = true) :
    (encode i).toNat = i.opcode.toNat * 2 ^ 24 + i.operandNumber := by
  rw [← operandBits_toNat hi]
  exact toNat_append_eq_add _ _

theorem encode_eq_iff (hi : i.wellFormed = true) :
    encode i = w ↔ w.toNat = i.opcode.toNat * 2 ^ 24 + i.operandNumber := by
  rw [← BitVec.toNat_inj, encode_toNat hi, eq_comm]

/-! ## Which words select a row (R91, R93) -/

/-- The part of a number under a mask of ones in one block of bits. -/
theorem and_block (a n k : Nat) : a &&& (2 ^ n - 1) * 2 ^ k = a / 2 ^ k % 2 ^ n * 2 ^ k := by
  refine Nat.eq_of_testBit_eq fun j => ?_
  simp only [Nat.testBit_and, Nat.testBit_mul_two_pow, Nat.testBit_two_pow_sub_one, Nat.testBit_mod_two_pow,
    Nat.testBit_div_two_pow]
  by_cases hk : k ≤ j
  · simp [hk, Nat.sub_add_cancel hk, Bool.and_comm]
  · simp [hk]

/-- The same with ones in two blocks, the second below the first. -/
theorem and_two_blocks (a n k : Nat) {m l : Nat} (h : m + l ≤ k) :
    a &&& (2 ^ n - 1) * 2 ^ k + (2 ^ m - 1) * 2 ^ l = a / 2 ^ k % 2 ^ n * 2 ^ k + a / 2 ^ l % 2 ^ m * 2 ^ l := by
  have hlow : ∀ b < 2 ^ m, b * 2 ^ l < 2 ^ k := fun b hb =>
    calc b * 2 ^ l < 2 ^ m * 2 ^ l := Nat.mul_lt_mul_of_pos_right hb (Nat.two_pow_pos l)
      _ = 2 ^ (m + l) := (Nat.pow_add 2 m l).symm
      _ ≤ 2 ^ k := Nat.pow_le_pow_right (by decide) h
  have hm := Nat.two_pow_pos m
  have hor : ∀ c, ∀ b < 2 ^ m, c * 2 ^ k + b * 2 ^ l = c * 2 ^ k ||| b * 2 ^ l := fun c b hb => by
    rw [Nat.mul_comm c, Nat.two_pow_add_eq_or_of_lt (hlow b hb)]
  rw [hor _ _ (by omega), hor _ _ (Nat.mod_lt _ hm), Nat.and_or_distrib_left, and_block, and_block]

/-- The number of a masked word, the ones of the mask in two blocks. -/
theorem toNat_and_two_blocks {mask : Word} (n k m l : Nat) (h : m + l ≤ k)
    (hm : mask.toNat = (2 ^ n - 1) * 2 ^ k + (2 ^ m - 1) * 2 ^ l) :
    (w &&& mask).toNat = w.toNat / 2 ^ k % 2 ^ n * 2 ^ k + w.toNat / 2 ^ l % 2 ^ m * 2 ^ l := by
  rw [BitVec.toNat_and, hm, and_two_blocks _ _ _ h]

section Formats

/-! Each format of R91: a word selects a row of it iff its opcode is the row's and the must-be-zero bits are zero. -/

variable (hx : x.toNat % 2 ^ 24 = 0)
include hx

@[simp] theorem selects_formatZ :
    w &&& 0xFFFFFFFF#32 = x ↔ w.toNat / 2 ^ 24 = x.toNat / 2 ^ 24 ∧ w.toNat % 2 ^ 24 = 0 := by
  rw [← BitVec.toNat_inj, toNat_and_two_blocks 32 0 0 0 (by decide) (by decide)]
  omega

@[simp] theorem selects_formatI : w &&& 0xFF000000#32 = x ↔ w.toNat / 2 ^ 24 = x.toNat / 2 ^ 24 := by
  rw [← BitVec.toNat_inj, toNat_and_two_blocks 8 24 0 0 (by decide) (by decide)]
  omega

@[simp] theorem selects_formatB :
    w &&& 0xFFFFFF00#32 = x ↔ w.toNat / 2 ^ 24 = x.toNat / 2 ^ 24 ∧ w.toNat / 2 ^ 8 % 2 ^ 16 = 0 := by
  rw [← BitVec.toNat_inj, toNat_and_two_blocks 24 8 0 0 (by decide) (by decide)]
  omega

@[simp] theorem selects_formatL :
    w &&& 0xFFFF0000#32 = x ↔ w.toNat / 2 ^ 24 = x.toNat / 2 ^ 24 ∧ w.toNat / 2 ^ 16 % 2 ^ 8 = 0 := by
  rw [← BitVec.toNat_inj, toNat_and_two_blocks 16 16 0 0 (by decide) (by decide)]
  omega

@[simp] theorem selects_formatS :
    w &&& 0xFFFF80FE#32 = x ↔
      w.toNat / 2 ^ 24 = x.toNat / 2 ^ 24 ∧ w.toNat / 2 ^ 15 % 2 ^ 9 = 0 ∧ w.toNat / 2 % 2 ^ 7 = 0 := by
  rw [← BitVec.toNat_inj, toNat_and_two_blocks 17 15 7 1 (by decide) (by decide)]
  omega

@[simp] theorem selects_formatR3 :
    w &&& 0xFF800000#32 = x ↔ w.toNat / 2 ^ 24 = x.toNat / 2 ^ 24 ∧ w.toNat / 2 ^ 23 % 2 = 0 := by
  rw [← BitVec.toNat_inj, toNat_and_two_blocks 9 23 0 0 (by decide) (by decide)]
  omega

@[simp] theorem selects_formatR2 :
    w &&& 0xFF8000FF#32 = x ↔
      w.toNat / 2 ^ 24 = x.toNat / 2 ^ 24 ∧ w.toNat / 2 ^ 23 % 2 = 0 ∧ w.toNat % 2 ^ 8 = 0 := by
  rw [← BitVec.toNat_inj, toNat_and_two_blocks 9 23 8 0 (by decide) (by decide)]
  omega

end Formats

/-! ## The rows exclude each other, and decoding (R93, R95, R97) -/

theorem Row.selects_iff {r : Row} : r.selects w = true ↔ w &&& r.mask = r.mtch := by
  simp [Row.selects]

/-- A row is selected only by words with its opcode: every mask covers the opcode. -/
theorem opcode_of_selects {r : Row} (hr : r ∈ rows) (h : r.selects w = true) :
    Word.opcode w = Word.opcode r.mtch := by
  have hmask : ∀ r ∈ rows, Word.opcode r.mask = BitVec.allOnes 8 := by decide
  have hand : Word.opcode (w &&& r.mask) = Word.opcode w &&& Word.opcode r.mask := BitVec.extractLsb'_and
  rw [← Row.selects_iff.1 h, hand, hmask r hr, BitVec.and_allOnes]

theorem row_opcodes_nodup : (rows.map fun r => Word.opcode r.mtch).Nodup := by
  decide

/-- No word selects two rows. -/
theorem row_unique {r q : Row} (hr : r ∈ rows) (hq : q ∈ rows) (h : r.selects w = true) (h' : q.selects w = true) :
    r = q :=
  List.inj_on_of_nodup_map row_opcodes_nodup hr hq
    ((opcode_of_selects hr h).symm.trans (opcode_of_selects hq h'))

/-- The same for the places of the rows in the table. -/
theorem row_place_unique {j k : Nat} {r q : Row} (hr : rows[j]? = some r) (hq : rows[k]? = some q)
    (h : r.selects w = true) (h' : q.selects w = true) : k = j := by
  have hk : k < rows.length := (List.getElem?_eq_some_iff.1 hq).1
  have hrq : r = q := row_unique (List.mem_of_getElem? hr) (List.mem_of_getElem? hq) h h'
  exact (List.getElem?_inj hk row_opcodes_nodup.of_map).1 (hq.trans (hrq ▸ hr).symm)

/-- A word decodes to the command of the row it selects. -/
theorem decode_of_selects {r : Row} (hr : r ∈ rows) (h : r.selects w = true) : decode w = .ok (r.operands w) := by
  unfold decode
  split
  · rename_i q hq
    rw [row_unique (List.mem_of_find?_eq_some hq) hr (List.find?_some (p := (Row.selects · w)) hq) h]
  · rename_i hnone
    exact absurd h (List.find?_eq_none.1 hnone r hr)

theorem decode_of_place (j : Nat) (hj : j < rows.length) (h : w &&& rows[j].mask = rows[j].mtch) :
    decode w = .ok (rows[j].operands w) :=
  decode_of_selects (List.getElem_mem hj) (Row.selects_iff.2 h)

/-- A word that decodes selects the row of its command. -/
theorem selects_of_decode (h : decode w = .ok i) : ∃ r ∈ rows, r.selects w = true ∧ r.operands w = i := by
  unfold decode at h
  split at h
  · rename_i r hr
    cases h
    exact ⟨r, List.mem_of_find?_eq_some hr, List.find?_some (p := (Row.selects · w)) hr, rfl⟩
  · split at h <;> cases h

/-- A word is illegal iff it selects no row. -/
theorem decode_error_iff : (∃ e, decode w = .error e) ↔ ¬ ∃ r ∈ rows, r.selects w = true := by
  constructor
  · rintro ⟨e, he⟩ ⟨r, hr, h⟩
    simp [decode_of_selects hr h] at he
  · intro hnone
    cases hd : decode w with
    | error e => exact ⟨e, rfl⟩
    | ok i =>
      obtain ⟨r, hr, h, _⟩ := selects_of_decode hd
      exact absurd ⟨r, hr, h⟩ hnone

/-- The words that select a row, by opcode and must-be-zero bits (R91, R93). -/
theorem exists_selects_iff :
    (∃ r ∈ rows, r.selects w = true) ↔
      w.toNat / 2 ^ 24 = 0x10 ∨
      (w.toNat / 2 ^ 24 = 0x11 ∧ w.toNat / 2 ^ 8 % 2 ^ 16 = 0) ∨
      (w.toNat / 2 ^ 24 = 0x12 ∧ w.toNat % 2 ^ 24 = 0) ∨
      (w.toNat / 2 ^ 24 = 0x13 ∧ w.toNat / 2 ^ 16 % 2 ^ 8 = 0) ∨
      w.toNat / 2 ^ 24 = 0x20 ∨
      (w.toNat / 2 ^ 24 = 0x21 ∧ w.toNat / 2 ^ 15 % 2 ^ 9 = 0 ∧ w.toNat / 2 % 2 ^ 7 = 0) ∨
      (w.toNat / 2 ^ 24 = 0x22 ∧ w.toNat / 2 ^ 8 % 2 ^ 16 = 0) ∨
      (w.toNat / 2 ^ 24 = 0x23 ∧ w.toNat % 2 ^ 24 = 0) ∨
      (w.toNat / 2 ^ 24 = 0x24 ∧ w.toNat % 2 ^ 24 = 0) ∨
      (w.toNat / 2 ^ 24 = 0x25 ∧ w.toNat % 2 ^ 24 = 0) ∨
      (w.toNat / 2 ^ 24 = 0x28 ∧ w.toNat / 2 ^ 23 % 2 = 0) ∨
      (w.toNat / 2 ^ 24 = 0x29 ∧ w.toNat / 2 ^ 23 % 2 = 0 ∧ w.toNat % 2 ^ 8 = 0) ∨
      (w.toNat / 2 ^ 24 = 0x2A ∧ w.toNat / 2 ^ 23 % 2 = 0) := by
  simp [rows, Row.selects_iff]

/-! ## Decoding and encoding are inverse (R90 to R95) -/

/-- A word that selects a row is the encoding of the row's command: opcode, fields and zeros make up the word. -/
theorem encode_operands {r : Row} (hr : r ∈ rows) (h : r.selects w = true) : encode (r.operands w) = w := by
  rw [encode_eq_iff (Machine.operands_wellFormed w r hr)]
  rw [Row.selects_iff] at h
  have hbit := direction_bit (w := w)
  have hw := w.isLt
  simp only [rows, List.mem_cons, List.not_mem_nil, or_false] at hr
  rcases hr with rfl | rfl | rfl | rfl | rfl | rfl | rfl | rfl | rfl | rfl | rfl | rfl | rfl <;>
    simp [Instr.opcode, Instr.operandNumber] at h ⊢ <;> omega

/-- The word of a command that fits its fields selects the row of the command, whose fields hold the operands. -/
theorem encode_selects (hi : i.wellFormed = true) :
    ∃ r ∈ rows, r.selects (encode i) = true ∧ r.operands (encode i) = i := by
  have hn := encode_toNat hi
  cases i <;>
    simp [rows, Row.selects_iff, fieldB_eq_iff, fieldC_eq_iff, address_eq_iff, dev_eq_iff, direction_eq_iff] <;>
    simp [Instr.opcode, Instr.operandNumber] at hn
  case bmStart d => have := d.bit_lt; omega
  case utInit | utRecvLine | bmInit | bmReadRegs => simp [Instr.wellFormed] at hi; omega
  all_goals omega

/-- A word decodes to a command iff it is the encoding of the command, whose operands fit their fields. -/
theorem decode_ok_iff : decode w = .ok i ↔ i.wellFormed = true ∧ encode i = w := by
  constructor
  · intro h
    obtain ⟨r, hr, hsel, hop⟩ := selects_of_decode h
    exact ⟨Machine.decode_wellFormed h, hop ▸ encode_operands hr hsel⟩
  · rintro ⟨hi, rfl⟩
    obtain ⟨r, hr, hsel, hop⟩ := encode_selects hi
    rw [decode_of_selects hr hsel, hop]

/-- Settles O1: the word of a command selects the command's row, and its fields hold the operands. -/
theorem decodeOfEncode : Obligations.DecodeOfEncode := by
  intro i hi
  exact decode_ok_iff.2 ⟨hi, rfl⟩

/-- Settles O2: a word that decodes selects a row, and its opcode, its fields and zeros make up the word. -/
theorem encodeOfDecode : Obligations.EncodeOfDecode := by
  intro w i h
  exact decode_ok_iff.1 h

/-- Settles O3: the rows are exclusive because their opcodes differ and every mask covers the opcode. -/
theorem rowsExclusive : Obligations.RowsExclusive := by
  refine ⟨by decide, fun w => ⟨rfl, fun j a ha h => ?_, fun h => ?_⟩⟩
  · have hsel : a.selects w = true := Row.selects_iff.2 h
    exact ⟨decode_of_selects (List.mem_of_getElem? ha) hsel,
      fun k b hb hb' => row_place_unique ha hb hsel (Row.selects_iff.2 hb')⟩
  · rw [decode_error_iff]
    rintro ⟨r, hr, hsel⟩
    obtain ⟨j, hj⟩ := List.mem_iff_getElem?.1 hr
    exact h j r hj (Row.selects_iff.1 hsel)

end Sys2Proof
end

section
/-! SUPPORT. The issue of a word (spec/30_encoding.md R102 to R104, spec/60_exceptions.md R267, R272, R273): what a
command is refused for, where it starts, and what an illegal word does. -/

namespace Sys2Proof.Machine

variable {s : State} {w : Word} {i : Instr}

/-! ## The issue of a command (R102, R104) -/

/-- The contract check of a command (R104). -/
def contractCheck : Instr → State → Option Reason
  | .utInit r => checkUtInit r
  | .utSendByte _ | .utRecvByte => checkSerial
  | .utRecvLine n => checkRecvLine n
  | .bmInit r => checkBmInit r
  | .bmStart _ _ => checkStart
  | .bmWrite _ => checkWrite
  | .bmReadAck | .bmReadNack => checkRead
  | .bmStop => checkStop
  | .bmWriteReg _ _ _ | .bmReadReg _ _ => checkHelper
  | .bmReadRegs _ _ n => checkReadRegs n

/-- Where a command starts: at its first label, in its first line when that line is a call (log 9). -/
def startPosition : Instr → Option Label × Label
  | .utInit _ => (none, .i0)
  | .utSendByte _ => (none, .s0)
  | .utRecvByte => (none, .v0)
  | .utRecvLine _ => (none, .l0)
  | .bmInit _ => (none, .n0)
  | .bmStart _ _ => (none, .t0)
  | .bmWrite _ => (none, .w0)
  | .bmReadAck => (none, .a0)
  | .bmReadNack => (none, .k0)
  | .bmStop => (none, .p0)
  | .bmWriteReg _ _ _ => (some .h0, .t0)
  | .bmReadReg _ _ => (some .g0, .t0)
  | .bmReadRegs _ _ _ => (some .q0, .t0)

theorem exec_refused {reason : Reason} (hop : s.host.op = none) (hc : contractCheck i s = some reason) :
    exec i s = .next (refusedAs s i reason) := by
  cases i <;> exact runCommand_refused hop hc

theorem exec_accepted (hop : s.host.op = none) (hc : contractCheck i s = none) :
    exec i s = .next (acceptedAs s i (startPosition i).1 (startPosition i).2) := by
  cases i <;> exact runCommand_accepted hop hc

/-! ## The rows of R104, in order (60_exceptions.md R267) -/

section Rows

variable {applies inited : Bool} {reason notInited : Reason} {rest : List (Bool × Reason)}

theorem firstRefusal_first (h : applies = true) : firstRefusal ((applies, reason) :: rest) = some reason := by
  rw [h]; rfl

/-- The first row of most checks: the unit has not been initialised. -/
theorem firstRefusal_notInited (h : inited = false) : firstRefusal ((!inited, reason) :: rest) = some reason := by
  rw [h]; rfl

/-- The row after it. -/
theorem firstRefusal_inited (h : inited = true) :
    firstRefusal ((!inited, notInited) :: rest) = firstRefusal rest := by
  rw [h]; rfl

theorem firstRefusal_passed (h : applies = false) :
    firstRefusal ((applies, reason) :: rest) = firstRefusal rest := by
  rw [h]; rfl

/-- A command whose unit is initialised is refused by the second row. -/
theorem firstRefusal_second (hi : inited = true) (h : applies = true) :
    firstRefusal ((!inited, notInited) :: (applies, reason) :: rest) = some reason :=
  (firstRefusal_inited hi).trans (firstRefusal_first h)

/-- And it is accepted when that is the last row and does not apply. -/
theorem firstRefusal_accepts (hi : inited = true) (h : applies = false) :
    firstRefusal [(!inited, notInited), (applies, reason)] = none :=
  (firstRefusal_inited hi).trans (firstRefusal_passed h)

/-- A row that applies refuses, if none before it does. -/
theorem exists_refusal_of_mem {rows : List (Bool × Reason)} (h : (true, reason) ∈ rows) :
    ∃ q, firstRefusal rows = some q := by
  induction rows with
  | nil => simp at h
  | cons row rows ih =>
    obtain ⟨applies, q⟩ := row
    cases applies with
    | true => exact ⟨q, rfl⟩
    | false => exact ih (by simpa using h)

end Rows

/-! Most rows apply when a condition fails. -/

theorem row_applies {b : Bool} {p : Prop} (hb : b = true ↔ p) (hp : ¬ p) : (!b) = true := by
  rw [Bool.not_eq_true', ← Bool.not_eq_true, hb]
  exact hp

theorem row_passes {b : Bool} {p : Prop} (hb : b = true ↔ p) (hp : p) : (!b) = false := by
  rw [hb.2 hp]; rfl

/-- A rate is refused that is 0, or whose quotient is 0 or has no 16-bit divisor (R104 row 1). -/
theorem badBaud_iff {r : Nat} :
    (r == 0 || baudQuotient s.cfg.F_REF r == 0 || decide (baudQuotient s.cfg.F_REF r - 1 > 65535)) = true ↔
      r = 0 ∨ s.cfg.F_REF / (16 * r) = 0 ∨ s.cfg.F_REF / (16 * r) - 1 > 65535 := by
  rw [Bool.or_eq_true, Bool.or_eq_true, beq_iff_eq, beq_iff_eq, decide_eq_true_iff, or_assoc]
  rfl

theorem midTransaction_iff :
    midTransaction s = true ↔ s.bm.state = .addressAcked ∨ s.bm.state = .writing ∨ s.bm.state = .reading := by
  simp only [midTransaction, Bool.or_eq_true, beq_iff_eq, or_assoc]

/-- The bus is idle or in mid-transaction, unless it is between the two phases of a start or of a stop
(42_bus_primitives.md R205). -/
theorem mayStart_iff :
    (s.bm.state == .idle || midTransaction s) = true ↔ s.bm.state ≠ .started ∧ s.bm.state ≠ .stopped := by
  rw [Bool.or_eq_true, midTransaction_iff]
  cases s.bm.state <;> decide

theorem mayStop_iff :
    midTransaction s = true ↔ ¬ (s.bm.state = .idle ∨ s.bm.state = .started ∨ s.bm.state = .stopped) := by
  rw [midTransaction_iff]
  cases s.bm.state <;> decide

/-- The bus is addressed in a direction, and what follows the address is of that direction. -/
theorem mayTransfer_iff {st : BmState} {d : Direction} :
    ((s.bm.state == .addressAcked || s.bm.state == st) && s.bm.dir == d) = true ↔
      (s.bm.state = .addressAcked ∨ s.bm.state = st) ∧ s.bm.dir = d := by
  simp only [Bool.and_eq_true, Bool.or_eq_true, beq_iff_eq]

/-- Settles O10: with HOST idle the issue of a command is its contract check, and the first row that applies names the
reason. -/
theorem contractViolationsRefused : Obligations.ContractViolationsRefused := by
  intro s hop
  refine ⟨fun r h => exec_refused hop (firstRefusal_first (badBaud_iff.2 h)),
    fun b h => exec_refused hop (firstRefusal_notInited h),
    fun h => exec_refused hop (firstRefusal_notInited h),
    fun n h => exec_refused hop (firstRefusal_notInited h),
    fun h => exec_refused hop (firstRefusal_second h rfl),
    exec_refused hop (firstRefusal_first (rest := [(s.bm.state != .idle, .busSequence)]) rfl),
    fun r hr h => exec_refused hop ((firstRefusal_passed (beq_false_of_ne hr)).trans
      (firstRefusal_first (bne_iff_ne.2 h))),
    fun i hi h => exec_refused hop ?_,
    fun a d h => exec_refused hop (firstRefusal_notInited h),
    fun b h => exec_refused hop (firstRefusal_notInited h),
    fun d r v h => exec_refused hop (firstRefusal_notInited h),
    fun d r h => exec_refused hop (firstRefusal_notInited h),
    fun d r n h => exec_refused hop (firstRefusal_notInited h),
    fun hin => ⟨
      fun a d h => exec_refused hop (firstRefusal_second hin (row_applies mayStart_iff (by tauto))),
      fun b h => exec_refused hop (firstRefusal_second hin (row_applies mayTransfer_iff h)),
      fun i hi h => exec_refused hop ?_,
      fun h => exec_refused hop (firstRefusal_second hin (row_applies mayStop_iff (not_not_intro h))),
      fun d r v h => exec_refused hop (firstRefusal_second hin (bne_iff_ne.2 h)),
      fun d r h => exec_refused hop (firstRefusal_second hin (bne_iff_ne.2 h)),
      fun d r n h => exec_refused hop (firstRefusal_second hin (bne_iff_ne.2 h)),
      fun d r h => exec_refused hop ((firstRefusal_inited hin).trans
        ((firstRefusal_passed (bne_eq_false_iff_eq.2 h)).trans (firstRefusal_first rfl)))⟩⟩
  · simp only [List.mem_cons, List.not_mem_nil, or_false] at hi
    rcases hi with rfl | rfl | rfl <;> exact firstRefusal_notInited h
  · have hread : checkRead s = some .busSequence := firstRefusal_second hin (row_applies mayTransfer_iff h)
    simp only [List.mem_cons, List.not_mem_nil, or_false] at hi
    rcases hi with rfl | rfl <;> exact hread

/-- Settles O11: no row of the command's check applies, so the issue starts it. -/
theorem commandsAccepted : Obligations.CommandsAccepted := by
  intro s hop
  refine ⟨fun r hr hq hd => exec_accepted hop (firstRefusal_passed ?_),
    fun hin => ⟨fun b => exec_accepted hop (firstRefusal_inited hin), exec_accepted hop (firstRefusal_inited hin),
      fun n hn => exec_accepted hop (firstRefusal_accepts hin (beq_false_of_ne (by omega)))⟩,
    fun r hr hs => exec_accepted hop ((firstRefusal_passed (beq_false_of_ne hr)).trans
      (firstRefusal_passed (bne_eq_false_iff_eq.2 hs))),
    fun hin => ⟨
      fun a d h h' => exec_accepted hop (firstRefusal_accepts hin (row_passes mayStart_iff ⟨h, h'⟩)),
      fun b h hd => exec_accepted hop (firstRefusal_accepts hin (row_passes mayTransfer_iff ⟨h, hd⟩)),
      fun h hd => ?_,
      fun h => exec_accepted hop (firstRefusal_accepts hin (row_passes midTransaction_iff h)),
      fun hs => ⟨fun d r v => exec_accepted hop (firstRefusal_accepts hin (bne_eq_false_iff_eq.2 hs)),
        fun d r => exec_accepted hop (firstRefusal_accepts hin (bne_eq_false_iff_eq.2 hs)),
        fun d r n hn => exec_accepted hop ((firstRefusal_inited hin).trans
          ((firstRefusal_passed (bne_eq_false_iff_eq.2 hs)).trans
            (firstRefusal_passed (beq_false_of_ne (by omega)))))⟩⟩⟩
  · rw [← Bool.not_eq_true, badBaud_iff]
    omega
  · have hread : checkRead s = none :=
      firstRefusal_accepts hin (row_passes mayTransfer_iff ⟨h, hd⟩)
    exact ⟨exec_accepted hop hread, exec_accepted hop hread⟩

/-! ## The step whose choice is an issue (R102; 10_state.md R24) -/

/-- With HOST idle the issue of a word is `exec` of the command it decodes to. -/
theorem perform_issue (hop : s.host.op = none) (h : decode w = .ok i) : perform (.issue w) s = exec i s := by
  simp [perform, enabled, issueWord, hop, h]

/-- With HOST idle the issue of an illegal word is recorded and does nothing else (60_exceptions.md R272). -/
theorem perform_issue_illegal {e : DecodeError} (hop : s.host.op = none) (h : decode w = .error e) :
    perform (.issue w) s = .next (s.raise (.illegalCommand w)) := by
  simp [perform, enabled, issueWord, hop, h]

/-! ## Operands and illegal words (R92, R97) -/

/-- Settles O4: a word that decodes holds the operands in the fields of its row; a word with the opcode and zeros in the
must-be-zero bits selects the row, whatever its fields; a refused value is a row of the contract check. -/
theorem operandsAreUnsignedFields : Obligations.OperandsAreUnsignedFields := by
  intro w
  refine ⟨fun r h => ?_, fun b h => ?_, fun n h => ?_, fun r h => ?_, fun a d h => ?_, fun b h => ?_,
    fun d r v h => ?_, fun d r h => ?_, fun d r n h => ?_, fun h => ?_, fun h => ?_, fun h => ?_, fun h => ?_,
    fun s hop h => ?_⟩
  iterate 9
    · have hfields := selects_of_decode h
      simp [rows, fieldB_eq_iff, fieldC_eq_iff, address_eq_iff, dev_eq_iff, direction_eq_iff] at hfields
      omega
  · exact ⟨_, decode_of_place 0 (by decide) (by simp [rows]; omega)⟩
  · exact ⟨_, decode_of_place 3 (by decide) (by simp [rows]; omega)⟩
  · exact ⟨_, decode_of_place 4 (by decide) (by simp [rows]; omega)⟩
  · exact ⟨_, _, _, decode_of_place 12 (by decide) (by simp [rows]; omega)⟩
  · obtain ⟨i, reason, hi, hc⟩ : ∃ i reason, decode w = .ok i ∧ contractCheck i s = some reason := by
      rcases h with ⟨r, hi, hr⟩ | hi | hi | ⟨d, r, hi⟩
      · exact ⟨_, _, hi, firstRefusal_first (badBaud_iff.2 hr)⟩
      · obtain ⟨q, hq⟩ := exists_refusal_of_mem (.tail (!s.ut.inited, .serialNotInited) (.head []))
        exact ⟨_, q, hi, hq⟩
      · exact ⟨_, _, hi, firstRefusal_first (rest := [(s.bm.state != .idle, .busSequence)]) rfl⟩
      · obtain ⟨q, hq⟩ := exists_refusal_of_mem (.tail (!s.bm.inited, .busNotInited)
          (.tail (s.bm.state != .idle, .busSequence) (.head _)))
        exact ⟨_, q, hi, hq⟩
    exact ⟨reason, encode i, (perform_issue hop hi).trans (exec_refused hop hc)⟩

/-- Settles O5: a word is illegal iff it selects no row; for each opcode what is left is its must-be-zero bits. -/
theorem illegalWords : Obligations.IllegalWords := by
  refine fun w => ⟨?_, fun s e he hop => perform_issue_illegal hop he⟩
  rw [decode_error_iff, exists_selects_iff]
  simp only [List.mem_cons, List.not_mem_nil, or_false]
  generalize w.toNat / 2 ^ 24 = op
  by_cases hop : op ∈ rows.map fun r => (Word.opcode r.mtch).toNat
  · simp [rows, Word.opcode] at hop
    rcases hop with rfl | rfl | rfl | rfl | rfl | rfl | rfl | rfl | rfl | rfl | rfl | rfl | rfl <;>
      simp [Decidable.imp_iff_not_or]
  · simp [rows, Word.opcode] at hop
    simp [hop]

/-- Settles O7: the issue is enabled iff HOST is idle. -/
theorem stepIssuesTheDecodedCommand : Obligations.StepIssuesTheDecodedCommand := by
  intro s w rest i hin hi
  rw [step_placed hin]
  refine ⟨fun hop => perform_issue hop hi, fun hop => perform_not_enabled ?_⟩
  exact Option.isNone_eq_false_iff.2 (Option.isSome_iff_ne_none.2 hop)

/-- Settles O9: the placed word is the next choice, and HOST is idle. -/
theorem fetchWordIsIssuedNext : Obligations.FetchWordIsIssuedNext := by
  intro s nbits w i h
  have hi : decode (BitVec.ofNat 32 (w % 2 ^ nbits)) = .ok i := by
    unfold decodeTableWord at h
    split at h
    · cases hd : decode (BitVec.ofNat 32 (w % 2 ^ nbits)) <;> simp_all [Except.toOption]
    · cases h
  rw [step_placed (s := s.withFetchWord nbits w) rfl]
  exact perform_issue rfl hi

/-- Settles O6: the words, evaluated. -/
theorem tableWordsDecode : Obligations.TableWordsDecode := by
  refine ⟨?_, ?_, ?_, ?_, ?_, ?_, ?_, ?_, ?_, ?_, ?_⟩ <;> decide

end Sys2Proof.Machine
end

section
/-! SUPPORT. `UT_SEND_STRING` (spec/30_encoding.md R100, spec/40_serial_transport.md R122, R124): one `UT_SEND_BYTE` run
to its end, and the string by induction on its bytes. -/

namespace Sys2Proof.Machine

variable {s t : State} {c : Choice} {cs ds : List Choice} {b : Byte} {tx : CircBuf}

/-! ## Runs of choices -/

theorem runChoices_cons (h : perform c s = .next t) : runChoices (c :: cs) s = runChoices cs t := by
  simp only [runChoices, h]

theorem runChoices_append (h : runChoices cs s = .next t) : runChoices (cs ++ ds) s = runChoices ds t := by
  induction cs generalizing s with
  | nil => cases h; rfl
  | cons c cs ih =>
    cases hc : perform c s with
    | next u =>
      rw [runChoices_cons hc] at h
      rw [List.cons_append, runChoices_cons hc, ih h]
    | fault f => simp [runChoices, hc] at h
    | refused r => simp [runChoices, hc] at h

/-! ## One byte (40_serial_transport.md R122) -/

/-- HOST's step with `UT_SEND_BYTE b` in flight, not held. -/
theorem perform_sendByte (hop : s.host.op = some (.utSendByte b)) (hh : held s = false) :
    perform .host s = sendByteMicro b (fun t => t.ret (.utSendByte b) .unit) s :=
  (perform_host hop hh).trans (runCommand_inFlight hop)

theorem sendByteMicro_store {ret : State → State} (hs : s.host.step = .s1)
    (htx : s.ut.tx.store .txbuf s.cfg.N b = .ok tx) :
    sendByteMicro b ret s = .next ((s.withUt { s.ut with tx := tx }).advance .s2) := by
  simp only [sendByteMicro, hs, htx]

/-- The four micro-steps of `UT_SEND_BYTE b`, with room: S0 passes, S1 stores, S2 publishes, S3 enables and returns. -/
theorem sendByte_microSteps_run (hop : s.host.op = some (.utSendByte b)) (hs : s.host.step = .s0)
    (hf : s.ut.tx.full s.cfg.N = false) (htx : s.ut.tx.store .txbuf s.cfg.N b = .ok tx) :
    runChoices [.host, .host, .host, .host] s = .next { s with
      ut.tx := tx.publish s.cfg.N
      ut.txIe := true
      host := returned s.host (.utSendByte b) .s3 .unit } := by
  have hheld : held s = false := by simp [held, hs, hf]
  calc runChoices [.host, .host, .host, .host] s
    _ = runChoices [.host, .host, .host] (s.advance .s1) :=
      runChoices_cons ((perform_sendByte hop hheld).trans (by simp [sendByteMicro, hs, hheld]))
    _ = runChoices [.host, .host] ((s.withUt { s.ut with tx := tx }).advance .s2) :=
      runChoices_cons ((perform_sendByte (s := s.advance .s1) hop rfl).trans (sendByteMicro_store rfl htx))
    _ = runChoices [.host] ((s.withUt { s.ut with tx := tx.publish s.cfg.N }).advance .s3) :=
      runChoices_cons (perform_sendByte hop rfl)
    _ = _ := runChoices_cons (perform_sendByte hop rfl)

/-- `UT_SEND_BYTE b` issued and run to its end, with room in a sound buffer: the live bytes gain `b`, the enable is
set, and nothing else of the units changes. -/
theorem sendByte_run (hop : s.host.op = none) (hin : s.ut.inited = true) (hcfg : s.cfg.legal)
    (hs : s.ut.tx.Sound s.cfg.N) (hf : s.ut.tx.full s.cfg.N = false) :
    ∃ tx : CircBuf, tx.Sound s.cfg.N ∧ tx.liveSlots s.cfg.N = s.ut.tx.liveSlots s.cfg.N ++ [some b] ∧
      runChoices [.issue (encode (.utSendByte b)), .host, .host, .host, .host] s = .next { s with
        ut.tx := tx
        ut.txIe := true
        host := returned s.host (.utSendByte b) .s3 .unit } := by
  obtain ⟨h2, h256⟩ := Config.legal_N hcfg
  obtain ⟨tx, htx, _, hsound, hlive⟩ := CircBuf.enqueue_spec h2 h256 hs hf .txbuf b
  have hissue : perform (.issue (encode (.utSendByte b))) s = .next (acceptedAs s (.utSendByte b) none .s0) :=
    (perform_issue hop (decodeOfEncode _ rfl)).trans (exec_accepted hop (firstRefusal_inited hin))
  refine ⟨tx.publish s.cfg.N, hsound, hlive, ?_⟩
  rw [runChoices_cons hissue]
  exact sendByte_microSteps_run rfl rfl hf htx

/-! ## The string (R100, R124) -/

/-- Settles O60: by induction on the string; each byte finds room and leaves a sound buffer with one live byte more. -/
theorem sendStringQueuesItsBytes : Obligations.SendStringQueuesItsBytes := by
  intro bs
  induction bs with
  | nil =>
    intro s hop _ _ _ _
    exact ⟨s, rfl, by simp, by simp, hop, fun _ => rfl, rfl, rfl⟩
  | cons b bs ih =>
    intro s hop hin hcfg hs hroom
    obtain ⟨h2, h256⟩ := Config.legal_N hcfg
    rw [List.length_cons] at hroom
    have hf : s.ut.tx.full s.cfg.N = false := by
      rw [← Bool.not_eq_true, CircBuf.full_iff h2 h256 hs, ← CircBuf.liveSlots_length]
      omega
    obtain ⟨tx, hsound, hlive, hrun⟩ := sendByte_run (b := b) hop hin hcfg hs hf
    obtain ⟨t, hrest, hlive', hres, hop', _, hut, hbm⟩ := ih
      { s with
        ut.tx := tx
        ut.txIe := true
        host := returned s.host (.utSendByte b) .s3 .unit } rfl hin hcfg hsound (by
      simp only [hlive, List.length_append, List.length_singleton]
      omega)
    refine ⟨t, (runChoices_append hrun).trans hrest, ?_, ?_, hop', by simp, hut, hbm⟩
    · simp [hlive', hlive]
    · simp [hres, returned]

end Sys2Proof.Machine
end

section
/-! SUPPORT. The commands of the Serial Transport, micro-step by micro-step (spec/40_serial_transport.md R120, R122, R125,
R127): what each micro-step is, one equation per label and branch, and from these the statements about single
micro-steps. -/

namespace Sys2Proof.Machine

variable {s t : State} {r m : Nat} {b e v : Byte} {es : List Byte}

/-! ## send_byte and receive_byte, issued or called (R122, R125) -/

section Equations

variable {next : State → State} {ret : Byte → State → State}

/-- The buffer is full exactly when the statements say so (10_state.md R23). -/
theorem CircBuf.full_eq_true_iff {N : Nat} {r : CircBuf} : r.full N = true ↔ nextIndex N r.head = r.tail := beq_iff_eq

theorem CircBuf.full_eq_false_iff {N : Nat} {r : CircBuf} : r.full N = false ↔ nextIndex N r.head ≠ r.tail :=
  beq_eq_false_iff_ne

theorem CircBuf.empty_eq_true_iff {r : CircBuf} : r.empty = true ↔ r.head = r.tail := beq_iff_eq

theorem CircBuf.empty_eq_false_iff {r : CircBuf} : r.empty = false ↔ r.head ≠ r.tail := beq_eq_false_iff_ne

theorem sendByteMicro_s0_full (hs : s.host.step = .s0) (hf : s.ut.tx.full s.cfg.N = true) :
    sendByteMicro b next s = .next s := by simp [sendByteMicro, held, hs, hf]

theorem sendByteMicro_s0_room (hs : s.host.step = .s0) (hf : s.ut.tx.full s.cfg.N = false) :
    sendByteMicro b next s = .next (s.advance .s1) := by simp [sendByteMicro, held, hs, hf]

/-- S1 writes the byte into the slot at the head, which is there when the head is below N. -/
theorem sendByteMicro_s1 (hs : s.host.step = .s1) (hN : s.ut.tx.head.toNat < s.cfg.N) :
    sendByteMicro b next s = .next { s with
      ut.tx.buf := s.ut.tx.buf.write s.ut.tx.head.toNat b
      host.step := .s2 } :=
  sendByteMicro_store (tx := { s.ut.tx with buf := s.ut.tx.buf.write s.ut.tx.head.toNat b }) hs
    (by simp only [CircBuf.store, Memory.writeSlot, if_pos hN])

theorem sendByteMicro_s2 (hs : s.host.step = .s2) :
    sendByteMicro b next s = .next ((s.withUt { s.ut with tx := s.ut.tx.publish s.cfg.N }).advance .s3) := by
  simp only [sendByteMicro, hs]

theorem sendByteMicro_s3 (hs : s.host.step = .s3) :
    sendByteMicro b next s = .next (next (s.withUt { s.ut with txIe := true })) := by
  simp only [sendByteMicro, hs]

theorem recvByteMicro_v0_empty (hs : s.host.step = .v0) (he : s.ut.rx.empty = true) :
    recvByteMicro ret s = .next s := by simp [recvByteMicro, held, hs, he]

theorem recvByteMicro_v0_waiting (hs : s.host.step = .v0) (he : s.ut.rx.empty = false) :
    recvByteMicro ret s = .next (s.advance .v1) := by simp [recvByteMicro, held, hs, he]

theorem recvByteMicro_fetch (hs : s.host.step = .v1) (hv : s.ut.rx.fetch .rxbuf s.cfg.N = .ok v) :
    recvByteMicro ret s = .next ((s.withLocals { s.host.locals with v := v }).advance .v2) := by
  simp only [recvByteMicro, hs, hv]

/-- V1 reads the slot at the tail, which is there when the tail is below N and the slot written. -/
theorem recvByteMicro_v1 (hs : s.host.step = .v1) (hN : s.ut.rx.tail.toNat < s.cfg.N)
    (hv : s.ut.rx.buf.read? s.ut.rx.tail.toNat = some v) :
    recvByteMicro ret s = .next ((s.withLocals { s.host.locals with v := v }).advance .v2) :=
  recvByteMicro_fetch hs (by simp only [CircBuf.fetch, Memory.readSlot, if_pos hN, hv])

theorem recvByteMicro_v2 (hs : s.host.step = .v2) :
    recvByteMicro ret s = .next (ret s.host.locals.v (s.withUt { s.ut with rx := s.ut.rx.release s.cfg.N })) := by
  simp only [recvByteMicro, hs]

end Equations

/-! ## The lines of receive_line (R127, R129) -/

/-- At the operation's own level a jump moves the label alone. -/
theorem State.goto_eq_advance {l : Label} (hc : s.host.caller = none) : s.goto l = s.advance l := by
  simp only [State.goto, State.advance, hc]

/-- A call repeated in the line that made it moves the label alone. -/
theorem State.call_eq_advance {line first : Label} (hc : s.host.caller = some line) :
    s.call line first = s.advance first := by
  simp only [State.call, State.advance, hc]

theorem lineTest_limit (h : s.host.locals.i ≥ m - 1) : lineTest m s = s.goto .l6 := if_pos h

theorem lineTest_room (h : s.host.locals.i < m - 1) : lineTest m s = s.call .l2 .v0 := if_neg (by omega)

theorem lineTerminator_found (h : s.host.locals.c = s.cfg.CR ∨ s.host.locals.c = s.cfg.LF) :
    lineTerminator s = s.goto .l6 := if_pos h

theorem lineTerminator_other (h : ¬ (s.host.locals.c = s.cfg.CR ∨ s.host.locals.c = s.cfg.LF)) :
    lineTerminator s = s.goto .l4 := if_neg h

theorem lineEraseNext_done (h : s.host.locals.erase = []) : lineEraseNext s = s.goto .l1 := by
  simp only [lineEraseNext, h]

theorem lineEraseNext_more (h : s.host.locals.erase = e :: es) : lineEraseNext s = s.call .l4 .s0 := by
  simp only [lineEraseNext, h]

theorem lineErased_more {e' : Byte} (h : s.host.locals.erase = e :: e' :: es) :
    lineErased s = (s.withLocals { s.host.locals with erase := e' :: es }).call .l4 .s0 := by
  rw [lineErased, h, List.tail_cons, lineEraseNext_more rfl]

theorem lineErased_last (h : s.host.locals.erase = [e]) :
    lineErased s = (s.withLocals { s.host.locals with erase := [] }).goto .l1 := by
  rw [lineErased, h, List.tail_cons, lineEraseNext_done rfl]

theorem lineEdit_none (h : ¬ (s.cfg.EDIT_ENABLE = true ∧ s.host.locals.c ∈ s.cfg.BACKSPACE_CODES)) :
    lineEdit s = s.goto .l5 := if_neg h

theorem lineEdit_empty (h : s.cfg.EDIT_ENABLE = true ∧ s.host.locals.c ∈ s.cfg.BACKSPACE_CODES)
    (hi : s.host.locals.i = 0) : lineEdit s = s.goto .l1 :=
  (if_pos h).trans (if_neg (by omega))

theorem lineEdit_erase (h : s.cfg.EDIT_ENABLE = true ∧ s.host.locals.c ∈ s.cfg.BACKSPACE_CODES)
    (hi : s.host.locals.i > 0) :
    lineEdit s = lineEraseNext (s.withLocals
      { s.host.locals with i := s.host.locals.i - 1, erase := s.cfg.ERASE_SEQUENCE }) :=
  (if_pos h).trans (if_pos hi)

theorem lineStore_plain (h : s.cfg.ECHO_ENABLE = false) :
    lineStore s = (s.withLocals { s.host.locals with
      lineBuf := storeAt s.host.locals.lineBuf s.host.locals.i s.host.locals.c
      i := s.host.locals.i + 1 }).goto .l1 := by
  simp only [lineStore, h]; rfl

theorem lineStore_echo (h : s.cfg.ECHO_ENABLE = true) :
    lineStore s = (s.withLocals { s.host.locals with
      lineBuf := storeAt s.host.locals.lineBuf s.host.locals.i s.host.locals.c
      i := s.host.locals.i + 1 }).call .l5 .s0 := by
  simp only [lineStore, h]; rfl

/-- What is stored up to a place, and then the place itself. -/
theorem take_storeAt {x : List Byte} {i : Nat} (h : i ≤ x.length) (v : Byte) :
    (storeAt x i v).take (i + 1) = x.take i ++ [v] := by
  have hlen : (x.take i).length = i := List.length_take_of_le h
  simp [storeAt, List.take_append, hlen]

theorem storeAt_length_self (x : List Byte) (v : Byte) : storeAt x x.length v = x ++ [v] := by
  simp [storeAt]

/-- L6 returns the bytes stored, then the marker. -/
theorem lineReturn_eq (h : s.host.locals.i ≤ s.host.locals.lineBuf.length) :
    lineReturn m s = s.ret (.utRecvLine m)
      (.line s.host.locals.i (s.host.locals.lineBuf.take s.host.locals.i ++ [s.cfg.LINE_MARKER])) := by
  simp only [lineReturn, take_storeAt h]

/-! Each line that is no call, and the operation called in each line that is one. -/

section Line

variable (hc : s.host.caller = none)
include hc

theorem recvLineMicro_l0 (hs : s.host.step = .l0) :
    recvLineMicro m s = .next ((s.withLocals { s.host.locals with i := 0 }).goto .l1) := by
  simp only [recvLineMicro, hc, hs]

theorem recvLineMicro_l1 (hs : s.host.step = .l1) : recvLineMicro m s = .next (lineTest m s) := by
  simp only [recvLineMicro, hc, hs]

theorem recvLineMicro_l3 (hs : s.host.step = .l3) : recvLineMicro m s = .next (lineTerminator s) := by
  simp only [recvLineMicro, hc, hs]

theorem recvLineMicro_l4 (hs : s.host.step = .l4) : recvLineMicro m s = .next (lineEdit s) := by
  simp only [recvLineMicro, hc, hs]

theorem recvLineMicro_l5 (hs : s.host.step = .l5) : recvLineMicro m s = .next (lineStore s) := by
  simp only [recvLineMicro, hc, hs]

theorem recvLineMicro_l6 (hs : s.host.step = .l6) : recvLineMicro m s = .next (lineReturn m s) := by
  simp only [recvLineMicro, hc, hs]

end Line

theorem recvLineMicro_call_l2 (hc : s.host.caller = some .l2) :
    recvLineMicro m s =
      recvByteMicro (fun c t => (t.withLocals { t.host.locals with c := c }).goto .l3) s := by
  simp only [recvLineMicro, hc]

theorem recvLineMicro_call_l4 (hc : s.host.caller = some .l4) (he : s.host.locals.erase = e :: es) :
    recvLineMicro m s = sendByteMicro e lineErased s := by
  simp only [recvLineMicro, hc, he]

theorem recvLineMicro_call_l5 (hc : s.host.caller = some .l5) :
    recvLineMicro m s = sendByteMicro s.host.locals.c (fun t => t.goto .l1) s := by
  simp only [recvLineMicro, hc]

/-! ## The statements about single micro-steps -/

/-- Settles O12: each label's equation is the definition's, and the last one returns. -/
theorem utInitMicroSteps : Obligations.UtInitMicroSteps := by
  intro r s hop
  have hexec : exec (.utInit r) s = utInitMicro r s := runCommand_inFlight hop
  rw [hexec]
  refine ⟨fun hs => ?_, fun hs => ?_, fun hs => ?_, fun hs => ?_⟩ <;> simp only [utInitMicro, hs]
  iterate 3 rfl
  exact congrArg _ (State.ret_eq_returned (s := s.withUt _) _ _ hs)

/-- Settles O13: the micro-steps of `send_byte`, its return that of the command. -/
theorem utSendByteMicroSteps : Obligations.UtSendByteMicroSteps := by
  intro b s hop
  have hexec : exec (.utSendByte b) s = sendByteMicro b (fun t => t.ret (.utSendByte b) .unit) s :=
    runCommand_inFlight hop
  rw [hexec]
  refine ⟨fun hs hf => sendByteMicro_s0_full hs (CircBuf.full_eq_true_iff.2 hf),
    fun hs hf => sendByteMicro_s0_room hs (CircBuf.full_eq_false_iff.2 hf), sendByteMicro_s1, sendByteMicro_s2,
    fun hs => ?_⟩
  exact (sendByteMicro_s3 hs).trans (congrArg _ (State.ret_eq_returned (s := s.withUt _) _ _ hs))

/-- Settles O14: the micro-steps of `receive_byte`, its return that of the command. -/
theorem utRecvByteMicroSteps : Obligations.UtRecvByteMicroSteps := by
  intro s hop
  have hexec : exec .utRecvByte s = recvByteMicro (fun v t => t.ret .utRecvByte (.byte v)) s :=
    runCommand_inFlight hop
  rw [hexec]
  refine ⟨fun hs he => recvByteMicro_v0_empty hs (CircBuf.empty_eq_true_iff.2 he),
    fun hs he => recvByteMicro_v0_waiting hs (CircBuf.empty_eq_false_iff.2 he), fun v => recvByteMicro_v1,
    fun hs => ?_⟩
  exact (recvByteMicro_v2 hs).trans (congrArg _ (State.ret_eq_returned (s := s.withUt _) _ _ hs))

/-- Settles O15: at the operation's own level the equation of each line, branch by branch, and in a call the micro-steps
of the operation called, with what the line does on its return. -/
theorem utRecvLineMicroSteps : Obligations.UtRecvLineMicroSteps := by
  intro m s hop
  have hexec : exec (.utRecvLine m) s = recvLineMicro m s := runCommand_inFlight hop
  rw [hexec]
  refine ⟨fun hc => ?own, fun hc => ?receive, fun e es h => ?send, fun hs => ⟨?again, ?erased, ?echoed⟩⟩
  case own =>
    have hgoto {l : Label} : s.goto l = s.advance l := State.goto_eq_advance hc
    have hgoto' {l : Label} {x : Locals} : (s.withLocals x).goto l = (s.withLocals x).advance l :=
      State.goto_eq_advance hc
    refine ⟨fun hs => ?l0, fun hs hi => ?limit, fun hs hi => ?room, fun hs h => ?terminator, fun hs h h' => ?other,
      fun hs h => ?plain, fun hs hen hmem => ⟨fun hi => ?empty, fun e es hi hseq => ?erase, fun hi hseq => ?silent⟩,
      fun hs h => ?store, fun hs h => ?echo, fun hs hi => ?done⟩
    case l0 => rw [recvLineMicro_l0 hc hs, hgoto']; rfl
    case limit => rw [recvLineMicro_l1 hc hs, lineTest_limit hi, hgoto]; rfl
    case room => rw [recvLineMicro_l1 hc hs, lineTest_room hi]; rfl
    case terminator => rw [recvLineMicro_l3 hc hs, lineTerminator_found h, hgoto]; rfl
    case other => rw [recvLineMicro_l3 hc hs, lineTerminator_other (not_or.2 ⟨h, h'⟩), hgoto]; rfl
    case plain => rw [recvLineMicro_l4 hc hs, lineEdit_none (by rcases h with h | h <;> simp [h]), hgoto]; rfl
    case empty => rw [recvLineMicro_l4 hc hs, lineEdit_empty ⟨hen, hmem⟩ hi, hgoto]; rfl
    case erase => rw [recvLineMicro_l4 hc hs, lineEdit_erase ⟨hen, hmem⟩ hi, hseq, lineEraseNext_more rfl]; rfl
    case silent => rw [recvLineMicro_l4 hc hs, lineEdit_erase ⟨hen, hmem⟩ hi, hseq, lineEraseNext_done rfl, hgoto']; rfl
    case store => rw [recvLineMicro_l5 hc hs, lineStore_plain h, hgoto']; rfl
    case echo => rw [recvLineMicro_l5 hc hs, lineStore_echo h]; rfl
    case done => rw [recvLineMicro_l6 hc hs, lineReturn_eq hi, State.ret_eq_returned _ _ hs]
  case receive =>
    rw [recvLineMicro_call_l2 hc]
    exact ⟨fun hs he => recvByteMicro_v0_empty hs (CircBuf.empty_eq_true_iff.2 he),
      fun hs he => recvByteMicro_v0_waiting hs (CircBuf.empty_eq_false_iff.2 he), fun v => recvByteMicro_v1,
      recvByteMicro_v2⟩
  case send =>
    obtain ⟨next, hcall⟩ : ∃ next, recvLineMicro m s = sendByteMicro e next s := by
      rcases h with ⟨hc, he⟩ | ⟨hc, rfl⟩
      · exact ⟨_, recvLineMicro_call_l4 hc he⟩
      · exact ⟨_, recvLineMicro_call_l5 hc⟩
    rw [hcall]
    exact ⟨fun hs hf => sendByteMicro_s0_full hs (CircBuf.full_eq_true_iff.2 hf),
      fun hs hf => sendByteMicro_s0_room hs (CircBuf.full_eq_false_iff.2 hf), sendByteMicro_s1, sendByteMicro_s2⟩
  case again =>
    intro e e' es hc he
    rw [recvLineMicro_call_l4 hc he, sendByteMicro_s3 hs,
      lineErased_more (s := s.withUt { s.ut with txIe := true }) he]
    exact congrArg _ (State.call_eq_advance (s := (s.withUt _).withLocals _) hc)
  case erased =>
    intro e hc he
    rw [recvLineMicro_call_l4 hc he, sendByteMicro_s3 hs,
      lineErased_last (s := s.withUt { s.ut with txIe := true }) he]
    rfl
  case echoed =>
    intro hc
    rw [recvLineMicro_call_l5 hc, sendByteMicro_s3 hs]
    rfl

end Sys2Proof.Machine
end

section
/-! SUPPORT. The temporaries of receive_line and read_registers stay in range (spec/40_serial_transport.md R127, R128,
spec/43_bus_helpers.md R233, spec/10_state.md R50): the two commands that have them, line by line, and every other
step. -/

namespace Sys2Proof.Machine

variable {s t : State} {i : Instr}

/-! ## The invariant, command by command -/

/-- The temporaries of receive_line are in range (40_serial_transport.md R127). -/
structure LineInRange (m : Nat) (h : Sequencer) : Prop where
  max : 1 ≤ m
  count : h.step ≠ .l0 → h.locals.i ≤ m - 1 ∧ h.locals.i ≤ h.locals.lineBuf.length
  room : h.caller = some .l2 ∨ (h.caller = none ∧ h.step ∈ [Label.l3, .l4, .l5]) → h.locals.i < m - 1
  erase : h.caller = some .l4 → h.locals.erase ≠ []

/-- The temporaries of read_registers are in range (43_bus_helpers.md R233). -/
structure RegsInRange (n : Nat) (h : Sequencer) : Prop where
  count : 1 ≤ n
  index : h.caller = some .q7 ∨ h.caller = some .q8 ∨ (h.caller = none ∧ h.step = .q7) →
    h.locals.k ≤ n - 1 ∧ h.locals.resBytes.length = h.locals.k
  more : h.caller = some .q7 → h.locals.k < n - 1
  last : h.caller = some .q8 → h.locals.k = n - 1
  all : h.caller = some .q9 → h.locals.resBytes.length = n
  fresh : h.caller = some .q0 ∨ h.caller = some .q2 ∨ h.caller = some .q4 ∨
      (h.caller = none ∧ h.step ∈ [Label.q1, .q3, .q5, .q6]) → h.locals.resBytes = []

/-- The commands whose temporaries the invariant speaks of. -/
def keepsCount : Instr → Bool
  | .utRecvLine _ | .bmReadRegs _ _ _ => true
  | _ => false

theorem LocalsInv.line {m : Nat} (hL : LocalsInv s) (hop : s.host.op = some (.utRecvLine m)) :
    LineInRange m s.host :=
  ⟨hL.lineMax m hop, hL.lineCount m hop, hL.lineRoom m hop, hL.lineErase m hop⟩

theorem LocalsInv.regs {d : DevAddr} {r : Byte} {n : Nat} (hL : LocalsInv s)
    (hop : s.host.op = some (.bmReadRegs d r n)) : RegsInRange n s.host :=
  ⟨hL.regsCount d r n hop, hL.regsIndex d r n hop, hL.regsMore d r n hop, hL.regsLast d r n hop,
    hL.regsAll d r n hop, hL.regsFresh d r n hop⟩

/-- With one command in flight the invariant asks only what it asks of that command. -/
theorem LocalsInv.of_inFlight (hop : s.host.op = some i) (hline : ∀ m, i = .utRecvLine m → LineInRange m s.host)
    (hregs : ∀ d r n, i = .bmReadRegs d r n → RegsInRange n s.host) : LocalsInv s := by
  have line (m : Nat) (h : s.host.op = some (.utRecvLine m)) : LineInRange m s.host :=
    hline m (Option.some.inj (hop.symm.trans h))
  have regs (d : DevAddr) (r : Byte) (n : Nat) (h : s.host.op = some (.bmReadRegs d r n)) : RegsInRange n s.host :=
    hregs d r n (Option.some.inj (hop.symm.trans h))
  exact {
    lineMax := fun m h => (line m h).max
    lineCount := fun m h => (line m h).count
    lineRoom := fun m h => (line m h).room
    lineErase := fun m h => (line m h).erase
    regsCount := fun d r n h => (regs d r n h).count
    regsIndex := fun d r n h => (regs d r n h).index
    regsMore := fun d r n h => (regs d r n h).more
    regsLast := fun d r n h => (regs d r n h).last
    regsAll := fun d r n h => (regs d r n h).all
    regsFresh := fun d r n h => (regs d r n h).fresh }

theorem LocalsInv.of_line {m : Nat} (hop : s.host.op = some (.utRecvLine m)) (h : LineInRange m s.host) :
    LocalsInv s :=
  .of_inFlight hop (fun _ e => by cases e; exact h) (fun _ _ _ e => by cases e)

theorem LocalsInv.of_regs {d : DevAddr} {r : Byte} {n : Nat} (hop : s.host.op = some (.bmReadRegs d r n))
    (h : RegsInRange n s.host) : LocalsInv s :=
  .of_inFlight hop (fun _ e => by cases e) (fun _ _ _ e => by cases e; exact h)

/-- Any other command, or none. -/
theorem LocalsInv.of_other (hi : keepsCount i = false) (hop : s.host.op = none ∨ s.host.op = some i) :
    LocalsInv s := by
  rcases hop with hop | hop
  · exact localsInv_of_idle hop
  · exact .of_inFlight hop (fun _ e => by subst e; cases hi) (fun _ _ _ e => by subst e; cases hi)

/-- The invariant speaks of HOST alone. -/
theorem LocalsInv.of_host_eq (hL : LocalsInv s) (h : t.host = s.host) : LocalsInv t := by
  obtain ⟨_, _, _, _, _, _, _, _, _, _⟩ := hL
  constructor <;> rw [h] <;> assumption

/-! ## Called operations -/

/-- HOST has moved to another label of the operation it is in, and to nothing else (10_state.md R24 `Advance`). -/
def OnlyAdvanced (s t : State) : Prop := ∃ l, t.host = { s.host with step := l }

theorem OnlyAdvanced.refl (s : State) : OnlyAdvanced s s := ⟨s.host.step, rfl⟩

theorem OnlyAdvanced.awaitDone (s : State) (l : Label) : OnlyAdvanced s (awaitDone l s) := by
  unfold Machine.awaitDone
  split
  · exact .refl s
  · exact ⟨l, rfl⟩

section Operations

/-! Each bus primitive advances inside the call, or returns what its caller does with the return of HOST as it stands. -/

variable {ret : Byte → State → State} {next : State → State}

theorem startMicro_host {a : DevAddr} {d : Direction} (h : startMicro a d ret s = .next t) :
    OnlyAdvanced s t ∨ ∃ v u, t = ret v u ∧ u.host = s.host := by
  rcases startMicro_next h with ⟨_, rfl⟩ | ⟨_, rfl⟩ | ⟨_, rfl⟩ | ⟨_, rfl⟩ | ⟨_, rfl⟩
  · exact .inl ⟨.t1, rfl⟩
  · exact .inl (.awaitDone s .t2)
  · exact .inl ⟨.t3, rfl⟩
  · exact .inl (.awaitDone s .t4)
  · exact .inr ⟨_, _, rfl, rfl⟩

theorem writeMicro_host {b : Byte} (h : writeMicro b ret s = .next t) :
    OnlyAdvanced s t ∨ ∃ v u, t = ret v u ∧ u.host = s.host := by
  rcases writeMicro_next h with ⟨_, rfl⟩ | ⟨_, rfl⟩ | ⟨_, rfl⟩
  · exact .inl ⟨.w1, rfl⟩
  · exact .inl (.awaitDone s .w2)
  · exact .inr ⟨_, _, rfl, rfl⟩

theorem readAckMicro_host (h : readAckMicro ret s = .next t) :
    OnlyAdvanced s t ∨ ∃ v u, t = ret v u ∧ u.host = s.host := by
  rcases readAckMicro_next h with ⟨_, rfl⟩ | ⟨_, rfl⟩ | ⟨_, rfl⟩
  · exact .inl ⟨.a1, rfl⟩
  · exact .inl (.awaitDone s .a2)
  · exact .inr ⟨_, _, rfl, rfl⟩

theorem readNackMicro_host (h : readNackMicro ret s = .next t) :
    OnlyAdvanced s t ∨ ∃ v u, t = ret v u ∧ u.host = s.host := by
  rcases readNackMicro_next h with ⟨_, rfl⟩ | ⟨_, rfl⟩ | ⟨_, rfl⟩
  · exact .inl ⟨.k1, rfl⟩
  · exact .inl (.awaitDone s .k2)
  · exact .inr ⟨_, _, rfl, rfl⟩

theorem stopMicro_host (h : stopMicro next s = .next t) : OnlyAdvanced s t ∨ ∃ u, t = next u ∧ u.host = s.host := by
  rcases stopMicro_next h with ⟨_, rfl⟩ | ⟨_, rfl⟩
  · exact .inl ⟨.p1, rfl⟩
  · exact .inr ⟨_, rfl, rfl⟩

end Operations

/-! ## receive_line (40_serial_transport.md R127) -/

/-- What a micro-step of `receive_line` can be: one of an operation it calls, or a line of its own. -/
theorem recvLineMicro_next {m : Nat} (h : recvLineMicro m s = .next t) :
    (s.host.caller = some .l2 ∧
      recvByteMicro (fun c t => (t.withLocals { t.host.locals with c := c }).goto .l3) s = .next t) ∨
    (∃ e es, s.host.caller = some .l4 ∧ s.host.locals.erase = e :: es ∧ sendByteMicro e lineErased s = .next t) ∨
    (s.host.caller = some .l5 ∧ sendByteMicro s.host.locals.c (fun t => t.goto .l1) s = .next t) ∨
    (s.host.caller = none ∧
      ((s.host.step = .l0 ∧ t = (s.withLocals { s.host.locals with i := 0 }).goto .l1) ∨
       (s.host.step = .l1 ∧ t = lineTest m s) ∨ (s.host.step = .l3 ∧ t = lineTerminator s) ∨
       (s.host.step = .l4 ∧ t = lineEdit s) ∨ (s.host.step = .l5 ∧ t = lineStore s) ∨
       (s.host.step = .l6 ∧ t = lineReturn m s))) := by
  unfold recvLineMicro at h
  split at h <;> rename_i hc
  · exact .inl ⟨hc, h⟩
  · split at h
    · exact .inr (.inl ⟨_, _, hc, ‹_›, h⟩)
    · cases h
  · exact .inr (.inr (.inl ⟨hc, h⟩))
  · cases h
  · refine .inr (.inr (.inr ⟨hc, ?_⟩))
    split at h <;> rename_i hs <;> cases h <;> simp [hs]

/-- Inside a call of receive_line, of which HOST's label is no line: the temporaries stay in range when the count, the
bytes stored and what is left to erase stay. -/
theorem LineInRange.of_call {m : Nat} {h g : Sequencer} {line : Label} (hI : LineInRange m h)
    (hc : h.caller = some line) (hs : h.step ≠ .l0) (hcaller : g.caller = h.caller)
    (hi : g.locals.i = h.locals.i) (hbuf : g.locals.lineBuf = h.locals.lineBuf)
    (herase : g.locals.erase = h.locals.erase) : LineInRange m g where
  max := hI.max
  count _ := by rw [hi, hbuf]; exact hI.count hs
  room hr := by
    rw [hcaller, hc] at hr
    rw [hi]
    exact hI.room (.inl (hc.trans (by simpa using hr)))
  erase he := by rw [herase]; exact hI.erase (hcaller ▸ he)

/-- At receive_line's own level the count and the bytes stored are asked, and room from L3 to L5. -/
theorem LineInRange.own {m : Nat} {h : Sequencer} (hmax : 1 ≤ m) (hc : h.caller = none)
    (hcount : h.locals.i ≤ m - 1 ∧ h.locals.i ≤ h.locals.lineBuf.length)
    (hroom : h.step ∈ [Label.l3, .l4, .l5] → h.locals.i < m - 1) : LineInRange m h where
  max := hmax
  count _ := hcount
  room hr := by
    rcases hr with hr | ⟨_, hs⟩
    · cases hc.symm.trans hr
    · exact hroom hs
  erase he := by cases hc.symm.trans he

/-- What is left of the erase sequence is sent in a call of L4, and nothing is left at L1. -/
theorem LineInRange.eraseNext {m : Nat} (hmax : 1 ≤ m)
    (hcount : s.host.locals.i ≤ m - 1 ∧ s.host.locals.i ≤ s.host.locals.lineBuf.length) :
    LineInRange m (lineEraseNext s).host := by
  cases he : s.host.locals.erase with
  | nil => rw [lineEraseNext_done he]; exact .own hmax rfl hcount (by simp)
  | cons e es =>
    rw [lineEraseNext_more he]
    exact { max := hmax, count := fun _ => hcount, room := by simp, erase := fun _ => by simp [he] }

theorem storeAt_length {x : List Byte} {i : Nat} (h : i ≤ x.length) (v : Byte) : i + 1 ≤ (storeAt x i v).length := by
  simp [storeAt]; omega

/-- `receive_byte` called in L2: it is called only with room, so the byte it returns has a place. -/
theorem recvByte_keeps_lineInRange {m : Nat} (hI : LineInRange m s.host) (hc : s.host.caller = some .l2)
    (h : recvByteMicro (fun c t => (t.withLocals { t.host.locals with c := c }).goto .l3) s = .next t) :
    LineInRange m t.host := by
  rcases recvByteMicro_next h with ⟨hs, _, rfl⟩ | ⟨hs, _, rfl⟩ | ⟨hs, v, _, rfl⟩ | ⟨hs, rfl⟩
  · exact hI
  · exact hI.of_call hc (by simp [hs]) rfl rfl rfl rfl
  · exact hI.of_call hc (by simp [hs]) rfl rfl rfl rfl
  · exact .own hI.max rfl (hI.count (by simp [hs])) fun _ => hI.room (.inl hc)

/-- `send_byte` called in L4 or L5: what its return leads to is asked of the caller. -/
theorem sendByte_keeps_lineInRange {m : Nat} {b : Byte} {line : Label} {next : State → State}
    (hI : LineInRange m s.host) (hc : s.host.caller = some line)
    (hnext : ∀ u, u.host = s.host → u.host.locals.i ≤ m - 1 ∧ u.host.locals.i ≤ u.host.locals.lineBuf.length →
      LineInRange m (next u).host)
    (h : sendByteMicro b next s = .next t) : LineInRange m t.host := by
  rcases sendByteMicro_next h with ⟨hs, _, rfl⟩ | ⟨hs, _, rfl⟩ | ⟨hs, tx, _, rfl⟩ | ⟨hs, rfl⟩ | ⟨hs, rfl⟩
  · exact hI
  iterate 3 exact hI.of_call hc (by simp [hs]) rfl rfl rfl rfl
  exact hnext _ rfl (hI.count (by simp [hs]))

/-- A line of receive_line's own ends it or keeps its temporaries in range: L1 stops at the limit, so there is room from
L2 to L5, and L5 stores where there is room. -/
theorem recvLine_own_keeps {m : Nat} (hI : LineInRange m s.host) (hc : s.host.caller = none)
    (h : recvLineMicro m s = .next t) : t.host.op = none ∨ LineInRange m t.host := by
  have count {l : Label} (hs : s.host.step = l) (hl : l ≠ .l0) := hI.count (hs ▸ hl)
  have room {l : Label} (hs : s.host.step = l) (hl : l ∈ [Label.l3, .l4, .l5]) := hI.room (.inr ⟨hc, hs ▸ hl⟩)
  rcases recvLineMicro_next h with ⟨hc', _⟩ | ⟨_, _, hc', _⟩ | ⟨hc', _⟩ | ⟨_, ⟨_, rfl⟩ | ⟨hs, rfl⟩ | ⟨hs, rfl⟩ |
    ⟨hs, rfl⟩ | ⟨hs, rfl⟩ | ⟨_, rfl⟩⟩
  iterate 3 cases hc.symm.trans hc'
  · exact .inr (.own hI.max rfl ⟨Nat.zero_le _, Nat.zero_le _⟩ (by simp))
  · have hcount := count hs (by decide)
    by_cases hi : s.host.locals.i ≥ m - 1
    · rw [lineTest_limit hi]
      exact .inr (.own hI.max rfl hcount (by simp))
    · rw [lineTest_room (by omega)]
      exact .inr { max := hI.max, count := fun _ => hcount, room := fun _ => Nat.not_le.1 hi, erase := by simp }
  · have hcount := count hs (by decide)
    have hroom := room hs (by decide)
    by_cases hterm : s.host.locals.c = s.cfg.CR ∨ s.host.locals.c = s.cfg.LF
    · rw [lineTerminator_found hterm]
      exact .inr (.own hI.max rfl hcount fun _ => hroom)
    · rw [lineTerminator_other hterm]
      exact .inr (.own hI.max rfl hcount fun _ => hroom)
  · have hcount := count hs (by decide)
    have hroom := room hs (by decide)
    by_cases hedit : s.cfg.EDIT_ENABLE = true ∧ s.host.locals.c ∈ s.cfg.BACKSPACE_CODES
    · rcases Nat.eq_zero_or_pos s.host.locals.i with h0 | hpos
      · rw [lineEdit_empty hedit h0]
        exact .inr (.own hI.max rfl hcount fun _ => hroom)
      · rw [lineEdit_erase hedit hpos]
        exact .inr (.eraseNext hI.max ⟨(Nat.sub_le _ _).trans hcount.1, (Nat.sub_le _ _).trans hcount.2⟩)
    · rw [lineEdit_none hedit]
      exact .inr (.own hI.max rfl hcount fun _ => hroom)
  · have hroom := room hs (by decide)
    have hstored := storeAt_length (count hs (by decide)).2 s.host.locals.c
    cases hecho : s.cfg.ECHO_ENABLE
    · rw [lineStore_plain hecho]
      exact .inr (.own hI.max rfl ⟨hroom, hstored⟩ (by simp))
    · rw [lineStore_echo hecho]
      exact .inr { max := hI.max, count := fun _ => ⟨hroom, hstored⟩, room := by simp, erase := by simp }
  · exact .inl rfl

/-- Every micro-step of receive_line ends it or keeps its temporaries in range. -/
theorem recvLineMicro_keeps {m : Nat} (hI : LineInRange m s.host) (h : recvLineMicro m s = .next t) :
    t.host.op = none ∨ LineInRange m t.host := by
  rcases recvLineMicro_next h with ⟨hc, h⟩ | ⟨e, es, hc, _, h⟩ | ⟨hc, h⟩ | ⟨hc, _⟩
  · exact .inr (recvByte_keeps_lineInRange hI hc h)
  · refine .inr (sendByte_keeps_lineInRange hI hc ?_ h)
    exact fun _ _ hcount => .eraseNext hI.max hcount
  · refine .inr (sendByte_keeps_lineInRange hI hc ?_ h)
    exact fun _ _ hcount => .own hI.max rfl hcount (by simp)
  · exact recvLine_own_keeps hI hc h

/-! ## read_registers (43_bus_helpers.md R233) -/

/-- Inside a call the temporaries of read_registers are what they were when the call was made. -/
theorem RegsInRange.of_advanced {n : Nat} {line : Label} (hI : RegsInRange n s.host) (hc : s.host.caller = some line)
    (h : OnlyAdvanced s t) : RegsInRange n t.host := by
  obtain ⟨l, hl⟩ := h
  rw [hl]
  exact {
    count := hI.count
    index := fun hp => hI.index (by simpa [hc] using hp)
    more := hI.more
    last := hI.last
    all := hI.all
    fresh := fun hp => hI.fresh (by simpa [hc] using hp) }

/-- Where nothing has been read yet: up to Q6 (R233). -/
theorem RegsInRange.unread {n : Nat} {h : Sequencer} (hn : 1 ≤ n) (hempty : h.locals.resBytes = [])
    (hpos : h.caller ∉ [some .q7, some .q8, some .q9]) (hs : h.step ≠ .q7) : RegsInRange n h where
  count := hn
  index hp := by simp_all
  more hp := by simp_all
  last hp := by simp_all
  all hp := by simp_all
  fresh _ := hempty

/-- Where the read is given up: in the call of `stop` of a check line (R230). -/
theorem RegsInRange.aborted {n : Nat} {h : Sequencer} {line : Label} (hn : 1 ≤ n) (hc : h.caller = some line)
    (hline : line ∈ [Label.q1, .q3, .q5]) : RegsInRange n h := by
  simp only [List.mem_cons, List.not_mem_nil, or_false] at hline
  rcases hline with rfl | rfl | rfl <;> exact ⟨hn, by simp [hc], by simp [hc], by simp [hc], by simp [hc], by simp [hc]⟩

/-- A primitive called in a line advances there, or ends in what the line does with its return. -/
theorem RegsInRange.of_call {n : Nat} {line : Label} {ret : Byte → State → State} (hI : RegsInRange n s.host)
    (hc : s.host.caller = some line) (hret : ∀ v u, u.host = s.host → RegsInRange n (ret v u).host)
    (h : OnlyAdvanced s t ∨ ∃ v u, t = ret v u ∧ u.host = s.host) : t.host.op = none ∨ RegsInRange n t.host := by
  rcases h with h | ⟨v, u, rfl, hu⟩
  · exact .inr (hI.of_advanced hc h)
  · exact .inr (hret v u hu)

/-- `stop` called in the last line or in a check line: its return ends the command. -/
theorem RegsInRange.of_stop {n : Nat} {line : Label} {j : Instr} {r : State → Result} (hI : RegsInRange n s.host)
    (hc : s.host.caller = some line) (h : stopMicro (fun u => u.ret j (r u)) s = .next t) :
    t.host.op = none ∨ RegsInRange n t.host := by
  rcases stopMicro_host h with h | ⟨u, rfl, _⟩
  · exact .inr (hI.of_advanced hc h)
  · exact .inl rfl

/-- A status returned before anything is read, and the line that checks it. -/
theorem RegsInRange.statusThen {n : Nat} {l : Label} (hI : RegsInRange n s.host) (hempty : s.host.locals.resBytes = [])
    (hl : l ≠ .q7) (v : Byte) (u : State) (hu : u.host = s.host) : RegsInRange n (statusThen l v u).host := by
  refine .unread hI.count ?_ (by simp [Machine.statusThen]) (by simpa [Machine.statusThen] using hl)
  simpa [Machine.statusThen, hu] using hempty

/-- A check line before anything is read leads to the next call or to `stop` (R230). -/
theorem RegsInRange.checkStatus {n : Nat} {e : Byte} {line next first : Label} (hI : RegsInRange n s.host)
    (hempty : s.host.locals.resBytes = []) (hline : line ∈ [Label.q1, .q3, .q5])
    (hnext : some next ∉ [some Label.q7, some .q8, some .q9]) (hfirst : first ≠ .q7) :
    RegsInRange n (checkStatus e line next first s).host := by
  unfold Machine.checkStatus
  split
  · exact .unread hI.count hempty hnext hfirst
  · exact .aborted hI.count rfl hline

/-- Q7 stores the byte at the index and moves it on, below the last place (R233). -/
theorem RegsInRange.readRegsStore {n : Nat} (hI : RegsInRange n s.host) (hc : s.host.caller = some .q7) (v : Byte)
    (u : State) (hu : u.host = s.host) : RegsInRange n (readRegsStore v u).host := by
  obtain ⟨_, hlen⟩ := hI.index (.inl hc)
  have hmore := hI.more hc
  have hstored : (storeAt s.host.locals.resBytes s.host.locals.k v).length = s.host.locals.k + 1 := by
    rw [← hlen, storeAt_length_self, List.length_append, List.length_singleton]
  simp only [Machine.readRegsStore, hu]
  exact { count := hI.count, index := fun _ => ⟨hmore, hstored⟩, more := by simp, last := by simp, all := by simp,
          fresh := by simp }

/-- Q8 stores the last byte, behind all the others (R233). -/
theorem RegsInRange.readRegsLast {n : Nat} (hI : RegsInRange n s.host) (hc : s.host.caller = some .q8) (v : Byte)
    (u : State) (hu : u.host = s.host) : RegsInRange n (readRegsLast n v u).host := by
  obtain ⟨_, hlen⟩ := hI.index (.inr (.inl hc))
  have hn := hI.count
  have hstored : (storeAt s.host.locals.resBytes (n - 1) v).length = n := by
    rw [← hI.last hc, ← hlen, storeAt_length_self, List.length_append, List.length_singleton, hlen, hI.last hc]
    omega
  simp only [Machine.readRegsLast, hu]
  exact { count := hn, index := by simp, more := by simp, last := by simp, all := fun _ => hstored,
          fresh := by simp }

/-- The test of Q7: another read with acknowledge below the last place, else the last one (R233). -/
theorem RegsInRange.readRegsTest {n : Nat} (hI : RegsInRange n s.host) (hc : s.host.caller = none)
    (hs : s.host.step = .q7) : RegsInRange n (readRegsTest n s).host := by
  have hindex := hI.index (.inr (.inr ⟨hc, hs⟩))
  unfold Machine.readRegsTest
  split
  · rename_i hk
    exact { count := hI.count, index := fun _ => hindex, more := fun _ => hk, last := by simp, all := by simp,
            fresh := by simp }
  · rename_i hk
    have hlast : s.host.locals.k = n - 1 := Nat.le_antisymm hindex.1 (Nat.not_lt.1 hk)
    exact { count := hI.count, index := fun _ => hindex, more := by simp, last := fun _ => hlast, all := by simp,
            fresh := by simp }

/-- A line of read_registers' own: a check, the start of the index, or its test. -/
theorem readRegs_own_keeps {d : DevAddr} {r : Byte} {n : Nat} (hI : RegsInRange n s.host)
    (hc : s.host.caller = none) (h : readRegsMicro d r n s = .next t) : RegsInRange n t.host := by
  have fresh {l : Label} (hs : s.host.step = l) (hl : l ∈ [Label.q1, .q3, .q5, .q6]) :=
    hI.fresh (.inr (.inr (.inr ⟨hc, hs ▸ hl⟩)))
  simp only [readRegsMicro, hc] at h
  split at h <;> rename_i hs <;> cases h
  · exact hI.checkStatus (fresh hs (by decide)) (by decide) (by decide) (by decide)
  · exact hI.checkStatus (fresh hs (by decide)) (by decide) (by decide) (by decide)
  · unfold readRegsAddressed
    split
    · exact .unread hI.count (fresh hs (by decide)) (by simp) (by simp)
    · exact .aborted hI.count rfl (by decide)
  · have hempty := fresh hs (by decide)
    exact { count := hI.count, index := fun _ => ⟨Nat.zero_le _, by simp [hempty]⟩, more := by simp, last := by simp,
            all := by simp, fresh := by simp }
  · exact hI.readRegsTest hc hs

/-- Every micro-step of read_registers ends it or keeps its temporaries in range. -/
theorem readRegsMicro_keeps {d : DevAddr} {r : Byte} {n : Nat} (hI : RegsInRange n s.host)
    (h : readRegsMicro d r n s = .next t) : t.host.op = none ∨ RegsInRange n t.host := by
  cases hc : s.host.caller with
  | none => exact .inr (readRegs_own_keeps hI hc h)
  | some line =>
    unfold readRegsMicro at h
    split at h <;> rename_i hline
    · exact hI.of_call hline (hI.statusThen (hI.fresh (by simp [hline])) (by decide)) (startMicro_host h)
    · exact hI.of_call hline (hI.statusThen (hI.fresh (by simp [hline])) (by decide)) (writeMicro_host h)
    · exact hI.of_call hline (hI.statusThen (hI.fresh (by simp [hline])) (by decide)) (startMicro_host h)
    · exact hI.of_call hline (hI.readRegsStore hline) (readAckMicro_host h)
    · exact hI.of_call hline (hI.readRegsLast hline) (readNackMicro_host h)
    iterate 4 exact hI.of_stop hline h
    · cases h
    · cases hc.symm.trans hline

/-! ## The steps of the agents -/

/-- A micro-step of the command in flight keeps the temporaries in range (10_state.md R24, R25). -/
theorem exec_keeps_localsInv (hI : HostInv s) (hL : LocalsInv s) (hop : s.host.op = some i)
    (h : exec i s = .next t) : LocalsInv t := by
  rcases exec_atLabel hop (hI.label i hop) h with hidle | ⟨hop', _⟩
  · exact localsInv_of_idle hidle
  cases i with
  | utRecvLine m =>
    rcases recvLineMicro_keeps (hL.line hop) ((runCommand_inFlight hop).symm.trans h) with hidle | hline
    · exact localsInv_of_idle hidle
    · exact .of_line hop' hline
  | bmReadRegs d r n =>
    rcases readRegsMicro_keeps (hL.regs hop) ((runCommand_inFlight hop).symm.trans h) with hidle | hregs
    · exact localsInv_of_idle hidle
    · exact .of_regs hop' hregs
  | _ => exact .of_other rfl (.inr hop')

/-- A command that starts has its count operand within the contract and nothing read yet (30_encoding.md R102, R104). -/
theorem localsInv_acceptedAs (hc : contractCheck i s = none) :
    LocalsInv (acceptedAs s i (startPosition i).1 (startPosition i).2) := by
  cases i with
  | utRecvLine m =>
    have hm : m ≠ 0 := by
      rintro rfl
      obtain ⟨q, hq⟩ := exists_refusal_of_mem (.tail (!s.ut.inited, .serialNotInited) (.head []))
      cases hc.symm.trans hq
    exact .of_line rfl ⟨Nat.pos_of_ne_zero hm, fun hs => absurd rfl hs, by simp [acceptedAs, startPosition],
      by simp [acceptedAs, startPosition]⟩
  | bmReadRegs d r n =>
    have hn : n ≠ 0 := by
      rintro rfl
      obtain ⟨q, hq⟩ := exists_refusal_of_mem (.tail (!s.bm.inited, .busNotInited)
        (.tail (s.bm.state != .idle, .busSequence) (.head [])))
      cases hc.symm.trans hq
    exact .of_regs rfl (.unread (Nat.pos_of_ne_zero hn) rfl (by simp [acceptedAs, startPosition])
      (by simp [acceptedAs, startPosition]))
  | _ => exact .of_other rfl (.inr rfl)

/-- With HOST idle an issue records a refusal or starts a command. -/
theorem exec_issue_keeps_localsInv (hop : s.host.op = none) (h : exec i s = .next t) : LocalsInv t := by
  cases hc : contractCheck i s with
  | some reason =>
    cases (exec_refused hop hc).symm.trans h
    exact localsInv_of_idle hop
  | none =>
    cases (exec_accepted hop hc).symm.trans h
    exact localsInv_acceptedAs hc

/-- The step of any agent keeps the temporaries in range: only HOST's writes them. -/
theorem perform_keeps_localsInv {c : Choice} (hI : HostInv s) (hL : LocalsInv s) (h : perform c s = .next t) :
    LocalsInv t := by
  rcases perform_next h with ⟨_, rfl⟩ | ⟨_, ⟨w, _, h⟩ | ⟨_, h⟩ | ⟨_, h⟩ | ⟨_, h⟩ | ⟨v, k, _, rfl⟩ |
    ⟨_, rfl⟩ | ⟨st, v, _, rfl⟩⟩
  · exact hL
  · rcases issueWord_next h with ⟨_, rfl⟩ | ⟨hop, i, _, h⟩ | ⟨hop, _, rfl⟩
    · exact hL
    · exact exec_issue_keeps_localsInv hop h
    · exact localsInv_of_idle hop
  · rcases hostMicroStep_next h with ⟨_, rfl⟩ | ⟨i, hop, h⟩
    · exact hL
    · exact exec_keeps_localsInv hI hL hop h
  · rcases rxiBody_next h with ⟨_, rfl⟩ | ⟨_, _, _, rfl⟩ <;> exact hL.of_host_eq rfl
  · rcases txiBody_next h with ⟨_, rfl⟩ | ⟨_, _, _, rfl⟩ <;> exact hL.of_host_eq rfl
  · exact hL.of_host_eq (lineArrive_host v k s)
  · exact hL.of_host_eq rfl
  · exact hL.of_host_eq (busComplete_host st v s)

/-- Settles O44: a step is the step of one agent, and which choices are still to come is no part of the invariants. -/
theorem stepKeepsTheTemporaries : Obligations.StepKeepsTheTemporaries := by
  intro s t hI hL h
  obtain ⟨c, ins, n, he⟩ := step_eq_perform s
  have hI' : HostInv { s with inputs := ins, draws := n } := { hI with }
  exact perform_keeps_localsInv hI' (hL.of_host_eq rfl) (he.symm.trans h)

end Sys2Proof.Machine
end

section
/-! SUPPORT. The commands of the Serial Transport, and `BM_INIT`, issued and run to their end with nothing interleaved
(spec/40_serial_transport.md R120 to R128, spec/42_bus_primitives.md R190). -/

namespace Sys2Proof.Machine

variable {s u : State} {m r : Nat} {b v : Byte} {i : Instr}

/-- With HOST idle the issue of a well-formed command's word is the command's (30_encoding.md R102). -/
theorem perform_issue_encode (hop : s.host.op = none) (hi : i.wellFormed = true) :
    perform (.issue (encode i)) s = exec i s :=
  perform_issue hop (decodeOfEncode i hi)

/-- HOST's micro-steps one after another. -/
theorem runChoices_replicate_add {k n : Nat} (h : runChoices (.replicate k .host) s = .next u) :
    runChoices (.replicate (k + n) .host) s = runChoices (.replicate n .host) u := by
  rw [List.replicate_add, runChoices_append h]

/-! ## UT_INIT and BM_INIT (40_serial_transport.md R120, R121; 42_bus_primitives.md R190) -/

/-- HOST's step with `UT_INIT r` in flight, not held. -/
theorem perform_utInit (hop : s.host.op = some (.utInit r)) (hh : held s = false) :
    perform .host s = utInitMicro r s :=
  (perform_host hop hh).trans (runCommand_inFlight hop)

/-- HOST's step with `BM_INIT r` in flight, not held. -/
theorem perform_bmInit (hop : s.host.op = some (.bmInit r)) (hh : held s = false) :
    perform .host s = bmInitMicro r s :=
  (perform_host hop hh).trans (runCommand_inFlight hop)

/-- The four micro-steps of `UT_INIT`: the divisor, the two enables, the global enable, the end. -/
theorem utInit_microSteps_run (hop : s.host.op = some (.utInit r)) (hs : s.host.step = .i0) :
    runChoices [.host, .host, .host, .host] s = .next { s with
      ut.baudDiv := BitVec.ofNat 16 (s.cfg.F_REF / (16 * r) - 1)
      ut.rxIe := true
      ut.txIe := false
      ut.gie := true
      ut.inited := true
      host := returned s.host (.utInit r) .i3 .unit } :=
  let d := BitVec.ofNat 16 (s.cfg.F_REF / (16 * r) - 1)
  calc runChoices [.host, .host, .host, .host] s
    _ = runChoices [.host, .host, .host] { s with ut.baudDiv := d, host.step := .i1 } :=
      runChoices_cons ((perform_utInit hop (by simp [held, hs])).trans (by simp only [utInitMicro, hs]; rfl))
    _ = runChoices [.host, .host] { s with
        ut.baudDiv := d, ut.rxIe := true, ut.txIe := false, host.step := .i2 } :=
      runChoices_cons (perform_utInit hop rfl)
    _ = runChoices [.host] { s with
        ut.baudDiv := d, ut.rxIe := true, ut.txIe := false, ut.gie := true, host.step := .i3 } :=
      runChoices_cons (perform_utInit hop rfl)
    _ = _ := runChoices_cons (perform_utInit hop rfl)

/-- The two micro-steps of `BM_INIT`: the rate and the timing word, the end. -/
theorem bmInit_microSteps_run (hop : s.host.op = some (.bmInit r)) (hs : s.host.step = .n0) :
    runChoices [.host, .host] s = .next { s with
      bm.rate := BitVec.ofNat 24 r
      bm.timing := Config.bmTiming s.cfg.F_REF r
      bm.inited := true
      host := returned s.host (.bmInit r) .n1 .unit } :=
  calc runChoices [.host, .host] s
    _ = runChoices [.host] ((bmInitTiming r s).advance .n1) :=
      runChoices_cons ((perform_bmInit hop (by simp [held, hs])).trans (by simp [bmInitMicro, hs]))
    _ = _ := runChoices_cons (perform_bmInit hop rfl)

/-- Settles O21: the contract is met, so the word is accepted, and the micro-steps run; the operand checks keep the divisor
below 2 ^ 16 and the rate below 2 ^ 24. -/
theorem initCommandsRun : Obligations.InitCommandsRun := by
  intro s r hop hr hr0
  obtain ⟨hut, _, hbm, _⟩ := commandsAccepted s hop
  have hissueUt := perform_issue_encode (i := .utInit r) hop (decide_eq_true hr)
  have hissueBm := perform_issue_encode (i := .bmInit r) hop (decide_eq_true hr)
  refine ⟨fun hq hd => ⟨BitVec.ofNat 16 (s.cfg.F_REF / (16 * r) - 1), ?_, ?_⟩,
    fun hidle => ⟨BitVec.ofNat 24 r, ?_, ?_⟩⟩
  · rw [BitVec.toNat_ofNat, Nat.mod_eq_of_lt (by omega)]
  · rw [runChoices_cons (hissueUt.trans (hut r hr0 hq hd))]
    exact utInit_microSteps_run rfl rfl
  · rw [BitVec.toNat_ofNat, Nat.mod_eq_of_lt hr]
  · rw [runChoices_cons (hissueBm.trans (hbm r hr0 hidle))]
    exact bmInit_microSteps_run rfl rfl

/-! ## UT_SEND_BYTE and UT_RECV_BYTE (40_serial_transport.md R122 to R126) -/

/-- Settles O22: the micro-steps run (`sendByte_microSteps_run`), and what they did to the buffer is one enqueue. -/
theorem utSendByteRuns : Obligations.UtSendByteRuns := by
  intro s b hop hin hcfg hs hf
  obtain ⟨h2, h256⟩ := Config.legal_N hcfg
  obtain ⟨tx, htx, _, _, hlive⟩ := CircBuf.enqueue_spec h2 h256 hs hf .txbuf b
  obtain ⟨tx', htx', _, _, _, _, hother⟩ := CircBuf.store_spec hs .txbuf b
  obtain rfl : tx' = tx := Except.ok.inj (htx'.symm.trans htx)
  obtain ⟨hhead, htail⟩ := CircBuf.store_indices htx
  obtain ⟨_, hser, _⟩ := commandsAccepted s hop
  refine ⟨tx'.publish s.cfg.N, ?_, hlive, congrArg (nextIndex s.cfg.N) hhead, htail, hother⟩
  rw [runChoices_cons ((perform_issue_encode hop rfl).trans ((hser hin).1 b))]
  exact sendByte_microSteps_run rfl rfl hf htx

/-- HOST's step with `UT_RECV_BYTE` in flight, not held. -/
theorem perform_recvByte (hop : s.host.op = some .utRecvByte) (hh : held s = false) :
    perform .host s = recvByteMicro (fun v t => t.ret .utRecvByte (.byte v)) s :=
  (perform_host hop hh).trans (runCommand_inFlight hop)

/-- The three micro-steps of `UT_RECV_BYTE`, with a byte waiting: V0 passes, V1 reads, V2 moves the tail and returns. -/
theorem recvByte_microSteps_run (hop : s.host.op = some .utRecvByte) (hs : s.host.step = .v0)
    (he : s.ut.rx.empty = false) (hv : s.ut.rx.fetch .rxbuf s.cfg.N = .ok v) :
    runChoices [.host, .host, .host] s = .next { s with
      ut.rx.tail := nextIndex s.cfg.N s.ut.rx.tail
      host := returned s.host .utRecvByte .v2 (.byte v) } :=
  calc runChoices [.host, .host, .host] s
    _ = runChoices [.host, .host] (s.advance .v1) :=
      runChoices_cons ((perform_recvByte hop (by simp [held, hs, he])).trans (recvByteMicro_v0_waiting hs he))
    _ = runChoices [.host] ((s.withLocals { s.host.locals with v := v }).advance .v2) :=
      runChoices_cons ((perform_recvByte (s := s.advance .v1) hop rfl).trans (recvByteMicro_fetch rfl hv))
    _ = _ := runChoices_cons (perform_recvByte hop rfl)

/-- Settles O23: the micro-steps run, and what they did to the buffer is one dequeue. -/
theorem utRecvByteRuns : Obligations.UtRecvByteRuns := by
  intro s hop hin hcfg hs he
  obtain ⟨h2, h256⟩ := Config.legal_N hcfg
  obtain ⟨v, hv, _, hlive⟩ := CircBuf.dequeue_spec h2 h256 hs he .rxbuf
  obtain ⟨_, hser, _⟩ := commandsAccepted s hop
  refine ⟨v, ?_, hlive⟩
  rw [runChoices_cons ((perform_issue_encode hop rfl).trans (hser hin).2.1)]
  exact recvByte_microSteps_run rfl rfl he hv

/-! ## UT_RECV_LINE over a buffered line, without edit and echo (40_serial_transport.md R127, R128) -/

/-- HOST's step with `UT_RECV_LINE m` in flight, not held. -/
theorem perform_recvLine (hop : s.host.op = some (.utRecvLine m)) (hh : held s = false) :
    perform .host s = recvLineMicro m s :=
  (perform_host hop hh).trans (runCommand_inFlight hop)

/-- HOST's step at a line of receive_line's own. -/
theorem runChoices_line {cs : List Choice} {t : State} {l : Label} (hop : s.host.op = some (.utRecvLine m))
    (hs : s.host.step = l) (hl : l ∈ [Label.l0, .l1, .l3, .l4, .l5, .l6]) (h : recvLineMicro m s = .next t) :
    runChoices (.host :: cs) s = runChoices cs t := by
  have hheld : held s = false := by
    subst hs
    simp only [List.mem_cons, List.not_mem_nil, or_false] at hl
    rcases hl with hl | hl | hl | hl | hl | hl <;> simp [held, hl]
  exact runChoices_cons ((perform_recvLine hop hheld).trans h)

/-- From L1, with room and a byte waiting, the four micro-steps to L3: the test, and the call of `receive_byte`. -/
theorem recvLine_reads (hop : s.host.op = some (.utRecvLine m)) (hc : s.host.caller = none) (hs : s.host.step = .l1)
    (hroom : s.host.locals.i < m - 1) (he : s.ut.rx.empty = false) (hv : s.ut.rx.fetch .rxbuf s.cfg.N = .ok v) :
    runChoices [.host, .host, .host, .host] s = .next { s with
      ut.rx := s.ut.rx.release s.cfg.N
      host := { s.host with step := .l3, caller := none, locals := { s.host.locals with v := v, c := v } } } :=
  calc runChoices [.host, .host, .host, .host] s
    _ = runChoices [.host, .host, .host] (s.call .l2 .v0) :=
      runChoices_line hop hs (by decide) ((recvLineMicro_l1 hc hs).trans (congrArg _ (lineTest_room hroom)))
    _ = runChoices [.host, .host] ((s.call .l2 .v0).advance .v1) :=
      runChoices_cons ((perform_recvLine (s := s.call .l2 .v0) hop he).trans
        ((recvLineMicro_call_l2 rfl).trans (recvByteMicro_v0_waiting rfl he)))
    _ = runChoices [.host] (((s.call .l2 .v0).withLocals { s.host.locals with v := v }).advance .v2) :=
      runChoices_cons ((perform_recvLine (s := (s.call .l2 .v0).advance .v1) hop rfl).trans
        ((recvLineMicro_call_l2 rfl).trans (recvByteMicro_fetch rfl hv)))
    _ = _ :=
      runChoices_cons ((perform_recvLine
        (s := ((s.call .l2 .v0).withLocals { s.host.locals with v := v }).advance .v2) hop rfl).trans
          ((recvLineMicro_call_l2 rfl).trans (recvByteMicro_v2 rfl)))

/-- From L3 with a byte that is no terminator, the three micro-steps that store it, to L1. -/
theorem recvLine_stores (hop : s.host.op = some (.utRecvLine m)) (hc : s.host.caller = none) (hs : s.host.step = .l3)
    (hterm : ¬ (s.host.locals.c = s.cfg.CR ∨ s.host.locals.c = s.cfg.LF)) (hedit : s.cfg.EDIT_ENABLE = false)
    (hecho : s.cfg.ECHO_ENABLE = false) :
    runChoices [.host, .host, .host] s = .next ((s.withLocals { s.host.locals with
      lineBuf := storeAt s.host.locals.lineBuf s.host.locals.i s.host.locals.c
      i := s.host.locals.i + 1 }).goto .l1) :=
  calc runChoices [.host, .host, .host] s
    _ = runChoices [.host, .host] (s.goto .l4) :=
      runChoices_line hop hs (by decide) ((recvLineMicro_l3 hc hs).trans (congrArg _ (lineTerminator_other hterm)))
    _ = runChoices [.host] (s.goto .l5) :=
      runChoices_line (s := s.goto .l4) (l := .l4) hop rfl (by decide)
        ((recvLineMicro_l4 rfl rfl).trans (congrArg _ (lineEdit_none (by simp [hedit]))))
    _ = _ :=
      runChoices_line (s := s.goto .l5) (l := .l5) hop rfl (by decide)
        ((recvLineMicro_l5 rfl rfl).trans (congrArg _ (lineStore_plain hecho)))

/-- `u` is what `s` has become in a run of `UT_RECV_LINE m` that is at label `l` of its own, has stored `bs` and leaves
`rest` waiting in the RX buffer, and has changed nothing else. -/
structure ReadingLine (m : Nat) (s : State) (l : Label) (bs : List Byte) (rest : List (Option Byte)) (u : State) :
    Prop where
  op : u.host.op = some (.utRecvLine m)
  caller : u.host.caller = none
  label : u.host.step = l
  count : u.host.locals.i = bs.length
  stored : u.host.locals.lineBuf = bs
  faults : u.host.faults = s.host.faults
  results : u.host.results = s.host.results
  cfg : u.cfg = s.cfg
  ut : u.ut = { s.ut with rx.tail := u.ut.rx.tail }
  bm : u.bm = s.bm
  sound : u.ut.rx.Sound s.cfg.N
  live : u.ut.rx.liveSlots s.cfg.N = rest

section ReadingLine

variable {bs : List Byte} {rest : List (Option Byte)}

/-- The issue leads to L0 with nothing stored. -/
theorem ReadingLine.start (hop : s.host.op = none) (hin : s.ut.inited = true) (hs : s.ut.rx.Sound s.cfg.N)
    (hm : 1 ≤ m) (hm16 : m < 2 ^ 16) :
    ∃ u : State, perform (.issue (encode (.utRecvLine m))) s = .next u ∧
      ReadingLine m s .l0 [] (s.ut.rx.liveSlots s.cfg.N) u := by
  obtain ⟨_, hser, _⟩ := commandsAccepted s hop
  obtain ⟨_, _, haccept⟩ := hser hin
  have hissue := perform_issue_encode (i := .utRecvLine m) hop (decide_eq_true hm16)
  exact ⟨_, hissue.trans (haccept m hm), rfl, rfl, rfl, rfl, rfl, rfl, rfl, rfl, rfl, rfl, hs, rfl⟩

/-- L0 leads to L1. -/
theorem ReadingLine.enter (h : ReadingLine m s .l0 [] rest u) :
    ∃ t : State, runChoices (.replicate 1 .host) u = .next t ∧ ReadingLine m s .l1 [] rest t :=
  ⟨_, runChoices_line h.op h.label (by decide) (recvLineMicro_l0 h.caller h.label),
    { h with label := rfl, caller := rfl, count := rfl }⟩

/-- At the limit L1 leads to L6 (R128). -/
theorem ReadingLine.limit (h : ReadingLine m s .l1 bs rest u) (hlimit : bs.length = m - 1) :
    ∃ t : State, runChoices (.replicate 1 .host) u = .next t ∧ ReadingLine m s .l6 bs rest t := by
  have htest := lineTest_limit (m := m) (s := u) (by rw [h.count, hlimit])
  refine ⟨_, runChoices_line h.op h.label (by decide) ((recvLineMicro_l1 h.caller h.label).trans (congrArg _ htest)), ?_⟩
  exact { h with label := rfl, caller := rfl }

/-- With room, the oldest byte waiting is read, from L1 to L3. -/
theorem ReadingLine.read (h : ReadingLine m s .l1 bs (some b :: rest) u) (hcfg : s.cfg.legal)
    (hroom : bs.length < m - 1) :
    ∃ t : State, runChoices (.replicate 4 .host) u = .next t ∧ ReadingLine m s .l3 bs rest t ∧
      t.host.locals.c = b := by
  obtain ⟨h2, h256⟩ := Config.legal_N hcfg
  have he : u.ut.rx.empty = false := by
    rw [← Bool.not_eq_true, CircBuf.empty_iff h.sound, ← CircBuf.liveSlots_length, h.live]
    simp
  obtain ⟨v, hv, hsound, hlive⟩ := CircBuf.dequeue_spec h2 h256 h.sound he .rxbuf
  obtain ⟨hb, hrest⟩ := List.cons.inj (h.live.symm.trans hlive)
  obtain rfl : b = v := Option.some.inj hb
  have hrun := recvLine_reads h.op h.caller h.label (by rw [h.count]; exact hroom) he (h.cfg ▸ hv)
  have hN : u.cfg.N = s.cfg.N := by rw [h.cfg]
  have hut : { u.ut with rx := u.ut.rx.release s.cfg.N } =
      { s.ut with rx.tail := nextIndex s.cfg.N u.ut.rx.tail } := by rw [h.ut]; rfl
  rw [hN] at hrun
  exact ⟨_, hrun, { h with label := rfl, caller := rfl, ut := hut, sound := hsound, live := hrest.symm }, rfl⟩

/-- A terminator ends the line, from L3 to L6 (R127). -/
theorem ReadingLine.terminator (h : ReadingLine m s .l3 bs rest u)
    (hterm : u.host.locals.c = s.cfg.CR ∨ u.host.locals.c = s.cfg.LF) :
    ∃ t : State, runChoices (.replicate 1 .host) u = .next t ∧ ReadingLine m s .l6 bs rest t := by
  have hfound := lineTerminator_found (s := u) (by rw [h.cfg]; exact hterm)
  refine ⟨_, runChoices_line h.op h.label (by decide) ((recvLineMicro_l3 h.caller h.label).trans (congrArg _ hfound)), ?_⟩
  exact { h with label := rfl, caller := rfl }

/-- Any other byte is stored, from L3 to L1 (R127). -/
theorem ReadingLine.store (h : ReadingLine m s .l3 bs rest u) (hedit : s.cfg.EDIT_ENABLE = false)
    (hecho : s.cfg.ECHO_ENABLE = false) (hb : b ≠ s.cfg.CR ∧ b ≠ s.cfg.LF) (hc : u.host.locals.c = b) :
    ∃ t : State, runChoices (.replicate 3 .host) u = .next t ∧ ReadingLine m s .l1 (bs ++ [b]) rest t := by
  have hrun := recvLine_stores h.op h.caller h.label (by rw [h.cfg, hc]; exact not_or.2 hb)
    (by rw [h.cfg]; exact hedit) (by rw [h.cfg]; exact hecho)
  have hstored : storeAt u.host.locals.lineBuf u.host.locals.i u.host.locals.c = bs ++ [b] := by
    rw [h.stored, h.count, hc, storeAt_length_self]
  have hcount : u.host.locals.i + 1 = (bs ++ [b]).length := by rw [h.count, List.length_append]; rfl
  exact ⟨_, hrun, { h with label := rfl, caller := rfl, stored := hstored, count := hcount }⟩

/-- Bytes with room for them all and no terminator among them are read and stored, seven micro-steps each. -/
theorem ReadingLine.bytes {cs : List Byte} (h : ReadingLine m s .l1 bs (cs.map some ++ rest) u) (hcfg : s.cfg.legal)
    (hedit : s.cfg.EDIT_ENABLE = false) (hecho : s.cfg.ECHO_ENABLE = false)
    (hroom : bs.length + cs.length ≤ m - 1) (hcs : ∀ c ∈ cs, c ≠ s.cfg.CR ∧ c ≠ s.cfg.LF) :
    ∃ t : State, runChoices (.replicate (7 * cs.length) .host) u = .next t ∧ ReadingLine m s .l1 (bs ++ cs) rest t := by
  induction cs generalizing bs u with
  | nil => exact ⟨u, rfl, by simpa using h⟩
  | cons c cs ih =>
    rw [List.length_cons] at hroom
    obtain ⟨t, hread, ht, htc⟩ := h.read hcfg (by omega)
    obtain ⟨t', hstore, ht'⟩ := ht.store hedit hecho (hcs c (by simp)) htc
    obtain ⟨w, hrest, hw⟩ := ih ht' (by simp; omega) fun d hd => hcs d (.tail c hd)
    refine ⟨w, ?_, by simpa using hw⟩
    have hsplit : 7 * (cs.length + 1) = 4 + (3 + 7 * cs.length) := by omega
    rw [List.length_cons, hsplit, runChoices_replicate_add hread, runChoices_replicate_add hstore, hrest]

/-- L6 returns the bytes stored and the marker. -/
theorem ReadingLine.done (h : ReadingLine m s .l6 bs rest u) :
    ∃ t : State, runChoices (.replicate 1 .host) u = .next t ∧ t.host.op = none ∧ t.host.faults = s.host.faults ∧
      t.host.results = s.host.results ++ [(.utRecvLine m, .line bs.length (bs ++ [s.cfg.LINE_MARKER]))] ∧
      t.ut.rx.liveSlots s.cfg.N = rest ∧ t.ut = { s.ut with rx.tail := t.ut.rx.tail } ∧ t.bm = s.bm := by
  have hreturn := lineReturn_eq (m := m) (s := u) (by rw [h.count, h.stored])
  refine ⟨_, runChoices_line h.op h.label (by decide) ((recvLineMicro_l6 h.caller h.label).trans (congrArg _ hreturn)),
    rfl, h.faults, ?_, h.live, h.ut, h.bm⟩
  simp [h.results, h.count, h.stored, h.cfg]

end ReadingLine

/-- Settles O24: the bytes before the terminator or the limit are read and stored (`ReadingLine.bytes`); then the
terminator is read, or the limit met, and L6 returns. -/
theorem utRecvLineRuns : Obligations.UtRecvLineRuns := by
  intro s m bs rest hop hin hcfg hs hecho hedit hm hm16 hbs
  obtain ⟨s0, hissue, h0⟩ := ReadingLine.start hop hin hs hm hm16
  obtain ⟨s1, henter, h1⟩ := h0.enter
  refine ⟨fun hroom c hc hlive => ?_, fun hlimit hlive => ?_⟩
  · rw [hlive] at h1
    obtain ⟨s2, hbytes, h2⟩ := h1.bytes hcfg hedit hecho (by simp; omega) hbs
    obtain ⟨s3, hread, h3, hc3⟩ := h2.read hcfg hroom
    obtain ⟨s4, hterm, h4⟩ := h3.terminator (hc3 ▸ hc)
    obtain ⟨t, hdone, ht⟩ := h4.done
    have hsplit : 7 * bs.length + 7 = 1 + (7 * bs.length + (4 + (1 + 1))) := by omega
    refine ⟨t, ?_, ht⟩
    rw [runChoices_cons hissue, hsplit, runChoices_replicate_add henter, runChoices_replicate_add hbytes,
      runChoices_replicate_add hread, runChoices_replicate_add hterm, hdone]
  · rw [hlive] at h1
    obtain ⟨s2, hbytes, h2⟩ := h1.bytes hcfg hedit hecho (by simp; omega) hbs
    obtain ⟨s3, hlim, h3⟩ := h2.limit hlimit
    obtain ⟨t, hdone, ht⟩ := h3.done
    have hsplit : 7 * bs.length + 3 = 1 + (7 * bs.length + (1 + 1)) := by omega
    refine ⟨t, ?_, ht⟩
    rw [runChoices_cons hissue, hsplit, runChoices_replicate_add henter, runChoices_replicate_add hbytes,
      runChoices_replicate_add hlim, hdone]

end Sys2Proof.Machine
end

section
/-! SUPPORT. The handlers and LINE (spec/41_serial_handlers_and_line.md R160 to R164, R167): when each step is taken and
what it does, and that the transmit path and the receive path do not touch each other. -/

namespace Sys2Proof.Machine

variable {s t : State} {v d : Byte} {keepNew : Bool}

/-! ## When each step is taken (41_serial_handlers_and_line.md R163, R164, 60_exceptions.md R263) -/

theorem enabled_rxi_iff :
    enabled .rxi s = true ↔ s.ut.rxReady = true ∧ s.ut.rxIe = true ∧ s.ut.gie = true := by
  simp only [enabled, takeable, irqPending, irqEnabled, Bool.and_eq_true, and_assoc]

theorem enabled_txi_iff :
    enabled .txi s = true ↔ s.ut.txReady = true ∧ s.ut.txIe = true ∧ s.ut.gie = true := by
  simp only [enabled, takeable, irqPending, irqEnabled, Bool.and_eq_true, and_assoc]

theorem enabled_lineArrive_iff : enabled (.lineArrive v keepNew) s = true ↔
    s.ut.inited = true ∧ ¬ (s.cfg.RX_OVERRUN_POLICY = .hold ∧ s.ut.rxReady = true) := by
  simp [enabled, lineMayArrive, imp_iff_not_or]

theorem enabled_lineShiftOut_iff : enabled .lineShiftOut s = true ↔ s.ut.txReady = false := by
  simp [enabled]

theorem perform_rxi (he : enabled .rxi s = true) : perform .rxi s = rxiBody s := if_pos he

theorem perform_txi (he : enabled .txi s = true) : perform .txi s = txiBody s := if_pos he

theorem perform_lineArrive (he : enabled (.lineArrive v keepNew) s = true) :
    perform (.lineArrive v keepNew) s = .next (lineArrive v keepNew s) := if_pos he

theorem perform_lineShiftOut (he : enabled .lineShiftOut s = true) :
    perform .lineShiftOut s = .next (lineShiftOut s) := if_pos he

/-! ## What each step does, branch by branch (41_serial_handlers_and_line.md R160, R161, R163) -/

/-- An enqueue's slot write succeeds when the head is a slot of the buffer (20_memory.md R60, R63). -/
theorem CircBuf.store_of_head_lt {r : CircBuf} {N : Nat} (hN : r.head.toNat < N) (sp : Space) (v : Byte) :
    r.store sp N v = .ok { r with buf := r.buf.write r.head.toNat v } := by
  simp only [store, Memory.writeSlot, if_pos hN]

/-- A dequeue's slot read yields the byte at the tail (20_memory.md R60, R64). -/
theorem CircBuf.fetch_of_read {r : CircBuf} {N : Nat} (hN : r.tail.toNat < N) (hd : r.buf.read? r.tail.toNat = some d)
    (sp : Space) : r.fetch sp N = .ok d := by
  simp only [fetch, Memory.readSlot, if_pos hN, hd]

theorem rxiBody_full (hf : s.ut.rx.full s.cfg.N = true) :
    rxiBody s = .next (s.withUt { s.ut with rxReady := false, rxSwDropped := s.ut.rxSwDropped + 1 }) := if_pos hf

theorem rxiBody_room (hf : s.ut.rx.full s.cfg.N = false) {rx : CircBuf}
    (hs : s.ut.rx.store .rxbuf s.cfg.N s.ut.rxData = .ok rx) :
    rxiBody s = .next (s.withUt { s.ut with rxReady := false, rx := rx.publish s.cfg.N }) := by
  simp [rxiBody, takeRxData, hf, hs]

theorem txiBody_empty (he : s.ut.tx.empty = true) : txiBody s = .next (s.withUt { s.ut with txIe := false }) :=
  if_pos he

theorem txiBody_waiting (he : s.ut.tx.empty = false) (hd : s.ut.tx.fetch .txbuf s.cfg.N = .ok d) :
    txiBody s = .next (s.withUt { s.ut with tx := s.ut.tx.release s.cfg.N, txData := d, txReady := false }) := by
  simp [txiBody, writeTxData, he, hd]

/-- A byte that finds the receive register free fills it (R163). -/
theorem lineArrive_free (hr : s.ut.rxReady = false) : lineArrive v keepNew s =
    s.withUt { s.ut with lineIn := s.ut.lineIn ++ [v], rxData := v, rxReady := true } := by
  simp [lineArrive, hr]

/-- A byte that finds an older one in the receive register: one of the two is kept and the loss is counted (R163). -/
theorem lineArrive_overrun (hr : s.ut.rxReady = true) : lineArrive v keepNew s =
    s.withUt { s.ut with
      lineIn := s.ut.lineIn ++ [v]
      rxHwLost := s.ut.rxHwLost + 1
      rxData := if overrunReplaces s.cfg.RX_OVERRUN_POLICY keepNew then v else s.ut.rxData } := by
  simp [lineArrive, hr]

/-- Under every policy but `hold` a byte can arrive and overrun (R163). -/
theorem perform_lineArrive_overrun (hin : s.ut.inited = true) (hhold : s.cfg.RX_OVERRUN_POLICY ≠ .hold)
    (hr : s.ut.rxReady = true) : perform (.lineArrive v keepNew) s = .next (s.withUt { s.ut with
      lineIn := s.ut.lineIn ++ [v]
      rxHwLost := s.ut.rxHwLost + 1
      rxData := if overrunReplaces s.cfg.RX_OVERRUN_POLICY keepNew then v else s.ut.rxData }) := by
  rw [perform_lineArrive (enabled_lineArrive_iff.2 ⟨hin, fun h => hhold h.1⟩), lineArrive_overrun hr]

theorem overrunReplaces_eq_true {p : OverrunPolicy} (h : p = .overwrite ∨ (p = .anyLoss ∧ keepNew = true)) :
    overrunReplaces p keepNew = true := by
  rcases h with rfl | ⟨rfl, rfl⟩ <;> rfl

theorem overrunReplaces_eq_false {p : OverrunPolicy} (h : p = .dropNew ∨ (p = .anyLoss ∧ keepNew = false)) :
    overrunReplaces p keepNew = false := by
  rcases h with rfl | ⟨rfl, rfl⟩ <;> rfl

/-! ## The statements about single steps -/

/-- Settles O33: not enabled, RXI does nothing; enabled, its body drops the byte or enqueues it. -/
theorem rxiHandler : Obligations.RxiHandler := by
  refine fun s => ⟨fun hno => perform_not_enabled (Bool.eq_false_iff.2 (mt enabled_rxi_iff.1 hno)),
    fun hready hie hgie => ?_⟩
  rw [perform_rxi (enabled_rxi_iff.2 ⟨hready, hie, hgie⟩)]
  exact ⟨fun hf => rxiBody_full (CircBuf.full_eq_true_iff.2 hf), fun hf hN =>
    rxiBody_room (CircBuf.full_eq_false_iff.2 hf) (CircBuf.store_of_head_lt hN .rxbuf s.ut.rxData)⟩

/-- Settles O34: not enabled, TXI does nothing; enabled, its body disables itself or dequeues a byte. -/
theorem txiHandler : Obligations.TxiHandler := by
  refine fun s => ⟨fun hno => perform_not_enabled (Bool.eq_false_iff.2 (mt enabled_txi_iff.1 hno)),
    fun hready hie hgie => ?_⟩
  rw [perform_txi (enabled_txi_iff.2 ⟨hready, hie, hgie⟩)]
  exact ⟨fun he => txiBody_empty (CircBuf.empty_eq_true_iff.2 he), fun d he hN hd =>
    txiBody_waiting (CircBuf.empty_eq_false_iff.2 he) (CircBuf.fetch_of_read hN hd .txbuf)⟩

/-- Settles O35: the arriving byte finds the receive register free or not, and under each policy an overrun keeps one of
the two bytes. -/
theorem lineArrives : Obligations.LineArrives := by
  intro s v keepNew
  refine ⟨fun hno => ?disabled, fun hin hfree => ?free, fun hin hready => ⟨fun hp => ?keep, fun hp => ?replace⟩⟩
  case disabled =>
    refine perform_not_enabled (Bool.eq_false_iff.2 fun he => ?_)
    obtain ⟨hin, hhold⟩ := enabled_lineArrive_iff.1 he
    rcases hno with hno | hno
    · rw [hno] at hin; cases hin
    · exact hhold hno
  case free =>
    rw [perform_lineArrive (enabled_lineArrive_iff.2 ⟨hin, by simp [hfree]⟩), lineArrive_free hfree]; rfl
  case keep =>
    have hhold : s.cfg.RX_OVERRUN_POLICY ≠ .hold := by rcases hp with h | ⟨h, _⟩ <;> simp [h]
    rw [perform_lineArrive_overrun hin hhold hready, overrunReplaces_eq_false hp]; rfl
  case replace =>
    have hhold : s.cfg.RX_OVERRUN_POLICY ≠ .hold := by rcases hp with h | ⟨h, _⟩ <;> simp [h]
    rw [perform_lineArrive_overrun hin hhold hready, overrunReplaces_eq_true hp]; rfl

/-- Settles O36: enabled exactly when a byte is in flight, the step is `lineShiftOut`. -/
theorem lineShiftsOut : Obligations.LineShiftsOut :=
  fun s => ⟨fun hready => perform_not_enabled (by simp [enabled, hready]),
    fun hflight => perform_lineShiftOut (enabled_lineShiftOut_iff.2 hflight)⟩

/-! ## The two paths do not touch each other (41_serial_handlers_and_line.md R167) -/

/-- The two paths of the Serial Transport (R167). -/
inductive Path
  | transmit
  | receive

def Path.other : Path → Path
  | .transmit => .receive
  | .receive => .transmit

@[simp] theorem Path.other_other (p : Path) : p.other.other = p := by cases p <;> rfl

/-- `s` with the elements of one path taken from `u` (R167): all that the steps of the path write. -/
def State.withPath (p : Path) (s u : State) : State :=
  match p with
  | .transmit => s.withUt { s.ut with
      tx := u.ut.tx, txData := u.ut.txData, txReady := u.ut.txReady, txIe := u.ut.txIe, lineOut := u.ut.lineOut }
  | .receive => s.withUt { s.ut with
      rx := u.ut.rx, rxData := u.ut.rxData, rxReady := u.ut.rxReady, rxIe := u.ut.rxIe, lineIn := u.ut.lineIn,
      rxSwDropped := u.ut.rxSwDropped, rxHwLost := u.ut.rxHwLost }

theorem State.withPath_self (p : Path) (s : State) : s.withPath p s = s := by cases p <;> rfl

theorem State.withPath_withPath (p : Path) (s t u : State) : (s.withPath p t).withPath p u = s.withPath p u := by
  cases p <;> rfl

/-- The paths share no element. -/
theorem State.withPath_comm (p : Path) (s t u : State) :
    (s.withPath p t).withPath p.other u = (s.withPath p.other u).withPath p t := by
  cases p <;> rfl

/-- A choice's step writes elements of the path `p` alone, and what it does does not depend on the other path. -/
structure Confined (p : Path) (c : Choice) : Prop where
  writes : ∀ {s t : State}, perform c s = .next t → s.withPath p t = t
  reads : ∀ {s t : State} (u : State), perform c s = .next t →
    perform c (s.withPath p.other u) = .next (t.withPath p.other u)

/-- It is enough to look at the states in which the step is enabled, when the other path has no part in that. -/
theorem Confined.of_enabled {p : Path} {c : Choice}
    (henabled : ∀ s u : State, enabled c (s.withPath p.other u) = enabled c s)
    (hstep : ∀ s t : State, enabled c s = true → perform c s = .next t → s.withPath p t = t ∧
      ∀ u : State, enabled c (s.withPath p.other u) = true →
        perform c (s.withPath p.other u) = .next (t.withPath p.other u)) : Confined p c where
  writes {s t} h := by
    cases he : enabled c s
    · obtain rfl : s = t := by simpa [perform_not_enabled he] using h
      exact s.withPath_self p
    · exact (hstep s t he h).1
  reads {s t} u h := by
    have heq := henabled s u
    cases he : enabled c s
    · obtain rfl : s = t := by simpa [perform_not_enabled he] using h
      exact perform_not_enabled (heq.trans he)
    · exact (hstep s t he h).2 u (heq.trans he)

theorem confined_txi : Confined .transmit .txi := by
  refine .of_enabled (fun _ _ => rfl) fun s t he h => ?_
  rw [perform_txi he] at h
  rcases txiBody_next h with ⟨hempty, rfl⟩ | ⟨hempty, d, hd, rfl⟩
  · exact ⟨rfl, fun u he' => (perform_txi he').trans (txiBody_empty hempty)⟩
  · exact ⟨rfl, fun u he' => (perform_txi he').trans (txiBody_waiting hempty hd)⟩

theorem confined_lineShiftOut : Confined .transmit .lineShiftOut := by
  refine .of_enabled (fun _ _ => rfl) fun s t he h => ?_
  rw [perform_lineShiftOut he] at h
  cases h
  exact ⟨rfl, fun u he' => perform_lineShiftOut he'⟩

theorem confined_rxi : Confined .receive .rxi := by
  refine .of_enabled (fun _ _ => rfl) fun s t he h => ?_
  rw [perform_rxi he] at h
  rcases rxiBody_next h with ⟨hfull, rfl⟩ | ⟨hroom, rx, hs, rfl⟩
  · exact ⟨rfl, fun u he' => (perform_rxi he').trans (rxiBody_full hfull)⟩
  · exact ⟨rfl, fun u he' => (perform_rxi he').trans (rxiBody_room (s := s.withPath .transmit u) hroom hs)⟩

theorem confined_lineArrive (v : Byte) (keepNew : Bool) : Confined .receive (.lineArrive v keepNew) := by
  refine .of_enabled (fun _ _ => rfl) fun s t he h => ?_
  rw [perform_lineArrive he] at h
  cases h
  cases hr : s.ut.rxReady
  · rw [lineArrive_free hr]
    exact ⟨rfl, fun u he' =>
      (perform_lineArrive he').trans (congrArg _ (lineArrive_free (s := s.withPath .transmit u) hr))⟩
  · rw [lineArrive_overrun hr]
    exact ⟨rfl, fun u he' =>
      (perform_lineArrive he').trans (congrArg _ (lineArrive_overrun (s := s.withPath .transmit u) hr))⟩

theorem runChoices_pair_iff {a b : Choice} :
    runChoices [a, b] s = .next t ↔ ∃ m, perform a s = .next m ∧ perform b m = .next t := by
  refine ⟨fun h => ?_, fun ⟨m, ha, hb⟩ => by rw [runChoices_cons ha, runChoices_cons hb]; rfl⟩
  cases ha : perform a s with
  | next m =>
    refine ⟨m, rfl, ?_⟩
    rw [runChoices_cons ha] at h
    cases hb : perform b m with
    | next t' => rwa [runChoices_cons hb] at h
    | fault f => simp [runChoices, hb] at h
    | refused r => simp [runChoices, hb] at h
  | fault f => simp [runChoices, ha] at h
  | refused r => simp [runChoices, ha] at h

/-- Two steps confined to different paths can be exchanged: the second, from the state before the first, does what it
did, and the first then does what it did. -/
theorem Confined.exchange {p : Path} {a b : Choice} (ha : Confined p a) (hb : Confined p.other b)
    (h : runChoices [a, b] s = .next t) : runChoices [b, a] s = .next t := by
  obtain ⟨m, hsm, hmt⟩ := runChoices_pair_iff.1 h
  have hm : s.withPath p m = m := ha.writes hsm
  have ht : m.withPath p.other t = t := hb.writes hmt
  have hback : m.withPath p s = s := by rw [← hm, State.withPath_withPath, State.withPath_self]
  have hbfirst : perform b s = .next (t.withPath p s) := by
    simpa only [Path.other_other, hback] using hb.reads s hmt
  have hmid : s.withPath p.other t = t.withPath p s := by
    calc s.withPath p.other t
      _ = (m.withPath p s).withPath p.other t := by rw [hback]
      _ = (m.withPath p.other t).withPath p s := State.withPath_comm p m s t
      _ = t.withPath p s := by rw [ht]
  have hathen : perform a (s.withPath p.other t) = .next t := by
    simpa only [ht] using ha.reads t hsm
  exact runChoices_pair_iff.2 ⟨_, hbfirst, hmid ▸ hathen⟩

/-- Settles O52: the steps of TXI and LineShiftOut are confined to the transmit path, those of RXI and LineArrive to the
receive path. -/
theorem transmitAndReceiveCommute : Obligations.TransmitAndReceiveCommute := by
  intro s t a b ha hb
  have hta : Confined .transmit a := by
    rcases ha with rfl | rfl
    · exact confined_txi
    · exact confined_lineShiftOut
  have hrb : Confined .receive b := by
    rcases hb with rfl | ⟨v, k, rfl⟩
    · exact confined_rxi
    · exact confined_lineArrive v k
  exact ⟨hta.exchange hrb, hrb.exchange hta⟩

end Sys2Proof.Machine
end

section
/-! SUPPORT. The streams of bytes (spec/41_serial_handlers_and_line.md R165, R166): what every step does to the bytes sent
and to the bytes received, in order. -/

namespace Sys2Proof.Machine

variable {s t : State} {c : Choice}

/-! ## The micro-step HOST performs -/

/-- The choice is HOST's and HOST is at label `l` of a command in flight. -/
def HostPerforms (l : Label) (c : Choice) (s : State) : Prop :=
  c = .host ∧ s.host.op.isSome ∧ s.host.step = l

theorem not_hostPerforms_of_choice {l : Label} (hc : c ≠ .host) : ¬ HostPerforms l c s := fun h => hc h.1

theorem not_hostPerforms_of_not_busy {l : Label} (hl : l ∈ busyLabels)
    (h : s.host.op = none ∨ s.host.step ∉ busyLabels) : ¬ HostPerforms l c s := by
  rintro ⟨_, hop, rfl⟩
  rcases h with h | h
  · simp [h] at hop
  · exact h hl

theorem not_hostPerforms_of_label {l m : Label} (hm : s.host.step = m) (hlm : m ≠ l) : ¬ HostPerforms l c s :=
  fun h => hlm (hm.symm.trans h.2.2)

/-- No label between whose micro-steps HOST relies on a buffer is a hold (60_exceptions.md R282). -/
theorem not_hostPerforms_of_held {l : Label} (hl : l ∈ busyLabels)
    (h : c = .host → s.host.op = none ∨ held s = true) : ¬ HostPerforms l c s := by
  rintro ⟨hc, hop, hstep⟩
  rcases h hc with h | h
  · simp [h] at hop
  · simp only [busyLabels, List.mem_cons, List.not_mem_nil, or_false] at hl
    rcases hl with rfl | rfl | rfl | rfl <;> simp [held, hstep] at h

theorem not_busy_of_not_pending (h : s.host.op = none ∨ s.host.step ∉ pendingLabels) :
    s.host.op = none ∨ s.host.step ∉ busyLabels :=
  h.imp_right fun hl hb => hl (List.mem_cons_of_mem _ hb)

/-! ## The bytes sent (R165) -/

/-- The stream is that of the transmit side's elements. -/
theorem txStream_congr (hcfg : t.cfg = s.cfg) (hout : t.ut.lineOut = s.ut.lineOut)
    (hready : t.ut.txReady = s.ut.txReady) (hdata : t.ut.txData = s.ut.txData)
    (hlive : t.ut.tx.liveSlots s.cfg.N = s.ut.tx.liveSlots s.cfg.N) : txStream t = txStream s := by
  simp only [txStream, hcfg, hout, hready, hdata, hlive]

/-- HOST's publication of an enqueue adds to the stream the byte passed to the `send_byte`; no other HOST transition
changes it (40_serial_transport.md R122). -/
theorem SerialMove.txStream_cases (hI : SerialInv s) (h : SerialMove s t) :
    ((s.host.op.isSome ∧ s.host.step = .s2) ∧ (sendingByte s).isSome ∧
      txStream t = txStream s ++ [sendingByte s]) ∨
    ((∀ c, ¬ HostPerforms .s2 c s) ∧ txStream t = txStream s) := by
  obtain ⟨hN, hN2⟩ := Config.legal_N hI.cfg
  cases h with
  | same hs =>
    refine .inr ⟨fun _ => not_hostPerforms_of_not_busy (by decide) (hs.label.imp_right And.left), ?_⟩
    apply txStream_congr hs.cfg <;> rw [hs.ut]
  | refl e hl =>
    exact .inr ⟨fun _ => not_hostPerforms_of_not_busy (by decide) (not_busy_of_not_pending hl), by rw [e]⟩
  | room _ hl _ e => subst e; exact .inr ⟨fun _ => not_hostPerforms_of_label hl nofun, rfl⟩
  | store _ hl b _ tx hs e =>
    obtain ⟨r', hr, _, _, _, hlive, _⟩ := CircBuf.store_spec hI.tx .txbuf b
    obtain rfl : tx = r' := Except.ok.inj (hs.symm.trans hr)
    subst e
    exact .inr ⟨fun _ => not_hostPerforms_of_label hl nofun, txStream_congr rfl rfl rfl rfl hlive⟩
  | publish hop hl e =>
    obtain ⟨hsome, hread⟩ := hI.stored hop hl
    have hlive := (CircBuf.publish_spec hN hN2 hI.tx (hI.room hop (.inr hl)) (hread ▸ hsome)).2
    rw [hread] at hlive
    subst e
    exact .inl ⟨⟨hop, hl⟩, hsome, (congrArg _ hlive).trans (List.append_assoc _ _ _).symm⟩
  | byte _ hl _ e => subst e; exact .inr ⟨fun _ => not_hostPerforms_of_label hl nofun, rfl⟩
  | fetch _ hl _ _ e => subst e; exact .inr ⟨fun _ => not_hostPerforms_of_label hl nofun, rfl⟩
  | release _ hl hcfg hut =>
    refine .inr ⟨fun _ => not_hostPerforms_of_label hl nofun, ?_⟩
    apply txStream_congr hcfg <;> rw [hut]

/-- RXI is no step of the transmit path. -/
theorem rxiBody_txStream (h : rxiBody s = .next t) : txStream t = txStream s := by
  rcases rxiBody_next h with ⟨_, rfl⟩ | ⟨_, _, _, rfl⟩ <;> rfl

/-- TXI moves the oldest queued byte into the transmit register, which was free (R161). -/
theorem txiBody_txStream (hI : SerialInv s) (hready : s.ut.txReady = true) (h : txiBody s = .next t) :
    txStream t = txStream s := by
  obtain ⟨hN, hN2⟩ := Config.legal_N hI.cfg
  rcases txiBody_next h with ⟨_, rfl⟩ | ⟨he, d, hd, rfl⟩
  · rfl
  · obtain ⟨d', hd', _, hlive⟩ := CircBuf.dequeue_spec hN hN2 hI.tx he .txbuf
    obtain rfl : d = d' := Except.ok.inj (hd.symm.trans hd')
    simp [txStream, hready, hlive]

theorem lineArrive_txStream (v : Byte) (keepNew : Bool) (s : State) :
    txStream (lineArrive v keepNew s) = txStream s := by
  unfold lineArrive
  dsimp only
  split <;> rfl

/-- The link moves the byte in flight to the end of `line_out` (R164). -/
theorem lineShiftOut_txStream (hflight : s.ut.txReady = false) : txStream (lineShiftOut s) = txStream s := by
  simp [txStream, lineShiftOut, hflight]

/-- What the step of any agent does to the stream of bytes sent. -/
theorem perform_txStream (hI : SerialInv s) (h : perform c s = .next t) :
    (HostPerforms .s2 c s ∧ (sendingByte s).isSome ∧ txStream t = txStream s ++ [sendingByte s]) ∨
    (¬ HostPerforms .s2 c s ∧ txStream t = txStream s) := by
  rcases perform_move h with ⟨hcfg, hut, hhost⟩ | ⟨hagent, hm⟩ | ⟨rfl, _, h⟩ | ⟨rfl, he, h⟩ | ⟨v, k, rfl, _, rfl⟩ |
    ⟨rfl, hflight, rfl⟩
  · exact .inr ⟨not_hostPerforms_of_held (by decide) hhost, by apply txStream_congr hcfg <;> rw [hut]⟩
  · rcases hm.txStream_cases hI with ⟨⟨hop, hl⟩, hgrows⟩ | ⟨hno, hsame⟩
    · rcases hagent with ⟨_, _, hidle⟩ | ⟨rfl, _⟩
      · simp [hidle] at hop
      · exact .inl ⟨⟨rfl, hop, hl⟩, hgrows⟩
    · exact .inr ⟨hno c, hsame⟩
  · exact .inr ⟨not_hostPerforms_of_choice nofun, rxiBody_txStream h⟩
  · exact .inr ⟨not_hostPerforms_of_choice nofun, txiBody_txStream hI (enabled_txi_iff.1 he).1 h⟩
  · exact .inr ⟨not_hostPerforms_of_choice nofun, lineArrive_txStream v k s⟩
  · exact .inr ⟨not_hostPerforms_of_choice nofun, lineShiftOut_txStream hflight⟩

/-- Settles O58: of all steps only HOST's publication of an enqueue changes the stream (`perform_txStream`). -/
theorem transmitStreamOnlyGrows : Obligations.TransmitStreamOnlyGrows := by
  intro s t c hI h
  rcases perform_txStream hI h with ⟨hs2, hgrows⟩ | ⟨hno, hsame⟩
  · exact ⟨fun _ => hgrows, fun hno => absurd hs2 hno⟩
  · exact ⟨fun hs2 => absurd hs2 hno, fun _ => hsame⟩

/-! ## The bytes received (R166) -/

/-- A step accounts for the bytes received: it delivers `delivered`, `arrived` arrives, the bytes delivered and still
waiting are those that were waiting or arrived, in order, but for as many as the counters grew by. -/
structure ReceiveAccount (delivered arrived : List (Option Byte)) (s t : State) : Prop where
  lineIn : t.ut.lineIn.map some = s.ut.lineIn.map some ++ arrived
  sublist : List.Sublist (delivered ++ rxStream t) (rxStream s ++ arrived)
  counted : (delivered ++ rxStream t).length + (t.ut.rxSwDropped + t.ut.rxHwLost) =
    (rxStream s ++ arrived).length + (s.ut.rxSwDropped + s.ut.rxHwLost)

/-- A step after which no byte has arrived and none is lost. -/
theorem ReceiveAccount.of_kept {delivered : List (Option Byte)} (hin : t.ut.lineIn = s.ut.lineIn)
    (hstream : delivered ++ rxStream t = rxStream s) (hsw : t.ut.rxSwDropped = s.ut.rxSwDropped)
    (hhw : t.ut.rxHwLost = s.ut.rxHwLost) : ReceiveAccount delivered [] s t where
  lineIn := by rw [hin, List.append_nil]
  sublist := by rw [hstream, List.append_nil]
  counted := by rw [hstream, hsw, hhw, List.append_nil]

/-- A step that leaves the receive side as it was. -/
theorem ReceiveAccount.of_untouched (hcfg : t.cfg = s.cfg) (hrx : t.ut.rx = s.ut.rx)
    (hready : t.ut.rxReady = s.ut.rxReady) (hdata : t.ut.rxData = s.ut.rxData) (hin : t.ut.lineIn = s.ut.lineIn)
    (hsw : t.ut.rxSwDropped = s.ut.rxSwDropped) (hhw : t.ut.rxHwLost = s.ut.rxHwLost) :
    ReceiveAccount [] [] s t :=
  .of_kept hin (by simp only [rxStream, hcfg, hrx, hready, hdata, List.nil_append]) hsw hhw

/-- HOST's publication of a dequeue delivers the oldest waiting byte, which is the one that V1 read; no other HOST
transition touches the receive side's bytes (40_serial_transport.md R125). -/
theorem SerialMove.receiveAccount (hI : SerialInv s) (h : SerialMove s t) :
    ((s.host.op.isSome ∧ s.host.step = .v2) ∧ ReceiveAccount [some s.host.locals.v] [] s t) ∨
    ((∀ c, ¬ HostPerforms .v2 c s) ∧ ReceiveAccount [] [] s t) := by
  obtain ⟨hN, hN2⟩ := Config.legal_N hI.cfg
  cases h with
  | same hs =>
    refine .inr ⟨fun _ => not_hostPerforms_of_not_busy (by decide) (hs.label.imp_right And.left), ?_⟩
    apply ReceiveAccount.of_untouched hs.cfg <;> rw [hs.ut]
  | refl e hl =>
    subst e
    exact .inr ⟨fun _ => not_hostPerforms_of_not_busy (by decide) (not_busy_of_not_pending hl),
      .of_kept rfl rfl rfl rfl⟩
  | room _ hl _ e | store _ hl _ _ _ _ e | publish _ hl e | byte _ hl _ e | fetch _ hl _ _ e =>
    subst e
    exact .inr ⟨fun _ => not_hostPerforms_of_label hl nofun, .of_kept rfl rfl rfl rfl⟩
  | release hop hl hcfg hut =>
    have hlive := (CircBuf.release_spec hN hN2 hI.rx (hI.byte hop (.inr hl))).2
    rw [hI.fetched hop hl] at hlive
    refine .inl ⟨⟨hop, hl⟩, .of_kept (by rw [hut]) ?_ (by rw [hut]) (by rw [hut])⟩
    simp only [rxStream, hcfg, hut, hlive, List.cons_append, List.nil_append]

/-- RXI moves the waiting byte behind the live ones, or drops it and counts it (R160). -/
theorem rxiBody_receiveAccount (hI : SerialInv s) (hready : s.ut.rxReady = true) (h : rxiBody s = .next t) :
    ReceiveAccount [] [] s t := by
  obtain ⟨hN, hN2⟩ := Config.legal_N hI.cfg
  rcases rxiBody_next h with ⟨_, rfl⟩ | ⟨hf, rx, hs, rfl⟩
  · exact ⟨by simp, by simp [rxStream], by simp [rxStream, hready]; omega⟩
  · obtain ⟨r', hr, _, _, hlive⟩ := CircBuf.enqueue_spec hN hN2 hI.rx hf .rxbuf s.ut.rxData
    obtain rfl : rx = r' := Except.ok.inj (hs.symm.trans hr)
    exact .of_kept rfl (by simp [rxStream, hready, hlive]) rfl rfl

/-- TXI is no step of the receive path. -/
theorem txiBody_receiveAccount (h : txiBody s = .next t) : ReceiveAccount [] [] s t := by
  rcases txiBody_next h with ⟨_, rfl⟩ | ⟨_, _, _, rfl⟩ <;> exact .of_kept rfl rfl rfl rfl

/-- An arriving byte waits in the receive register; on an overrun one of the two bytes stays and the loss is counted
(R163). -/
theorem lineArrive_receiveAccount (v : Byte) (keepNew : Bool) (s : State) :
    ReceiveAccount [] [some v] s (lineArrive v keepNew s) := by
  cases hr : s.ut.rxReady
  · rw [lineArrive_free hr]
    exact ⟨by simp, by simp [rxStream, hr], by simp [rxStream, hr]⟩
  · rw [lineArrive_overrun hr]
    refine ⟨by simp, ?sublist, by simp [rxStream, hr]; omega⟩
    cases overrunReplaces s.cfg.RX_OVERRUN_POLICY keepNew <;> simp [rxStream, hr]

/-- What the step of any agent does to the bytes received. -/
theorem perform_receiveAccount (hI : SerialInv s) (h : perform c s = .next t) : ∃ arrived,
    (HostPerforms .v2 c s ∧ ReceiveAccount [some s.host.locals.v] arrived s t) ∨
    (¬ HostPerforms .v2 c s ∧ ReceiveAccount [] arrived s t) := by
  rcases perform_move h with ⟨hcfg, hut, hhost⟩ | ⟨hagent, hm⟩ | ⟨rfl, he, h⟩ | ⟨rfl, _, h⟩ | ⟨v, k, rfl, _, rfl⟩ |
    ⟨rfl, _, rfl⟩
  · refine ⟨[], .inr ⟨not_hostPerforms_of_held (by decide) hhost, ?_⟩⟩
    apply ReceiveAccount.of_untouched hcfg <;> rw [hut]
  · rcases hm.receiveAccount hI with ⟨⟨hop, hl⟩, hacc⟩ | ⟨hno, hacc⟩
    · rcases hagent with ⟨_, _, hidle⟩ | ⟨rfl, _⟩
      · simp [hidle] at hop
      · exact ⟨[], .inl ⟨⟨rfl, hop, hl⟩, hacc⟩⟩
    · exact ⟨[], .inr ⟨hno c, hacc⟩⟩
  · exact ⟨[], .inr ⟨not_hostPerforms_of_choice nofun, rxiBody_receiveAccount hI (enabled_rxi_iff.1 he).1 h⟩⟩
  · exact ⟨[], .inr ⟨not_hostPerforms_of_choice nofun, txiBody_receiveAccount h⟩⟩
  · exact ⟨[some v], .inr ⟨not_hostPerforms_of_choice nofun, lineArrive_receiveAccount v k s⟩⟩
  · exact ⟨[], .inr ⟨not_hostPerforms_of_choice nofun, .of_kept rfl rfl rfl rfl⟩⟩

/-- Settles O59: every step accounts for the bytes received, and only HOST's publication of a dequeue delivers one
(`perform_receiveAccount`). -/
theorem receiveStreamLosesOnlyCountedBytes : Obligations.ReceiveStreamLosesOnlyCountedBytes := by
  intro s t c hI h
  obtain ⟨arrived, ⟨hv2, hacc⟩ | ⟨hno, hacc⟩⟩ := perform_receiveAccount hI h
  · exact ⟨_, arrived, fun _ => rfl, fun hno => absurd hv2 hno, hacc.lineIn, hacc.sublist, hacc.counted⟩
  · exact ⟨_, arrived, fun hv2 => absurd hv2 hno, fun _ => rfl, hacc.lineIn, hacc.sublist, hacc.counted⟩

end Sys2Proof.Machine
end

section
/-! SUPPORT. The bus protocol (spec/42_bus_primitives.md R198, R199, R205): every primitive, called or not, goes through
its own labels with the engine in the state of each, and hands its caller an engine at rest. -/

namespace Sys2Proof.Machine

variable {s t u : State} {i : Instr}

/-! ## The invariant, by where HOST is -/

/-- The registers of the reference device, if one is attached, are in canonical form (95_test_vectors.md section 4). -/
def DeviceCanonical (s : State) : Prop := ∀ d, s.device = some d → d.regs.wf ∧ ∀ c ∈ d.regs, c.2 ≠ 0

/-- No phase is pending, the engine being between two phases, and the device is in canonical form (R198). -/
structure BusAtRest (s : State) : Prop where
  pending : s.bm.pending = none
  device : DeviceCanonical s

/-- Being at rest is a matter of `bm_pending` and the device alone. -/
theorem BusAtRest.of_eq (hr : BusAtRest s) (hp : t.bm.pending = s.bm.pending) (hd : t.device = s.device) :
    BusAtRest t :=
  ⟨hp.trans hr.pending, fun d h => hr.device d (hd ▸ h)⟩

/-- Nothing is pending where HOST does not wait for a completion. -/
theorem BusInv.atRest (hI : BusInv s) (hl : s.host.op = none ∨ s.host.step ∉ busHolds) : BusAtRest s := by
  refine ⟨?_, hI.registers⟩
  by_contra hp
  obtain ⟨hop, hstep, _⟩ := hI.pendingHeld (Option.isSome_iff_ne_none.2 hp)
  rcases hl with hl | hl
  · simp [hl] at hop
  · exact hl hstep

/-- Nothing is pending once the completion is flagged. -/
theorem BusInv.atRest_of_done (hI : BusInv s) (hd : s.bm.done = true) : BusAtRest s := by
  refine ⟨?_, hI.registers⟩
  by_contra hp
  obtain ⟨_, _, hdone⟩ := hI.pendingHeld (Option.isSome_iff_ne_none.2 hp)
  simp [hd] at hdone

/-- With HOST idle the bus is at rest in a state a command can find (R205). -/
theorem BusInv.of_idle (hr : BusAtRest t) (hop : t.host.op = none) (hs : settled t.bm) : BusInv t where
  pendingHeld h := by simp [hr.pending] at h
  completed h := by simp [hop] at h
  idle _ := hs
  protocol _ h := by simp [hop] at h
  registers := hr.device

/-- At a label that is no completion hold the bus is at rest, in the state of the label. -/
theorem BusInv.of_label (l : Label) (hr : BusAtRest t) (hop : t.host.op = some i) (hs : t.host.step = l)
    (hl : l ∉ busHolds) (hp : protocolAt i t.host.caller l t.bm) : BusInv t where
  pendingHeld h := by simp [hr.pending] at h
  completed _ h := absurd (hs ▸ h) hl
  idle h := by simp [hop] at h
  protocol j hj := by cases hop.symm.trans hj; exact hs ▸ hp
  registers := hr.device

/-- At a completion hold just reached the phase is pending (R198). -/
theorem BusInv.of_issued (l : Label) (hd : DeviceCanonical t) (hop : t.host.op = some i) (hs : t.host.step = l)
    (hl : l ∈ busHolds) (hk : t.bm.pending.isSome) (hdone : t.bm.done = false)
    (hp : protocolAt i t.host.caller l t.bm) : BusInv t where
  pendingHeld _ := ⟨by simp [hop], hs ▸ hl, hdone⟩
  completed _ _ h := by simp [h] at hk
  idle h := by simp [hop] at h
  protocol j hj := by cases hop.symm.trans hj; exact hs ▸ hp
  registers := hd

/-- The invariant speaks of HOST, the engine and the device alone. -/
theorem BusInv.of_same (hI : BusInv s) (hhost : t.host = s.host) (hbm : t.bm = s.bm) (hdev : t.device = s.device) :
    BusInv t := by
  obtain ⟨hpending, hcompleted, hidle, hprotocol, hregisters⟩ := hI
  constructor <;> simpa only [hhost, hbm, hdev]

/-- A completion hold waits for the phase, or is left with the bus at rest for a label of the same protocol state
(R197). -/
theorem BusInv.awaitDone {l : Label} (hI : BusInv s) (hop : s.host.op = some i) (hs : s.host.step ∈ busHolds)
    (hl : l ∉ busHolds) (hp : protocolAt i s.host.caller l s.bm) : BusInv (Machine.awaitDone l s) := by
  rcases awaitDone_cases l hs with ⟨_, e⟩ | ⟨hd, e⟩
  · rw [e]; exact hI
  · exact e ▸ .of_label l ((hI.atRest_of_done hd).of_eq rfl rfl) hop rfl hl hp

theorem settled_of_state {b : BusMaster} {st : BmState} (h : b.state = st) (hst : st ≠ .started ∧ st ≠ .stopped) :
    settled b := by
  subst h; exact hst

/-! ## The primitives (R192 to R196) -/

section Primitives

/-- What a caller does with a return leads, from a bus at rest that meets `P`, to a state of the invariant. -/
def ReturnKeeps (i : Instr) (P : BusMaster → Prop) (ret : State → State) : Prop :=
  ∀ u, u.host.op = some i → BusAtRest u → P u.bm → BusInv (ret u)

/-- The return of a command: HOST idle, the engine in a state that is not inside `start` or `stop`. -/
theorem returnKeeps_ret {P : BusMaster → Prop} (hP : ∀ b, P b → settled b) (j : Instr) (r : State → Result) :
    ReturnKeeps i P fun u => u.ret j (r u) :=
  fun _ _ hr hp => .of_idle (hr.of_eq rfl rfl) rfl (hP _ hp)

/-- A status returned to the line that checks it. -/
theorem returnKeeps_statusThen {P : BusMaster → Prop} {l : Label} (hl : l ∉ busHolds)
    (hP : ∀ b, P b → protocolAt i none l b) (v : Byte) : ReturnKeeps i P (statusThen l v) :=
  fun _ hop hr hp => .of_label l (hr.of_eq rfl rfl) hop rfl hl (hP _ hp)

/-- The engine's state and direction between the phases of a transaction (R205). -/
def InState (st : BmState) (d : Direction) (b : BusMaster) : Prop := b.state = st ∧ b.dir = d

variable {ret : Byte → State → State}

/-- `start`: its return finds the engine at AddressAcked in the direction of the call (R192). -/
theorem startMicro_keeps_busInv {a : DevAddr} {d : Direction} (hI : BusInv s) (hop : s.host.op = some i)
    (hd : startDirection i s.host.caller = d) (hret : ∀ v, ReturnKeeps i (InState .addressAcked d) (ret v))
    (h : startMicro a d ret s = .next t) : BusInv t := by
  have hp := hI.protocol i hop
  subst hd
  rcases startMicro_next h with ⟨hl, rfl⟩ | ⟨hl, rfl⟩ | ⟨hl, rfl⟩ | ⟨hl, rfl⟩ | ⟨hl, rfl⟩ <;> rw [hl] at hp
  · exact .of_issued .t1 hI.registers hop rfl (by decide) rfl rfl ⟨rfl, rfl⟩
  · exact hI.awaitDone hop (hl ▸ by decide) (by decide) hp
  · exact .of_issued .t3 hI.registers hop rfl (by decide) rfl rfl hp
  · exact hI.awaitDone hop (hl ▸ by decide) (by decide) hp
  · have hr := hI.atRest (.inr (hl ▸ by decide))
    exact hret _ _ hop (hr.of_eq rfl rfl) ⟨rfl, hp.2⟩

/-- `write`: the engine is Writing from its first micro-step to its return (R193). -/
theorem writeMicro_keeps_busInv {b : Byte} (hI : BusInv s) (hop : s.host.op = some i)
    (hret : ∀ v, ReturnKeeps i (InState .writing .write) (ret v)) (h : writeMicro b ret s = .next t) : BusInv t := by
  have hp := hI.protocol i hop
  rcases writeMicro_next h with ⟨hl, rfl⟩ | ⟨hl, rfl⟩ | ⟨hl, rfl⟩ <;> rw [hl] at hp
  · exact .of_issued .w1 hI.registers hop rfl (by decide) rfl rfl ⟨rfl, hp.2⟩
  · exact hI.awaitDone hop (hl ▸ by decide) (by decide) hp
  · exact hret _ _ hop (hI.atRest (.inr (hl ▸ by decide))) hp

/-- `read_with_ack`: the engine is Reading from its first micro-step to its return (R194). -/
theorem readAckMicro_keeps_busInv (hI : BusInv s) (hop : s.host.op = some i)
    (hret : ∀ v, ReturnKeeps i (InState .reading .read) (ret v)) (h : readAckMicro ret s = .next t) : BusInv t := by
  have hp := hI.protocol i hop
  rcases readAckMicro_next h with ⟨hl, rfl⟩ | ⟨hl, rfl⟩ | ⟨hl, rfl⟩ <;> rw [hl] at hp
  · exact .of_issued .a1 hI.registers hop rfl (by decide) rfl rfl ⟨rfl, hp.2⟩
  · exact hI.awaitDone hop (hl ▸ by decide) (by decide) hp
  · exact hret _ _ hop (hI.atRest (.inr (hl ▸ by decide))) hp

/-- `read_with_no_ack` likewise (R195). -/
theorem readNackMicro_keeps_busInv (hI : BusInv s) (hop : s.host.op = some i)
    (hret : ∀ v, ReturnKeeps i (InState .reading .read) (ret v)) (h : readNackMicro ret s = .next t) : BusInv t := by
  have hp := hI.protocol i hop
  rcases readNackMicro_next h with ⟨hl, rfl⟩ | ⟨hl, rfl⟩ | ⟨hl, rfl⟩ <;> rw [hl] at hp
  · exact .of_issued .k1 hI.registers hop rfl (by decide) rfl rfl ⟨rfl, hp.2⟩
  · exact hI.awaitDone hop (hl ▸ by decide) (by decide) hp
  · exact hret _ _ hop (hI.atRest (.inr (hl ▸ by decide))) hp

/-- The stop condition writes no register of the reference device. -/
theorem stopCondition_deviceCanonical (hd : DeviceCanonical s) : DeviceCanonical (stopCondition s) := by
  intro d h
  obtain ⟨e, he, rfl⟩ := Option.map_eq_some_iff.1 h
  exact hd e he

/-- `stop`: its return finds the engine Idle (R196). -/
theorem stopMicro_keeps_busInv {j : Instr} {r : State → Result} (hI : BusInv s) (hop : s.host.op = some i)
    (h : stopMicro (fun u => u.ret j (r u)) s = .next t) : BusInv t := by
  rcases stopMicro_next h with ⟨hl, rfl⟩ | ⟨hl, rfl⟩ <;>
    have hr := hI.atRest (.inr (hl ▸ by decide))
  · have hr' : BusAtRest ((stopCondition s).advance .p1) := ⟨hr.pending, stopCondition_deviceCanonical hr.device⟩
    exact .of_label .p1 hr' hop rfl (by decide) ⟨rfl, List.getLast?_concat⟩
  · exact .of_idle (hr.of_eq rfl rfl) rfl (settled_of_state (st := .idle) rfl (by decide))

/-- `BM_INIT` leaves the engine Idle (R190). -/
theorem bmInitMicro_keeps_busInv {r : Nat} (hI : BusInv s) (hop : s.host.op = some (.bmInit r))
    (h : bmInitMicro r s = .next t) : BusInv t := by
  have hp := hI.protocol _ hop
  rcases bmInitMicro_next h with ⟨hl, rfl⟩ | ⟨hl, rfl⟩ <;> rw [hl] at hp <;>
    have hr := hI.atRest (.inr (hl ▸ by decide))
  · exact .of_label .n1 (hr.of_eq rfl rfl) hop rfl (by decide) hp
  · exact .of_idle (hr.of_eq rfl rfl) rfl (settled_of_state hp (by decide))

end Primitives

/-! ## The helpers (43_bus_helpers.md R230 to R233) -/

section Helpers

/-- A check line leads to the next call, or to `stop` called in its own line (R230). -/
theorem BusInv.checkStatus {e : Byte} {line next first : Label} (hr : BusAtRest s) (hop : s.host.op = some i)
    (hfirst : first ∉ busHolds) (hnext : protocolAt i (some next) first s.bm)
    (hstop : protocolAt i (some line) .p0 s.bm) : BusInv (checkStatus e line next first s) := by
  unfold Machine.checkStatus
  split
  · exact .of_label first (hr.of_eq rfl rfl) hop rfl hfirst hnext
  · exact .of_label .p0 (hr.of_eq rfl rfl) hop rfl (by decide) hstop

theorem writeRegMicro_keeps_busInv {d : DevAddr} {r v : Byte} (hI : BusInv s)
    (hop : s.host.op = some (.bmWriteReg d r v)) (h : writeRegMicro d r v s = .next t) : BusInv t := by
  unfold writeRegMicro at h
  split at h <;> rename_i hc
  · exact startMicro_keeps_busInv hI hop (by rw [hc]; rfl) (returnKeeps_statusThen (by decide) fun _ => id) h
  · exact writeMicro_keeps_busInv hI hop (returnKeeps_statusThen (by decide) fun _ => id) h
  · exact writeMicro_keeps_busInv hI hop (returnKeeps_statusThen (by decide) fun _ => id) h
  iterate 4 exact stopMicro_keeps_busInv hI hop h
  · cases h
  · have hp := hI.protocol _ hop
    split at h <;> rename_i hl <;> cases h <;> rw [hl] at hp <;>
      have hr := hI.atRest (.inr (hl ▸ by decide)) <;> obtain ⟨hstate, hdir⟩ := hp
    · exact .checkStatus hr hop (by decide) ⟨.inl hstate, hdir⟩ (.inl hstate)
    · exact .checkStatus hr hop (by decide) ⟨.inr hstate, hdir⟩ (.inr (.inl hstate))
    · exact .checkStatus hr hop (by decide) (.inr (.inl hstate)) (.inr (.inl hstate))

theorem readRegMicro_keeps_busInv {d : DevAddr} {r : Byte} (hI : BusInv s)
    (hop : s.host.op = some (.bmReadReg d r)) (h : readRegMicro d r s = .next t) : BusInv t := by
  unfold readRegMicro at h
  split at h <;> rename_i hc
  · exact startMicro_keeps_busInv hI hop (by rw [hc]; rfl) (returnKeeps_statusThen (by decide) fun _ => id) h
  · exact writeMicro_keeps_busInv hI hop (returnKeeps_statusThen (by decide) fun _ => id) h
  · exact startMicro_keeps_busInv hI hop (by rw [hc]; rfl) (returnKeeps_statusThen (by decide) fun _ => id) h
  · refine readNackMicro_keeps_busInv hI hop (fun v u hu hr hp => ?_) h
    exact .of_label .p0 (hr.of_eq rfl rfl) hu rfl (by decide) (.inr (.inr hp.1))
  iterate 4 exact stopMicro_keeps_busInv hI hop h
  · cases h
  · have hp := hI.protocol _ hop
    split at h <;> rename_i hl <;> cases h <;> rw [hl] at hp <;>
      have hr := hI.atRest (.inr (hl ▸ by decide)) <;> obtain ⟨hstate, hdir⟩ := hp
    · exact .checkStatus hr hop (by decide) ⟨.inl hstate, hdir⟩ (.inl hstate)
    · exact .checkStatus hr hop (by decide) (settled_of_state hstate (by decide)) (.inr (.inl hstate))
    · exact .checkStatus hr hop (by decide) ⟨.inl hstate, hdir⟩ (.inl hstate)

theorem readRegsMicro_keeps_busInv {d : DevAddr} {r : Byte} {n : Nat} (hI : BusInv s)
    (hop : s.host.op = some (.bmReadRegs d r n)) (h : readRegsMicro d r n s = .next t) : BusInv t := by
  unfold readRegsMicro at h
  split at h <;> rename_i hc
  · exact startMicro_keeps_busInv hI hop (by rw [hc]; rfl) (returnKeeps_statusThen (by decide) fun _ => id) h
  · exact writeMicro_keeps_busInv hI hop (returnKeeps_statusThen (by decide) fun _ => id) h
  · exact startMicro_keeps_busInv hI hop (by rw [hc]; rfl) (returnKeeps_statusThen (by decide) fun _ => id) h
  · refine readAckMicro_keeps_busInv hI hop (fun v u hu hr hp => ?_) h
    exact .of_label .q7 (hr.of_eq rfl rfl) hu rfl (by decide) ⟨.inr hp.1, hp.2⟩
  · refine readNackMicro_keeps_busInv hI hop (fun v u hu hr hp => ?_) h
    exact .of_label .p0 (hr.of_eq rfl rfl) hu rfl (by decide) (.inr (.inr hp.1))
  iterate 4 exact stopMicro_keeps_busInv hI hop h
  · cases h
  · have hp := hI.protocol _ hop
    split at h <;> rename_i hl <;> cases h <;> rw [hl] at hp <;>
      have hr := hI.atRest (.inr (hl ▸ by decide)) <;> obtain ⟨hstate, hdir⟩ := hp
    · exact .checkStatus hr hop (by decide) ⟨.inl hstate, hdir⟩ (.inl hstate)
    · exact .checkStatus hr hop (by decide) (settled_of_state hstate (by decide)) (.inr (.inl hstate))
    · unfold readRegsAddressed
      split
      · exact .of_label .q6 (hr.of_eq rfl rfl) hop rfl (by decide) ⟨hstate, hdir⟩
      · exact .of_label .p0 (hr.of_eq rfl rfl) hop rfl (by decide) (.inl hstate)
    · exact .of_label .q7 (hr.of_eq rfl rfl) hop rfl (by decide) ⟨.inl hstate, hdir⟩
    · unfold readRegsTest
      split
      · exact .of_label .a0 (hr.of_eq rfl rfl) hop rfl (by decide) ⟨hstate, hdir⟩
      · exact .of_label .k0 (hr.of_eq rfl rfl) hop rfl (by decide) ⟨hstate, hdir⟩

end Helpers

/-! ## HOST's transitions -/

/-- The labels of the commands of the Serial Transport (10_state.md R24). -/
def transportLabels : List Label := serialLabels ++ [.i0, .i1, .i2, .i3, .l0, .l1, .l3, .l4, .l5, .l6]

theorem mem_transportLabels {line : Option Label} {l : Label} (hi : isSerial i) (hl : l ∈ labelsOf i line) :
    l ∈ transportLabels := by
  rcases hi with ⟨r, rfl⟩ | ⟨x, rfl⟩ | rfl | ⟨m, rfl⟩ <;> unfold labelsOf at hl <;> split at hl <;>
    try contradiction
  all_goals exact (by decide : ∀ l ∈ _, l ∈ transportLabels) _ hl

/-- At every such label the bus is in a state that a command can find (R205). -/
theorem protocolAt_transport {line : Option Label} {l : Label} (hl : l ∈ transportLabels) (b : BusMaster) :
    protocolAt i line l b = settled b := by
  simp only [transportLabels, serialLabels, sendLabels, recvLabels, List.mem_append, List.mem_cons,
    List.not_mem_nil, or_false] at hl
  rcases hl with ((rfl | rfl | rfl | rfl) | rfl | rfl | rfl) | rfl | rfl | rfl | rfl | rfl | rfl | rfl | rfl |
    rfl | rfl <;> rfl

/-- And HOST does not wait for the bus. -/
theorem transport_not_hold : ∀ l ∈ transportLabels, l ∉ busHolds := by decide

/-- The two units are apart: a micro-step of a command of the Serial Transport leaves the bus as it is. -/
theorem serial_keeps_busInv (hH : HostInv s) (hI : BusInv s) (hop : s.host.op = some i) (hi : isSerial i)
    (h : exec i s = .next t) : BusInv t := by
  obtain ⟨hbm, hdev, _⟩ := serialCommandsFrame i s t h hi
  have hlabel := hH.label i hop
  have hl := mem_transportLabels hi hlabel
  have hs : settled t.bm := hbm ▸ protocolAt_transport hl s.bm ▸ hI.protocol i hop
  have hr : BusAtRest t := (hI.atRest (.inr (transport_not_hold _ hl))).of_eq (by rw [hbm]) hdev
  rcases exec_atLabel hop hlabel h with hidle | ⟨hop', hlabel'⟩
  · exact .of_idle hr hidle hs
  · have hl' := mem_transportLabels hi hlabel'
    exact .of_label _ hr hop' rfl (transport_not_hold _ hl') (protocolAt_transport hl' t.bm ▸ hs)

/-- The status, or the byte, that a primitive issued as a command returns. -/
theorem returnKeeps_result {st : BmState} {d : Direction} (hst : st ≠ .started ∧ st ≠ .stopped) (j : Instr)
    (r : Byte → Result) (v : Byte) : ReturnKeeps i (InState st d) fun u => u.ret j (r v) :=
  returnKeeps_ret (fun _ hp => settled_of_state hp.1 hst) j _

/-- A micro-step of the command in flight keeps the bus protocol. -/
theorem exec_keeps_busInv (hH : HostInv s) (hI : BusInv s) (hop : s.host.op = some i) (h : exec i s = .next t) :
    BusInv t := by
  by_cases hi : isSerial i
  · exact serial_keeps_busInv hH hI hop hi h
  cases i <;> replace h := (runCommand_inFlight hop).symm.trans h
  case utInit | utSendByte | utRecvByte | utRecvLine => simp [isSerial] at hi
  case bmInit => exact bmInitMicro_keeps_busInv hI hop h
  case bmStart => exact startMicro_keeps_busInv hI hop rfl (returnKeeps_result (by decide) _ _) h
  case bmWrite => exact writeMicro_keeps_busInv hI hop (returnKeeps_result (by decide) _ _) h
  case bmReadAck => exact readAckMicro_keeps_busInv hI hop (returnKeeps_result (by decide) _ _) h
  case bmReadNack => exact readNackMicro_keeps_busInv hI hop (returnKeeps_result (by decide) _ _) h
  case bmStop => exact stopMicro_keeps_busInv hI hop h
  case bmWriteReg => exact writeRegMicro_keeps_busInv hI hop h
  case bmReadReg => exact readRegMicro_keeps_busInv hI hop h
  case bmReadRegs => exact readRegsMicro_keeps_busInv hI hop h

/-- No row of a check that refuses nothing applies (30_encoding.md R104). -/
theorem not_applies_of_accepted {rows : List (Bool × Reason)} {applies : Bool} {reason : Reason}
    (h : firstRefusal rows = none) (hr : (applies, reason) ∈ rows) : applies = false := by
  cases applies with
  | false => rfl
  | true =>
    obtain ⟨q, hq⟩ := exists_refusal_of_mem hr
    cases h.symm.trans hq

/-- A row that is the failure of a condition does not apply: the condition holds. -/
theorem condition_of_accepted {rows : List (Bool × Reason)} {c : Bool} {reason : Reason}
    (h : firstRefusal rows = none) (hr : (!c, reason) ∈ rows) : c = true := by
  simpa using not_applies_of_accepted h hr

theorem startPosition_not_hold (i : Instr) : (startPosition i).2 ∉ busHolds := by
  cases i <;> simp [startPosition, busHolds]

/-- A command that meets its contract starts in the protocol state of its first label: what R104 checks is what R205
asks there. -/
theorem protocolAt_startPosition (hs : settled s.bm) (hc : contractCheck i s = none) :
    protocolAt i (startPosition i).1 (startPosition i).2 s.bm := by
  cases i
  case bmInit =>
    exact bne_eq_false_iff_eq.1 (not_applies_of_accepted hc (.tail _ (.head _)))
  case bmWrite => exact mayTransfer_iff.1 (condition_of_accepted hc (.tail _ (.head _)))
  case bmReadAck => exact mayTransfer_iff.1 (condition_of_accepted hc (.tail _ (.head _)))
  case bmReadNack => exact mayTransfer_iff.1 (condition_of_accepted hc (.tail _ (.head _)))
  case bmStop => exact midTransaction_iff.1 (condition_of_accepted hc (.tail _ (.head _)))
  case utInit | utSendByte | utRecvByte | utRecvLine | bmStart | bmWriteReg | bmReadReg | bmReadRegs => exact hs

/-- An issue records a refusal, or starts the command with the bus as it is (30_encoding.md R102). -/
theorem exec_issue_keeps_busInv (hI : BusInv s) (hop : s.host.op = none) (h : exec i s = .next t) : BusInv t := by
  have hs := hI.idle hop
  have hr := hI.atRest (.inl hop)
  cases hc : contractCheck i s with
  | some reason =>
    cases (exec_refused hop hc).symm.trans h
    exact .of_idle (hr.of_eq rfl rfl) hop hs
  | none =>
    cases (exec_accepted hop hc).symm.trans h
    exact .of_label _ (hr.of_eq rfl rfl) rfl rfl (startPosition_not_hold i) (protocolAt_startPosition (s := s) hs hc)

/-- An issue leaves the bus as it is (30_encoding.md R102). -/
theorem issueWord_bm {w : Word} (h : issueWord w s = .next t) : t.bm = s.bm := by
  rcases issueWord_next h with ⟨_, rfl⟩ | ⟨hop, i, _, h⟩ | ⟨_, _, rfl⟩
  · rfl
  · rcases exec_issue hop h with ⟨f, rfl⟩ | ⟨line, first, rfl, _⟩ <;> rfl
  · rfl

/-! ## The other agents (R199) -/

/-- The reference device writes at most the register at its pointer, on a data byte (95_test_vectors.md section 4). -/
theorem SimDevice.answer_regs (cfg : Config) (d : SimDevice) (k : Phase) :
    (d.answer cfg k).dev.regs = d.regs ∨ ∃ x, (d.answer cfg k).dev.regs = d.regs.writeReg d.p x := by
  cases k with
  | startCond => simp only [answer, onStart]; split <;> exact .inl rfl
  | xmit x =>
    cases hsel : d.sel with
    | none =>
      rw [answer_address hsel, onAddress]
      split <;> split <;> exact .inl rfl
    | wFirst => rw [answer_register hsel]; exact .inl rfl
    | wData => rw [answer_data hsel]; exact .inr ⟨x, rfl⟩
    | rd => rw [answer_unexpected (.inl hsel)]; exact .inl rfl
    | off => rw [answer_unexpected (.inr hsel)]; exact .inl rfl
  | recvAck => simp only [answer, onRecvAck]; split <;> exact .inl rfl
  | recvNack => simp only [answer, onRecvNack]; split <;> exact .inl rfl

/-- So it keeps its registers in canonical form. -/
theorem SimDevice.answer_canonical (cfg : Config) {d : SimDevice} (hwf : d.regs.wf) (h0 : ∀ c ∈ d.regs, c.2 ≠ 0)
    (k : Phase) : (d.answer cfg k).dev.regs.wf ∧ ∀ c ∈ (d.answer cfg k).dev.regs, c.2 ≠ 0 := by
  rcases d.answer_regs cfg k with h | ⟨x, h⟩ <;> rw [h]
  · exact ⟨hwf, h0⟩
  · exact Memory.writeReg_canonical hwf h0 d.p x

/-- The free BUS completes the phase with the status and the data drawn (R199). -/
theorem busComplete_free {k : Phase} (hk : s.bm.pending = some k) (hd : s.device = none) (st v : Byte) :
    busComplete st v s = s.withBm (s.bm.complete k st v) := by
  simp only [busComplete, hk, hd]

/-- With the reference device attached its answer takes the place of the draws (95_test_vectors.md section 4). -/
theorem busComplete_device {k : Phase} {d : SimDevice} (hk : s.bm.pending = some k) (hd : s.device = some d)
    (st v : Byte) : busComplete st v s =
      (s.withBm (s.bm.complete k (d.answer s.cfg k).s (d.answer s.cfg k).v)).withDevice
        (some (d.answer s.cfg k).dev) := by
  simp only [busComplete, hk, hd]

/-- Either way the engine takes the completion of its phase, and the device stays canonical. -/
theorem busComplete_pending {k : Phase} (hk : s.bm.pending = some k) (hcanon : DeviceCanonical s) (st v : Byte) :
    DeviceCanonical (busComplete st v s) ∧ ∃ st' v', (busComplete st v s).bm = s.bm.complete k st' v' := by
  cases hd : s.device with
  | none =>
    rw [busComplete_free hk hd]
    exact ⟨hcanon, st, v, rfl⟩
  | some d =>
    obtain ⟨hwf, h0⟩ := hcanon d hd
    rw [busComplete_device hk hd]
    refine ⟨fun e he => ?_, _, _, rfl⟩
    cases he
    exact SimDevice.answer_canonical s.cfg hwf h0 k

/-- At a completion hold the protocol speaks of the engine's state and direction alone. -/
theorem protocolAt_of_hold {line : Option Label} {l : Label} {b c : BusMaster} (hl : l ∈ busHolds)
    (hs : c.state = b.state) (hd : c.dir = b.dir) (h : protocolAt i line l b) : protocolAt i line l c := by
  simp only [busHolds, List.mem_cons, List.not_mem_nil, or_false] at hl
  rcases hl with rfl | rfl | rfl | rfl | rfl <;> exact ⟨hs.trans h.1, hd.trans h.2⟩

/-- A completion lifts the hold HOST is at and leaves the engine in its protocol state. -/
theorem busComplete_keeps_busInv (hI : BusInv s) (st v : Byte) : BusInv (busComplete st v s) := by
  cases hk : s.bm.pending with
  | none =>
    unfold busComplete
    rw [hk]
    exact hI
  | some k =>
    obtain ⟨hop, hl, _⟩ := hI.pendingHeld (by simp [hk])
    obtain ⟨hcanon, st', v', hbm⟩ := busComplete_pending hk hI.registers st v
    have hhost := busComplete_host st v s
    exact {
      pendingHeld := by simp [hbm, BusMaster.complete]
      completed := fun _ _ _ => by rw [hbm]; rfl
      idle := fun h => by simp [hhost ▸ h] at hop
      protocol := fun i hi => by
        rw [hhost] at hi ⊢
        rw [hbm]
        exact protocolAt_of_hold (b := s.bm) hl rfl rfl (hI.protocol i hi)
      registers := hcanon }

theorem lineArrive_eq_withUt (v : Byte) (keepNew : Bool) (s : State) : ∃ u, lineArrive v keepNew s = s.withUt u := by
  cases hr : s.ut.rxReady with
  | false => exact ⟨_, lineArrive_free hr⟩
  | true => exact ⟨_, lineArrive_overrun hr⟩

/-- The step of any agent keeps the bus protocol. -/
theorem perform_keeps_busInv {c : Choice} (hH : HostInv s) (hI : BusInv s) (h : perform c s = .next t) :
    BusInv t := by
  rcases perform_next h with ⟨_, rfl⟩ | ⟨_, ⟨w, _, h⟩ | ⟨_, h⟩ | ⟨_, h⟩ | ⟨_, h⟩ | ⟨v, k, _, rfl⟩ |
    ⟨_, rfl⟩ | ⟨st, v, _, rfl⟩⟩
  · exact hI
  · rcases issueWord_next h with ⟨_, rfl⟩ | ⟨hop, i, _, h⟩ | ⟨_, _, rfl⟩
    · exact hI
    · exact exec_issue_keeps_busInv hI hop h
    · exact { hI with }
  · rcases hostMicroStep_next h with ⟨_, rfl⟩ | ⟨i, hop, h⟩
    · exact hI
    · exact exec_keeps_busInv hH hI hop h
  · rcases rxiBody_next h with ⟨_, rfl⟩ | ⟨_, _, _, rfl⟩ <;> exact hI.of_same rfl rfl rfl
  · rcases txiBody_next h with ⟨_, rfl⟩ | ⟨_, _, _, rfl⟩ <;> exact hI.of_same rfl rfl rfl
  · obtain ⟨u, hu⟩ := lineArrive_eq_withUt v k s
    exact hu ▸ hI.of_same rfl rfl rfl
  · exact hI.of_same rfl rfl rfl
  · exact busComplete_keeps_busInv hI st v

/-- Settles O45: a step is the step of one agent, and which choices are still to come is no part of the invariants. -/
theorem stepKeepsTheBusProtocol : Obligations.StepKeepsTheBusProtocol := by
  intro s t hH hI h
  obtain ⟨c, ins, n, he⟩ := step_eq_perform s
  have hH' : HostInv { s with inputs := ins, draws := n } := { hH with }
  have hI' : BusInv { s with inputs := ins, draws := n } := { hI with }
  exact perform_keeps_busInv hH' hI' (he.symm.trans h)

/-! ## Who issues a phase (R198) -/

/-- At a completion hold HOST is held iff `bm_done` is clear (R197). -/
theorem held_of_busHold (hl : s.host.step ∈ busHolds) : held s = !s.bm.done := by
  simp only [busHolds, List.mem_cons, List.not_mem_nil, or_false] at hl
  rcases hl with h | h | h | h | h <;> simp [held, h]

/-- HOST performs a micro-step only while nothing is pending: with a phase pending it is held (R197, R198). -/
theorem BusInv.pending_of_host_enabled (hI : BusInv s) (he : enabled .host s = true) : s.bm.pending = none := by
  by_contra hp
  obtain ⟨_, hl, hdone⟩ := hI.pendingHeld (Option.isSome_iff_ne_none.2 hp)
  simp only [enabled, Bool.and_eq_true, Bool.not_eq_true'] at he
  simp [held_of_busHold hl, hdone] at he

/-- Settles O54: a phase left pending is one of HOST's, for an issue moves HOST alone and a completion leaves nothing
pending; it is issued with `bm_done` cleared, as the invariant after the step says. -/
theorem phasesAreIssuedOneAtATime : Obligations.PhasesAreIssuedOneAtATime := by
  intro s t c k hI h hk hnew
  obtain ⟨_, _, hdone⟩ := (perform_keeps_busInv hI.host hI.bus h).pendingHeld (by simp [hk])
  have hmoved : t.bm ≠ s.bm := fun e => hnew (e ▸ hk)
  suffices c = .host ∧ s.bm.pending = none from ⟨this.1, this.2, hdone⟩
  replace h := perform_next h
  rcases h with ⟨_, rfl⟩ | ⟨he, ⟨w, rfl, h⟩ | ⟨rfl, _⟩ | ⟨rfl, h⟩ | ⟨rfl, h⟩ | ⟨v, keep, rfl, rfl⟩ |
    ⟨rfl, rfl⟩ | ⟨st, v, rfl, rfl⟩⟩
  · exact absurd rfl hmoved
  · exact absurd (issueWord_bm h) hmoved
  · exact ⟨rfl, hI.bus.pending_of_host_enabled he⟩
  · rcases rxiBody_next h with ⟨_, rfl⟩ | ⟨_, _, _, rfl⟩ <;> exact absurd rfl hmoved
  · rcases txiBody_next h with ⟨_, rfl⟩ | ⟨_, _, _, rfl⟩ <;> exact absurd rfl hmoved
  · obtain ⟨u, hu⟩ := lineArrive_eq_withUt v keep s
    exact absurd (hu ▸ rfl) hmoved
  · exact absurd rfl hmoved
  · obtain ⟨j, hj⟩ := Option.isSome_iff_exists.1 he
    obtain ⟨_, st', v', hbm⟩ := busComplete_pending hj hI.bus.registers st v
    simp [hbm, BusMaster.complete] at hk

/-! ## The step of the BUS agent (R199) -/

/-- `BusComplete` is enabled iff a phase is pending. -/
theorem perform_busComplete {k : Phase} (hk : s.bm.pending = some k) (st v : Byte) :
    perform (.busComplete st v) s = .next (busComplete st v s) := by
  simp [perform, enabled, hk]

/-- The free BUS completes the phase pending. -/
theorem perform_busComplete_free {k : Phase} (hk : s.bm.pending = some k) (hd : s.device = none) (st v : Byte) :
    perform (.busComplete st v) s = .next (s.withBm (s.bm.complete k st v)) := by
  rw [perform_busComplete hk, busComplete_free hk hd]

/-- Settles O37: the completion of each phase is `BusMaster.complete`, with what is drawn or what the device answers. -/
theorem busCompletes : Obligations.BusCompletes := by
  intro s st v
  refine ⟨fun hk => perform_not_enabled (by simp [enabled, hk]), fun hd => ⟨fun hk => ?_, fun x hk => ?_, fun hk => ?_,
    fun hk => ?_⟩, fun d k hd hk => ?_⟩
  iterate 4 exact perform_busComplete_free hk hd st v
  rw [perform_busComplete hk, busComplete_device hk hd,
    perform_busComplete_free (s := { s with device := none }) hk rfl]
  rfl

end Sys2Proof.Machine
end

section
/-! SUPPORT. The bus primitives as commands (spec/42_bus_primitives.md R190 to R197): their micro-steps, and each run to
its end with the free BUS completing its phases and nothing else interleaved. -/

namespace Sys2Proof.Machine

variable {s : State} {a : DevAddr} {d : Direction} {b st v : Byte}

/-! ## The micro-step of each command in flight -/

theorem exec_bmStart (hop : s.host.op = some (.bmStart a d)) : exec (.bmStart a d) s =
    startMicro a d (fun st t => t.ret (.bmStart a d) (.status st)) s :=
  runCommand_inFlight hop

theorem exec_bmWrite (hop : s.host.op = some (.bmWrite b)) : exec (.bmWrite b) s =
    writeMicro b (fun st t => t.ret (.bmWrite b) (.status st)) s :=
  runCommand_inFlight hop

theorem exec_bmReadAck (hop : s.host.op = some .bmReadAck) : exec .bmReadAck s =
    readAckMicro (fun v t => t.ret .bmReadAck (.byte v)) s :=
  runCommand_inFlight hop

theorem exec_bmReadNack (hop : s.host.op = some .bmReadNack) : exec .bmReadNack s =
    readNackMicro (fun v t => t.ret .bmReadNack (.byte v)) s :=
  runCommand_inFlight hop

theorem exec_bmStop (hop : s.host.op = some .bmStop) : exec .bmStop s =
    stopMicro (fun t => t.ret .bmStop .unit) s :=
  runCommand_inFlight hop

/-! ## The statements about single micro-steps -/

/-- Settles O16: each label's equation is the definition's, and the last one returns. -/
theorem bmInitMicroSteps : Obligations.BmInitMicroSteps := by
  intro r s hop
  have hexec : exec (.bmInit r) s = bmInitMicro r s := runCommand_inFlight hop
  rw [hexec]
  refine ⟨fun hs => ?_, fun hs => ?_⟩ <;> simp only [bmInitMicro, hs]
  · rfl
  · exact congrArg _ (State.ret_eq_returned (s := s.withBm _) _ _ hs)

/-- Settles O17: the micro-steps of `start`, its return that of the command. -/
theorem bmStartMicroSteps : Obligations.BmStartMicroSteps := by
  intro a d s hop
  refine ⟨fun hs => ?_, fun hs hd => ?_, fun hs hd => ?_, fun x hx hs => ?_, fun hs hd => ?_, fun hs => ?_⟩ <;>
    rw [exec_bmStart hop]
  · exact startMicro_t0 hs
  · rcases hs with hs | hs
    · rw [startMicro_t1 hs, awaitDone_held (hs ▸ by decide) hd]
    · rw [startMicro_t3 hs, awaitDone_held (hs ▸ by decide) hd]
  · rw [startMicro_t1 hs, awaitDone_lifted (hs ▸ by decide) hd]; rfl
  · rw [startMicro_t2 hs, eq_addressByte hx]; rfl
  · rw [startMicro_t3 hs, awaitDone_lifted (hs ▸ by decide) hd]; rfl
  · exact (startMicro_t4 hs).trans (congrArg _ (State.ret_eq_returned (s := s.withBm _) _ _ hs))

/-- Settles O18: the micro-steps of `write`, its return that of the command. -/
theorem bmWriteMicroSteps : Obligations.BmWriteMicroSteps := by
  intro b s hop
  refine ⟨fun hs => ?_, fun hs hd => ?_, fun hs hd => ?_, fun hs => ?_⟩ <;> rw [exec_bmWrite hop]
  · exact writeMicro_w0 hs
  · rw [writeMicro_w1 hs, awaitDone_held (hs ▸ by decide) hd]
  · rw [writeMicro_w1 hs, awaitDone_lifted (hs ▸ by decide) hd]; rfl
  · rw [writeMicro_w2 hs, State.ret_eq_returned (l := .w2) _ _ hs]

/-- Settles O19: the micro-steps of the two reads, their returns those of the commands. -/
theorem bmReadMicroSteps : Obligations.BmReadMicroSteps := by
  intro s
  refine ⟨fun hop => ⟨fun hs => ?_, fun hs hd => ?_, fun hs hd => ?_, fun hs => ?_⟩,
    fun hop => ⟨fun hs => ?_, fun hs hd => ?_, fun hs hd => ?_, fun hs => ?_⟩⟩
  · exact (exec_bmReadAck hop).trans (readAckMicro_a0 hs)
  · rw [exec_bmReadAck hop, readAckMicro_a1 hs, awaitDone_held (hs ▸ by decide) hd]
  · rw [exec_bmReadAck hop, readAckMicro_a1 hs, awaitDone_lifted (hs ▸ by decide) hd]; rfl
  · rw [exec_bmReadAck hop, readAckMicro_a2 hs, State.ret_eq_returned (l := .a2) _ _ hs]
  · exact (exec_bmReadNack hop).trans (readNackMicro_k0 hs)
  · rw [exec_bmReadNack hop, readNackMicro_k1 hs, awaitDone_held (hs ▸ by decide) hd]
  · rw [exec_bmReadNack hop, readNackMicro_k1 hs, awaitDone_lifted (hs ▸ by decide) hd]; rfl
  · rw [exec_bmReadNack hop, readNackMicro_k2 hs, State.ret_eq_returned (l := .k2) _ _ hs]

/-- Settles O20: the micro-steps of `stop`, its return that of the command. -/
theorem bmStopMicroSteps : Obligations.BmStopMicroSteps := by
  intro s hop
  refine ⟨fun hs => ?_, fun hs => ?_⟩ <;> rw [exec_bmStop hop]
  · exact stopMicro_p0 hs
  · exact (stopMicro_p1 hs).trans (congrArg _ (State.ret_eq_returned (s := stopSettled s) _ _ hs))

/-! ## The runs (R192 to R196, R199) -/

/-- The state after the free BUS completed phase `k` with status `st` and data `v` (R199). -/
def State.completed (s : State) (k : Phase) (st v : Byte) : State := s.withBm (s.bm.complete k st v)

/-- HOST issues a phase, the free BUS completes it, and HOST's next step leaves the hold (R197 to R199). -/
theorem runChoices_phase {i : Instr} {k : Phase} {next : Label} {cs : List Choice} {w : State}
    (hissue : perform .host s = .next w) (hop : w.host.op = some i) (hl : w.host.step ∈ busHolds)
    (hk : w.bm.pending = some k) (hd : w.device = none)
    (hwait : ∀ u, u.host = w.host → exec i u = .next (awaitDone next u)) :
    runChoices (.host :: .busComplete st v :: .host :: cs) s = runChoices cs ((w.completed k st v).advance next) := by
  have hleave : perform .host (w.completed k st v) = .next ((w.completed k st v).advance next) :=
    calc perform .host (w.completed k st v)
      _ = exec i (w.completed k st v) := perform_host hop (held_of_busHold hl)
      _ = .next (awaitDone next (w.completed k st v)) := hwait _ rfl
      _ = _ := congrArg _ (awaitDone_lifted hl rfl)
  rw [runChoices_cons hissue, runChoices_cons (perform_busComplete_free hk hd st v)]
  exact runChoices_cons hleave

/-! HOST's step with each command in flight, not held. -/

theorem perform_bmStart (hop : s.host.op = some (.bmStart a d)) (hh : held s = false) :
    perform .host s = startMicro a d (fun st t => t.ret (.bmStart a d) (.status st)) s :=
  (perform_host hop hh).trans (exec_bmStart hop)

theorem perform_bmWrite (hop : s.host.op = some (.bmWrite b)) (hh : held s = false) :
    perform .host s = writeMicro b (fun st t => t.ret (.bmWrite b) (.status st)) s :=
  (perform_host hop hh).trans (exec_bmWrite hop)

theorem perform_bmReadAck (hop : s.host.op = some .bmReadAck) (hh : held s = false) :
    perform .host s = readAckMicro (fun v t => t.ret .bmReadAck (.byte v)) s :=
  (perform_host hop hh).trans (exec_bmReadAck hop)

theorem perform_bmReadNack (hop : s.host.op = some .bmReadNack) (hh : held s = false) :
    perform .host s = readNackMicro (fun v t => t.ret .bmReadNack (.byte v)) s :=
  (perform_host hop hh).trans (exec_bmReadNack hop)

theorem perform_bmStop (hop : s.host.op = some .bmStop) (hh : held s = false) :
    perform .host s = stopMicro (fun t => t.ret .bmStop .unit) s :=
  (perform_host hop hh).trans (exec_bmStop hop)

/-- The address byte of R192 as a number. -/
theorem addressByte_toNat (a : DevAddr) (d : Direction) : (addressByte a d).toNat = a.toNat * 2 + d.bit := by
  have := d.bit_lt
  rw [addressByte, BitVec.toNat_ofNat, Nat.mod_eq_of_lt (by omega)]

/-- The first phase of `BM_START`: the start condition. -/
theorem bmStart_condition_run {cs : List Choice} (hop : s.host.op = some (.bmStart a d)) (hs : s.host.step = .t0)
    (hd : s.device = none) :
    runChoices (.host :: .busComplete st v :: .host :: cs) s =
      runChoices cs { s with
        bm.dir := d
        bm.state := .started
        bm.status := st
        bm.done := true
        bm.pending := none
        bm.trace := s.bm.trace ++ [.start st]
        host.step := .t2 } :=
  runChoices_phase ((perform_bmStart hop (by simp [held, hs])).trans (startMicro_t0 hs)) hop
    (by decide : Label.t1 ∈ busHolds) rfl hd fun u hu =>
      (exec_bmStart ((congrArg Sequencer.op hu).trans hop)).trans (startMicro_t1 (congrArg Sequencer.step hu))

/-- The second phase of `BM_START`: the address byte. -/
theorem bmStart_address_run {cs : List Choice} (hop : s.host.op = some (.bmStart a d)) (hs : s.host.step = .t2)
    (hd : s.device = none) :
    runChoices (.host :: .busComplete st v :: .host :: cs) s =
      runChoices cs { s with
        bm.data := addressByte a d
        bm.status := st
        bm.done := true
        bm.pending := none
        bm.trace := s.bm.trace ++ [.xmit (addressByte a d) st]
        host.step := .t4 } :=
  runChoices_phase ((perform_bmStart hop (by simp [held, hs])).trans (startMicro_t2 hs)) hop
    (by decide : Label.t3 ∈ busHolds) rfl hd fun u hu =>
      (exec_bmStart ((congrArg Sequencer.op hu).trans hop)).trans (startMicro_t3 (congrArg Sequencer.step hu))

/-- The end of `BM_START`. -/
theorem bmStart_return_run (hop : s.host.op = some (.bmStart a d)) (hs : s.host.step = .t4) :
    runChoices [.host] s = .next { s with
      bm.state := .addressAcked
      host := returned s.host (.bmStart a d) .t4 (.status s.bm.status) } := by
  obtain ⟨_, _, _, _, _, hend⟩ := bmStartMicroSteps a d s hop
  rw [runChoices_cons ((perform_host hop (by simp [held, hs])).trans (hend hs))]
  rfl

/-- The micro-steps of `BM_START`: its two phases, and the end. -/
theorem bmStart_microSteps_run {s0 v0 s1 v1 : Byte} (hop : s.host.op = some (.bmStart a d)) (hs : s.host.step = .t0)
    (hd : s.device = none) :
    runChoices [.host, .busComplete s0 v0, .host, .host, .busComplete s1 v1, .host, .host] s = .next { s with
      bm.dir := d
      bm.state := .addressAcked
      bm.data := addressByte a d
      bm.status := s1
      bm.done := true
      bm.pending := none
      bm.trace := s.bm.trace ++ [.start s0] ++ [.xmit (addressByte a d) s1]
      host := returned s.host (.bmStart a d) .t4 (.status s1) } := by
  rw [bmStart_condition_run hop hs hd]
  refine Eq.trans (bmStart_address_run hop rfl hd) ?_
  exact bmStart_return_run hop rfl

/-- Settles O25: the contract is met, so the word is accepted, and the micro-steps run. -/
theorem bmStartRuns : Obligations.BmStartRuns := by
  intro s a d s0 v0 s1 v1 hop hin hstarted hstopped hd
  obtain ⟨_, _, _, hbus⟩ := commandsAccepted s hop
  obtain ⟨hstart, _⟩ := hbus hin
  refine ⟨addressByte a d, addressByte_toNat a d, ?_⟩
  rw [runChoices_cons ((perform_issue_encode hop rfl).trans (hstart a d hstarted hstopped)),
    bmStart_microSteps_run (s := acceptedAs s _ _ _) rfl rfl hd, List.append_assoc]
  rfl

/-- The micro-steps of `BM_WRITE`: the phase of the byte, the end. -/
theorem bmWrite_microSteps_run (hop : s.host.op = some (.bmWrite b)) (hs : s.host.step = .w0) (hd : s.device = none) :
    runChoices [.host, .busComplete st v, .host, .host] s = .next { s with
      bm.data := b
      bm.state := .writing
      bm.status := st
      bm.done := true
      bm.pending := none
      bm.trace := s.bm.trace ++ [.xmit b st]
      host := returned s.host (.bmWrite b) .w2 (.status st) } :=
  calc runChoices [.host, .busComplete st v, .host, .host] s
    _ = runChoices [.host] ((((writeByte b s).advance .w1).completed (.xmit b) st v).advance .w2) :=
      runChoices_phase
        ((perform_bmWrite hop (by simp [held, hs])).trans (writeMicro_w0 hs))
        hop (by decide : Label.w1 ∈ busHolds) rfl hd fun u hu =>
          (exec_bmWrite ((congrArg Sequencer.op hu).trans hop)).trans (writeMicro_w1 (congrArg Sequencer.step hu))
    _ = _ := runChoices_cons (perform_bmWrite hop rfl)

/-- The micro-steps of `BM_READ_ACK`: the receive phase with acknowledge, the end. -/
theorem bmReadAck_microSteps_run (hop : s.host.op = some .bmReadAck) (hs : s.host.step = .a0) (hd : s.device = none) :
    runChoices [.host, .busComplete st v, .host, .host] s = .next { s with
      bm.data := v
      bm.state := .reading
      bm.status := st
      bm.done := true
      bm.pending := none
      bm.trace := s.bm.trace ++ [.recv .ack v st]
      host := returned s.host .bmReadAck .a2 (.byte v) } :=
  calc runChoices [.host, .busComplete st v, .host, .host] s
    _ = runChoices [.host] ((((readIssue .recvAck s).advance .a1).completed .recvAck st v).advance .a2) :=
      runChoices_phase
        ((perform_bmReadAck hop (by simp [held, hs])).trans (readAckMicro_a0 hs))
        hop (by decide : Label.a1 ∈ busHolds) rfl hd fun u hu =>
          (exec_bmReadAck ((congrArg Sequencer.op hu).trans hop)).trans (readAckMicro_a1 (congrArg Sequencer.step hu))
    _ = _ := runChoices_cons (perform_bmReadAck hop rfl)

/-- The micro-steps of `BM_READ_NACK`: the receive phase with no acknowledge, the end. -/
theorem bmReadNack_microSteps_run (hop : s.host.op = some .bmReadNack) (hs : s.host.step = .k0)
    (hd : s.device = none) :
    runChoices [.host, .busComplete st v, .host, .host] s = .next { s with
      bm.data := v
      bm.state := .reading
      bm.status := st
      bm.done := true
      bm.pending := none
      bm.trace := s.bm.trace ++ [.recv .nack v st]
      host := returned s.host .bmReadNack .k2 (.byte v) } :=
  calc runChoices [.host, .busComplete st v, .host, .host] s
    _ = runChoices [.host] ((((readIssue .recvNack s).advance .k1).completed .recvNack st v).advance .k2) :=
      runChoices_phase
        ((perform_bmReadNack hop (by simp [held, hs])).trans (readNackMicro_k0 hs))
        hop (by decide : Label.k1 ∈ busHolds) rfl hd fun u hu =>
          (exec_bmReadNack ((congrArg Sequencer.op hu).trans hop)).trans (readNackMicro_k1 (congrArg Sequencer.step hu))
    _ = _ := runChoices_cons (perform_bmReadNack hop rfl)

/-- With no device attached the stop condition is the engine's alone. -/
theorem stopCondition_free (hd : s.device = none) :
    stopCondition s = s.withBm { s.bm with state := .stopped, trace := s.bm.trace ++ [.stop] } := by
  have hdev : s.device.map SimDevice.onStop = s.device := by rw [hd]; rfl
  rw [stopCondition, hdev]
  rfl

/-- The micro-steps of `BM_STOP`: the stop condition, which no device sees, and the end. -/
theorem bmStop_microSteps_run (hop : s.host.op = some .bmStop) (hs : s.host.step = .p0) (hd : s.device = none) :
    runChoices [.host, .host] s = .next { s with
      bm.state := .idle
      bm.trace := s.bm.trace ++ [.stop]
      host := returned s.host .bmStop .p1 .unit } :=
  calc runChoices [.host, .host] s
    _ = runChoices [.host] ((stopCondition s).advance .p1) :=
      runChoices_cons ((perform_bmStop hop (by simp [held, hs])).trans (stopMicro_p0 hs))
    _ = runChoices [.host] { s with
        bm.state := .stopped, bm.trace := s.bm.trace ++ [.stop], host.step := .p1 } := by
      rw [stopCondition_free hd]; rfl
    _ = _ := runChoices_cons (perform_bmStop hop rfl)

/-- Settles O26: each contract is met, so the word is accepted, and the micro-steps run. -/
theorem bmTransferAndStopRun : Obligations.BmTransferAndStopRun := by
  intro s st v hop hin hd
  obtain ⟨_, _, _, hbus⟩ := commandsAccepted s hop
  obtain ⟨_, hwrite, hread, hstop, _⟩ := hbus hin
  refine ⟨fun b hs hdir => ?_, fun hs hdir => ⟨?_, ?_⟩, fun hs => ?_⟩
  · rw [runChoices_cons ((perform_issue_encode hop rfl).trans (hwrite b hs hdir))]
    exact bmWrite_microSteps_run rfl rfl hd
  · rw [runChoices_cons ((perform_issue_encode hop rfl).trans (hread hs hdir).1)]
    exact bmReadAck_microSteps_run rfl rfl hd
  · rw [runChoices_cons ((perform_issue_encode hop rfl).trans (hread hs hdir).2)]
    exact bmReadNack_microSteps_run rfl rfl hd
  · rw [runChoices_cons ((perform_issue_encode hop rfl).trans (hstop hs))]
    exact bmStop_microSteps_run rfl rfl hd

end Sys2Proof.Machine
end

section
/-! SUPPORT. The bus helpers (spec/43_bus_helpers.md R230 to R234): their check lines, and where they end. -/

namespace Sys2Proof.Machine

variable {s t u : State} {i : Instr} {dev : DevAddr} {check line first : Label} {next : Option Label} {e : Byte}

/-! ## The check lines (R230) -/

/-- The check lines of each helper: the line, the literal expected there, and where HOST goes on equality, the line of
the call (none at Q6, which is no call) and its first label (R231 to R233). -/
def helperChecks (cfg : Config) : Instr → List (Label × Byte × Option Label × Label)
  | .bmWriteReg _ _ _ =>
    [(.h1, cfg.ST_SLA_W_ACK, some .h2, .w0), (.h3, cfg.ST_DATA_W_ACK, some .h4, .w0),
     (.h5, cfg.ST_DATA_W_ACK, some .h6, .p0)]
  | .bmReadReg _ _ =>
    [(.g1, cfg.ST_SLA_W_ACK, some .g2, .w0), (.g3, cfg.ST_DATA_W_ACK, some .g4, .t0),
     (.g5, cfg.ST_SLA_R_ACK, some .g6, .k0)]
  | .bmReadRegs _ _ _ =>
    [(.q1, cfg.ST_SLA_W_ACK, some .q2, .w0), (.q3, cfg.ST_DATA_W_ACK, some .q4, .t0),
     (.q5, cfg.ST_SLA_R_ACK, none, .q6)]
  | _ => []

/-! The micro-step of each helper in flight. -/

section Exec

variable {reg val : Byte} {count : Nat}

theorem exec_bmWriteReg (hop : s.host.op = some (.bmWriteReg dev reg val)) :
    exec (.bmWriteReg dev reg val) s = writeRegMicro dev reg val s := runCommand_inFlight hop

theorem exec_bmReadReg (hop : s.host.op = some (.bmReadReg dev reg)) :
    exec (.bmReadReg dev reg) s = readRegMicro dev reg s := runCommand_inFlight hop

theorem exec_bmReadRegs (hop : s.host.op = some (.bmReadRegs dev reg count)) :
    exec (.bmReadRegs dev reg count) s = readRegsMicro dev reg count s := runCommand_inFlight hop

end Exec

/-- A check goes on to the next line on equality, and on any other status calls `stop` in its own line (R230). -/
theorem exec_check (hop : s.host.op = some i) (hc : s.host.caller = none) (hs : s.host.step = check)
    (h : (check, e, next, first) ∈ helperChecks s.cfg i) :
    exec i s = .next (if s.host.locals.st = e then { s with host.step := first, host.caller := next }
      else { s with host.step := .p0, host.caller := some check }) := by
  cases i with
  | bmWriteReg dev reg val =>
    simp only [helperChecks, List.mem_cons, Prod.mk.injEq, List.not_mem_nil, or_false] at h
    rcases h with ⟨rfl, rfl, rfl, rfl⟩ | ⟨rfl, rfl, rfl, rfl⟩ | ⟨rfl, rfl, rfl, rfl⟩ <;>
      simp only [exec_bmWriteReg hop, writeRegMicro, hc, hs] <;> rfl
  | bmReadReg dev reg =>
    simp only [helperChecks, List.mem_cons, Prod.mk.injEq, List.not_mem_nil, or_false] at h
    rcases h with ⟨rfl, rfl, rfl, rfl⟩ | ⟨rfl, rfl, rfl, rfl⟩ | ⟨rfl, rfl, rfl, rfl⟩ <;>
      simp only [exec_bmReadReg hop, readRegMicro, hc, hs] <;> rfl
  | bmReadRegs dev reg count =>
    simp only [helperChecks, List.mem_cons, Prod.mk.injEq, List.not_mem_nil, or_false] at h
    rcases h with ⟨rfl, rfl, rfl, rfl⟩ | ⟨rfl, rfl, rfl, rfl⟩ | ⟨rfl, rfl, rfl, rfl⟩ <;>
      simp only [exec_bmReadRegs hop, readRegsMicro, hc, hs] <;> rfl
  | _ => simp [helperChecks] at h

/-- Settles O31: every check line is in the table, and a check is its test (`exec_check`). -/
theorem helperChecksGateTheTransaction : Obligations.HelperChecksGateTheTransaction := by
  intro i s check first next expected hop hc hs h
  have hmem : (check, expected, next, first) ∈ helperChecks s.cfg i := by
    rcases h with ⟨⟨_, _, _, rfl⟩, h⟩ | ⟨⟨_, _, rfl⟩, h⟩ | ⟨⟨_, _, _, rfl⟩, h⟩ <;> exact h
  rw [exec_check hop hc hs hmem]
  exact ⟨fun heq => congrArg _ (if_pos heq), fun hne => congrArg _ (if_neg hne)⟩

/-! ## The end of a helper (R234) -/

/-- Every label of a helper's own is a check line, or Q6 or Q7 of read_registers (R231 to R233). -/
theorem own_label_cases {cfg : Config} {l : Label} (hdev : (helperDevice i).isSome) (hl : l ∈ labelsOf i none) :
    (∃ e next first, (l, e, next, first) ∈ helperChecks cfg i) ∨
      ∃ dev reg count, i = .bmReadRegs dev reg count ∧ (l = .q6 ∨ l = .q7) := by
  cases i with
  | bmWriteReg | bmReadReg =>
    simp only [labelsOf, List.mem_cons, List.not_mem_nil, or_false] at hl
    rcases hl with rfl | rfl | rfl
    · exact .inl ⟨_, _, _, .head _⟩
    · exact .inl ⟨_, _, _, .tail _ (.head _)⟩
    · exact .inl ⟨_, _, _, .tail _ (.tail _ (.head _))⟩
  | bmReadRegs =>
    simp only [labelsOf, List.mem_cons, List.not_mem_nil, or_false] at hl
    rcases hl with rfl | rfl | rfl | rfl | rfl
    · exact .inl ⟨_, _, _, .head _⟩
    · exact .inl ⟨_, _, _, .tail _ (.head _)⟩
    · exact .inl ⟨_, _, _, .tail _ (.tail _ (.head _))⟩
    · exact .inr ⟨_, _, _, rfl, .inl rfl⟩
    · exact .inr ⟨_, _, _, rfl, .inr rfl⟩
  | _ => cases hdev

theorem OnlyAdvanced.op (h : OnlyAdvanced s t) : t.host.op = s.host.op := by
  obtain ⟨_, h⟩ := h
  rw [h]

/-- A line of a helper's own does not end it. -/
theorem own_line_keeps_op (hop : s.host.op = some i) (hdev : (helperDevice i).isSome) (hc : s.host.caller = none)
    (hl : s.host.step ∈ labelsOf i none) (h : exec i s = .next t) : t.host.op = some i := by
  rcases own_label_cases (cfg := s.cfg) hdev hl with ⟨e, next, first, hmem⟩ | ⟨dev, reg, count, rfl, hs⟩
  · rw [exec_check hop hc rfl hmem] at h
    cases h
    split <;> exact hop
  · rw [exec_bmReadRegs hop] at h
    rcases hs with hs | hs <;> simp only [readRegsMicro, hc, hs] at h <;> cases h
    · exact hop
    · unfold readRegsTest
      split <;> exact hop

/-- A helper inside a call ends only where the `stop` it called returns (R196, R231 to R233). -/
theorem CalledPrimitive.ends (h : CalledPrimitive i line s) (hn : s.host.step ∉ serialLabels)
    (hop : s.host.op = some i) (he : exec i s = .next t) (ht : t.host.op = none) :
    s.host.step = .p1 ∧ ∃ r, t = (stopSettled s).ret i r := by
  have stays {ret : Byte → State → State} (hmove : OnlyAdvanced s t ∨ ∃ v u, t = ret v u ∧ u.host = s.host)
      (hret : ∀ v u, (ret v u).host.op = u.host.op) : False := by
    rcases hmove with hmove | ⟨v, u, rfl, hu⟩
    · simp [hmove.op, hop] at ht
    · simp [hret, hu, hop] at ht
  cases h with
  | start _ _ _ _ _ hx => exact (stays (startMicro_host (hx.symm.trans he)) fun _ _ => rfl).elim
  | write _ _ _ _ _ hx => exact (stays (writeMicro_host (hx.symm.trans he)) fun _ _ => rfl).elim
  | readNext _ hx => exact (stays (readAckMicro_host (hx.symm.trans he)) fun _ _ => rfl).elim
  | readOne _ _ _ _ hx => exact (stays (readNackMicro_host (hx.symm.trans he)) fun _ _ => rfl).elim
  | readLast _ _ _ _ _ _ hx => exact (stays (readNackMicro_host (hx.symm.trans he)) fun _ _ => rfl).elim
  | stop _ _ _ hx =>
    rcases stopMicro_next (hx.symm.trans he) with ⟨_, rfl⟩ | ⟨hs, rfl⟩
    · cases hop.symm.trans ht
    · exact ⟨hs, _, rfl⟩
  | serial hl => exact absurd hl hn

/-- Settles O55: a helper ends at P1 alone (`CalledPrimitive.ends`); there the trace ends with the `Stop`, as the
invariant says, and P1 leaves the engine Idle. -/
theorem helpersEndWithTheBusReleased : Obligations.HelpersEndWithTheBusReleased := by
  intro s t i hI hop hi h ht
  have hdev : (helperDevice i).isSome := by
    rcases hi with ⟨_, _, _, rfl⟩ | ⟨_, _, rfl⟩ | ⟨_, _, _, rfl⟩ <;> rfl
  rcases perform_next h with ⟨_, rfl⟩ | ⟨henabled, hmoves⟩
  · cases hop.symm.trans ht
  have he : exec i s = .next t := by
    obtain ⟨_, hh⟩ : s.host.op.isSome = true ∧ held s = false := by simpa [enabled] using henabled
    exact (perform_host hop hh).symm.trans h
  have hl := hI.host.label i hop
  cases hc : s.host.caller with
  | none =>
    cases (own_line_keeps_op hop hdev hc (hc ▸ hl) he).symm.trans ht
  | some line =>
    rw [hc] at hl
    obtain ⟨hs, r, rfl⟩ := (calledPrimitive hop hc hl).ends (helper_label_not_serial hdev hl) hop he ht
    have hp := hI.bus.protocol i hop
    rw [hs] at hp
    exact ⟨rfl, hI.bus.pending_of_host_enabled henabled, hp.2⟩

end Sys2Proof.Machine
end

section
/-! SUPPORT. The runs of the bus helpers (spec/43_bus_helpers.md R230 to R233, R236), with nothing interleaved: each
line with the primitive it calls, against the free bus or the reference device, and the helpers assembled from them. -/

namespace Sys2Proof.Machine

variable {s : State} {i : Instr} {line check l first : Label} {next : Option Label} {loc : Locals} {b : BusMaster}
  {cs : List Choice} {k : Phase} {dir : Direction}

/-! ## The answers of the bus (R199; 95_test_vectors.md section 4) -/

/-- BUS, in an environment, answers phase `k` with a status and data when `st` and `v` are drawn, and leaves an
environment: the free bus answers what is drawn, the reference device as its table says. -/
inductive BusAnswers (cfg : Config) (k : Phase) (st v : Byte) :
    Option SimDevice → Byte → Byte → Option SimDevice → Prop
  | free : BusAnswers cfg k st v none st v none
  | device {d d' : SimDevice} {e x : Byte} (h : d.answer cfg k = ⟨e, x, d'⟩) :
    BusAnswers cfg k st v (some d) e x (some d')

variable {dev dev' dev'' : Option SimDevice} {st v e x : Byte}

theorem BusAnswers.of_free {cfg : Config} (hd : dev = none) : BusAnswers cfg k st v dev st v none := by
  subst hd
  exact .free

theorem busComplete_of_answers (hk : s.bm.pending = some k) (h : BusAnswers s.cfg k st v s.device e x dev') :
    busComplete st v s = (s.withBm (s.bm.complete k e x)).withDevice dev' := by
  generalize hd : s.device = d at h
  cases h with
  | free => rw [busComplete_free hk hd, ← hd]; rfl
  | device h => rw [busComplete_device hk hd, h]

/-! ## Where HOST is in a helper -/

/-- `s` with HOST in command `i`, at label `l` of a call of `line` or of its own, and with the temporaries `loc`, the
engine `b` and the bus environment `dev`. -/
def State.during (s : State) (i : Instr) (line : Option Label) (l : Label) (loc : Locals) (b : BusMaster)
    (dev : Option SimDevice) : State :=
  { s with
    bm := b
    device := dev
    host.op := some i
    host.step := l
    host.caller := line
    host.locals := loc }

/-- `s` after command `i` called `stop` with the engine `b` in the bus environment `dev`, and returned `r`. -/
def State.stopped (s : State) (i : Instr) (b : BusMaster) (dev : Option SimDevice) (r : Result) : State :=
  { s with
    bm := { b with state := .idle, trace := b.trace ++ [.stop] }
    device := dev.map SimDevice.onStop
    host := returned s.host i .p1 r }

/-- The engine `b` after bus phases that left `events` in the trace, the last of them with `status` (R199). -/
def BusMaster.transacted (b : BusMaster) (dir : Direction) (state : BmState) (data status : Byte)
    (events : List BusEvent) : BusMaster :=
  { b with
    dir := dir
    state := state
    data := data
    status := status
    done := true
    pending := none
    trace := b.trace ++ events }

@[simp] theorem BusMaster.transacted_transacted (b : BusMaster) (dir dir' : Direction) (state state' : BmState)
    (data data' status status' : Byte) (events events' : List BusEvent) :
    (b.transacted dir state data status events).transacted dir' state' data' status' events' =
      b.transacted dir' state' data' status' (events ++ events') := by
  simp [transacted]

/-- The temporaries of a helper that has nothing but the status `st` (R231 to R233). -/
def Locals.ofStatus (st : Byte) : Locals := { Locals.empty with st := st }

/-- `s` with HOST in helper `i` at its check line `check`, after bus phases that left `events` in the trace, the last of
them with `status` (R230). -/
def State.atCheck (s : State) (i : Instr) (check : Label) (dir : Direction) (state : BmState) (data status : Byte)
    (events : List BusEvent) (dev : Option SimDevice) : State :=
  s.during i none check (.ofStatus status) (s.bm.transacted dir state data status events) dev

/-- With the free bus the end of a helper is as the statements write it. -/
theorem State.stopped_eq_helperEnd {data status : Byte} {state : BmState} {events : List BusEvent}
    (hd : s.device = none) (r : Result) :
    s.stopped i (s.bm.transacted dir state data status events) none r = helperEnd s i dir data status events r := by
  have hdev : (none : Option SimDevice).map SimDevice.onStop = s.device := hd.symm
  rw [State.stopped, hdev]
  rfl

/-! ## The primitives, run to their return -/

/-- Wherever command `i` is in a call of `line` at one of `labels`, its micro-step is `micro`. -/
def Performs (i : Instr) (line : Label) (labels : List Label) (micro : State → Outcome) : Prop :=
  ∀ u : State, u.host.op = some i → u.host.caller = some line → u.host.step ∈ labels → exec i u = micro u

section Primitives

variable {labels : List Label} {micro : State → Outcome} {ret : Byte → State → State} {a : DevAddr} {byte : Byte}

theorem Performs.host (h : Performs i line labels micro) (hl : l ∈ labels)
    (hh : held (s.during i (some line) l loc b dev) = false) :
    perform .host (s.during i (some line) l loc b dev) = micro (s.during i (some line) l loc b dev) :=
  (perform_host rfl hh).trans (h _ rfl rfl hl)

/-- One phase of a called primitive: HOST issues it, BUS completes it, and HOST leaves the hold (R197 to R199). -/
theorem Performs.phase (h : Performs i line labels micro) {b' : BusMaster} {hold after : Label} (hl : l ∈ labels)
    (hh : held (s.during i (some line) l loc b dev) = false)
    (hissue : micro (s.during i (some line) l loc b dev) =
      .next (s.during i (some line) hold loc (b'.issue k) dev))
    (hhold : hold ∈ labels) (hb : hold ∈ busHolds)
    (hwait : ∀ u : State, u.host.step = hold → micro u = .next (awaitDone after u))
    (ha : BusAnswers s.cfg k st v dev e x dev') :
    runChoices (.host :: .busComplete st v :: .host :: cs) (s.during i (some line) l loc b dev) =
      runChoices cs (s.during i (some line) after loc ((b'.issue k).complete k e x) dev') := by
  have hcomplete : perform (.busComplete st v) (s.during i (some line) hold loc (b'.issue k) dev) =
      .next (s.during i (some line) hold loc ((b'.issue k).complete k e x) dev') :=
    (perform_busComplete rfl st v).trans (congrArg _ (busComplete_of_answers rfl ha))
  have hleave : perform .host (s.during i (some line) hold loc ((b'.issue k).complete k e x) dev') =
      .next (s.during i (some line) after loc ((b'.issue k).complete k e x) dev') :=
    (h.host hhold (held_of_busHold hb)).trans ((hwait _ rfl).trans (congrArg _ (awaitDone_lifted hb rfl)))
  rw [runChoices_cons ((h.host hl hh).trans hissue), runChoices_cons hcomplete, runChoices_cons hleave]

/-- `start`: the start condition, the address byte, and the return (R192). -/
theorem Performs.start_run {e0 x0 e1 x1 s0 s1 : Byte} (h : Performs i line startLabels (startMicro a dir ret))
    (h0 : BusAnswers s.cfg .startCond s0 0 dev e0 x0 dev')
    (h1 : BusAnswers s.cfg (.xmit (addressByte a dir)) s1 0 dev' e1 x1 dev'') :
    runChoices (startChoices s0 s1 ++ cs) (s.during i (some line) .t0 loc b dev) =
      runChoices cs (ret e1 (s.during i (some line) .t4 loc
        (b.transacted dir .addressAcked (addressByte a dir) e1 [.start e0, .xmit (addressByte a dir) e1]) dev'')) := by
  refine (h.phase (b' := { b with dir := dir, state := .started }) (by decide) rfl (startMicro_t0 rfl)
    (by decide) (by decide) (fun _ => startMicro_t1) h0).trans ?_
  refine (h.phase (by decide) rfl (startMicro_t2 rfl) (by decide) (by decide) (fun _ => startMicro_t3) h1).trans ?_
  refine (runChoices_cons ((h.host (by decide) rfl).trans (startMicro_t4 rfl))).trans ?_
  have htrace : b.trace ++ [.start e0] ++ [.xmit (addressByte a dir) e1] =
      b.trace ++ [.start e0, .xmit (addressByte a dir) e1] := List.append_assoc ..
  rw [BusMaster.transacted, ← htrace]
  rfl

/-- `write`: the phase of the byte, and the return (R193). -/
theorem Performs.write_run (h : Performs i line writeLabels (writeMicro byte ret))
    (ha : BusAnswers s.cfg (.xmit byte) st 0 dev e x dev') :
    runChoices (writeChoices st ++ cs) (s.during i (some line) .w0 loc b dev) =
      runChoices cs (ret e (s.during i (some line) .w2 loc
        (b.transacted b.dir .writing byte e [.xmit byte e]) dev')) :=
  (h.phase (b' := { b with data := byte, state := .writing }) (by decide) rfl (writeMicro_w0 rfl)
    (by decide) (by decide) (fun _ => writeMicro_w1) ha).trans
    (runChoices_cons ((h.host (by decide) rfl).trans (writeMicro_w2 rfl)))

/-- `read_with_ack`: the receive phase, and the return of the byte (R194). -/
theorem Performs.readAck_run (h : Performs i line ackLabels (readAckMicro ret))
    (ha : BusAnswers s.cfg .recvAck st v dev e x dev') :
    runChoices (lastReadChoices st v ++ cs) (s.during i (some line) .a0 loc b dev) =
      runChoices cs (ret x (s.during i (some line) .a2 loc
        (b.transacted b.dir .reading x e [.recv .ack x e]) dev')) :=
  (h.phase (b' := { b with state := .reading }) (by decide) rfl (readAckMicro_a0 rfl)
    (by decide) (by decide) (fun _ => readAckMicro_a1) ha).trans
    (runChoices_cons ((h.host (by decide) rfl).trans (readAckMicro_a2 rfl)))

/-- `read_with_no_ack`: the receive phase, and the return of the byte (R195). -/
theorem Performs.readNack_run (h : Performs i line nackLabels (readNackMicro ret))
    (ha : BusAnswers s.cfg .recvNack st v dev e x dev') :
    runChoices (lastReadChoices st v ++ cs) (s.during i (some line) .k0 loc b dev) =
      runChoices cs (ret x (s.during i (some line) .k2 loc
        (b.transacted b.dir .reading x e [.recv .nack x e]) dev')) :=
  (h.phase (b' := { b with state := .reading }) (by decide) rfl (readNackMicro_k0 rfl)
    (by decide) (by decide) (fun _ => readNackMicro_k1) ha).trans
    (runChoices_cons ((h.host (by decide) rfl).trans (readNackMicro_k2 rfl)))

end Primitives

/-! ## The lines that call (R231 to R233) -/

section Lines

variable {a : DevAddr} {reg byte e' : Byte} {count : Nat}

/-! The primitive each line performs, with the operands of the line and its return going to that line (R9 `call`). -/

theorem performs_start (hlabels : labelsOf i (some line) = startLabels) (hdev : helperDevice i = some a)
    (hline : (line, check) ∈ startLines) :
    Performs i line startLabels (startMicro a (startDirection i (some line)) (statusThen check)) := by
  intro u hop hc hl
  obtain ⟨a', check', hdev', hcheck, he⟩ := (calledPrimitive hop hc (hlabels ▸ hl)).of_start hl
  obtain rfl : a' = a := Option.some.inj (hdev'.symm.trans hdev)
  rw [he, hcheck check hline]

theorem performs_write (hlabels : labelsOf i (some line) = writeLabels) (hbyte : writtenByte i line = some byte)
    (hline : (line, check) ∈ writeLines) : Performs i line writeLabels (writeMicro byte (statusThen check)) := by
  intro u hop hc hl
  obtain ⟨byte', check', hbyte', hcheck, he⟩ := (calledPrimitive hop hc (hlabels ▸ hl)).of_write hl
  obtain rfl : byte' = byte := Option.some.inj (hbyte'.symm.trans hbyte)
  rw [he, hcheck check hline]

theorem performs_readOne : Performs (.bmReadReg a reg) .g6 nackLabels
    (readNackMicro fun v t => (t.withLocals { t.host.locals with v := v }).call .g7 .p0) := by
  intro u hop hc hl
  rcases (calledPrimitive hop hc hl).of_readNack hl with ⟨_, _, _, he⟩ | ⟨_, _, _, hi, _⟩
  · exact he
  · cases hi

theorem performs_readNext : Performs (.bmReadRegs a reg count) .q7 ackLabels (readAckMicro readRegsStore) :=
  fun _ hop hc hl => (calledPrimitive hop hc hl).of_readAck hl

theorem performs_readLast :
    Performs (.bmReadRegs a reg count) .q8 nackLabels (readNackMicro (readRegsLast count)) := by
  intro u hop hc hl
  rcases (calledPrimitive hop hc hl).of_readNack hl with ⟨_, _, hi, _⟩ | ⟨_, _, _, hi, _, he⟩
  · cases hi
  · cases hi
    exact he

/-- `stop` in a line of a helper: the stop condition, the end of the transaction, and the return of the helper's result
(R196). -/
theorem stop_called_run {r : Result} (hlabels : labelsOf i (some line) = stopLabels)
    (hr : helperResult i line loc = some r) :
    runChoices (stopChoices ++ cs) (s.during i (some line) .p0 loc b dev) = runChoices cs (s.stopped i b dev r) := by
  have called (l : Label) (hl : l ∈ stopLabels) (b : BusMaster) (dev : Option SimDevice) :
      CalledPrimitive i line (s.during i (some line) l loc b dev) := calledPrimitive rfl rfl (hlabels ▸ hl)
  obtain ⟨_, _, he⟩ := (called .p0 (by decide) b dev).of_stop (by decide : Label.p0 ∈ stopLabels)
  calc runChoices (stopChoices ++ cs) (s.during i (some line) .p0 loc b dev)
    _ = runChoices (.host :: cs) (s.during i (some line) .p1 loc
          { b with state := .stopped, trace := b.trace ++ [.stop] } (dev.map SimDevice.onStop)) :=
      runChoices_cons ((perform_host rfl rfl).trans (he.trans (stopMicro_p0 rfl)))
    _ = _ := runChoices_cons ((perform_host rfl rfl).trans ((called .p1 (by decide) _ _).exec_p1 hr rfl))

/-- A check line is no hold (60_exceptions.md R282). -/
theorem held_during_check (h : (check, e, next, first) ∈ helperChecks s.cfg i) :
    held (s.during i none check loc b dev) = false := by
  have hfree : ∀ q ∈ helperChecks s.cfg i, held (s.during i none q.1 loc b dev) = false := by
    cases i <;> simp [helperChecks, held, State.during]
  exact hfree _ h

/-- A check whose status is the one expected goes on to the next line (R230). -/
theorem check_passed_run (h : (check, e, next, first) ∈ helperChecks s.cfg i) (he : loc.st = e) :
    runChoices (.host :: cs) (s.during i none check loc b dev) = runChoices cs (s.during i next first loc b dev) :=
  runChoices_cons ((perform_host rfl (held_during_check h)).trans ((exec_check rfl rfl rfl h).trans
    (congrArg _ (if_pos he))))

/-- A check whose status is another calls `stop` in its own line (R230). -/
theorem check_failed_run (h : (check, e, next, first) ∈ helperChecks s.cfg i) (hne : loc.st ≠ e) :
    runChoices (.host :: cs) (s.during i none check loc b dev) =
      runChoices cs (s.during i (some check) .p0 loc b dev) :=
  runChoices_cons ((perform_host rfl (held_during_check h)).trans ((exec_check rfl rfl rfl h).trans
    (congrArg _ (if_neg hne))))

variable {state : BmState} {data status : Byte} {events : List BusEvent}

/-- A check passed, and the `write` of the next line. -/
theorem check_write_run (h : (check, e, some line, .w0) ∈ helperChecks s.cfg i) (he : status = e)
    (hP : Performs i line writeLabels (writeMicro byte (statusThen l)))
    (ha : BusAnswers s.cfg (.xmit byte) st 0 dev e' x dev') :
    runChoices (.host :: (writeChoices st ++ cs)) (s.atCheck i check dir state data status events dev) =
      runChoices cs (s.atCheck i l dir .writing byte e' (events ++ [.xmit byte e']) dev') := by
  rw [State.atCheck, check_passed_run h he, hP.write_run ha, BusMaster.transacted_transacted]
  rfl

/-- A check passed, and the repeated `start` of the next line. -/
theorem check_start_run {e0 x0 e1 x1 s0 s1 : Byte} {dir' : Direction}
    (h : (check, e, some line, .t0) ∈ helperChecks s.cfg i) (he : status = e)
    (hP : Performs i line startLabels (startMicro a dir' (statusThen l)))
    (h0 : BusAnswers s.cfg .startCond s0 0 dev e0 x0 dev')
    (h1 : BusAnswers s.cfg (.xmit (addressByte a dir')) s1 0 dev' e1 x1 dev'') :
    runChoices (.host :: (startChoices s0 s1 ++ cs)) (s.atCheck i check dir state data status events dev) =
      runChoices cs (s.atCheck i l dir' .addressAcked (addressByte a dir') e1
        (events ++ [.start e0, .xmit (addressByte a dir') e1]) dev'') := by
  rw [State.atCheck, check_passed_run h he, hP.start_run h0 h1, BusMaster.transacted_transacted]
  rfl

/-- A check failed on the free bus: the `stop` it calls ends the helper with the result of the check's line. -/
theorem check_abort_run {r : Result} (hd : s.device = none) (h : (check, e, next, first) ∈ helperChecks s.cfg i)
    (hne : status ≠ e) (hlabels : labelsOf i (some check) = stopLabels)
    (hr : helperResult i check (.ofStatus status) = some r) :
    runChoices (.host :: stopChoices) (s.atCheck i check dir state data status events none) =
      .next (helperEnd s i dir data status events r) := by
  rw [State.atCheck, check_failed_run h hne]
  refine (stop_called_run (cs := []) hlabels hr).trans ?_
  exact congrArg _ (State.stopped_eq_helperEnd hd r)

/-- The lines with which a helper begins, those of `start` and of the `write` of the register number, each followed by
its check line (R231 to R233). -/
structure Opens (i : Instr) (a : DevAddr) (reg : Byte) (line check line' check' : Label) : Prop where
  start : Performs i line startLabels (startMicro a .write (statusThen check))
  passed : ∀ cfg : Config, (check, cfg.ST_SLA_W_ACK, some line', .w0) ∈ helperChecks cfg i
  write : Performs i line' writeLabels (writeMicro reg (statusThen check'))

theorem writeReg_opens (a : DevAddr) (reg val : Byte) : Opens (.bmWriteReg a reg val) a reg .h0 .h1 .h2 .h3 :=
  ⟨performs_start rfl rfl (by decide), fun _ => .head _, performs_write rfl rfl (by decide)⟩

theorem readReg_opens (a : DevAddr) (reg : Byte) : Opens (.bmReadReg a reg) a reg .g0 .g1 .g2 .g3 :=
  ⟨performs_start rfl rfl (by decide), fun _ => .head _, performs_write rfl rfl (by decide)⟩

theorem readRegs_opens (a : DevAddr) (reg : Byte) (n : Nat) : Opens (.bmReadRegs a reg n) a reg .q0 .q1 .q2 .q3 :=
  ⟨performs_start rfl rfl (by decide), fun _ => .head _, performs_write rfl rfl (by decide)⟩

section Opening

variable {s0 s1 s2 e0 x0 e1 x1 e2 x2 : Byte} {dev₁ dev₂ dev₃ : Option SimDevice} {line' check' : Label}

/-- From the issue of a helper to its first check. -/
theorem Opens.first_run (h : Opens i a reg line check line' check')
    (hissue : perform (.issue (encode i)) s = .next (acceptedAs s i (some line) .t0))
    (h0 : BusAnswers s.cfg .startCond s0 0 s.device e0 x0 dev₁)
    (h1 : BusAnswers s.cfg (.xmit (addressByte a .write)) s1 0 dev₁ e1 x1 dev₂) :
    runChoices (.issue (encode i) :: (startChoices s0 s1 ++ cs)) s =
      runChoices cs (s.atCheck i check .write .addressAcked (addressByte a .write) e1
        [.start e0, .xmit (addressByte a .write) e1] dev₂) :=
  (runChoices_cons hissue).trans (h.start.start_run h0 h1)

/-- From the issue of a helper to its second check. -/
theorem Opens.second_run (h : Opens i a reg line check line' check')
    (hissue : perform (.issue (encode i)) s = .next (acceptedAs s i (some line) .t0))
    (h0 : BusAnswers s.cfg .startCond s0 0 s.device e0 x0 dev₁)
    (h1 : BusAnswers s.cfg (.xmit (addressByte a .write)) s1 0 dev₁ e1 x1 dev₂) (he : e1 = s.cfg.ST_SLA_W_ACK)
    (h2 : BusAnswers s.cfg (.xmit reg) s2 0 dev₂ e2 x2 dev₃) :
    runChoices (.issue (encode i) :: (startChoices s0 s1 ++ .host :: (writeChoices s2 ++ cs))) s =
      runChoices cs (s.atCheck i check' .write .writing reg e2
        [.start e0, .xmit (addressByte a .write) e1, .xmit reg e2] dev₃) :=
  (h.first_run hissue h0 h1).trans (check_write_run (h.passed s.cfg) he h.write h2)

end Opening

end Lines

/-! ## The helpers (R231 to R233) -/

section Helpers

variable {a : DevAddr} {reg val : Byte} {n : Nat}

/-- With HOST idle, the engine initialised and Idle, each helper is accepted (30_encoding.md R102, R104). -/
theorem helpers_accepted (hop : s.host.op = none) (hin : s.bm.inited = true) (hidle : s.bm.state = .idle) :
    exec (.bmWriteReg a reg val) s = .next (acceptedAs s (.bmWriteReg a reg val) (some .h0) .t0) ∧
    exec (.bmReadReg a reg) s = .next (acceptedAs s (.bmReadReg a reg) (some .g0) .t0) ∧
    (1 ≤ n → exec (.bmReadRegs a reg n) s = .next (acceptedAs s (.bmReadRegs a reg n) (some .q0) .t0)) := by
  obtain ⟨_, _, _, hbus⟩ := commandsAccepted s hop
  obtain ⟨_, _, _, _, haccept⟩ := hbus hin
  obtain ⟨hwrite, hread, hreads⟩ := haccept hidle
  exact ⟨hwrite a reg val, hread a reg, hreads a reg n⟩

theorem issue_writeReg (hop : s.host.op = none) (hin : s.bm.inited = true) (hidle : s.bm.state = .idle) :
    perform (.issue (encode (.bmWriteReg a reg val))) s =
      .next (acceptedAs s (.bmWriteReg a reg val) (some .h0) .t0) :=
  (perform_issue_encode hop rfl).trans (helpers_accepted (n := 0) hop hin hidle).1

theorem issue_readReg (hop : s.host.op = none) (hin : s.bm.inited = true) (hidle : s.bm.state = .idle) :
    perform (.issue (encode (.bmReadReg a reg))) s = .next (acceptedAs s (.bmReadReg a reg) (some .g0) .t0) :=
  (perform_issue_encode hop rfl).trans (helpers_accepted (val := 0) (n := 0) hop hin hidle).2.1

theorem issue_readRegs (hop : s.host.op = none) (hin : s.bm.inited = true) (hidle : s.bm.state = .idle)
    (hn : 1 ≤ n) (h256 : n < 2 ^ 8) : perform (.issue (encode (.bmReadRegs a reg n))) s =
      .next (acceptedAs s (.bmReadRegs a reg n) (some .q0) .t0) :=
  (perform_issue_encode (i := .bmReadRegs a reg n) hop (decide_eq_true h256)).trans
    ((helpers_accepted (val := 0) hop hin hidle).2.2 hn)

end Helpers

/-- Settles O27: the run leads to each check in turn; a check that fails ends it (`check_abort_run`), and the third one
passed leads to the `stop` of H6. -/
theorem bmWriteRegRuns : Obligations.BmWriteRegRuns := by
  intro s a reg val x s0 s1 s2 s3 hop hin hidle hd hx
  obtain rfl : x = addressByte a .write := eq_addressByte hx
  have hissue := issue_writeReg (a := a) (reg := reg) (val := val) hop hin hidle
  have hopens := writeReg_opens a reg val
  have third (hs1 : s1 = s.cfg.ST_SLA_W_ACK) (hs2 : s2 = s.cfg.ST_DATA_W_ACK) (cs : List Choice) :=
    (hopens.second_run (s0 := s0) (cs := .host :: (writeChoices s3 ++ cs)) hissue (.of_free hd) .free hs1 .free).trans
      (check_write_run (l := .h5) (.tail _ (.head _)) hs2 (performs_write rfl rfl (by decide)) .free)
  refine ⟨fun hs1 hs2 hs3 => ?_, fun hne => ?_, fun hs1 hne => ?_, fun hs1 hs2 hne => ?_⟩
  · rw [third hs1 hs2, State.atCheck, check_passed_run (.tail _ (.tail _ (.head _))) hs3]
    refine (stop_called_run (cs := []) rfl rfl).trans ?_
    exact congrArg _ (State.stopped_eq_helperEnd hd _)
  · rw [hopens.first_run hissue (.of_free hd) .free]
    exact check_abort_run hd (.head _) hne rfl rfl
  · rw [hopens.second_run hissue (.of_free hd) .free hs1 .free]
    exact check_abort_run hd (.tail _ (.head _)) hne rfl rfl
  · rw [third hs1 hs2]
    exact check_abort_run hd (.tail _ (.tail _ (.head _))) hne rfl rfl

/-- Settles O28: the run leads to each check in turn; a check that fails ends it (`check_abort_run`), and the third one
passed leads to the read of G6, whose byte G7 returns. -/
theorem bmReadRegRuns : Obligations.BmReadRegRuns := by
  intro s a reg x y s0 s1 s2 s3 s4 s5 v hop hin hidle hd hx hy
  obtain rfl : x = addressByte a .write := eq_addressByte hx
  obtain rfl : y = addressByte a .read := eq_addressByte hy
  have hissue := issue_readReg (a := a) (reg := reg) hop hin hidle
  have hopens := readReg_opens a reg
  have third (hs1 : s1 = s.cfg.ST_SLA_W_ACK) (hs2 : s2 = s.cfg.ST_DATA_W_ACK) (cs : List Choice) :=
    (hopens.second_run (s0 := s0) (cs := .host :: (startChoices s3 s4 ++ cs))
      hissue (.of_free hd) .free hs1 .free).trans
      (check_start_run (l := .g5) (dir' := .read) (.tail _ (.head _)) hs2
        (performs_start rfl rfl (by decide)) .free .free)
  refine ⟨fun hs1 hs2 hs4 => ?_, fun hne => ?_, fun hs1 hne => ?_, fun hs1 hs2 hne => ?_⟩
  · rw [third hs1 hs2, State.atCheck, check_passed_run (.tail _ (.tail _ (.head _))) hs4,
      performs_readOne.readNack_run .free, BusMaster.transacted_transacted]
    refine (stop_called_run (line := .g7) (cs := []) rfl rfl).trans ?_
    exact congrArg _ (State.stopped_eq_helperEnd hd _)
  · rw [hopens.first_run hissue (.of_free hd) .free]
    exact check_abort_run hd (.head _) hne rfl rfl
  · rw [hopens.second_run hissue (.of_free hd) .free hs1 .free]
    exact check_abort_run hd (.tail _ (.head _)) hne rfl rfl
  · rw [third hs1 hs2]
    exact check_abort_run hd (.tail _ (.tail _ (.head _))) hne rfl rfl

/-! ## The reads of read_registers (R233) -/

section Reads

variable {a : DevAddr} {reg : Byte} {n : Nat} {bytes : List Byte} {read : Byte × Byte}

/-- The temporaries of read_registers that has stored `bytes`, the last status being `st` (R233). -/
def Locals.reading (st : Byte) (bytes : List Byte) : Locals :=
  { Locals.ofStatus st with k := bytes.length, resBytes := bytes }

/-- HOST's step at a line of read_registers' own, none of which is a hold. -/
theorem perform_readRegs_own (hh : held (s.during (.bmReadRegs a reg n) none l loc b dev) = false) :
    perform .host (s.during (.bmReadRegs a reg n) none l loc b dev) =
      readRegsMicro a reg n (s.during (.bmReadRegs a reg n) none l loc b dev) :=
  (perform_host rfl hh).trans (exec_bmReadRegs rfl)

/-- Q6: no byte is stored. -/
theorem perform_readRegs_index : perform .host (s.during (.bmReadRegs a reg n) none .q6 (.ofStatus st) b dev) =
    .next (s.during (.bmReadRegs a reg n) none .q7 (.reading st []) b dev) :=
  perform_readRegs_own rfl

/-- Q7 below the last place: a read with acknowledge, whose byte is stored behind the others. -/
theorem readNext_run (hk : bytes.length < n - 1) :
    runChoices (readChoices read ++ cs) (s.during (.bmReadRegs a reg n) none .q7 (.reading st bytes) b none) =
      runChoices cs (s.during (.bmReadRegs a reg n) none .q7 (.reading st (bytes ++ [read.2]))
        (b.transacted b.dir .reading read.2 read.1 [.recv .ack read.2 read.1]) none) := by
  have htest : perform .host (s.during (.bmReadRegs a reg n) none .q7 (.reading st bytes) b none) =
      .next (s.during (.bmReadRegs a reg n) (some .q7) .a0 (.reading st bytes) b none) :=
    (perform_readRegs_own rfl).trans (congrArg _ (if_pos hk))
  have hstored : ({ Locals.reading st bytes with
      resBytes := storeAt bytes bytes.length read.2, k := bytes.length + 1 } : Locals) =
      .reading st (bytes ++ [read.2]) := by
    have hlen : bytes.length + 1 = (bytes ++ [read.2]).length := by simp
    rw [storeAt_length_self, hlen]
    rfl
  refine (runChoices_cons htest).trans ((performs_readNext.readAck_run .free).trans ?_)
  rw [← hstored]
  rfl

/-- Q7 at the last place: Q8 reads with no acknowledge, and Q9 returns the bytes. -/
theorem readLast_run (hn : n = bytes.length + 1) :
    runChoices (readChoices read ++ stopChoices)
        (s.during (.bmReadRegs a reg n) none .q7 (.reading st bytes) b none) =
      .next (s.stopped (.bmReadRegs a reg n)
        (b.transacted b.dir .reading read.2 read.1 [.recv .nack read.2 read.1]) none
        (.statusBytes 0 (some (bytes ++ [read.2])))) := by
  subst hn
  have htest : perform .host (s.during (.bmReadRegs a reg (bytes.length + 1)) none .q7 (.reading st bytes) b none) =
      .next (s.during (.bmReadRegs a reg (bytes.length + 1)) (some .q8) .k0 (.reading st bytes) b none) :=
    (perform_readRegs_own rfl).trans (congrArg _ (if_neg (Nat.lt_irrefl _)))
  have hall : (storeAt bytes bytes.length read.2).take (bytes.length + 1) = bytes ++ [read.2] := by
    rw [take_storeAt le_rfl, List.take_length]
  refine (runChoices_cons htest).trans ((performs_readLast.readNack_run .free).trans ?_)
  rw [← hall]
  exact stop_called_run (cs := []) rfl rfl

/-- The reads before the last are answered with acknowledge (R233). -/
theorem readEvents_cons (first last : Byte × Byte) (reads : List (Byte × Byte)) :
    readEvents (first :: (reads ++ [last])) = .recv .ack first.2 first.1 :: readEvents (reads ++ [last]) := by
  cases reads <;> rfl

/-- The reads of read_registers, from Q7 to the return: by induction on the reads before the last. -/
theorem reads_run {reads : List (Byte × Byte)} (hn : n = bytes.length + reads.length + 1) :
    runChoices ((reads ++ [read]).flatMap readChoices ++ stopChoices)
        (s.during (.bmReadRegs a reg n) none .q7 (.reading st bytes) b none) =
      .next (s.stopped (.bmReadRegs a reg n)
        (b.transacted b.dir .reading read.2 read.1 (readEvents (reads ++ [read]))) none
        (.statusBytes 0 (some (bytes ++ (reads ++ [read]).map Prod.snd)))) := by
  induction reads generalizing bytes b with
  | nil => exact readLast_run hn
  | cons first reads ih =>
    rw [List.length_cons] at hn
    have hrest : n = (bytes ++ [first.2]).length + reads.length + 1 := by
      rw [List.length_append, List.length_singleton]
      omega
    rw [List.cons_append, List.flatMap_cons, List.append_assoc, readNext_run (by omega), ih hrest,
      BusMaster.transacted_transacted, readEvents_cons, List.map_cons, List.append_assoc]
    rfl

end Reads

/-- Settles O29: the run leads to each check in turn; a check that fails ends it (`check_abort_run`), and the third one
passed leads to Q6, which sets the index, and to the reads (`reads_run`). -/
theorem bmReadRegsRuns : Obligations.BmReadRegsRuns := by
  intro s a reg x y s0 s1 s2 s3 s4 rs r hop hin hidle hd hlen hx hy
  obtain rfl : x = addressByte a .write := eq_addressByte hx
  obtain rfl : y = addressByte a .read := eq_addressByte hy
  have hissue := issue_readRegs (a := a) (reg := reg) (n := rs.length + 1) hop hin hidle (by omega) (by omega)
  have hopens := readRegs_opens a reg (rs.length + 1)
  have third (hs1 : s1 = s.cfg.ST_SLA_W_ACK) (hs2 : s2 = s.cfg.ST_DATA_W_ACK) (cs : List Choice) :=
    (hopens.second_run (s0 := s0) (cs := .host :: (startChoices s3 s4 ++ cs))
      hissue (.of_free hd) .free hs1 .free).trans
      (check_start_run (l := .q5) (dir' := .read) (.tail _ (.head _)) hs2
        (performs_start rfl rfl (by decide)) .free .free)
  refine ⟨fun hs1 hs2 hs4 => ?_, fun hne => ?_, fun hs1 hne => ?_, fun hs1 hs2 hne => ?_⟩
  · rw [third hs1 hs2, State.atCheck, check_passed_run (.tail _ (.tail _ (.head _))) hs4,
      runChoices_cons perform_readRegs_index,
      reads_run (by rw [List.length_nil, Nat.zero_add]), BusMaster.transacted_transacted]
    exact congrArg _ (State.stopped_eq_helperEnd hd _)
  · rw [hopens.first_run hissue (.of_free hd) .free]
    exact check_abort_run hd (.head _) hne rfl rfl
  · rw [hopens.second_run hissue (.of_free hd) .free hs1 .free]
    exact check_abort_run hd (.tail _ (.head _)) hne rfl rfl
  · rw [third hs1 hs2]
    exact check_abort_run hd (.tail _ (.tail _ (.head _))) hne rfl rfl

end Sys2Proof.Machine
end

section
/-! SUPPORT. The round trip of a register through the reference device (spec/43_bus_helpers.md R236;
spec/95_test_vectors.md section 4): with the device attached a run does not depend on the draws, and the device answers
the two helpers as its table says. -/

namespace Sys2Proof.Machine

variable {s t : State} {i : Instr} {c : Choice} {cs : List Choice}

/-! ## The draws do not matter (log 14) -/

/-- A HOST transition does not detach the device: only the stop condition reaches it (42_bus_primitives.md R196). -/
theorem exec_device_isSome (h : exec i s = .next t) : t.device.isSome = s.device.isSome := by
  rcases exec_hostAlone h with ⟨_, rfl⟩ | hop
  · rfl
  by_cases hserial : isSerial i
  · obtain ⟨_, hdev, _⟩ := serialCommandsFrame i s t h hserial
    rw [hdev]
  by_cases hinit : ∃ r, i = .bmInit r
  · obtain ⟨r, rfl⟩ := hinit
    obtain ⟨_, _, _, _, rfl⟩ := bmInitMicro_writes ((runCommand_inFlight hop).symm.trans h)
    rfl
  cases exec_phaseMove hop (not_exists.1 hinit) hserial h with
  | registers _ _ _ _ _ h =>
    obtain ⟨_, rfl⟩ := h
    rfl
  | stop _ h =>
    obtain ⟨_, rfl⟩ := h
    exact Option.isSome_map

theorem busComplete_device_isSome (st v : Byte) (s : State) :
    (busComplete st v s).device.isSome = s.device.isSome := by
  cases hk : s.bm.pending with
  | none => simp only [busComplete, hk]
  | some k =>
    cases hd : s.device with
    | none => rw [busComplete_free hk hd, State.withBm_device, hd]
    | some d => rw [busComplete_device hk hd]; rfl

/-- No step detaches the device. -/
theorem perform_device_isSome (h : perform c s = .next t) : t.device.isSome = s.device.isSome := by
  rcases perform_next h with ⟨_, rfl⟩ | ⟨_, ⟨w, _, h⟩ | ⟨_, h⟩ | ⟨_, h⟩ | ⟨_, h⟩ | ⟨v, keep, _, rfl⟩ |
    ⟨_, rfl⟩ | ⟨st, v, _, rfl⟩⟩
  · rfl
  · rcases issueWord_next h with ⟨_, rfl⟩ | ⟨_, _, _, h⟩ | ⟨_, _, rfl⟩
    · rfl
    · exact exec_device_isSome h
    · rfl
  · rcases hostMicroStep_next h with ⟨_, rfl⟩ | ⟨_, _, h⟩
    · rfl
    · exact exec_device_isSome h
  · rcases rxiBody_next h with ⟨_, rfl⟩ | ⟨_, _, _, rfl⟩ <;> rfl
  · rcases txiBody_next h with ⟨_, rfl⟩ | ⟨_, _, _, rfl⟩ <;> rfl
  · obtain ⟨u, hu⟩ := lineArrive_eq_withUt v keep s
    rw [hu, State.withUt_device]
  · rfl
  · exact busComplete_device_isSome st v s

/-- With the device attached a completion answers what the device answers, whatever is drawn. -/
theorem perform_undrawn (hd : s.device.isSome) : perform (undrawn c) s = perform c s := by
  obtain ⟨d, hd⟩ := Option.isSome_iff_exists.1 hd
  cases c with
  | busComplete st v =>
    cases hk : s.bm.pending with
    | none =>
      have hidle (st v : Byte) : perform (.busComplete st v) s = .next s :=
        perform_not_enabled (by simp [enabled, hk])
      rw [undrawn, hidle, hidle]
    | some k =>
      have hanswer (st v : Byte) := (perform_busComplete hk st v).trans (congrArg _ (busComplete_device hk hd st v))
      rw [undrawn, hanswer, hanswer]
  | _ => rfl

/-- So a run with the device attached depends on the agents chosen alone. -/
theorem runChoices_undrawn (hd : s.device.isSome) : runChoices (cs.map undrawn) s = runChoices cs s := by
  induction cs generalizing s with
  | nil => rfl
  | cons c cs ih =>
    rw [List.map_cons, runChoices, runChoices, perform_undrawn hd]
    cases h : perform c s with
    | next t => exact ih ((perform_device_isSome h).trans hd)
    | fault f => rfl
    | refused r => rfl

/-! ## The answers of the device -/

variable {d : SimDevice} {cfg : Config}

theorem SimDevice.answer_own_write (h : d.sel = .none) :
    d.answer cfg (.xmit (addressByte d.aDev .write)) = ⟨cfg.ST_SLA_W_ACK, 0, { d with sel := .wFirst }⟩ := by
  simp [SimDevice.answer_address h, SimDevice.onAddress, addressByte_toNat, Direction.bit]

theorem SimDevice.answer_own_read (h : d.sel = .none) :
    d.answer cfg (.xmit (addressByte d.aDev .read)) = ⟨cfg.ST_SLA_R_ACK, 0, { d with sel := .rd }⟩ := by
  simp [SimDevice.answer_address h, SimDevice.onAddress, addressByte_toNat, Direction.bit]
  omega

theorem SimDevice.answer_last_read (h : d.sel = .rd) :
    d.answer cfg .recvNack = ⟨0x58, d.regs.readReg d.p, { d with p := d.p + 1, sel := .off }⟩ := by
  simp [SimDevice.answer, SimDevice.onRecvNack, SimDevice.bump, h]

/-! ## The round trip (R236) -/

section RoundTrip

variable {reg val : Byte}

theorem BusAnswers.of_device {k : Phase} {dev : Option SimDevice} {d' : SimDevice} {st v e x : Byte}
    (hd : dev = some d) (h : d.answer cfg k = ⟨e, x, d'⟩) : BusAnswers cfg k st v dev e x (some d') := by
  subst hd
  exact .device h

/-- `BM_WRITE_REG` to the device: every status is the expected one, and the device writes its register. -/
theorem writeReg_device_run (hop : s.host.op = none) (hin : s.bm.inited = true) (hidle : s.bm.state = .idle)
    (hd : s.device = some d) (hbusy : d.busy = false) :
    runChoices (.issue (encode (.bmWriteReg d.aDev reg val)) :: (startChoices 0 0 ++ .host ::
        (writeChoices 0 ++ .host :: (writeChoices 0 ++ .host :: (stopChoices ++ cs))))) s =
      runChoices cs (s.stopped (.bmWriteReg d.aDev reg val)
        (s.bm.transacted .write .writing val s.cfg.ST_DATA_W_ACK
          [.start 0x08, .xmit (addressByte d.aDev .write) s.cfg.ST_SLA_W_ACK, .xmit reg s.cfg.ST_DATA_W_ACK,
           .xmit val s.cfg.ST_DATA_W_ACK])
        (some { d with regs := d.regs.writeReg reg val, p := reg + 1, busy := true, sel := .wData }) (.status 0)) := by
  rw [(writeReg_opens d.aDev reg val).second_run (issue_writeReg hop hin hidle)
      (.of_device hd (SimDevice.answer_start_idle hbusy)) (.device (SimDevice.answer_own_write rfl)) rfl
      (.device (SimDevice.answer_register rfl)),
    check_write_run (l := .h5) (.tail _ (.head _)) rfl (performs_write rfl rfl (by decide))
      (.device (SimDevice.answer_data rfl)),
    State.atCheck, check_passed_run (.tail _ (.tail _ (.head _))) rfl]
  exact stop_called_run rfl rfl

/-- `BM_READ_REG` from the device: every status is the expected one, and the byte is what its register holds. -/
theorem readReg_device_run (hop : s.host.op = none) (hin : s.bm.inited = true) (hidle : s.bm.state = .idle)
    (hd : s.device = some d) (hbusy : d.busy = false) :
    runChoices (.issue (encode (.bmReadReg d.aDev reg)) :: (startChoices 0 0 ++ .host ::
        (writeChoices 0 ++ .host :: (startChoices 0 0 ++ .host :: (lastReadChoices 0 0 ++ stopChoices))))) s =
      .next (s.stopped (.bmReadReg d.aDev reg)
        (s.bm.transacted .read .reading (d.regs.readReg reg) 0x58
          [.start 0x08, .xmit (addressByte d.aDev .write) s.cfg.ST_SLA_W_ACK, .xmit reg s.cfg.ST_DATA_W_ACK,
           .start 0x10, .xmit (addressByte d.aDev .read) s.cfg.ST_SLA_R_ACK,
           .recv .nack (d.regs.readReg reg) 0x58])
        (some { d with p := reg + 1, busy := true, sel := .off }) (.statusByte 0 (some (d.regs.readReg reg)))) := by
  rw [(readReg_opens d.aDev reg).second_run (issue_readReg hop hin hidle)
      (.of_device hd (SimDevice.answer_start_idle hbusy)) (.device (SimDevice.answer_own_write rfl)) rfl
      (.device (SimDevice.answer_register rfl)),
    check_start_run (l := .g5) (dir' := .read) (.tail _ (.head _)) rfl (performs_start rfl rfl (by decide))
      (.device (SimDevice.answer_start_busy rfl)) (.device (SimDevice.answer_own_read rfl)),
    State.atCheck, check_passed_run (.tail _ (.tail _ (.head _))) rfl,
    performs_readOne.readNack_run (.device (SimDevice.answer_last_read rfl)), BusMaster.transacted_transacted]
  exact stop_called_run (line := .g7) (cs := []) rfl rfl

end RoundTrip

/-- Settles O30: the draws do not matter (`runChoices_undrawn`), and the two helpers run one after the other. -/
theorem writeThenReadRegisterReturnsTheValue : Obligations.WriteThenReadRegisterReturnsTheValue := by
  intro s d reg val cs hop hin hidle hd hbusy _ hcs
  have hread : (d.regs.writeReg reg val).readReg reg = val := d.regs.readReg_writeReg_same reg val
  have hresult : Result.statusByte 0 (some ((d.regs.writeReg reg val).readReg reg)) = .statusByte 0 (some val) := by
    rw [hread]
  have hrun := runChoices_undrawn (cs := cs) (s := s) (by rw [hd]; rfl)
  rw [hcs, writeReg_device_run hop hin hidle hd hbusy] at hrun
  have hend := hrun.symm.trans (readReg_device_run (reg := reg) rfl hin rfl
    (d := { d with regs := d.regs.writeReg reg val, p := reg + 1, busy := false, sel := .none }) rfl rfl)
  refine ⟨_, hend, rfl, rfl, rfl, ?_, _, rfl, hread,
    fun r hr => d.regs.readReg_writeReg_other val hr⟩
  rw [← hresult]
  exact List.append_assoc ..

end Sys2Proof.Machine
end

section
/-! SUPPORT. Interrupts and holds (spec/60_exceptions.md R268, R269, R282): a handler or a step of LINE leaves the main
context as it was, and a hold of HOST is lifted only by the agent that writes what the hold waits for. -/

namespace Sys2Proof.Machine

variable {s t : State} {c : Choice}

/-! ## The main context under a handler (60_exceptions.md R268, R269) -/

/-- A path is part of the Serial Transport (41_serial_handlers_and_line.md R167). -/
theorem State.withPath_eq_withUt (p : Path) (s u : State) : ∃ v, s.withPath p u = s.withUt v := by
  cases p <;> exact ⟨_, rfl⟩

/-- Settles O51: the step is confined to one path of the Serial Transport, so it leaves everything else; and the enables
are written by HOST alone. -/
theorem handlersLeaveTheMainContext : Obligations.HandlersLeaveTheMainContext := by
  intro s t c h hc
  obtain ⟨p, hp⟩ : ∃ p, Confined p c := by
    rcases hc with rfl | rfl | rfl | ⟨v, k, rfl⟩
    · exact ⟨_, confined_rxi⟩
    · exact ⟨_, confined_txi⟩
    · exact ⟨_, confined_lineShiftOut⟩
    · exact ⟨_, confined_lineArrive v k⟩
  obtain ⟨v, hv⟩ := State.withPath_eq_withUt p s t
  obtain rfl : t = s.withUt v := (hp.writes h).symm.trans hv
  have hhost : c ≠ .host := by rintro rfl; simp at hc
  obtain ⟨_, _, _, _, _, henables, _⟩ := eachElementHasItsWriter s _ c h
  refine ⟨rfl, rfl, rfl, rfl, rfl, rfl, ?gie, ?rxIe⟩
  case gie => exact not_not.1 fun hne => hhost (henables (.inr hne)).1
  case rxIe => exact not_not.1 fun hne => hhost (henables (.inl hne)).1

/-! ## The holds (60_exceptions.md R282, 42_bus_primitives.md R197) -/

theorem held_of_s0 (hl : s.host.step = .s0) : held s = s.ut.tx.full s.cfg.N := by simp [held, hl]

theorem held_of_v0 (hl : s.host.step = .v0) : held s = s.ut.rx.empty := by simp [held, hl]

/-- HOST is held at no other label. -/
theorem label_of_held (hh : held s = true) :
    s.host.step = .s0 ∨ s.host.step = .v0 ∨ s.host.step ∈ busHolds := by
  unfold held at hh
  split at hh <;> simp_all [busHolds]

/-- A held micro-step changes nothing. -/
theorem perform_host_held (hh : held s = true) : perform .host s = .next s :=
  perform_not_enabled (by simp [enabled, hh])

/-- The TX buffer's fullness is changed only by HOST and TXI, the writers of its indices (10_state.md R26). -/
theorem perform_tx_full (hhost : c ≠ .host) (htxi : c ≠ .txi) (h : perform c s = .next t) :
    t.ut.tx.full t.cfg.N = s.ut.tx.full s.cfg.N := by
  obtain ⟨_, _, hwrite, htake, _⟩ := eachElementHasItsWriter s t c h
  have hhead : t.ut.tx.head = s.ut.tx.head := not_not.1 fun hne => hhost (hwrite (.inl hne))
  have htail : t.ut.tx.tail = s.ut.tx.tail := not_not.1 fun hne => htxi (htake hne)
  rw [CircBuf.full, CircBuf.full, hhead, htail, (perform_grows h).cfg]

/-- The RX buffer's emptiness is changed only by HOST and RXI, the writers of its indices (10_state.md R26). -/
theorem perform_rx_empty (hhost : c ≠ .host) (hrxi : c ≠ .rxi) (h : perform c s = .next t) :
    t.ut.rx.empty = s.ut.rx.empty := by
  obtain ⟨hwrite, htake, _⟩ := eachElementHasItsWriter s t c h
  have hhead : t.ut.rx.head = s.ut.rx.head := not_not.1 fun hne => hrxi (hwrite (.inl hne))
  have htail : t.ut.rx.tail = s.ut.rx.tail := not_not.1 fun hne => hhost (htake hne)
  rw [CircBuf.empty, CircBuf.empty, hhead, htail]

/-- Settles O53: HOST stays at its label (`perform_held`), and at each label the condition it waits for is changed by one
agent alone. -/
theorem holdsAreLiftedOnlyByTheirAgent : Obligations.HoldsAreLiftedOnlyByTheirAgent := by
  rintro s t c ⟨hop, hh⟩ h
  have hheld : c = .host → t = s := by
    rintro rfl
    exact Host.Outcome.next.inj (h.symm.trans (perform_host_held hh))
  refine ⟨hheld, fun hlifted => ?_⟩
  have hsame : t.host = s.host := perform_held hop hh h
  have hfree : held t ≠ held s := fun heq => hlifted ⟨hsame ▸ hop, heq.trans hh⟩
  have hhost : c ≠ .host := fun hc => hfree (by rw [hheld hc])
  rcases label_of_held hh with hl | hl | hl
  · refine .inl ⟨hl, not_not.1 fun htxi => hfree ?_⟩
    rw [held_of_s0 hl, held_of_s0 (hsame ▸ hl), perform_tx_full hhost htxi h]
  · refine .inr (.inl ⟨hl, not_not.1 fun hrxi => hfree ?_⟩)
    rw [held_of_v0 hl, held_of_v0 (hsame ▸ hl), perform_rx_empty hhost hrxi h]
  · obtain ⟨_, _, _, _, hbm | ⟨st, v, hc, _⟩⟩ := perform_other hop hhost h
    · refine absurd ?_ hfree
      rw [held_of_busHold hl, held_of_busHold (hsame ▸ hl), hbm]
    · exact .inr (.inr ⟨hl, st, v, hc⟩)

end Sys2Proof.Machine
end

section
/-! SUPPORT. Reset and hazards (spec/70_reset_and_hazards.md R302, R312): before the first issue no agent has a step, and
bytes queued in the TX buffer are never left with TXI disabled. -/

namespace Sys2Proof.Machine

variable {s t : State} {c : Choice}

/-! ## Before the first issue (70_reset_and_hazards.md R302) -/

/-- Settles O40: each agent's step needs an element that reset leaves at the other value, and a choice that is not
enabled does nothing. -/
theorem resetIsStableUntilIssue : Obligations.ResetIsStableUntilIssue := by
  intro s c hrxIe htxIe hinited hready hpending hop hc
  have hdisabled : enabled c s = false := by
    cases c with
    | issue w => exact absurd rfl (hc w)
    | host => simp [enabled, hop]
    | rxi => exact Bool.eq_false_iff.2 (by simp [enabled_rxi_iff, hrxIe])
    | txi => exact Bool.eq_false_iff.2 (by simp [enabled_txi_iff, htxIe])
    | lineArrive v keepNew => exact Bool.eq_false_iff.2 (by simp [enabled_lineArrive_iff, hinited])
    | lineShiftOut => exact Bool.eq_false_iff.2 (by simp [enabled_lineShiftOut_iff, hready])
    | busComplete st v => simp [enabled, hpending]
  exact ⟨hdisabled, perform_not_enabled hdisabled⟩

/-! ## The two writers of `tx_ie` (70_reset_and_hazards.md R312) -/

/-- With HOST not at S3, bytes queued have `tx_ie` set. -/
theorem QueuedEnabled.txIe (hq : QueuedEnabled s) (hl : s.host.op = none ∨ s.host.step ≠ .s3)
    (he : s.ut.tx.empty = false) : s.ut.txIe = true := by
  rcases hq he with hie | ⟨hop, hs3⟩
  · exact hie
  · rcases hl with hnone | hne
    · simp [hnone] at hop
    · exact absurd hs3 hne

/-- A step taken with HOST not at S3 that queues no byte and does not clear `tx_ie`. -/
theorem QueuedEnabled.of_txIe_kept (hq : QueuedEnabled s) (hl : s.host.op = none ∨ s.host.step ≠ .s3)
    (htx : t.ut.tx.empty = s.ut.tx.empty) (hie : t.ut.txIe = s.ut.txIe) : QueuedEnabled t :=
  fun he => .inl (hie.trans (hq.txIe hl (htx ▸ he)))

/-- A step that leaves HOST where it is, queues no byte and does not write `tx_ie`. -/
theorem QueuedEnabled.of_host_unmoved (hq : QueuedEnabled s) (hhost : t.host = s.host)
    (htx : t.ut.tx.empty = false → s.ut.tx.empty = false) (hie : t.ut.txIe = s.ut.txIe) : QueuedEnabled t := by
  intro he
  rw [hhost, hie]
  exact hq (htx he)

/-- HOST queues a byte only by going to S3, leaves S3 only by setting `tx_ie`, and clears `tx_ie` only in `UT_INIT`
(40_serial_transport.md R120, R122). -/
theorem SerialMove.keeps_queuedEnabled (hinit : ∀ r, s.host.op ≠ some (.utInit r)) (hq : QueuedEnabled s)
    (h : SerialMove s t) : QueuedEnabled t := by
  cases h with
  | same hs =>
    have htx : t.ut.tx = s.ut.tx := by rw [hs.ut]
    rcases hs.txIe with ⟨hie, hl⟩ | hset | ⟨r, hop⟩
    · exact hq.of_txIe_kept (hl.imp_right fun hn hs3 => hn (by simp [hs3, pendingLabels])) (by rw [htx]) hie
    · exact fun _ => .inl hset
    · exact absurd hop (hinit r)
  | refl e => exact e ▸ hq
  | store _ hl _ _ tx hs e =>
    obtain ⟨hhead, htail⟩ := CircBuf.store_indices hs
    subst e
    exact hq.of_txIe_kept (.inr (by simp [hl])) (by simp [CircBuf.empty, hhead, htail]) rfl
  | publish hop _ e => subst e; exact fun _ => .inr ⟨hop, rfl⟩
  | room _ hl _ e | byte _ hl _ e | fetch _ hl _ _ e => subst e; exact hq.of_txIe_kept (.inr (by simp [hl])) rfl rfl
  | release _ hl _ hut => exact hq.of_txIe_kept (.inr (by simp [hl])) (by rw [hut]) (by rw [hut])

/-- TXI clears `tx_ie` only when it finds the TX buffer empty (41_serial_handlers_and_line.md R161). -/
theorem txiBody_keeps_queuedEnabled (hq : QueuedEnabled s) (h : txiBody s = .next t) : QueuedEnabled t := by
  rcases txiBody_next h with ⟨hempty, rfl⟩ | ⟨he, d, _, rfl⟩
  · exact fun he => absurd (hempty.symm.trans he) (by decide)
  · exact hq.of_host_unmoved rfl (fun _ => he) rfl

theorem rxiBody_keeps_queuedEnabled (hq : QueuedEnabled s) (h : rxiBody s = .next t) : QueuedEnabled t := by
  rcases rxiBody_next h with ⟨_, rfl⟩ | ⟨_, rx, _, rfl⟩ <;> exact hq.of_host_unmoved rfl id rfl

theorem lineArrive_keeps_queuedEnabled (hq : QueuedEnabled s) (v : Byte) (keepNew : Bool) :
    QueuedEnabled (lineArrive v keepNew s) := by
  cases hr : s.ut.rxReady with
  | false => rw [lineArrive_free hr]; exact hq.of_host_unmoved rfl id rfl
  | true => rw [lineArrive_overrun hr]; exact hq.of_host_unmoved rfl id rfl

/-- The step of any agent but one of a `UT_INIT` in flight. -/
theorem perform_keeps_queuedEnabled (hinit : ∀ r, s.host.op ≠ some (.utInit r)) (hq : QueuedEnabled s)
    (h : perform c s = .next t) : QueuedEnabled t := by
  rcases perform_next h with ⟨_, rfl⟩ | ⟨_, ⟨w, _, h⟩ | ⟨_, h⟩ | ⟨_, h⟩ | ⟨_, h⟩ | ⟨v, k, _, rfl⟩ |
    ⟨_, rfl⟩ | ⟨st, v, _, rfl⟩⟩
  · exact hq
  · rcases issueWord_next h with ⟨_, rfl⟩ | ⟨hop, i, _, h⟩ | ⟨hop, _, rfl⟩
    · exact hq
    · exact (exec_move i (.inl hop) h).keeps_queuedEnabled hinit hq
    · exact hq.of_txIe_kept (.inl hop) rfl rfl
  · rcases hostMicroStep_next h with ⟨_, rfl⟩ | ⟨i, hop, h⟩
    · exact hq
    · exact (exec_move i (.inr hop) h).keeps_queuedEnabled hinit hq
  · exact rxiBody_keeps_queuedEnabled hq h
  · exact txiBody_keeps_queuedEnabled hq h
  · exact lineArrive_keeps_queuedEnabled hq v k
  · exact hq.of_host_unmoved rfl id rfl
  · exact hq.of_host_unmoved (busComplete_host st v s) (by simp [busComplete_ut]) (by rw [busComplete_ut])

/-- Settles O56: the property is `QueuedEnabled`, which every step keeps while no `UT_INIT` is in flight, whether the
buffers are sound or not. -/
theorem queuedBytesKeepTransmitEnabled : Obligations.QueuedBytesKeepTransmitEnabled :=
  fun _ _ _ _ h hinit hq => perform_keeps_queuedEnabled hinit hq h

end Sys2Proof.Machine
end
